-- ==== Sys2Proof/Word.lean ====
section
/-! DEFINITION. The word types of the SPIFLASH block (spec/00_scope.md rule R10: every value is unsigned, bytes are
8 bits; spec/30_encoding.md rules R95, R98, R100 for the widths of operands). -/

namespace Sys2Proof

/-- A byte: the only unit that is ever moved (spec/20_memory.md rule R67). -/
abbrev Byte := BitVec 8

/-- A flash address, or a physical sector number in an engine request (rules R65, R95, R98). -/
abbrev FlashAddr := BitVec 24

/-- A host physical address (rule R38). -/
abbrev HostAddr := BitVec 32

/-- The logical block address of a host command (rule R39). -/
abbrev Lba := BitVec 64

/-- The sector count of a host command (rule R39). -/
abbrev SectorCount := BitVec 16

end Sys2Proof
end

