-- ==== Sys2Proof/Config.lean ====
section
/-! DEFINITION. The parameters of spec/00_scope.md rule R8, the constraints spec/93_implementation_defined.md item U15
puts on them, their values at reset, and the free values of the model (rule R11, `draw`).

The parameters are plain data held in the state (log 1): a statement about every state is then a statement about every
value of every parameter, and a statement that rests on one value names it as a premise, as rule R8 asks. -/

namespace Sys2Proof

/-- Where a chipset configuration register lies: bus/device/function, offset, width in bits (rules R29, R30). DESIGN
CHOICE (log 31): the spec gives the first two no width (N4), so they are natural numbers, without a bound. -/
structure ChipRegPlace where
  bdf    : Nat
  offset : Nat
  width  : Nat
  deriving DecidableEq, Repr

/-- The named parameters of rule R8, and four the platform fixes (rules R33, R38, R75): where STAGE lies, where host
memory exists, what of it is normally addressable, and a table of exceptions to the sector map (rule R221 asks that the
whole map be replaceable). -/
structure Config where
  /-- CFG_SPIBASE and its mask (R29, D39). -/
  spiBaseReg  : ChipRegPlace
  spiBaseMask : BitVec 32
  /-- REG_OUT, REG_IN, REG_CTRL, REG_STAT, REG_CS, REG_ERR: byte offsets from the base (D2). DESIGN CHOICE (log 37): rule
  R8 gives an offset no width; the model holds each in 8 bits. -/
  regOut  : Byte
  regIn   : Byte
  regCtrl : Byte
  regStat : Byte
  regCs   : Byte
  regErr  : Byte
  /-- ST_TX_DONE, ST_RX_READY (D3). -/
  stTxDone  : Byte
  stRxReady : Byte
  /-- CS_ASSERT, CS_DEASSERT (D4), ERR_CLEAR (D27). -/
  csAssert   : Byte
  csDeassert : Byte
  errClear   : Byte
  /-- CTRL_XFER, CTRL_IDLE (D10). -/
  ctrlXfer : Byte
  ctrlIdle : Byte
  /-- CFG_WP, WP_MASK, WP_OPEN, WP_CLOSED (R30, D10). -/
  wpReg    : ChipRegPlace
  wpMask   : BitVec 32
  wpOpen   : BitVec 32
  wpClosed : BitVec 32
  /-- The six flash command bytes (R96, D6). -/
  cmdRead : Byte
  cmdPp   : Byte
  cmdSe   : Byte
  cmdWren : Byte
  cmdWrdi : Byte
  cmdRdsr : Byte
  /-- SR_WIP, SR_WEL (R157, D6), ERASED_BYTE (R154, D7), FLASH_SIZE (D12). -/
  srWip      : Byte
  srWel      : Byte
  erasedByte : Byte
  flashSize  : Nat
  /-- RESERVED_SLOT (D18) and the exceptions to the formula of rule R221: pairs (logical, physical). -/
  reservedSlot : Nat
  mapTable     : List (Nat × Nat)
  /-- SCRATCH_ALIGN (D25). DESIGN CHOICE (log 37): a natural number, since rule R8 gives it no width. -/
  scratchAlign : Nat
  /-- The five host command codes (R100, D19), 8 bits as OP.command is (R39). -/
  hcReset       : Byte
  hcRead        : Byte
  hcWrite       : Byte
  hcVerify      : Byte
  hcFormat      : Byte
  /-- The two status codes (R39, D19). DESIGN CHOICE (log 37): 8 bits each, since rules R8, R39 and R100 give them no
  width. -/
  stSuccess     : Byte
  stParamError  : Byte
  /-- BOOT_PRIORITY (R222). DESIGN CHOICE (log 37): a natural number, since rule R8 gives it no width. -/
  bootPriority : Nat
  /-- The address of STAGE in host memory (R33: "an address the spec does not fix"). -/
  stage : HostAddr
  /-- Where host memory exists: regions (base, size) (R38, R75). -/
  ram : List (Nat × Nat)
  /-- "The firmware's normal addressable window": regions (base, size) that direct accesses reach (R33, R178, R310). -/
  window : List (Nat × Nat)
  deriving DecidableEq, Repr

/-- The logical sector the formula of rule R221 sends to the physical sector `p`, for a `p` that is not reserved (rule
R234: `a = 7 * (p div 8) + (p mod 8) - 1` where RESERVED_SLOT is 0). -/
def Config.formulaSource (reserved p : Nat) : Nat := 7 * (p / 8) + (p % 8 - (if reserved < p % 8 then 1 else 0))

/-- The map with its exceptions is what rules R221 and R234 ask of it on the 15104 logical sectors of the drive: no
exception names a reserved sector, no two agree, and none takes the place of a sector the formula still gives out.

DESIGN CHOICE (log 23): rule R234 says "a bijection onto physical sectors excluding the reserved sector of each group of
8". This asks for injective and never reserved. It does not ask that every other sector of the chip be reached, which 15104
logical sectors cannot do on a chip of 2^24 bytes, and rule R221's map with a constant offset does not do. -/
def Config.mapOk (c : Config) : Bool :=
  decide (c.mapTable.map Prod.fst).Nodup && decide (c.mapTable.map Prod.snd).Nodup
  && c.mapTable.all fun e =>
    decide (e.1 < 15104) && e.2 % 8 != c.reservedSlot
      && (decide (15104 ≤ Config.formulaSource c.reservedSlot e.2)
        || (c.mapTable.map Prod.fst).contains (Config.formulaSource c.reservedSlot e.2))

/-- The constraints item U15 of spec/93_implementation_defined.md asks a model to carry as hypotheses on the
parameters, with rule R303's (the mask of CFG_SPIBASE lies in the low 16 bits, both masks inside their registers, which
are at most 32 bits wide), RESERVED_SLOT in 0 .. 7 (R221), and rule R234's on the map. That ST_TX_DONE and ST_RX_READY
are not 0 it has in a stronger form: each has a bit the other lacks, without which no byte shows the two flags as rule R26
has it (DEDUCED, log 15). -/
def Config.ok (c : Config) : Bool :=
  decide ([c.cmdRead, c.cmdPp, c.cmdSe, c.cmdWren, c.cmdWrdi, c.cmdRdsr].Nodup)
  && decide ([c.hcReset, c.hcRead, c.hcWrite, c.hcVerify, c.hcFormat].Nodup)
  && c.stSuccess != c.stParamError
  && (c.stTxDone &&& ~~~ c.stRxReady) != 0 && (c.stRxReady &&& ~~~ c.stTxDone) != 0
  && c.srWip != 0 && (c.srWip &&& c.srWel) == 0
  && c.csAssert != c.csDeassert
  && c.wpOpen != c.wpClosed
  && (c.wpOpen &&& ~~~ c.wpMask) == 0 && (c.wpClosed &&& ~~~ c.wpMask) == 0
  && decide ([c.regOut, c.regIn, c.regCtrl, c.regStat, c.regCs, c.regErr].Nodup)
  && decide (c.flashSize % 4096 = 0) && decide (4096 ≤ c.flashSize) && decide (c.flashSize ≤ 2 ^ 24)
  && decide (c.spiBaseMask.toNat < 2 ^ 16)
  && decide (c.spiBaseReg.width ≤ 32) && decide (c.spiBaseMask.toNat < 2 ^ c.spiBaseReg.width)
  && decide (c.wpReg.width ≤ 32) && decide (c.wpMask.toNat < 2 ^ c.wpReg.width)
  && decide (c.reservedSlot < 8) && c.mapOk

/-- The parameters at reset: the defaults of rule R8; for the open ones the invented values of vectors V37 and V70 of
spec/95_test_vectors.md or a named value (log 2). -/
def Config.default : Config where
  spiBaseReg := { bdf := 0x0038, offset := 0x0040, width := 32 }
  spiBaseMask := 0x0000FFF0
  regOut := 0
  regIn := 1
  regCtrl := 2
  regStat := 3
  regCs := 4
  regErr := 5
  stTxDone := 0x10
  stRxReady := 0x20
  csAssert := 0x00
  csDeassert := 0x01
  errClear := 0x00
  ctrlXfer := 0x01
  ctrlIdle := 0x00
  wpReg := { bdf := 0x0038, offset := 0x0044, width := 8 }
  wpMask := 0x03
  wpOpen := 0x01
  wpClosed := 0x02
  cmdRead := 0x03
  cmdPp := 0x02
  cmdSe := 0x20
  cmdWren := 0x06
  cmdWrdi := 0x04
  cmdRdsr := 0x05
  srWip := 0x01
  srWel := 0x02
  erasedByte := 0xFF
  flashSize := 2 ^ 24
  reservedSlot := 0
  mapTable := []
  scratchAlign := 16
  hcReset := 0x00
  hcRead := 0x02
  hcWrite := 0x03
  hcVerify := 0x04
  hcFormat := 0x05
  stSuccess := 0x00
  stParamError := 0x01
  bootPriority := 0
  stage := 0x00070000
  ram := [(0, 2 ^ 32)]
  window := [(0, 2 ^ 32)]

/-- A free value: what no rule constrains (`draw(bits8)` of rule R11). It has no body, so nothing can be proved of it;
the n-th drawing of the run is `Config.freeByte n` (log 8). -/
opaque Config.freeByte : Nat → Byte

/-- A free natural number, for state the spec counts in naturals (rules R40, R271). -/
opaque Config.freeNat : Nat → Nat

end Sys2Proof
end

