-- ==== Sys2Proof/Syntax.lean ====
section
/-! DEFINITION. The 28 operations of spec/opcode_table.json, one constructor each, and the forms in which a request for
one reaches the block (spec/30_encoding.md rules R90 to R100). -/

namespace Sys2Proof

/-- An operation of one of the four layers (rule R90: "instruction" means an operation). -/
inductive Instr where
  -- L0, the bus primitives (rule R92)
  | csEn
  | csDis
  | wrByte (b : Byte)
  | rdByte
  | wrAddr24 (a : FlashAddr)
  | cmd1 (c : Byte)
  -- L1, the wire frames (rules R94, R96); `m` bytes are clocked out of the device, a number of 32 bits (log 29)
  | wren
  | wrdi
  | read (a : FlashAddr) (m : BitVec 32)
  | rdsr (m : BitVec 32)
  | se (a : FlashAddr)
  | pp (a : FlashAddr) (d : List Byte)
  -- L2, the engine operations (rule R98)
  | writableEnter
  | writableExit
  | waitWip
  | readByte (a : FlashAddr)
  | readBurst (a : FlashAddr)
  | readSector (sector : FlashAddr) (dest : HostAddr)
  | eraseBlock (a : FlashAddr)
  | writeData (a : FlashAddr) (p : HostAddr) (n : BitVec 9)
  | writeSector (sector : FlashAddr) (src : HostAddr)
  -- L3, the host commands (rule R100) and the entry point SETUP
  | diskReset (lba : Lba) (count : SectorCount) (buf : HostAddr)
  | diskRead (lba : Lba) (count : SectorCount) (buf : HostAddr)
  | diskWrite (lba : Lba) (count : SectorCount) (buf : HostAddr)
  | diskVerify (lba : Lba) (count : SectorCount) (buf : HostAddr)
  | diskFormat (lba : Lba) (count : SectorCount) (buf : HostAddr)
  | diskUnknown (command : Byte) (lba : Lba) (count : SectorCount) (buf : HostAddr)
  | setup
  deriving DecidableEq, Repr

/-- An access to a port that is wider than a byte: the "word/dword variants" of rule R62. -/
inductive WideAccess where
  | readWord
  | readDword
  | writeWord (v : BitVec 16)
  | writeDword (v : BitVec 32)
  deriving DecidableEq, Repr

/-- The ports of the shift engine that can be read: REG_STAT, REG_IN and REG_CTRL (rules R21, R23, R26). REG_OUT and
REG_CS cannot (rules R21, R24, R101), and no agent reads REG_ERR (rules R25, R42). -/
inductive ReadablePort where
  | stat
  | input
  | control
  deriving DecidableEq, Repr

/-- A request as it reaches the block, in the format of its encoding space (rule R90). -/
inductive Request where
  /-- L0: writes (offset, value) to the engine's byte-wide ports (rule R91); a composite is its expansion (R107). -/
  | bus (writes : List (Byte × Byte))
  /-- L0: one byte-wide read of the port at an offset (rules R26, R72, R101, R126). It is no row of the table. -/
  | busRead (off : Byte)
  /-- L0: one access to the port at an offset that is wider than a byte. No primitive is one (rules R62, R101). -/
  | busWide (off : Byte) (access : WideAccess)
  /-- L1: the host's bytes of one frame and how many bytes the device then sends (rules R93, R94); the frame ends when
  chip-select is deasserted, so its length is not in its bytes (R97). DESIGN CHOICE (log 29): the number of
  bytes read has 32 bits and may be 0. -/
  | frame (host : List Byte) (reads : BitVec 32)
  /-- L2: the request record of rule R98. -/
  | engine (sel : BitVec 4) (a : FlashAddr) (p : HostAddr) (n : BitVec 9)
  /-- L3: the OP record of rules R39, R100. -/
  | disk (command : Byte) (lba : Lba) (count : SectorCount) (buf : HostAddr)
  /-- L3: the entry point SETUP, which has no code (rule R100). -/
  | entry
  deriving DecidableEq, Repr

end Sys2Proof
end

