-- ==== Sys2Proof/WellFormed.lean ====
section
/-! DEFINITION. Which operations are written in the form spec/30_encoding.md gives them. -/

namespace Sys2Proof

/-- PP's data phase is at most 256 bytes (rule R94, format W3W; rule R144 refuses the 257th). -/
def Instr.pageFits : Instr → Bool
  | .pp _ d => decide (d.length ≤ 256)
  | _ => true

/-- DISK_UNKNOWN stands for every command byte that no other row has (rules R104, R108). -/
def Instr.commandIsUnknown (c : Config) : Instr → Bool
  | .diskUnknown k _ _ _ => !([c.hcReset, c.hcRead, c.hcWrite, c.hcVerify, c.hcFormat].contains k)
  | _ => true

/-- The checks together. -/
def Instr.wellFormed (c : Config) (i : Instr) : Bool := i.pageFits && i.commandIsUnknown c

end Sys2Proof
end

