-- ==== Sys2Proof/Decode.lean ====
section
/-! DEFINITION. From a request to the operation it selects, total and rejecting by name, and back (spec/30_encoding.md
rules R90 to R107). The codes are the parameters of rule R8. -/

namespace Sys2Proof

/-- Why a request selects no operation. -/
inductive DecodeError where
  /-- L0: a write to REG_CS of a value that neither selects nor deselects (rules R24, R101). -/
  | badChipSelectValue
  /-- L0: a write to REG_STAT, which is read only (rules R26, R101). -/
  | statusIsReadOnly
  /-- L0: a read of REG_OUT or REG_CS, which are write only (rules R21, R24, R101). -/
  | writeOnlyPort
  /-- L0: a read of REG_ERR, to which rule R42 gives SETUP's write and no read (rule R25; "never read", D27; log 32). -/
  | neverReadPort
  /-- L0: an access that is wider than a byte (rules R62, R101). -/
  | notByteWide
  /-- L0: a write to REG_CTRL or REG_ERR, which is no bus primitive (rule R101). -/
  | notABusPrimitive
  /-- L0: an offset that is none of the six registers (rules R62, R91), or a series of writes that is neither of the two
  composites, besides which "there are no others" (rule R107). -/
  | noSuchBusOperation
  /-- L1: a first byte that is none of the six commands, or no byte at all (rules R102, R156). -/
  | unknownWireCommand
  /-- L1: a known command with the wrong shape (rules R94, R102). -/
  | malformedFrame
  /-- L1: a page program of more than 256 data bytes (rules R94, R144). -/
  | pageTooLong
  /-- L2: one of the selectors 0x9 to 0xF (rule R103). -/
  | badSelector
  deriving DecidableEq, Repr

/-- What decoding a request answers: an operation of the table, one read of a port of the shift engine, or neither. -/
inductive Decoded where
  | instr (i : Instr)
  | portRead (p : ReadablePort)
  | reject (e : DecodeError)
  deriving DecidableEq, Repr

/-- The answer as an option. -/
def Decoded.toOption : Decoded → Option Instr
  | .instr i => some i
  | .portRead _ => none
  | .reject _ => none

/-! ## The address bytes (rules R65, R95) -/

/-- A[23:16], the byte sent first. -/
def addrHigh (a : FlashAddr) : Byte := a.extractLsb' 16 8

/-- A[15:8]. -/
def addrMid (a : FlashAddr) : Byte := a.extractLsb' 8 8

/-- A[7:0], the byte sent last. -/
def addrLow (a : FlashAddr) : Byte := a.extractLsb' 0 8

/-- A = A2 ++ A1 ++ A0 (rule R95). -/
def addrOf (a2 a1 a0 : Byte) : FlashAddr := a2 ++ a1 ++ a0

/-! ## Decoding, one function a space -/

/-- One write to an engine port (rules R91, R92, R101). -/
def decodeWrite (c : Config) (off v : Byte) : Decoded :=
  if off = c.regCs then
    if v = c.csAssert then .instr .csEn
    else if v = c.csDeassert then .instr .csDis
    else .reject .badChipSelectValue
  else if off = c.regOut then .instr (.wrByte v)
  else if off = c.regIn then .instr .rdByte
  else if off = c.regStat then .reject .statusIsReadOnly
  else if off = c.regCtrl ∨ off = c.regErr then .reject .notABusPrimitive
  else .reject .noSuchBusOperation

/-- Three writes: the expansions of WR_ADDR24 and CMD1 (rule R107). -/
def decodeThree (c : Config) (w0 w1 w2 : Byte × Byte) : Decoded :=
  if w0.1 = c.regOut ∧ w1.1 = c.regOut ∧ w2.1 = c.regOut then .instr (.wrAddr24 (addrOf w0.2 w1.2 w2.2))
  else if w0 = (c.regCs, c.csAssert) ∧ w1.1 = c.regOut ∧ w2 = (c.regCs, c.csDeassert) then .instr (.cmd1 w1.2)
  else .reject .noSuchBusOperation

/-- L0 (rules R91, R92). -/
def decodeBus (c : Config) : List (Byte × Byte) → Decoded
  | [w] => decodeWrite c w.1 w.2
  | [w0, w1, w2] => decodeThree c w0 w1 w2
  | _ => .reject .noSuchBusOperation

/-- One read of an engine port (rules R21, R23 to R26, R42, R101; log 32). -/
def decodePortRead (c : Config) (off : Byte) : Decoded :=
  if off = c.regOut ∨ off = c.regCs then .reject .writeOnlyPort
  else if off = c.regStat then .portRead .stat
  else if off = c.regIn then .portRead .input
  else if off = c.regCtrl then .portRead .control
  else if off = c.regErr then .reject .neverReadPort
  else .reject .noSuchBusOperation

/-- The rest of a frame after a command byte that takes no address: format W0 (rule R94). -/
def decodeBare (i : Instr) (rest : List Byte) (reads : BitVec 32) : Decoded :=
  if rest = [] ∧ reads = 0 then .instr i else .reject .malformedFrame

/-- The rest of a READ frame: format W3R. -/
def decodeReadFrame (rest : List Byte) (reads : BitVec 32) : Decoded :=
  match rest with
  | [a2, a1, a0] => .instr (.read (addrOf a2 a1 a0) reads)
  | _ => .reject .malformedFrame

/-- The rest of an RDSR frame: format W1R. -/
def decodeStatusFrame (rest : List Byte) (reads : BitVec 32) : Decoded :=
  match rest with
  | [] => .instr (.rdsr reads)
  | _ => .reject .malformedFrame

/-- The rest of an SE frame: format W3. -/
def decodeEraseFrame (rest : List Byte) (reads : BitVec 32) : Decoded :=
  match rest with
  | [a2, a1, a0] => if reads = 0 then .instr (.se (addrOf a2 a1 a0)) else .reject .malformedFrame
  | _ => .reject .malformedFrame

/-- The rest of a PP frame: format W3W. -/
def decodeProgramFrame (rest : List Byte) (reads : BitVec 32) : Decoded :=
  match rest with
  | a2 :: a1 :: a0 :: d =>
    if reads ≠ 0 then .reject .malformedFrame
    else if d.length ≤ 256 then .instr (.pp (addrOf a2 a1 a0) d)
    else .reject .pageTooLong
  | _ => .reject .malformedFrame

/-- L1: the first byte selects the command (rules R93, R94, R96). -/
def decodeFrame (c : Config) (host : List Byte) (reads : BitVec 32) : Decoded :=
  match host with
  | [] => .reject .unknownWireCommand
  | k :: rest =>
    if k = c.cmdWren then decodeBare .wren rest reads
    else if k = c.cmdWrdi then decodeBare .wrdi rest reads
    else if k = c.cmdRead then decodeReadFrame rest reads
    else if k = c.cmdRdsr then decodeStatusFrame rest reads
    else if k = c.cmdSe then decodeEraseFrame rest reads
    else if k = c.cmdPp then decodeProgramFrame rest reads
    else .reject .unknownWireCommand

/-- L2: the selector (rules R98, R103); unused fields are ignored. -/
def decodeEngine (sel : BitVec 4) (a : FlashAddr) (p : HostAddr) (n : BitVec 9) : Decoded :=
  if sel = 0x0 then .instr .writableEnter
  else if sel = 0x1 then .instr .writableExit
  else if sel = 0x2 then .instr .waitWip
  else if sel = 0x3 then .instr (.readByte a)
  else if sel = 0x4 then .instr (.readBurst a)
  else if sel = 0x5 then .instr (.readSector a p)
  else if sel = 0x6 then .instr (.eraseBlock a)
  else if sel = 0x7 then .instr (.writeData a p n)
  else if sel = 0x8 then .instr (.writeSector a p)
  else .reject .badSelector

/-- L3: the command byte alone selects (rules R100, R104, R223). -/
def decodeDisk (c : Config) (k : Byte) (lba : Lba) (count : SectorCount) (buf : HostAddr) : Decoded :=
  if k = c.hcRead then .instr (.diskRead lba count buf)
  else if k = c.hcWrite then .instr (.diskWrite lba count buf)
  else if k = c.hcVerify then .instr (.diskVerify lba count buf)
  else if k = c.hcFormat then .instr (.diskFormat lba count buf)
  else if k = c.hcReset then .instr (.diskReset lba count buf)
  else .instr (.diskUnknown k lba count buf)

/-- The operation a request selects. -/
def decode (c : Config) : Request → Decoded
  | .bus ws => decodeBus c ws
  | .busRead off => decodePortRead c off
  | .busWide _ _ => .reject .notByteWide
  | .frame host reads => decodeFrame c host reads
  | .engine sel a p n => decodeEngine sel a p n
  | .disk k lba count buf => decodeDisk c k lba count buf
  | .entry => .instr .setup

/-! ## Encoding -/

/-- The request for an operation, from rules R92, R94, R96, R98, R100 and R107; unused fields are 0, and the read
strobe writes 0x00 (rule R126). -/
def encode (c : Config) : Instr → Request
  | .csEn => .bus [(c.regCs, c.csAssert)]
  | .csDis => .bus [(c.regCs, c.csDeassert)]
  | .wrByte b => .bus [(c.regOut, b)]
  | .rdByte => .bus [(c.regIn, 0)]
  | .wrAddr24 a => .bus [(c.regOut, addrHigh a), (c.regOut, addrMid a), (c.regOut, addrLow a)]
  | .cmd1 k => .bus [(c.regCs, c.csAssert), (c.regOut, k), (c.regCs, c.csDeassert)]
  | .wren => .frame [c.cmdWren] 0
  | .wrdi => .frame [c.cmdWrdi] 0
  | .read a m => .frame [c.cmdRead, addrHigh a, addrMid a, addrLow a] m
  | .rdsr m => .frame [c.cmdRdsr] m
  | .se a => .frame [c.cmdSe, addrHigh a, addrMid a, addrLow a] 0
  | .pp a d => .frame (c.cmdPp :: addrHigh a :: addrMid a :: addrLow a :: d) 0
  | .writableEnter => .engine 0x0 0 0 0
  | .writableExit => .engine 0x1 0 0 0
  | .waitWip => .engine 0x2 0 0 0
  | .readByte a => .engine 0x3 a 0 0
  | .readBurst a => .engine 0x4 a 0 0
  | .readSector sector dest => .engine 0x5 sector dest 0
  | .eraseBlock a => .engine 0x6 a 0 0
  | .writeData a p n => .engine 0x7 a p n
  | .writeSector sector src => .engine 0x8 sector src 0
  | .diskReset lba count buf => .disk c.hcReset lba count buf
  | .diskRead lba count buf => .disk c.hcRead lba count buf
  | .diskWrite lba count buf => .disk c.hcWrite lba count buf
  | .diskVerify lba count buf => .disk c.hcVerify lba count buf
  | .diskFormat lba count buf => .disk c.hcFormat lba count buf
  | .diskUnknown k lba count buf => .disk k lba count buf
  | .setup => .entry

/-! ## The numbers of spec/opcode_table.json

A row's number is its selecting byte alone: the byte written to REG_CS for L0, the command byte for L1, the selector
for L2, OP.command for L3 (rule R108). The four spaces reuse the same numbers (0x00 is CS_EN, WRITABLE_ENTER and
DISK_RESET), and the number does not say which space it is of, so it is read as the first row of the table, in the
table's order, that it fits (log 16). -/

/-- The requests a table number may stand for, in the table's order: L0, then L1 (bare, then with three address bytes
of zeros), then L2, then L3. -/
def tableCandidates (c : Config) (w : Nat) : List Request :=
  let b : Byte := BitVec.ofNat 8 w
  [.bus [(c.regCs, b)], .frame [b] 0, .frame [b, 0, 0, 0] 0]
    ++ (if w < 16 then [.engine (BitVec.ofNat 4 w) 0 0 0] else [])
    ++ [.disk b 0 0 0]

/-- The first candidate that decodes. -/
def firstDecoded (c : Config) : List Request → Option Request
  | [] => none
  | r :: rest =>
    match decode c r with
    | .instr _ => some r
    | .portRead _ => firstDecoded c rest
    | .reject _ => firstDecoded c rest

/-- The request a table number stands for; a number wider than a byte fits no row. -/
def tableRequest (c : Config) (nbits w : Nat) : Option Request :=
  if nbits ≤ 8 ∧ w < 256 then firstDecoded c (tableCandidates c w) else none

/-- The operation the decoder reads from a number of the opcode table, under the parameters of reset. -/
def decodeTableWord (nbits w : Nat) : Option Instr :=
  (tableRequest Config.default nbits w).bind fun r => (decode Config.default r).toOption

end Sys2Proof
end

