-- ==== Sys2Proof/Machine/State.lean ====
section
/-! DEFINITION. The state of the SPIFLASH block (spec/10_state.md rules R20 to R45), the reasons a step stops, and the
machine right after reset (rule R43). -/

namespace Sys2Proof.Machine

/-! ## Why a step stops -/

/-- The machine stops with a fault: never. The block has no trap (rule R244), its abnormal ends are X1 to X6 (rule
R241), and the last of them, also for an address that does not exist (rule R38), is a refusal. -/
inductive Fault where
  deriving DecidableEq, Repr

/-- The spec's `refuse(reason)`: the situation has no meaning and the run may not go on (rules R11, R251). Every one
of them is safe: the model stops where the spec declines to say what the hardware does. -/
inductive Refusal where
  /-- Raised by `exec` for an instruction that has no meaning yet. Safe. -/
  | notModelled (mnemonic : String)
  /-- Raised by `step`: an L0 or L2 request that rules R42, R62, R101, R103 and R107 refuse. Safe. -/
  | undecodable (e : DecodeError)
  /-- Raised by every operation but SETUP while CTX.ready = 0 (rules R134, R170, R220). Safe. -/
  | notReady
  /-- Raised by SETUP when CTX.ready = 1 (rule R222). Safe. -/
  | alreadySetUp
  /-- Raised by SETUP after one that found no scratch buffer (rules R235, R248). Safe. -/
  | setupFailed
  /-- Raised by every operation started before the one in progress has returned (rule R289). Safe. -/
  | sequencerBusy
  /-- Raised by an engine operation or a host transfer started outside the quiescent state (rule R170, D32). Safe. -/
  | notQuiescent
  /-- Raised where CTX.mode, the chipset lock or CTRL is not what the operation needs (rules R131 (a), R171, R172,
  R173, R312). Safe. -/
  | wrongMode
  /-- Raised where CS must be 0 and is 1 (rules R121, R131 (c), R312). Safe. -/
  | chipSelected
  /-- Raised where CS must be 1 and is 0 (rules R122, R131 (b) and (c), R312). Safe. -/
  | chipNotSelected
  /-- Raised by a write to REG_OUT, REG_IN or REG_CS while a byte is being shifted (rule R131 (d)). Safe. -/
  | transferBusy
  /-- Raised by a read transfer while the device is not in phase DATA_OUT (rule R131 (e)). Safe. -/
  | deviceNotSending
  /-- Raised by a write transfer while the device is in phase DATA_OUT (rules R131 (e), R144). Safe. -/
  | deviceSending
  /-- Raised where FL.WIP = 1 and the operation or the frame is not a status read (rules R142, R152, R312). Safe. -/
  | deviceBusy
  /-- Raised by selecting a device whose frame is still open (rule R141). Safe. -/
  | frameOpen
  /-- Raised by an operand that names flash bytes outside the array (rules R143, R179). Safe. -/
  | flashRange
  /-- Raised by the 257th data byte of a page program (rules R144, R150). Safe. -/
  | pageOverflow
  /-- Raised by a program that crosses a 256-byte page (rules R155, R178). Safe. -/
  | pageCross
  /-- Raised by WRITE_DATA with n = 0 (rule R178, D14). Safe. -/
  | emptyWrite
  /-- Raised by a host READ or WRITE beyond the drive (rule R230). Safe. -/
  | diskRange
  /-- Raised by a host buffer that runs past the end of the 32-bit space (rule R232). Safe. -/
  | bufferRange
  /-- Raised by a caller's buffer that overlaps SCRATCH or STAGE, whether or not these have been filled, and by a copy onto
  its own source (rules R32, R33, R44, R64, R176, R202, R310, D37). Safe. -/
  | bufferOverlap
  /-- Raised by every access to HOSTMEM (the copies, the staging of a burst, the bytes of WRITE_DATA, HOST's own stores)
  at an address the platform has no memory at (rule R38). Safe. -/
  | hostUnmapped
  /-- Raised by a direct access outside the normally addressable window (rules R33, R178, R310). Safe. -/
  | outsideWindow
  /-- Raised by HOST's store into SCRATCH or STAGE, to which it has no access (rules R32, R42). Safe. -/
  | hostNoAccess
  /-- Raised by a port access whose address does not fit the 16 bits it has (rules R60, R62, R134, R300). Safe. -/
  | portRange
  /-- Raised by WRITE_SECTOR when there is no scratch buffer; after SETUP there always is (rules R31, R222). Safe. -/
  | noScratch
  deriving DecidableEq, Repr

/-! ## Memory -/

/-- Bytes by address, strictly rising, no byte listed that equals what an unlisted address reads as. -/
abbrev Memory := List Host.Cell

/-- What an address with no entry reads as, in FL.MEM and in HOSTMEM (log 5). -/
def Memory.blank : Byte := 0xFF

/-! ## The groups of rule R20 -/

/-- Which way a byte is being shifted (rules R124, R126). -/
inductive Direction where
  | transmit
  | receive
  deriving DecidableEq, Repr

/-- Group SH (rules R21 to R26). `rxdHeld` says that RXD holds a value of its own: a read transfer has completed since
the last reset; before, what a read of REG_IN answers is free (rules R21, R43, R44; log 3). The last six fields are what a
transfer in progress must remember (rule R128; log 13); `misoFree` fills what is free in the byte the device sends next,
whose bit 7 it has put on MISO already. -/
structure ShiftEngine where
  txd     : Byte
  rxd     : Byte
  shift   : Byte
  bitcnt  : Nat
  busy    : Bool
  txDone  : Bool
  rxReady : Bool
  ctrl    : Byte
  cs      : Bool
  err     : Byte
  rxdHeld : Bool
  dir      : Direction
  sub      : Nat
  mosiByte : Byte
  misoByte : Byte
  misoFree : Byte
  sample   : Byte
  deriving DecidableEq, Repr

/-- Group WIRE (rule R27). -/
structure Wires where
  csn  : Bool
  sck  : Bool
  mosi : Bool
  miso : Bool
  deriving DecidableEq, Repr

/-- What SEQ may be carrying out: an operation of the table, or a wire frame HOST has spelled out that is no well-formed
frame of any of the six commands, which the device ignores (rule R102), or one read of a port of the shift engine (rules
R26, R72, R126). -/
inductive Operation where
  | instr (i : Instr)
  | portRead (p : ReadablePort)
  | rawFrame (host : List Byte) (reads : BitVec 32)
  deriving DecidableEq, Repr

/-- A loop in progress (rule R28): its counter, and the SEQ.pc of its head. -/
structure Loop where
  counter : Nat
  head    : Nat
  deriving DecidableEq, Repr

/-- Group SEQ (rule R28). `op = none` is IDLE; `pc` is SEQ.pc, which counts external actions, stays in a spin and returns
to the head of a loop; `loops` holds the loops in progress, the innermost first. Every micro-program is inlined as rule
R307 allows. The model's own are `pos`, how many micro-actions have been done, by which the model finds the next one (log
12), the SR_WIP bit of the status byte polled (log 15), and the block that is being erased or reprogrammed (rules R208,
R287; log 28). -/
structure Sequencer where
  op        : Option Operation
  pc        : Nat
  pos       : Nat
  byte      : Byte
  stat      : Byte
  word      : BitVec 32
  loops     : List Loop
  wipSeen   : Bool
  openBlock : Option Nat
  deriving DecidableEq, Repr

/-- Group CFG (rules R29, R30): the two chipset registers, each at its width, at most 32 bits (log 31). -/
structure ChipRegs where
  spiBase : BitVec 32
  wp      : BitVec 32
  deriving DecidableEq, Repr

/-- The two modes of rule R260. -/
inductive Mode where
  | isProtected
  | isWritable
  deriving DecidableEq, Repr

/-- Group CTX (rule R31). `aborted` is the model's own: a SETUP of this run has found no scratch buffer (rule R235). -/
structure Context where
  base    : BitVec 16
  ready   : Bool
  mode    : Mode
  scratch : Option HostAddr
  aborted : Bool
  deriving DecidableEq, Repr

/-- Which of SCRATCH and STAGE their owners have filled since the last reset; before, they hold no value (rules R43,
R44). An observation: a caller may not read them before or after (rules R32, R33), so no operation asks for it. -/
structure Filled where
  stage   : Bool
  scratch : Bool
  deriving DecidableEq, Repr

/-- The phases of the frame decoder (rule R36); ADDR(n) is `addr0`, `addr1`, `addr2`. -/
inductive Phase where
  | idle
  | cmd
  | addr0
  | addr1
  | addr2
  | dataOut
  | dataIn
  | done
  | ignore
  deriving DecidableEq, Repr

/-- FL.pending (rule R37). -/
inductive Pending where
  | none
  | erase (block : Nat)
  | program (a : FlashAddr) (d : List Byte)
  deriving DecidableEq, Repr

/-- Group FL (rules R34 to R37). `sentWip` is the model's own: the SR_WIP bit of the status byte last sent (log 15). -/
structure Flash where
  mem     : Memory
  wel     : Bool
  wip     : Bool
  phase   : Phase
  cmd     : Byte
  addr    : FlashAddr
  page    : List Byte
  pageN   : Nat
  nbytes  : Nat
  pending : Pending
  sentWip : Bool
  deriving DecidableEq, Repr

/-- The host's operation record OP (rule R39). DESIGN CHOICE (log 37): `status` is held in 8 bits, since no rule gives
it a width. -/
structure OpRecord where
  command : Byte
  lba     : Lba
  count   : SectorCount
  buf     : HostAddr
  status  : Byte
  deriving DecidableEq, Repr

/-- DRIVE (rule R40). DESIGN CHOICE (log 37): its numbers are natural numbers, since rule R40 gives them no width. -/
structure Drive where
  cylinders  : Nat
  heads      : Nat
  spt        : Nat
  sectorSize : Nat
  sectors    : Nat
  registered : Bool
  deriving DecidableEq, Repr

/-- What an operation hands back to its caller (rules R180, R307): bytes read, `ok`, `fail`, or nothing. -/
inductive Report where
  | none
  | bytes (l : List Byte)
  | ok
  | fail
  deriving DecidableEq, Repr

/-- The external actions of a sequencer step (rule R28), as seen from outside. -/
inductive Event where
  | portOut (port : Nat) (v : Byte)
  | portIn (port : Nat) (v : Byte)
  | cfgRead (place : ChipRegPlace) (v : BitVec 32)
  | cfgWrite (place : ChipRegPlace) (v : BitVec 32)
  | extCopy (dst src n : Nat) (success : Bool)
  | alloc (align size : Nat) (answer : Option HostAddr)
  | registerBoot (priority : Nat)
  deriving DecidableEq, Repr

/-- How far SHIFT and FLASH_INT get before the next action of SEQ: so many steps of SHIFT, then FLASH_INT completes
what is pending or does not (rules R6, R129, R153; log 9). Where `pause` is set, the machine step ends there, between two
actions of SEQ, the next of which is still to be done (rule R28; log 11). -/
structure Turn where
  shiftSteps : Nat
  flashInt   : Bool
  pause      : Bool
  deriving DecidableEq, Repr

/-- What HOST does (rule R6; log 17, 28, 34). -/
inductive Input where
  /-- HOST asks for an operation. -/
  | request (r : Request)
  /-- HOST stores bytes of its own (rule R42 gives it the HOSTMEM buffers). -/
  | store (a : Nat) (d : List Byte)
  /-- A hardware reset (rule R271). -/
  | reset
  deriving DecidableEq, Repr

/-- What reaches the block from outside, and when the two agents that act on their own act. `turns` is used up first,
then `after` for ever (which never pauses SEQ); `copies` answers ExtCopy (success where it is used up), `allocs` answers
Alloc (null where it is used up). -/
structure Env where
  turns  : List Turn
  after  : Turn
  copies : List Bool
  allocs : List (Option HostAddr)
  inputs : List Input
  deriving DecidableEq, Repr

/-- The whole state (rule R20). SCRATCH and STAGE lie in `host`, at `ctx.scratch` and at `cfg.stage` (log 7). -/
structure State where
  /-- Group SH. -/
  sh : ShiftEngine
  /-- Group WIRE. -/
  wire : Wires
  /-- Group SEQ. -/
  seq : Sequencer
  /-- Group CFG. -/
  chip : ChipRegs
  /-- Group CTX. -/
  ctx : Context
  /-- Group FL. -/
  fl : Flash
  /-- HOSTMEM, with SCRATCH and STAGE inside it. -/
  host : Memory
  /-- Whether SCRATCH and STAGE hold a value. -/
  filled : Filled
  /-- OP. -/
  op : OpRecord
  /-- DRIVE. -/
  drive : Drive
  /-- What the last operation handed to its caller. -/
  report : Report
  /-- The parameters of rule R8; no step changes them (log 1). -/
  cfg : Config
  /-- The outside (log 9, 17, 24). -/
  env : Env
  /-- How many free values have been drawn (log 8). -/
  draws : Nat
  /-- The external actions of the current operation, newest first; no rule reads it (log 11). -/
  trace : List Event
  deriving DecidableEq, Repr

/-! ## One update a field -/

/-- The state with another `sh`. -/
def State.withSh (s : State) (x : ShiftEngine) : State := { s with sh := x }

/-- The state with another `wire`. -/
def State.withWire (s : State) (x : Wires) : State := { s with wire := x }

/-- The state with another `seq`. -/
def State.withSeq (s : State) (x : Sequencer) : State := { s with seq := x }

/-- The state with another `chip`. -/
def State.withChip (s : State) (x : ChipRegs) : State := { s with chip := x }

/-- The state with another `ctx`. -/
def State.withCtx (s : State) (x : Context) : State := { s with ctx := x }

/-- The state with another `fl`. -/
def State.withFl (s : State) (x : Flash) : State := { s with fl := x }

/-- The state with another `host`. -/
def State.withHost (s : State) (x : Memory) : State := { s with host := x }

/-- The state with another `filled`. -/
def State.withFilled (s : State) (x : Filled) : State := { s with filled := x }

/-- The state with another `op`. -/
def State.withOp (s : State) (x : OpRecord) : State := { s with op := x }

/-- The state with another `drive`. -/
def State.withDrive (s : State) (x : Drive) : State := { s with drive := x }

/-- The state with another `report`. -/
def State.withReport (s : State) (x : Report) : State := { s with report := x }

/-- The state with another `env`. -/
def State.withEnv (s : State) (x : Env) : State := { s with env := x }

/-- The state with another `draws`. -/
def State.withDraws (s : State) (x : Nat) : State := { s with draws := x }

/-- The state with another `trace`. -/
def State.withTrace (s : State) (x : List Event) : State := { s with trace := x }

/-! ## Reset -/

/-- The machine right after reset (rule R43). Where the table says "no value", `draw` or "launch", the values are the
model's (log 2 to 5); the host queue is empty, so the block does nothing until HOST asks for SETUP (log 17). -/
def State.reset : State where
  sh :=
    { txd := 0, rxd := 0, shift := 0, bitcnt := 0, busy := false, txDone := false, rxReady := false
      ctrl := Config.default.ctrlIdle, cs := false, err := 0, rxdHeld := false
      dir := .transmit, sub := 0, mosiByte := 0, misoByte := 0, misoFree := 0, sample := 0 }
  wire := { csn := true, sck := false, mosi := false, miso := false }
  seq :=
    { op := none, pc := 0, pos := 0, byte := 0, stat := 0, word := 0, loops := [], wipSeen := false, openBlock := none }
  chip := { spiBase := 0x0000FC01, wp := 0x000000A6 }
  ctx := { base := 0, ready := false, mode := .isProtected, scratch := none, aborted := false }
  fl :=
    { mem := [], wel := false, wip := false, phase := .idle, cmd := 0, addr := 0, page := [], pageN := 0, nbytes := 0
      pending := .none, sentWip := false }
  host := []
  filled := { stage := false, scratch := false }
  op := { command := 0, lba := 0, count := 0, buf := 0, status := 0 }
  drive := { cylinders := 0, heads := 0, spt := 0, sectorSize := 0, sectors := 0, registered := false }
  report := .none
  cfg := Config.default
  env :=
    { turns := [], after := { shiftSteps := 24, flashInt := true, pause := false }, copies := [], allocs := [some 0x00080000]
      inputs := [] }
  draws := 0
  trace := []

end Sys2Proof.Machine
end

