-- ==== Sys2Proof/Machine/Memory.lean ====
section
/-! DEFINITION. Reading and writing bytes of a memory kept as a rising list of (address, byte) pairs. One operation
writes: `Memory.splice`, which puts a run of bytes at an address (spec/20_memory.md rules R67, R71). -/

namespace Sys2Proof.Machine

/-- The byte at an address. -/
def Memory.read : Memory → Nat → Byte
  | [], _ => Memory.blank
  | (b, v) :: rest, a => if a = b then v else Memory.read rest a

/-- The `n` bytes from an address upward (`MemRead` of rule R11). -/
def Memory.readMany (m : Memory) (a n : Nat) : List Byte := (List.range n).map fun i => m.read (a + i)

/-- The entries a run of bytes needs: none for a byte that equals what an unlisted address reads as. -/
def Memory.cells (a : Nat) : List Byte → Memory
  | [] => []
  | v :: vs => if v = Memory.blank then Memory.cells (a + 1) vs else (a, v) :: Memory.cells (a + 1) vs

/-- The memory with a run of bytes put at an address (`MemWrite` of rule R11). -/
def Memory.splice (m : Memory) (a : Nat) (d : List Byte) : Memory :=
  m.filter (fun c => c.1 < a) ++ Memory.cells a d ++ m.filter (fun c => a + d.length ≤ c.1)

/-- The canonical form: addresses strictly rising, no entry that equals what an unlisted address reads as. -/
def Memory.wf : Memory → Bool
  | [] => true
  | (a, v) :: rest => v != Memory.blank && rest.all (fun c => decide (a < c.1)) && Memory.wf rest

end Sys2Proof.Machine
end

