-- ==== Sys2Proof/Machine/Operands.lean ====
section
/-! DEFINITION. Operand assembly: sectors, blocks, bursts and chunks (spec/30_encoding.md rule R99,
spec/43_sector_backup_buffer.md rule R201), the sector map (spec/44_disk_adapter.md rules R221, R234), host ranges
(spec/20_memory.md rule R64), and the fields of a received address (spec/41_flash_wire_commands.md rule R143). All
arithmetic is on naturals and never wraps (spec/45_common_semantics.md rule R300). -/

namespace Sys2Proof.Machine

/-! ## The sizes of rule R7 -/

/-- SECTOR_SIZE. -/
def sectorSize : Nat := 512

/-- BLOCK_SIZE. -/
def blockSize : Nat := 4096

/-- SECTORS_PER_BLOCK. -/
def sectorsPerBlock : Nat := 8

/-- BURST_SIZE and CHUNK_SIZE. -/
def burstSize : Nat := 128

/-- BURSTS_PER_SECTOR. -/
def burstsPerSector : Nat := 4

/-- CHUNKS_PER_BLOCK. -/
def chunksPerBlock : Nat := 32

/-- PAGE_LIMIT. -/
def pageLimit : Nat := 256

/-- DISK_CYLS, DISK_HEADS, DISK_SPT. -/
def diskCylinders : Nat := 236

@[inherit_doc diskCylinders] def diskHeads : Nat := 2

@[inherit_doc diskCylinders] def diskSpt : Nat := 32

/-- DISK_SECTORS (236 * 2 * 32). -/
def diskSectors : Nat := 15104

/-! ## Sectors and blocks -/

/-- The byte address of a physical sector: 512 * s (rule R99). -/
def sectorAddr (s : Nat) : Nat := sectorSize * s

/-- The block that holds a physical sector: s div 8 (rule R201). -/
def blockOf (s : Nat) : Nat := s / sectorsPerBlock

/-- The byte address of a sector's block: 4096 * (s div 8) (rule R201). -/
def blockBase (s : Nat) : Nat := blockSize * blockOf s

/-- The offset of a sector inside its block: 512 * (s mod 8) (rule R201). -/
def sectorOffset (s : Nat) : Nat := sectorSize * (s % sectorsPerBlock)

/-- A natural flash address as the 24 bits WR_ADDR24 sends; rule R179 has checked that it fits. -/
def toFlashAddr (a : Nat) : FlashAddr := BitVec.ofNat 24 a

/-! ## The sector map -/

/-- The formula of rule R221 for RESERVED_SLOT = r: 8 (a div 7) + t + (1 if t ≥ r), t = a mod 7. -/
def skipMap (r a : Nat) : Nat := 8 * (a / 7) + a % 7 + (if r ≤ a % 7 then 1 else 0)

/-- lba2slba: the table of exceptions first, then the formula (log 23). -/
def lba2slba (c : Config) (a : Nat) : Nat := (c.mapTable.lookup a).getD (skipMap c.reservedSlot a)

/-! ## Chipset registers -/

/-- A value at the width of a chipset register (rule R303). -/
def clip (width : Nat) (v : BitVec 32) : BitVec 32 := (v.setWidth width).setWidth 32

/-! ## Ranges -/

/-- Two ranges of host memory share a byte (rule R64). -/
def overlaps (a n b m : Nat) : Bool := decide (a < b + m) && decide (b < a + n)

/-- STAGE overlaps a host range (rules R64, R176, R202). -/
def hitsStage (s : State) (a n : Nat) : Bool := overlaps a n s.cfg.stage.toNat burstSize

/-- SCRATCH, once allocated, overlaps a host range. -/
def hitsScratch (s : State) (a n : Nat) : Bool :=
  match s.ctx.scratch with
  | some q => overlaps a n q.toNat blockSize
  | none => false

/-- A host range runs past the end of the 32-bit space (rule R232). -/
def pastHostEnd (a n : Nat) : Bool := decide (2 ^ 32 < a + n)

/-! ## The address as it arrives on the wire (rule R143) -/

/-- FL.addr[23:16] <- b. -/
def setAddrHigh (a : FlashAddr) (b : Byte) : FlashAddr := b ++ a.extractLsb' 0 16

/-- FL.addr[15:8] <- b. -/
def setAddrMid (a : FlashAddr) (b : Byte) : FlashAddr := a.extractLsb' 16 8 ++ b ++ a.extractLsb' 0 8

/-- FL.addr[7:0] <- b. -/
def setAddrLow (a : FlashAddr) (b : Byte) : FlashAddr := a.extractLsb' 8 16 ++ b

/-- FL.addr after a data byte of a READ frame: (addr + 1) mod FLASH_SIZE (rules R147, R302). -/
def nextFlashAddr (c : Config) (a : FlashAddr) : FlashAddr := BitVec.ofNat 24 ((a.toNat + 1) % c.flashSize)

end Sys2Proof.Machine
end

