-- ==== Sys2Proof/Machine/Flags.lean ====
section
/-! DEFINITION. Free values, the two status bytes, and the flags and modes an operation looks at before it starts
(spec/10_state.md rules R22, R26, R30, R31, R45; spec/41_flash_wire_commands.md rule R157; spec/60_exceptions.md rule
R260). -/

namespace Sys2Proof.Machine

/-! ## Free values (rule R11, `draw`; log 8) -/

/-- The next free byte. -/
def State.freeByte (s : State) : Byte := Config.freeByte s.draws

/-- The `n` free bytes from the `k`-th drawing of the run on. -/
def freeList (k n : Nat) : List Byte := (List.range n).map fun i => Config.freeByte (k + i)

/-- The next `n` free bytes. -/
def State.freeBytes (s : State) (n : Nat) : List Byte := freeList s.draws n

/-- The state after `n` free values have been drawn. -/
def State.drew (s : State) (n : Nat) : State := s.withDraws (s.draws + n)

/-! ## Status bytes

Both status bytes have bits that show a flag and bits no rule constrains. A mask of several bits shows its flag by
being non-zero, so which of its bits are set is free as well. Two masks may share a bit: it can be set only where both
flags are, since a flag that is clear has no bit of its mask set (rules R26, R157). -/

/-- The bits of a mask that can be set beside the other flag: all of them where the other flag is set, else those outside
its mask. -/
def ownBits (mask other : Byte) (otherFlag : Bool) : Byte := if otherFlag then mask else mask &&& ~~~ other

/-- The bits of a mask that shows a flag: none when it is clear, a non-zero free choice when it is set. -/
def flagBits (mask : Byte) (flag : Bool) (free : Byte) : Byte :=
  if flag then (if free &&& mask = 0 then mask else free &&& mask) else 0

/-- A byte that shows two flags under two masks and is free elsewhere. -/
def twoFlagByte (m1 m2 : Byte) (f1 f2 : Bool) (free : Byte) : Byte :=
  (free &&& ~~~ (m1 ||| m2)) ||| flagBits (ownBits m1 m2 f2) f1 free ||| flagBits (ownBits m2 m1 f1) f2 free

/-- What a read of STAT returns (rule R26). -/
def statByte (s : State) : Byte :=
  twoFlagByte s.cfg.stTxDone s.cfg.stRxReady s.sh.txDone s.sh.rxReady s.freeByte

/-- `status_byte()` of the flash device (rule R157). -/
def statusByte (c : Config) (f : Flash) (free : Byte) : Byte :=
  twoFlagByte c.srWip c.srWel f.wip f.wel free

/-! ## Modes and conditions -/

/-- The flash is unlocked: (CFG_WP & WP_MASK) = WP_OPEN, at the width of CFG_WP (rules R30, R303). -/
def State.unlocked (s : State) : Bool := clip s.cfg.wpReg.width s.chip.wp &&& s.cfg.wpMask == s.cfg.wpOpen

/-- Frames may be sent: CTX.mode is WRITABLE, and the hardware it mirrors says so too (rules R31, R131 (a), R260;
log 35). -/
def State.canTransfer (s : State) : Bool :=
  s.ctx.mode == .isWritable && s.unlocked && s.sh.ctrl == s.cfg.ctrlXfer

/-- The frame is a status read as far as can be seen: it has no command byte yet, or the command is RDSR (rules R142,
R312). -/
def State.statusFrame (s : State) : Bool := s.fl.phase == .cmd || s.fl.cmd == s.cfg.cmdRdsr

/-- This byte is sent inside an RDSR frame: it is the command byte of one, or the frame is one already (rules R142, R152,
R312). -/
def State.statusByteNext (s : State) (b : Byte) : Bool :=
  if s.fl.phase = .cmd then b == s.cfg.cmdRdsr else s.fl.cmd == s.cfg.cmdRdsr

/-- The quiescent invariant of rule R45, of the hardware and the device (it says nothing of SEQ.op): what an engine
operation asks before its first step (rule R170; log 18). -/
def State.quiescent (s : State) : Bool :=
  !s.sh.cs && s.ctx.mode == .isProtected && !s.unlocked && s.fl.phase == .idle && !s.fl.wip
  && s.fl.pending == .none && !s.fl.wel && !s.sh.busy && s.sh.ctrl == s.cfg.ctrlIdle

end Sys2Proof.Machine
end

