-- ==== Sys2Proof/Machine/Device.lean ====
section
/-! DEFINITION. The flash device: its frame decoder (agent FLASH) and its internal erase or program (agent FLASH_INT)
(spec/41_flash_wire_commands.md). The device sees only its own state and the parameters. -/

namespace Sys2Proof.Machine

/-! ## FLASH -/

/-- on_select (rule R141). -/
def Flash.select (f : Flash) : Except Refusal Flash :=
  if f.phase = .idle then .ok { f with phase := .cmd, nbytes := 0, page := [], pageN := 0 } else .error .frameOpen

/-- The phase a command byte leads to (rules R142, R156). -/
def phaseAfterCommand (c : Config) (b : Byte) : Phase :=
  if b = c.cmdWren ∨ b = c.cmdWrdi then .done
  else if b = c.cmdRdsr then .dataOut
  else if b = c.cmdRead ∨ b = c.cmdSe ∨ b = c.cmdPp then .addr0
  else .ignore

/-- The phase the third address byte leads to (rule R143). -/
def phaseAfterAddress (c : Config) (k : Byte) : Phase :=
  if k = c.cmdRead then .dataOut else if k = c.cmdSe then .done else .dataIn

/-- on_byte_in for the command byte (rules R142, R152). -/
def Flash.commandByte (c : Config) (b : Byte) (f : Flash) : Except Refusal Flash :=
  if f.wip = true ∧ b ≠ c.cmdRdsr then .error .deviceBusy
  else .ok { f with cmd := b, phase := phaseAfterCommand c b }

/-- on_byte_in for the third address byte (rule R143). -/
def Flash.lastAddressByte (c : Config) (b : Byte) (f : Flash) : Except Refusal Flash :=
  if c.flashSize ≤ (setAddrLow f.addr b).toNat then .error .flashRange
  else .ok { f with nbytes := f.nbytes + 1, addr := setAddrLow f.addr b, phase := phaseAfterAddress c f.cmd }

/-- on_byte_in for a data byte of a page program (rules R144, R150). -/
def Flash.dataByte (b : Byte) (f : Flash) : Except Refusal Flash :=
  if pageLimit < f.pageN + 1 then .error .pageOverflow
  else .ok { f with nbytes := f.nbytes + 1, pageN := f.pageN + 1, page := f.page ++ [b] }

/-- on_byte_in, total over the phases (rules R142 to R144). -/
def Flash.receive (c : Config) (b : Byte) (f : Flash) : Except Refusal Flash :=
  match f.phase with
  | .cmd => f.commandByte c b
  | .addr0 => .ok { f with nbytes := f.nbytes + 1, addr := setAddrHigh f.addr b, phase := .addr1 }
  | .addr1 => .ok { f with nbytes := f.nbytes + 1, addr := setAddrMid f.addr b, phase := .addr2 }
  | .addr2 => f.lastAddressByte c b
  | .dataIn => f.dataByte b
  | .done => .ok { f with phase := .ignore }
  | .ignore => .ok f
  | .dataOut => .error .deviceSending
  | .idle => .error .chipNotSelected

/-- on_byte_out, the byte sent: the addressed byte in a READ frame, a status byte in an RDSR frame (rules R147, R148).
No other command reaches phase DATA_OUT; were one there, the byte would be free. -/
def Flash.byteOut (c : Config) (free : Byte) (f : Flash) : Byte :=
  if f.cmd = c.cmdRead then f.mem.read f.addr.toNat
  else if f.cmd = c.cmdRdsr then statusByte c f free
  else free

/-- on_byte_out, the device after it: a READ frame goes on to the next address, an RDSR frame has shown WIP as it
stands (rules R147, R148, R302). -/
def Flash.afterByteOut (c : Config) (f : Flash) : Flash :=
  if f.cmd = c.cmdRead then { f with addr := nextFlashAddr c f.addr }
  else if f.cmd = c.cmdRdsr then { f with sentWip := f.wip }
  else f

/-- What the device does when a frame closes (rule R151). -/
def Flash.frameEffect (c : Config) (f : Flash) : Flash :=
  match f.phase with
  | .done =>
    if f.cmd = c.cmdWren then { f with wel := true }
    else if f.cmd = c.cmdWrdi then { f with wel := false }
    else if f.cmd = c.cmdSe ∧ f.wel = true then
      { f with wip := true, pending := .erase (f.addr.toNat / blockSize) }
    else f
  | .dataIn =>
    if f.cmd = c.cmdPp ∧ f.wel = true ∧ 1 ≤ f.pageN then
      { f with wip := true, pending := .program f.addr f.page }
    else f
  | _ => f

/-- on_deselect (rule R151). -/
def Flash.deselect (c : Config) (f : Flash) : Flash := { f.frameEffect c with phase := .idle }

/-! ## FLASH_INT -/

/-- What a program leaves at successive addresses: the new byte where the old one was erased, a free byte elsewhere
(rule R155). -/
def programmed (erased : Byte) (m : Memory) (a k : Nat) : List Byte → List Byte
  | [] => []
  | b :: bs => (if m.read a = erased then b else Config.freeByte k) :: programmed erased m (a + 1) (k + 1) bs

/-- Erase effect (rule R154). -/
def eraseBytes (c : Config) (m : Memory) (b : Nat) : Memory :=
  m.splice (blockSize * b) (List.replicate blockSize c.erasedByte)

/-- The device after a completion that leaves this content (rule R153). -/
def Flash.completed (f : Flash) (m : Memory) : Flash :=
  { f with mem := m, pending := .none, wip := false, wel := false }

/-- FLASH_INT.complete (rules R153 to R155), free values counted from `k`; nothing where nothing is pending. -/
def Flash.complete (c : Config) (k : Nat) (f : Flash) : Except Refusal Flash :=
  match f.pending with
  | .none => .ok f
  | .erase b => .ok (f.completed (eraseBytes c f.mem b))
  | .program a d =>
    if pageLimit < a.toNat % pageLimit + d.length then .error .pageCross
    else .ok (f.completed (f.mem.splice a.toNat (programmed c.erasedByte f.mem a.toNat k d)))

/-- How many free values a completion takes up. -/
def Flash.completionDraws (f : Flash) : Nat :=
  match f.pending with
  | .program _ d => d.length
  | _ => 0

/-! ## Cut short -/

/-- An erase or a program of anything that a completion accepts, free values counted from `k` (rule R287: FL.pending is
unspecified; rules R37, R155). -/
def anyPending (c : Config) (k : Nat) : Pending :=
  if Config.freeNat k % 2 = 0 then .erase (Config.freeNat (k + 1) % (c.flashSize / blockSize))
  else
    .program (toFlashAddr (Config.freeNat (k + 1) % c.flashSize))
      (freeList k (1 + Config.freeNat (k + 2) % (pageLimit - Config.freeNat (k + 1) % c.flashSize % pageLimit)))

/-- How many free values a device that was cut short takes up. -/
def cutShortDraws : Nat := blockSize + 1 + pageLimit

/-- The device where an erase or program of block `b` has stopped for good: every byte of the block is free, and WEL, WIP
and what is pending are unspecified (rules R208, R287); `busy` is what WIP is, where that can be known (log 28). -/
def Flash.cutShort (c : Config) (k b : Nat) (busy : Bool) (f : Flash) : Flash :=
  { f with
    mem := f.mem.splice (blockSize * b) (freeList k blockSize)
    wel := (Config.freeByte (k + blockSize)).getLsbD 0
    wip := busy
    pending := if busy then anyPending c (k + blockSize + 1) else .none }

/-! ## The device in the machine -/

/-- The state with the device as an answer has it. -/
def State.withDevice (s : State) : Except Refusal Flash → Except Refusal State
  | .ok f => .ok (s.withFl f)
  | .error r => .error r

/-- FLASH_INT gets its chance (rule R153). -/
def flashInt (s : State) : Except Refusal State :=
  (s.drew s.fl.completionDraws).withDevice (s.fl.complete s.cfg s.draws)

end Sys2Proof.Machine
end

