-- ==== Sys2Proof/Machine/Shift.lean ====
section
/-! DEFINITION. The shift engine (agent SHIFT): the bits of one byte on the wires (spec/40_spi_bus_driver.md rules R124,
R126, R128) and the turn the two agents that act on their own get before an action of SEQ (rules R6, R132, R153). -/

namespace Sys2Proof.Machine

/-- What a write to REG_OUT starts (rule R124, SEQ step 1). What MISO carries meanwhile is free (rules R94, R128). -/
def startTransmit (b : Byte) (s : State) : State :=
  ((s.withSh { s.sh with
    txd := b, txDone := false, shift := b, bitcnt := 8, busy := true
    dir := .transmit, sub := 0, mosiByte := b, misoByte := s.freeByte, sample := 0 }).withWire
    { s.wire with miso := s.freeByte.getLsbD 7 }).drew 1

/-- What the read strobe starts (rule R126, SEQ step 1). What MOSI carries meanwhile is free (rule R126, D38). -/
def startReceive (s : State) : State :=
  (s.withSh { s.sh with
    rxReady := false, bitcnt := 8, busy := true
    dir := .receive, sub := 0, mosiByte := s.freeByte, misoByte := 0, sample := 0 }).drew 1

/-- The bit that crosses next: i = BITCNT - 1, bit 7 first (rules R66, R128). -/
def ShiftEngine.bitIndex (h : ShiftEngine) : Nat := h.bitcnt - 1

/-- SHIFT takes the byte the device will send, before its first bit (rule R126: `d <- FLASH: on_byte_out()`). Its bit 7
is on MISO already (rule R128), and stays; only a status byte whose bit 7 shows WIP or WEL, which is sampled anew (rule
R148), moves it where that latch has changed since (log 13). -/
def takeDeviceByte (s : State) : State :=
  if s.sh.dir = .receive ∧ s.sh.bitcnt = 8 then
    ((s.withSh { s.sh with misoByte := s.fl.byteOut s.cfg s.sh.misoFree }).withWire
      { s.wire with miso := (s.fl.byteOut s.cfg s.sh.misoFree).getLsbD 7 }).withFl (s.fl.afterByteOut s.cfg)
  else s

/-- First line of the loop of rule R128: MOSI <- out[i], while SCK = 0. -/
def putBit (s : State) : State :=
  (s.withWire { s.wire with mosi := s.sh.mosiByte.getLsbD s.sh.bitIndex }).withSh { s.sh with sub := 1 }

/-- The level the receiving end samples: the device samples MOSI, the engine samples MISO. -/
def State.sampledLevel (s : State) : Bool :=
  match s.sh.dir with
  | .transmit => s.wire.mosi
  | .receive => s.wire.miso

/-- Second line: SCK <- 1, the receiving end samples. -/
def clockHigh (s : State) : State :=
  (s.withWire { s.wire with sck := true }).withSh
    { s.sh with sub := 2, sample := (s.sh.sample <<< 1) ||| (BitVec.ofBool s.sampledLevel).setWidth 8 }

/-- Third line: SCK <- 0, BITCNT <- BITCNT - 1. -/
def clockLow (s : State) : State :=
  (s.withWire { s.wire with sck := false }).withSh { s.sh with sub := 0, bitcnt := s.sh.bitcnt - 1 }

/-- The falling edge inside a byte: the device puts its next bit on MISO (rule R128). -/
def nextMiso (s : State) : State := s.withWire { s.wire with miso := s.sh.misoByte.getLsbD s.sh.bitIndex }

/-- The falling edge that ends a byte: the device puts bit 7 of the byte it will send on MISO, where it sends one (rule
R128); otherwise the level is free (log 13). What is free in that byte is drawn now (rules R26, R157: anew for each). -/
def lastEdge (s : State) : State :=
  ((s.withWire { s.wire with
    miso := (if s.fl.phase = .dataOut then s.fl.byteOut s.cfg s.freeByte else s.freeByte).getLsbD 7 }).withSh
    { s.sh with misoFree := s.freeByte }).drew 1

/-- When BITCNT reaches 0 (rules R124, R126). -/
def byteDone (s : State) : Except Refusal State :=
  match s.sh.dir with
  | .transmit =>
    match s.fl.receive s.cfg s.sh.sample with
    | .ok f => .ok (lastEdge ((s.withSh { s.sh with busy := false, txDone := true }).withFl f))
    | .error r => .error r
  | .receive =>
    .ok (lastEdge (s.withSh { s.sh with shift := s.sh.sample, rxd := s.sh.sample, rxdHeld := true, busy := false, rxReady := true }))

/-- One step of SHIFT (rule R128: one step a line). -/
def shiftStep (s : State) : Except Refusal State :=
  if s.sh.sub = 0 then .ok (putBit (takeDeviceByte s))
  else if s.sh.sub = 1 then .ok (clockHigh s)
  else if (clockLow s).sh.bitcnt = 0 then byteDone (clockLow s)
  else .ok (nextMiso (clockLow s))

/-- So many steps of SHIFT, none where no byte is being shifted (rule R128: SCK never moves while BUSY = 0). -/
def shiftRun : Nat → State → Except Refusal State
  | 0, s => .ok s
  | n + 1, s =>
    if s.sh.busy then
      match shiftStep s with
      | .ok t => shiftRun n t
      | .error r => .error r
    else .ok s

/-- SEQ gets no further in this machine step: the turn that is taken says so (rule R28; log 11). -/
def State.pauses (s : State) : Bool :=
  match s.env.turns with
  | x :: _ => x.pause
  | [] => false

/-- What SHIFT and FLASH_INT do before the next action of SEQ: the next entry of `env.turns`, or `env.after` (log 9). -/
def takeTurn (s : State) : Except Refusal State :=
  match shiftRun (s.env.turns.headD s.env.after).shiftSteps (s.withEnv { s.env with turns := s.env.turns.tail }) with
  | .ok t => if (s.env.turns.headD s.env.after).flashInt then flashInt t else .ok t
  | .error r => .error r

end Sys2Proof.Machine
end

