-- ==== Sys2Proof/Machine/Ops.lean ====
section
/-! DEFINITION. The named operations over memory, ports and chipset registers (spec/00_scope.md rules R9, R11), the
block's abnormal ends, which stand where a processor takes exceptions (spec/60_exceptions.md rules R241 to R250). -/

namespace Sys2Proof.Machine

/-! ## What a micro-action ends in -/

/-- The end of one action of the sequencer. -/
inductive Res where
  /-- Done; the next one follows. -/
  | go (s : State)
  /-- Not done: a poll that did not yet see what it waits for, or a pause. SEQ stays there (rules R28, R123). -/
  | hold (s : State)
  /-- The operation ends here, early (rule R305, "early end"). -/
  | stop (s : State)
  | refuse (r : Refusal)

/-- A condition, or the refusal that says why not. -/
def guardBy (why : Option Refusal) (then_ : Res) : Res :=
  match why with
  | some r => .refuse r
  | none => then_

/-! ## Observation -/

/-- An external action, seen from outside (log 11). -/
def State.saw (s : State) (e : Event) : State := s.withTrace (e :: s.trace)

/-- The port of an engine register: CTX.base + offset, which never wraps (rules R60, R134, R300). -/
def State.port (s : State) (off : Byte) : Nat := s.ctx.base.toNat + off.toNat

/-- It fits the 16 bits of a port (rules R60, R300; log 30). -/
def State.portFits (s : State) (off : Byte) : Bool := decide (s.port off < 2 ^ 16)

/-- All five registers a frame and its bracket use fit. -/
def State.portsFit (s : State) : Bool :=
  [s.cfg.regOut, s.cfg.regIn, s.cfg.regCtrl, s.cfg.regStat, s.cfg.regCs].all s.portFits

/-! ## Host memory -/

/-- The platform has memory at a host address (rule R38). -/
def hostPresent (s : State) (a : Nat) : Bool :=
  decide (a < 2 ^ 32) && s.cfg.ram.any fun r => decide (r.1 ≤ a) && decide (a < r.1 + r.2)

/-- It has memory at `n` addresses from `a`. -/
def hostCovers (s : State) (a n : Nat) : Bool := (List.range n).all fun i => hostPresent s (a + i)

/-- A direct access reaches an address: there is memory, and it lies in the normally addressable window (rules R38,
R310; log 26). -/
def hostDirect (s : State) (a : Nat) : Bool :=
  hostPresent s a && s.cfg.window.any fun r => decide (r.1 ≤ a) && decide (a < r.1 + r.2)

/-- Direct accesses reach `n` addresses from `a`. -/
def hostReaches (s : State) (a n : Nat) : Bool := (List.range n).all fun i => hostDirect s (a + i)

/-- Why direct accesses to `n` bytes from `a` are refused, if they are (rules R38, R178, R310). -/
def directRefusal (s : State) (a n : Nat) : Option Refusal :=
  if hostReaches s a n then none else if hostCovers s a n then some .outsideWindow else some .hostUnmapped

/-- Why a copy is refused, if it is (rules R38, R64, R310). -/
def copyRefusal (s : State) (dst src n : Nat) : Option Refusal :=
  if !(hostCovers s src n && hostCovers s dst n) then some .hostUnmapped
  else if overlaps dst n src n then some .bufferOverlap
  else none

/-- The host's bytes put at an address. -/
def hostStore (s : State) (a : Nat) (d : List Byte) : State := s.withHost (s.host.splice a d)

/-- ExtCopy (rules R9, R310): the oracle says whether it succeeds. On success the bytes are copied; on failure the
destination holds free bytes (rules R176, R204, R250). Nobody looks at the result. -/
def extCopy (dst src n : Nat) (s : State) : Res :=
  let ok := s.env.copies.headD true
  let t := (s.withEnv { s.env with copies := s.env.copies.tail }).saw (.extCopy dst src n ok)
  guardBy (copyRefusal s dst src n)
    (if ok then .go (hostStore t dst (s.host.readMany src n))
    else .go ((hostStore t dst (s.freeBytes n)).drew n))

/-- ERR holds nothing a rule says: its content is drawn (rule R25; log 27). -/
def State.drawErr (s : State) : State := (s.withSh { s.sh with err := s.freeByte }).drew 1

/-- An erase or program of block `b` has stopped for good (rules R208, R287). -/
def State.leaveOpen (s : State) (b : Nat) (busy : Bool) : State :=
  (s.withFl (s.fl.cutShort s.cfg s.draws b busy)).drew cutShortDraws

/-! ## Abnormal ends

The block has no trap: an abnormal end saves nothing, changes no mode and goes nowhere; it is an ordinary return to the
caller (rules R244, R248). -/

/-- X1 (rules R229, R242): OP.count <- 0, status ST_PARAM_ERROR, and nothing else. -/
def raiseParamError (s : State) : State := s.withOp { s.op with count := 0, status := s.cfg.stParamError }

/-- X2 (rules R178, R243): the result is `fail`, and nothing else changes. -/
def rejectWriteData (s : State) : State := s.withReport .fail

/-- X3 (rules R235, R249): no scratch buffer; CTX.ready and DRIVE.registered stay as they were, 0, for the rest of the
run. -/
def abortSetup (s : State) : State := s.withCtx { s.ctx with scratch := none, aborted := true }

/-- The ordinary return of a host command (rule R233): a status, the count as it was. -/
def returnStatus (st : Byte) (s : State) : State := s.withOp { s.op with status := st }

end Sys2Proof.Machine
end

