-- ==== Sys2Proof/Machine/Sequencer.lean ====
section
/-! DEFINITION. The sequencer (agent SEQ): the micro-actions a micro-program is made of, what each does, and running
them (spec/10_state.md rule R28, spec/45_common_semantics.md rules R305 to R308). A micro-action makes at most one
external action; before it, SHIFT and FLASH_INT get their turn (log 9). -/

namespace Sys2Proof.Machine

/-- The byte a write transfer sends. -/
inductive ByteSource where
  | lit (b : Byte)
  /-- HOSTMEM[a], read when the byte is sent (rule R178). -/
  | host (a : Nat)
  deriving DecidableEq, Repr

/-- Where the byte of a read transfer goes. -/
inductive ByteDest where
  /-- To the caller (rules R126, R147, R148, R174). -/
  | caller
  /-- STAGE[i] (rule R175). -/
  | stage (i : Nat)
  /-- The status byte just polled (rule R173). -/
  | status
  deriving DecidableEq, Repr

/-- The conditions of rule R312 and of the operations' own `require` lines. -/
inductive Need where
  /-- WRITABLE_ENTER: ready, PROTECTED, CS = 0, WIP = 0. -/
  | enter
  /-- WRITABLE_EXIT and CMD1: ready, WRITABLE, CS = 0, WIP = 0. -/
  | writable
  /-- WAIT_WIP: ready, WRITABLE, CS = 0. -/
  | poll
  /-- An engine operation: ready and quiescent (rule R170). -/
  | admitted
  /-- One that goes on to use the engine's ports: they fit as well (rule R300). -/
  | engine
  /-- A host command: ready, PROTECTED, CS = 0, WIP = 0. -/
  | command
  /-- SETUP: not ready, PROTECTED, CS = 0. -/
  | setup
  deriving DecidableEq, Repr

/-- The two buffers of rule R44's second place. -/
inductive Buffer where
  | stage
  | scratch
  deriving DecidableEq, Repr

/-- The micro-actions. -/
inductive Micro where
  | need (n : Need)
  /-- A condition on the operands, already evaluated. -/
  | check (holds : Bool) (r : Refusal)
  | csEn
  | csDis
  | out (b : ByteSource)
  | pollTx
  | strobe
  | pollRx
  | inp (d : ByteDest)
  /-- One read of a port that HOST asks for by itself (rules R26, R72, R126). -/
  | readPort (p : ReadablePort)
  /-- The `until (s & SR_WIP) = 0` of WAIT_WIP; back to the loop head if not. -/
  | untilIdle
  | readWp
  | writeWp (unlock : Bool)
  | control (xfer : Bool)
  | readBase
  | clearErr
  | alloc
  | registerBoot
  | copy (dst src n : Nat)
  | report (r : Report)
  | status (st : Byte)
  /-- A loop starts an iteration: its counter has this value. -/
  | push (i : Nat)
  /-- The iteration is over; where another follows, SEQ.pc returns to the loop head. -/
  | pop (more : Bool)
  /-- From here on a block's content depends on the operation being finished (rules R208, R287). -/
  | openBlock (b : Nat)
  /-- No longer. -/
  | closeBlock
  /-- A buffer has been filled by its owner (rule R44). -/
  | filled (b : Buffer)
  /-- X1 (rule R242). -/
  | paramError
  /-- X2 (rule R243). -/
  | rejectWrite
  deriving DecidableEq, Repr

/-! ## Conditions -/

/-- Ready, and the condition, or the refusals. -/
def readyAnd (s : State) (rest : Option Refusal) : Option Refusal :=
  if s.ctx.ready then rest else some .notReady

/-- Mode, CS and, where asked, WIP as rule R312 has them. -/
def modeCsWip (s : State) (mode : Mode) (wipToo : Bool) : Option Refusal :=
  if s.ctx.mode ≠ mode then some .wrongMode
  else if s.sh.cs then some .chipSelected
  else if wipToo && s.fl.wip then some .deviceBusy
  else none

/-- Why a port access is refused, if it is (rules R62, R134, R300). -/
def portRefusal (fits : Bool) : Option Refusal := if fits then none else some .portRange

/-- The first of two refusals. -/
def firstRefusal (a b : Option Refusal) : Option Refusal :=
  match a with
  | some r => some r
  | none => b

/-- Why a condition does not hold, if it does not (rules R170, R171 to R173, R222, R235, R300, R312).

DESIGN CHOICE (log 18): rule R170 asks the quiescent invariant of "every operation" and counts four helpers beside the five
operations it offers, and the table of rule R312 asks less. Asked for alone, READ_BYTE, READ_BURST, READ_SECTOR,
ERASE_BLOCK, WRITE_DATA and WRITE_SECTOR ask for the whole invariant (`admitted`, `engine`); WRITABLE_ENTER,
WRITABLE_EXIT and WAIT_WIP, two of which start where the invariant cannot hold, ask for the columns of rule R312 only
(`enter`, `writable`, `poll`), so that WRITABLE_ENTER starts with WEL = 1 as well. -/
def needRefusal (n : Need) (s : State) : Option Refusal :=
  match n with
  | .enter => readyAnd s (firstRefusal (modeCsWip s .isProtected true) (portRefusal (s.portFits s.cfg.regCtrl)))
  | .writable => readyAnd s (modeCsWip s .isWritable true)
  | .poll => readyAnd s (modeCsWip s .isWritable false)
  | .admitted => readyAnd s (if s.quiescent then none else some .notQuiescent)
  | .engine => readyAnd s (if s.quiescent then portRefusal s.portsFit else some .notQuiescent)
  | .command => readyAnd s (modeCsWip s .isProtected true)
  | .setup =>
    if s.ctx.ready then some .alreadySetUp
    else if s.ctx.aborted then some .setupFailed
    else modeCsWip s .isProtected false

/-- Why a bus primitive that uses these registers may not touch the engine now (rules R121, R122, R124, R126, R131,
R134). -/
def busRefusal (s : State) (selected : Bool) (registers : List Byte) : Option Refusal :=
  if !s.ctx.ready then some .notReady
  else if !s.canTransfer then some .wrongMode
  else if s.sh.busy then some .transferBusy
  else if selected && !s.sh.cs then some .chipNotSelected
  else if !selected && s.sh.cs then some .chipSelected
  else portRefusal (registers.all s.portFits)

/-- Why this byte may not be sent to the device now (rules R124, R131 (e), R152, R312). -/
def sendRefusal (b : Byte) (s : State) : Option Refusal :=
  match busRefusal s true [s.cfg.regOut, s.cfg.regStat] with
  | some r => some r
  | none =>
    if s.fl.phase = .dataOut then some .deviceSending
    else if s.fl.wip && !s.statusByteNext b then some .deviceBusy
    else none

/-- Why a byte may not be taken from the device now (rules R126, R131 (e), R312). -/
def takeRefusal (s : State) : Option Refusal :=
  match busRefusal s true [s.cfg.regIn, s.cfg.regStat] with
  | some r => some r
  | none =>
    if s.fl.phase ≠ .dataOut then some .deviceNotSending
    else if s.fl.wip && !s.statusFrame then some .deviceBusy
    else none

/-! ## The actions, one definition each -/

/-- CS_EN (rule R121). DESIGN CHOICE (log 13): MISO keeps the level it has; rule R128 says only that it is not driven with
anything meaningful before the first byte of a frame, and rule R27 gives it no level. -/
def actCsEn (s : State) : Res :=
  guardBy (busRefusal s false [s.cfg.regCs])
    (match (((s.withSh { s.sh with cs := true }).withWire { s.wire with csn := false }).saw
        (.portOut (s.port s.cfg.regCs) s.cfg.csAssert)).withDevice s.fl.select with
    | .ok t => .go t
    | .error r => .refuse r)

/-- CS_DIS (rule R122). DESIGN CHOICE (log 13): MISO keeps the level it has, and goes on to keep it while the device is
deselected; rules R27 and R128 give it none. -/
def actCsDis (s : State) : Res :=
  guardBy (busRefusal s true [s.cfg.regCs])
    (.go ((((s.withSh { s.sh with cs := false }).withWire { s.wire with csn := true }).saw
      (.portOut (s.port s.cfg.regCs) s.cfg.csDeassert)).withFl (s.fl.deselect s.cfg)))

/-- The byte a source names, where a direct access reaches it (rules R38, R178, R310). -/
def sourceByte (s : State) : ByteSource → Except Refusal Byte
  | .lit b => .ok b
  | .host a =>
    match directRefusal s a 1 with
    | none => .ok (s.host.read a)
    | some r => .error r

/-- WR_BYTE, first step: the byte goes to REG_OUT (rule R124). -/
def actOut (b : ByteSource) (s : State) : Res :=
  match sourceByte s b with
  | .ok v => guardBy (sendRefusal v s) (.go ((startTransmit v s).saw (.portOut (s.port s.cfg.regOut) v)))
  | .error r => .refuse r

/-- A read of STAT (rules R26, R123): the byte polled is kept, its other bits are free, nothing else changes. -/
def pollStat (s : State) : State :=
  ((s.withSeq { s.seq with stat := statByte s }).saw (.portIn (s.port s.cfg.regStat) (statByte s))).drew 1

/-- WR_BYTE, second step: spin until (STAT & ST_TX_DONE) ≠ 0, which by rule R26 is TX_DONE = 1 (log 15). -/
def actPollTx (s : State) : Res := if s.sh.txDone then .go (pollStat s) else .hold (pollStat s)

/-- RD_BYTE, first step: the read strobe, value 0x00 (rule R126). -/
def actStrobe (s : State) : Res :=
  guardBy (takeRefusal s) (.go ((startReceive s).saw (.portOut (s.port s.cfg.regIn) 0)))

/-- RD_BYTE, second step: spin until (STAT & ST_RX_READY) ≠ 0, which by rule R26 is RX_READY = 1 (log 15). -/
def actPollRx (s : State) : Res := if s.sh.rxReady then .go (pollStat s) else .hold (pollStat s)

/-- The bytes reported so far, with one more (rules R126, R147, R148). -/
def Report.add (r : Report) (b : Byte) : Report :=
  match r with
  | .bytes l => .bytes (l ++ [b])
  | _ => .bytes [b]

/-- A byte read from a port of the engine is kept in SEQ.locals (rule R28). -/
def State.portIn (off v : Byte) (s : State) : State := (s.withSeq { s.seq with byte := v }).saw (.portIn (s.port off) v)

/-- RD_BYTE, third step: the byte is read from REG_IN (rule R126) and goes where the operation puts it. -/
def actIn (d : ByteDest) (s : State) : Res :=
  let t := s.portIn s.cfg.regIn s.sh.rxd
  match d with
  | .caller => .go (t.withReport (s.report.add s.sh.rxd))
  | .stage i =>
    guardBy (directRefusal s (s.cfg.stage.toNat + i) 1) (.go (hostStore t (s.cfg.stage.toNat + i) [s.sh.rxd]))
  | .status => .go (t.withSeq { t.seq with wipSeen := s.fl.sentWip })

/-- Where a port that can be read lies. -/
def portOffset (c : Config) : ReadablePort → Byte
  | .stat => c.regStat
  | .input => c.regIn
  | .control => c.regCtrl

/-- Why a port may not be read now: before SETUP there is no CTX.base (rules R44, R134), and the port must fit (rule R300). -/
def portReadRefusal (p : ReadablePort) (s : State) : Option Refusal :=
  readyAnd s (portRefusal (s.portFits (portOffset s.cfg p)))

/-- What REG_IN answers: RXD, once a read transfer has completed. Before that RXD "holds no value" and rule R44 has a model
choose none: the byte is a free value, and the read goes on (DESIGN CHOICE, log 3). -/
def rxdByte (s : State) : Byte := if s.sh.rxdHeld then s.sh.rxd else s.freeByte

/-- One read of REG_IN by itself (rules R44, R72, R126): a free value is drawn where RXD holds none. -/
def readInput (s : State) : State :=
  ((s.portIn s.cfg.regIn (rxdByte s)).withReport (.bytes [rxdByte s])).drew (if s.sh.rxdHeld then 0 else 1)

/-- One read of a port, whatever the mode and whether or not a byte is being shifted: STAT answers its byte (rule R26),
REG_IN answers RXD again and clocks nothing (rules R72, R126), and REG_CTRL answers CTRL (rule R23). The byte goes to the
caller, and nothing else changes. -/
def actReadPort (p : ReadablePort) (s : State) : Res :=
  guardBy (portReadRefusal p s)
    (match p with
    | .stat => .go ((pollStat s).withReport (.bytes [statByte s]))
    | .input => .go (readInput s)
    | .control => .go ((s.portIn s.cfg.regCtrl s.sh.ctrl).withReport (.bytes [s.sh.ctrl])))

/-- How many micro-actions one frame of WAIT_WIP has, all of them external; the loop goes back that far (rule R173). -/
def pollFrameLength : Nat := 7

/-- The loop condition of WAIT_WIP (rule R173): the status byte just polled has SR_WIP clear, which by rule R157 is
FL.WIP = 0 when it was sent (log 15). -/
def actUntilIdle (s : State) : Res :=
  if s.seq.wipSeen then
    .hold (s.withSeq { s.seq with pc := s.seq.pc - pollFrameLength, pos := s.seq.pos - pollFrameLength })
  else .go s

/-- CfgRead(CFG_WP), at its width (rules R171, R172, R303). -/
def actReadWp (s : State) : Res :=
  let w := clip s.cfg.wpReg.width s.chip.wp
  .go ((s.withSeq { s.seq with word := w }).saw (.cfgRead s.cfg.wpReg w))

/-- The value written back to CFG_WP: only the WP_MASK bits change, at its width (rules R30, R171, R172, R303). -/
def wpValue (c : Config) (w : BitVec 32) (unlock : Bool) : BitVec 32 :=
  clip c.wpReg.width ((w &&& ~~~ c.wpMask) ||| (match unlock with | true => c.wpOpen | false => c.wpClosed))

/-- CfgWrite(CFG_WP) (rules R171, R172); locking is the last action of WRITABLE_EXIT, after which CTX.mode is
PROTECTED. -/
def actWriteWp (unlock : Bool) (s : State) : Res :=
  let v := wpValue s.cfg s.seq.word unlock
  let t := (s.withChip { s.chip with wp := v }).saw (.cfgWrite s.cfg.wpReg v)
  .go (match unlock with | true => t | false => t.withCtx { t.ctx with mode := .isProtected })

/-- The write to REG_CTRL (rules R23, R171, R172); CTRL_XFER is the last action of WRITABLE_ENTER, after which CTX.mode
is WRITABLE. -/
def actControl (xfer : Bool) (s : State) : Res :=
  let v := match xfer with | true => s.cfg.ctrlXfer | false => s.cfg.ctrlIdle
  let t := (s.withSh { s.sh with ctrl := v }).saw (.portOut (s.port s.cfg.regCtrl) v)
  guardBy (portRefusal (s.portFits s.cfg.regCtrl))
    (.go (match xfer with | true => t.withCtx { t.ctx with mode := .isWritable } | false => t))

/-- SETUP, first line: CTX.base <- CfgRead(CFG_SPIBASE) & mask, at the width of the register, then 16 bits (rules R29,
R222, R303). -/
def actReadBase (s : State) : Res :=
  let v := clip s.cfg.spiBaseReg.width s.chip.spiBase
  .go (((s.withSeq { s.seq with word := v }).withCtx { s.ctx with base := (v &&& s.cfg.spiBaseMask).setWidth 16 }).saw
    (.cfgRead s.cfg.spiBaseReg v))

/-- SETUP, second line: ERR_CLEAR goes to REG_ERR (rules R25, R222). -/
def actClearErr (s : State) : Res :=
  guardBy (portRefusal (s.portFits s.cfg.regErr))
    (.go ((s.withSh { s.sh with err := s.cfg.errClear }).saw (.portOut (s.port s.cfg.regErr) s.cfg.errClear)))

/-- The drive SETUP registers (rules R7, R40, R222). -/
def fixedGeometry (registered : Bool) : Drive where
  cylinders := diskCylinders
  heads := diskHeads
  spt := diskSpt
  sectorSize := sectorSize
  sectors := diskSectors
  registered := registered

/-- SETUP: Alloc(SCRATCH_ALIGN, 4096), whose bytes hold no value yet (rule R43); null ends the operation (rules R222,
R235). -/
def actAlloc (s : State) : Res :=
  let q := s.env.allocs.headD none
  let t := (s.withEnv { s.env with allocs := s.env.allocs.tail }).saw (.alloc s.cfg.scratchAlign blockSize q)
  match q with
  | none => .stop (abortSetup t)
  | some _ =>
    .go (((t.withCtx { t.ctx with scratch := q }).withFilled { t.filled with scratch := false }).withDrive
      (fixedGeometry s.drive.registered))

/-- SETUP, last lines: RegisterBoot, then DRIVE.registered <- 1, CTX.ready <- 1 (rule R222). -/
def actRegisterBoot (s : State) : Res :=
  let t := s.saw (.registerBoot s.cfg.bootPriority)
  .go ((t.withDrive { t.drive with registered := true }).withCtx { t.ctx with ready := true })

/-- A loop is at its head, its counter at this value (rule R28). -/
def actPush (i : Nat) (s : State) : State :=
  s.withSeq { s.seq with loops := { counter := i, head := s.seq.pc } :: s.seq.loops }

/-- An iteration of the innermost loop is over; where another follows, SEQ.pc returns to the loop head (rule R28). -/
def actPop (more : Bool) (s : State) : State :=
  s.withSeq { s.seq with
    loops := s.seq.loops.tail
    pc := match s.seq.loops with
      | l :: _ => if more then l.head else s.seq.pc
      | [] => s.seq.pc }

/-- The block in hand (rules R208, R287). -/
def setOpenBlock (b : Option Nat) (s : State) : State := s.withSeq { s.seq with openBlock := b }

/-- A buffer holds a value from here on (rule R44). -/
def markFilled (b : Buffer) (s : State) : State :=
  match b with
  | .stage => s.withFilled { s.filled with stage := true }
  | .scratch => s.withFilled { s.filled with scratch := true }

/-- What a micro-action does by itself. -/
def act (m : Micro) (s : State) : Res :=
  match m with
  | .need n => guardBy (needRefusal n s) (.go s)
  | .check holds r => if holds then .go s else .refuse r
  | .csEn => actCsEn s
  | .csDis => actCsDis s
  | .out b => actOut b s
  | .pollTx => actPollTx s
  | .strobe => actStrobe s
  | .pollRx => actPollRx s
  | .inp d => actIn d s
  | .readPort p => actReadPort p s
  | .untilIdle => actUntilIdle s
  | .readWp => actReadWp s
  | .writeWp unlock => actWriteWp unlock s
  | .control xfer => actControl xfer s
  | .readBase => actReadBase s
  | .clearErr => actClearErr s
  | .alloc => actAlloc s
  | .registerBoot => actRegisterBoot s
  | .copy dst src n => extCopy dst src n s
  | .report r => .go (s.withReport r)
  | .status st => .go (returnStatus st s)
  | .push i => .go (actPush i s)
  | .pop more => .go (actPop more s)
  | .openBlock b => .go (setOpenBlock (some b) s)
  | .closeBlock => .go (setOpenBlock none s)
  | .filled b => .go (markFilled b s)
  | .paramError => .go (raiseParamError s)
  | .rejectWrite => .go (rejectWriteData s)

/-- The micro-action is an external one (rule R28), so the other agents get a turn before it. -/
def Micro.isExternal : Micro → Bool
  | .need _ => false
  | .check _ _ => false
  | .untilIdle => false
  | .report _ => false
  | .status _ => false
  | .push _ => false
  | .pop _ => false
  | .openBlock _ => false
  | .closeBlock => false
  | .filled _ => false
  | .paramError => false
  | .rejectWrite => false
  | .csEn => true
  | .csDis => true
  | .out _ => true
  | .pollTx => true
  | .strobe => true
  | .pollRx => true
  | .inp _ => true
  | .readPort _ => true
  | .readWp => true
  | .writeWp _ => true
  | .control _ => true
  | .readBase => true
  | .clearErr => true
  | .alloc => true
  | .registerBoot => true
  | .copy _ _ _ => true

/-- A turn of the other agents, where there is one, then the action, unless the turn was a pause (rule R28; log 11). -/
def tick (m : Micro) (s : State) : Res :=
  if m.isExternal then
    match takeTurn s with
    | .ok t => if s.pauses then .hold t else act m t
    | .error r => .refuse r
  else act m s

/-! ## Running a micro-program -/

/-- A micro-action is done: after an external one, SEQ.pc <- SEQ.pc + 1 (rule R28). -/
def State.advance (m : Micro) (s : State) : State :=
  s.withSeq { s.seq with pc := if m.isExternal then s.seq.pc + 1 else s.seq.pc, pos := s.seq.pos + 1 }

/-- The actions in order, up to the first that does not simply go on. -/
def runSeq : List Micro → State → Res
  | [], s => .go s
  | m :: ms, s =>
    match tick m s with
    | .go t => runSeq ms (t.advance m)
    | r => r

/-- SEQ takes up an operation: its first micro-action is next, no loop is in progress, nothing is reported yet. -/
def State.begin (s : State) (o : Operation) : State :=
  (((s.withSeq { s.seq with op := some o, pc := 0, pos := 0, loops := [], openBlock := none }).withReport .none).withTrace
    []).drawErr

/-- SEQ.op <- IDLE (rule R28). -/
def State.finish (s : State) : State :=
  s.withSeq { s.seq with op := none, pc := 0, pos := 0, loops := [], openBlock := none }

/-- The byte being shifted never moves from here on: the turns written down are used up and SHIFT is stopped (rules R132,
R245). -/
def State.shiftStuck (s : State) : Bool := s.env.turns.isEmpty && s.sh.busy && s.env.after.shiftSteps == 0

/-- What SEQ waits for never comes: SHIFT is stopped, or the erase or program under way never completes (rules R132,
R153, R245). -/
def State.stuck (s : State) : Bool :=
  s.shiftStuck || (s.env.turns.isEmpty && s.fl.pending != .none && !s.env.after.flashInt)

/-- SEQ waits. Where it waits for good inside an erase or program, the block's content and the device's latches are lost
(rules R208, R245, R287; log 28); but a wait for the device is for good only while WIP stays 1.

DESIGN CHOICE (log 28): rule R208 names a hang beside reset and power loss where it loses "the backup in SCRATCH ... with
the volatile memory", and rules R132 and R245 lose nothing else at a hang. The model frees the block and the latches at
the hang itself, and keeps the bytes of SCRATCH (and STAGE) until a reset comes, which loses them. -/
def State.wait (s : State) : State :=
  match s.seq.openBlock with
  | some b =>
    if s.stuck then s.leaveOpen b (!s.shiftStuck || (Config.freeByte (s.draws + blockSize)).getLsbD 1) else s
  | none => s

/-- The outcome of a machine step: an operation that ran to its end leaves SEQ idle; one that waits is still in progress,
and the next machine step goes on from there (log 9, 10). -/
def settle : Res → Host.Outcome State Fault Refusal
  | .go s => .next s.finish
  | .stop s => .next s.finish
  | .hold s => .next s.wait
  | .refuse r => .refused r

/-- An operation starts with its micro-program; none starts while another is in progress (rules R78, R289). -/
def launch (o : Operation) (program : List Micro) (s : State) : Host.Outcome State Fault Refusal :=
  if s.seq.op = none then settle (runSeq program (s.begin o)) else .refused .sequencerBusy

end Sys2Proof.Machine
end

