-- ==== Sys2Proof/Machine/Bus.lean ====
section
/-! DEFINITION. L0, the bus primitives and composites (spec/40_spi_bus_driver.md): their micro-programs and meanings. -/

namespace Sys2Proof.Machine

/-! ## The pieces every frame is made of -/

/-- WR_BYTE (rule R124). -/
def sendByte (b : ByteSource) : List Micro := [.out b, .pollTx]

/-- RD_BYTE (rule R126). -/
def takeByte (d : ByteDest) : List Micro := [.strobe, .pollRx, .inp d]

/-- WR_ADDR24 (rules R65, R125): three bytes, most significant first. -/
def sendAddress (a : FlashAddr) : List Micro :=
  sendByte (.lit (addrHigh a)) ++ sendByte (.lit (addrMid a)) ++ sendByte (.lit (addrLow a))

/-- CMD1 (rules R107, R127): a frame of one byte. -/
def bareFrame (k : Byte) : List Micro := [.csEn] ++ sendByte (.lit k) ++ [.csDis]

/-- The first `n` iterations of a loop, the counter ascending from 0; `more i` says whether another follows the `i`-th. -/
def iterations (more : Nat → Bool) (n : Nat) (body : Nat → List Micro) : List Micro :=
  (List.range n).flatMap fun i => [.push i] ++ body i ++ [.pop (more i)]

/-- A counted loop (rules R28, R305): the body for each value of its counter, in ascending order, SEQ.pc returning to the
loop head between them. -/
def forEach (n : Nat) (body : Nat → List Micro) : List Micro := iterations (fun i => decide (i + 1 < n)) n body

/-- A loop that sends byte after byte, its counter starting at `i` (rules R150, R178). -/
def sendFrom (i : Nat) : List ByteSource → List Micro
  | [] => []
  | b :: bs => [.push i] ++ sendByte b ++ [.pop (!bs.isEmpty)] ++ sendFrom (i + 1) bs

/-! ## Micro-programs -/

/-- CS_EN (rule R121). -/
def progCsEn : List Micro := [.csEn]

/-- CS_DIS (rule R122). -/
def progCsDis : List Micro := [.csDis]

/-- WR_BYTE b (rule R124). -/
def progWrByte (b : Byte) : List Micro := sendByte (.lit b)

/-- RD_BYTE (rule R126). -/
def progRdByte : List Micro := takeByte .caller

/-- WR_ADDR24 a (rule R125). -/
def progWrAddr24 (a : FlashAddr) : List Micro := sendAddress a

/-- CMD1 k (rules R127, R312). -/
def progCmd1 (k : Byte) : List Micro := [.need .writable] ++ bareFrame k

/-- One read of a port (rules R26, R72, R126). -/
def progPortRead (p : ReadablePort) : List Micro := [.readPort p]

/-! ## Meanings -/

/-- One read of a port that HOST asks for by itself: no row of the table, but the port's own effect (rules R23, R26, R72,
R126; log 32). -/
def execPortRead (p : ReadablePort) (s : State) : Host.Outcome State Fault Refusal :=
  launch (.portRead p) (progPortRead p) s

/-- CS_EN: select the device (rule R121). -/
def execCsEn (s : State) : Host.Outcome State Fault Refusal := launch (.instr .csEn) progCsEn s

/-- CS_DIS: deselect the device (rule R122). -/
def execCsDis (s : State) : Host.Outcome State Fault Refusal := launch (.instr .csDis) progCsDis s

/-- WR_BYTE: send one byte and wait until it is out (rule R124). -/
def execWrByte (b : Byte) (s : State) : Host.Outcome State Fault Refusal := launch (.instr (.wrByte b)) (progWrByte b) s

/-- RD_BYTE: strobe, wait for data-ready, read the byte (rule R126). -/
def execRdByte (s : State) : Host.Outcome State Fault Refusal := launch (.instr .rdByte) progRdByte s

/-- WR_ADDR24: send an address (rule R125). -/
def execWrAddr24 (a : FlashAddr) (s : State) : Host.Outcome State Fault Refusal :=
  launch (.instr (.wrAddr24 a)) (progWrAddr24 a) s

/-- CMD1: a one-byte frame (rule R127). -/
def execCmd1 (k : Byte) (s : State) : Host.Outcome State Fault Refusal := launch (.instr (.cmd1 k)) (progCmd1 k) s

end Sys2Proof.Machine
end

