-- ==== Sys2Proof/Machine/Wire.lean ====
section
/-! DEFINITION. L1, the wire frames (spec/41_flash_wire_commands.md rules R145 to R150): what the host does on the bus
for each; what the device does with them is Device.lean. The command bytes are the parameters of rule R96. -/

namespace Sys2Proof.Machine

/-- The frame of an addressed command: select, command byte, three address bytes, `body`, deselect (rules R61, R93).
`mark` is what SEQ notes once the frame has begun. -/
def addressedFrame (k : Byte) (a : FlashAddr) (body : List Micro) (mark : List Micro := []) : List Micro :=
  [.csEn] ++ mark ++ sendByte (.lit k) ++ sendAddress a ++ body ++ [.csDis]

/-- `m` bytes clocked out of the device for the caller (rules R94, R147, R148). -/
def takeForCaller (m : Nat) : List Micro := forEach m fun _ => takeByte .caller

/-- The list of bytes a frame hands to its caller starts empty (rules R147, R148). -/
def openReport : List Micro := [.report (.bytes [])]

/-- A list of bytes sent (rule R150). -/
def sendAll (d : List Byte) : List Micro := sendFrom 0 (d.map .lit)

/-- WREN, sent as CMD1 (rules R145, R312). -/
def progWren (c : Config) : List Micro := progCmd1 c.cmdWren

/-- WRDI, sent as CMD1 (rules R146, R312). -/
def progWrdi (c : Config) : List Micro := progCmd1 c.cmdWrdi

/-- READ (rule R147). -/
def progRead (c : Config) (a : FlashAddr) (m : BitVec 32) : List Micro :=
  openReport ++ addressedFrame c.cmdRead a (takeForCaller m.toNat)

/-- RDSR (rule R148). -/
def progRdsr (c : Config) (m : BitVec 32) : List Micro :=
  openReport ++ ([.csEn] ++ sendByte (.lit c.cmdRdsr) ++ takeForCaller m.toNat ++ [.csDis])

/-- SE (rule R149). -/
def progSe (c : Config) (a : FlashAddr) : List Micro := addressedFrame c.cmdSe a []

/-- PP (rule R150). -/
def progPp (c : Config) (a : FlashAddr) (d : List Byte) : List Micro := addressedFrame c.cmdPp a (sendAll d)

/-- A frame that is no well-formed frame of any of the six commands (rule R102): its bytes go out, what the host clocks in
comes in, and what the device makes of it are its own rules (R142 to R144, R151, R156). -/
def progRawFrame (host : List Byte) (reads : BitVec 32) : List Micro :=
  openReport ++ ([.csEn] ++ sendAll host ++ takeForCaller reads.toNat ++ [.csDis])

/-- A frame spelled out byte by byte (rule R102). -/
def execRawFrame (host : List Byte) (reads : BitVec 32) (s : State) : Host.Outcome State Fault Refusal :=
  launch (.rawFrame host reads) (progRawFrame host reads) s

/-- WREN: sets the write-enable latch (rule R145). -/
def execWren (s : State) : Host.Outcome State Fault Refusal := launch (.instr .wren) (progWren s.cfg) s

/-- WRDI: clears it (rule R146). -/
def execWrdi (s : State) : Host.Outcome State Fault Refusal := launch (.instr .wrdi) (progWrdi s.cfg) s

/-- READ: `m` consecutive bytes from `a` (rule R147). -/
def execRead (a : FlashAddr) (m : BitVec 32) (s : State) : Host.Outcome State Fault Refusal :=
  launch (.instr (.read a m)) (progRead s.cfg a m) s

/-- RDSR: `m` status bytes, each sampled anew (rule R148). -/
def execRdsr (m : BitVec 32) (s : State) : Host.Outcome State Fault Refusal :=
  launch (.instr (.rdsr m)) (progRdsr s.cfg m) s

/-- SE: starts the erase of a block if the latch is set (rule R149). -/
def execSe (a : FlashAddr) (s : State) : Host.Outcome State Fault Refusal := launch (.instr (.se a)) (progSe s.cfg a) s

/-- PP: starts a program if the latch is set (rule R150). -/
def execPp (a : FlashAddr) (d : List Byte) (s : State) : Host.Outcome State Fault Refusal :=
  launch (.instr (.pp a d)) (progPp s.cfg a d) s

end Sys2Proof.Machine
end

