-- ==== Sys2Proof/Machine/Engine.lean ====
section
/-! DEFINITION. L2, the flash block engine but for WRITE_SECTOR (spec/42_flash_block_engine.md). A `seq…` list is the
sequence another operation invokes; a `prog…` list is the operation with the conditions it starts under (rules R170,
R179, R312). -/

namespace Sys2Proof.Machine

/-! ## The sequences -/

/-- WRITABLE_ENTER (rule R171): the protect register first, then the clock/mode register. -/
def seqEnter : List Micro := [.need .enter, .readWp, .writeWp true, .control true]

/-- WRITABLE_EXIT (rule R172): the reverse. -/
def seqExit : List Micro := [.need .writable, .control false, .readWp, .writeWp false]

/-- One status frame of WAIT_WIP (rule R173). -/
def pollFrame (c : Config) : List Micro :=
  [.csEn] ++ sendByte (.lit c.cmdRdsr) ++ takeByte .status ++ [.csDis]

/-- WAIT_WIP (rule R173): a status frame, and again until SR_WIP is clear. -/
def seqWaitWip (c : Config) : List Micro := [.need .poll] ++ pollFrame c ++ [.untilIdle]

/-- READ_BURST (rule R175): one frame of 128 bytes into STAGE, in one writable-mode bracket. -/
def seqReadBurst (c : Config) (a : Nat) : List Micro :=
  seqEnter
    ++ addressedFrame c.cmdRead (toFlashAddr a) (forEach burstSize fun i => takeByte (.stage i))
    ++ seqExit ++ [.filled .stage]

/-- READ_SECTOR (rule R176): four bursts, each relayed by one ExtCopy. -/
def seqReadSector (c : Config) (sector dest : Nat) : List Micro :=
  forEach burstsPerSector fun j =>
    seqReadBurst c (sectorAddr sector + burstSize * j)
      ++ [.copy (dest + burstSize * j) c.stage.toNat burstSize]

/-- What erase and program share (rules R177, R178): writable mode, write-enable, the frame, the poll, write-disable,
restore protection. The content of block `b` hangs on it from the end of the frame (rule R287) until the poll has seen the
end, or longer where it is part of a WRITE_SECTOR that goes on (`more`). -/
def seqModify (c : Config) (b : Nat) (frame : List Micro) (more : Bool) : List Micro :=
  seqEnter ++ bareFrame c.cmdWren ++ frame ++ [.openBlock b] ++ seqWaitWip c ++ (if more then [] else [.closeBlock])
    ++ bareFrame c.cmdWrdi ++ seqExit

/-- ERASE_BLOCK (rule R177). `mark` is what SEQ notes once the erase frame has begun. -/
def seqEraseBlock (c : Config) (a : Nat) (mark : List Micro := []) (more : Bool := false) : List Micro :=
  seqModify c (a / blockSize) (addressedFrame c.cmdSe (toFlashAddr a) [] mark) more

/-- WRITE_DATA past its checks (rule R178): `n` bytes of HOSTMEM from `p`. -/
def seqWriteData (c : Config) (a p n : Nat) (more : Bool := false) : List Micro :=
  seqModify c (a / blockSize)
    (addressedFrame c.cmdPp (toFlashAddr a) (sendFrom 0 ((List.range n).map fun i => .host (p + i)))) more

/-! ## Micro-programs -/

/-- WRITABLE_ENTER. -/
def progWritableEnter : List Micro := seqEnter

/-- WRITABLE_EXIT. -/
def progWritableExit : List Micro := seqExit

/-- WAIT_WIP. -/
def progWaitWip (c : Config) : List Micro := seqWaitWip c

/-- READ_BYTE addr (rules R174, R179). -/
def progReadByte (c : Config) (a : FlashAddr) : List Micro :=
  [.need .engine, .check (decide (a.toNat < c.flashSize)) .flashRange]
    ++ seqEnter ++ addressedFrame c.cmdRead a (takeByte .caller) ++ seqExit

/-- READ_BURST addr (rules R175, R179). -/
def progReadBurst (c : Config) (a : FlashAddr) : List Micro :=
  [.need .engine, .check (decide (a.toNat + burstSize ≤ c.flashSize)) .flashRange] ++ seqReadBurst c a.toNat

/-- The flash bytes of a physical sector lie in the array (rule R179). -/
def sectorFits (c : Config) (sector : Nat) : Bool := decide (sectorAddr sector + sectorSize ≤ c.flashSize)

/-- What a READ_SECTOR destination or a WRITE_SECTOR source must be (rules R64, R176, R202, R232, R301). -/
def bufferChecks (s : State) (a : Nat) : List Micro :=
  [.check (!pastHostEnd a sectorSize) .bufferRange,
   .check (!(hitsStage s a sectorSize || hitsScratch s a sectorSize)) .bufferOverlap]

/-- READ_SECTOR for a caller: the range, the buffer, the sequence (rules R64, R176, R179, R247). -/
def checkedReadSector (s : State) (sector dest : Nat) : List Micro :=
  [.check (sectorFits s.cfg sector) .flashRange] ++ bufferChecks s dest ++ seqReadSector s.cfg sector dest

/-- READ_SECTOR sector, dest (rules R176, R180). -/
def progReadSector (s : State) (sector : FlashAddr) (dest : HostAddr) : List Micro :=
  [.need .engine] ++ checkedReadSector s sector.toNat dest.toNat ++ [.report .ok]

/-- ERASE_BLOCK addr (rules R177, R179). -/
def progEraseBlock (c : Config) (a : FlashAddr) : List Micro :=
  [.need .engine, .check (decide (a.toNat < c.flashSize)) .flashRange] ++ seqEraseBlock c a.toNat

/-- What the source of a WRITE_DATA must be: inside the host's space and its normally addressable window, and the caller's
own, since only WRITE_SECTOR reads SCRATCH and only READ_SECTOR reads STAGE, filled or not (rules R32, R33, R38, R44, R178,
R310, D37). -/
def sourceChecks (s : State) (p n : Nat) : List Micro :=
  [.check (!pastHostEnd p n) .bufferRange, .check (hostCovers s p n) .hostUnmapped,
   .check (hostReaches s p n) .outsideWindow, .check (!(hitsStage s p n || hitsScratch s p n)) .bufferOverlap]

/-- WRITE_DATA addr, p, n (rules R178, R179, R243, R247): more than 256 bytes first, which uses no port, then none, then the
page, then the ranges, then the source, then the sequence. -/
def progWriteData (s : State) (a : FlashAddr) (p : HostAddr) (n : BitVec 9) : List Micro :=
  if pageLimit < n.toNat then [.need .admitted, .rejectWrite]
  else
    [.need .engine, .check (decide (n.toNat ≠ 0)) .emptyWrite,
     .check (decide (a.toNat % pageLimit + n.toNat ≤ pageLimit)) .pageCross,
     .check (decide (a.toNat + n.toNat ≤ s.cfg.flashSize)) .flashRange]
      ++ sourceChecks s p.toNat n.toNat ++ seqWriteData s.cfg a.toNat p.toNat n.toNat ++ [.report .ok]

/-! ## Meanings -/

/-- WRITABLE_ENTER: unlock the flash, CTRL <- CTRL_XFER (rule R171). -/
def execWritableEnter (s : State) : Host.Outcome State Fault Refusal := launch (.instr .writableEnter) progWritableEnter s

/-- WRITABLE_EXIT: CTRL <- CTRL_IDLE, lock the flash (rule R172). -/
def execWritableExit (s : State) : Host.Outcome State Fault Refusal := launch (.instr .writableExit) progWritableExit s

/-- WAIT_WIP: poll the flash status until no erase or program is under way (rule R173). -/
def execWaitWip (s : State) : Host.Outcome State Fault Refusal := launch (.instr .waitWip) (progWaitWip s.cfg) s

/-- READ_BYTE (rule R174). -/
def execReadByte (a : FlashAddr) (s : State) : Host.Outcome State Fault Refusal :=
  launch (.instr (.readByte a)) (progReadByte s.cfg a) s

/-- READ_BURST (rule R175). -/
def execReadBurst (a : FlashAddr) (s : State) : Host.Outcome State Fault Refusal :=
  launch (.instr (.readBurst a)) (progReadBurst s.cfg a) s

/-- READ_SECTOR (rule R176). -/
def execReadSector (sector : FlashAddr) (dest : HostAddr) (s : State) : Host.Outcome State Fault Refusal :=
  launch (.instr (.readSector sector dest)) (progReadSector s sector dest) s

/-- ERASE_BLOCK (rule R177). -/
def execEraseBlock (a : FlashAddr) (s : State) : Host.Outcome State Fault Refusal :=
  launch (.instr (.eraseBlock a)) (progEraseBlock s.cfg a) s

/-- WRITE_DATA (rule R178). -/
def execWriteData (a : FlashAddr) (p : HostAddr) (n : BitVec 9) (s : State) : Host.Outcome State Fault Refusal :=
  launch (.instr (.writeData a p n)) (progWriteData s a p n) s

end Sys2Proof.Machine
end

