-- ==== Sys2Proof/Machine/Sector.lean ====
section
/-! DEFINITION. L2, WRITE_SECTOR: backup, merge, erase, restore (spec/43_sector_backup_buffer.md). -/

namespace Sys2Proof.Machine

/-- Backup (rule R203): the eight sectors of block `g` into the buffer at `q`. The destination is SCRATCH itself, so
rule R64's check of a caller's buffer does not apply (rule R310). -/
def seqBackup (c : Config) (g q : Nat) : List Micro :=
  forEach sectorsPerBlock (fun i => seqReadSector c (sectorsPerBlock * g + i) (q + sectorSize * i))
    ++ [.filled .scratch]

/-- Restore (rule R206): thirty-two chunks from the buffer at `q` to the block at `base`, whose content hangs on it until
the last (rules R208, R287). -/
def seqRestore (c : Config) (base q : Nat) : List Micro :=
  forEach chunksPerBlock fun k =>
    seqWriteData c (base + burstSize * k) (q + burstSize * k) burstSize (more := decide (k + 1 < chunksPerBlock))

/-- WRITE_SECTOR past its checks (rule R202), the scratch buffer at `q`. The block's content hangs on it from the start of
the erase frame (rules R205, R208). -/
def seqWriteSector (c : Config) (q sector src : Nat) : List Micro :=
  seqBackup c (blockOf sector) q
    ++ [.copy (q + sectorOffset sector) src sectorSize]
    ++ seqEraseBlock c (blockBase sector) (mark := [.openBlock (blockOf sector)]) (more := true)
    ++ seqRestore c (blockBase sector) q

/-- The address of SCRATCH; 0 where there is none, which the check before every use refuses (rule R31). -/
def scratchAddr (s : State) : Nat :=
  match s.ctx.scratch with
  | some q => q.toNat
  | none => 0

/-- WRITE_SECTOR for a caller: the range, the buffers, the sequence (rules R64, R179, R202, R247). -/
def checkedWriteSector (s : State) (sector src : Nat) : List Micro :=
  [.check (sectorFits s.cfg sector) .flashRange, .check s.ctx.scratch.isSome .noScratch] ++ bufferChecks s src
    ++ seqWriteSector s.cfg (scratchAddr s) sector src

/-- WRITE_SECTOR sector, src (rules R180, R202). -/
def progWriteSector (s : State) (sector : FlashAddr) (src : HostAddr) : List Micro :=
  [.need .engine] ++ checkedWriteSector s sector.toNat src.toNat ++ [.report .ok]

/-- WRITE_SECTOR (rule R202). -/
def execWriteSector (sector : FlashAddr) (src : HostAddr) (s : State) : Host.Outcome State Fault Refusal :=
  launch (.instr (.writeSector sector src)) (progWriteSector s sector src) s

end Sys2Proof.Machine
end

