-- ==== Sys2Proof/Machine/Disk.lean ====
section
/-! DEFINITION. L3, the host commands and SETUP (spec/44_disk_adapter.md). HOST writes the OP record it asks with
(rules R39, R220), then the command runs. -/

namespace Sys2Proof.Machine

/-- The OP record as HOST writes it; the status is the old one until the command returns (rule R39). -/
def State.asks (s : State) (k : Byte) (lba : Lba) (count : SectorCount) (buf : HostAddr) : State :=
  s.withOp { s.op with command := k, lba := lba, count := count, buf := buf }

/-- READ and WRITE ask for a range of the drive and a buffer inside the host's address space (rules R230, R232, R247). -/
def transferChecks (lba : Lba) (count : SectorCount) (buf : HostAddr) : List Micro :=
  [.need .command, .check (decide (lba.toNat + count.toNat ≤ diskSectors)) .diskRange,
   .check (!pastHostEnd buf.toNat (sectorSize * count.toNat)) .bufferRange]

/-- One sector of a READ: the engine operation with what it asks before its first step (rules R170, R224). -/
def readOne (s : State) (sector dest : Nat) : List Micro := .need .engine :: checkedReadSector s sector dest

/-- One sector of a WRITE (rules R170, R225). -/
def writeOne (s : State) (sector src : Nat) : List Micro := .need .engine :: checkedWriteSector s sector src

/-- A command that does nothing but report success (rules R226 to R228, R312). -/
def progNoOp (c : Config) : List Micro := [.need .command, .status c.stSuccess]

/-- DISK_READ (rule R224). -/
def progDiskRead (s : State) (lba : Lba) (count : SectorCount) (buf : HostAddr) : List Micro :=
  transferChecks lba count buf
    ++ (forEach count.toNat fun i =>
      readOne s (lba2slba s.cfg (lba.toNat + i)) (buf.toNat + sectorSize * i))
    ++ [.status s.cfg.stSuccess]

/-- DISK_WRITE (rule R225). -/
def progDiskWrite (s : State) (lba : Lba) (count : SectorCount) (buf : HostAddr) : List Micro :=
  transferChecks lba count buf
    ++ (forEach count.toNat fun i =>
      writeOne s (lba2slba s.cfg (lba.toNat + i)) (buf.toNat + sectorSize * i))
    ++ [.status s.cfg.stSuccess]

/-- DISK_VERIFY (rule R226). -/
def progDiskVerify (c : Config) : List Micro := progNoOp c

/-- DISK_FORMAT (rule R227): nothing is erased. -/
def progDiskFormat (c : Config) : List Micro := progNoOp c

/-- DISK_RESET (rule R228): nothing is reset. -/
def progDiskReset (c : Config) : List Micro := progNoOp c

/-- DISK_UNKNOWN (rules R229, R242): X1. -/
def progDiskUnknown : List Micro := [.need .command, .paramError]

/-- SETUP (rules R222, R235). -/
def progSetup : List Micro := [.need .setup, .readBase, .clearErr, .alloc, .registerBoot]

/-- DISK_RESET: a no-op reporting success (rule R228). -/
def execDiskReset (lba : Lba) (count : SectorCount) (buf : HostAddr) (s : State) : Host.Outcome State Fault Refusal :=
  launch (.instr (.diskReset lba count buf)) (progDiskReset s.cfg) (s.asks s.cfg.hcReset lba count buf)

/-- DISK_READ: a READ_SECTOR for each logical sector (rule R224). -/
def execDiskRead (lba : Lba) (count : SectorCount) (buf : HostAddr) (s : State) : Host.Outcome State Fault Refusal :=
  launch (.instr (.diskRead lba count buf)) (progDiskRead s lba count buf) (s.asks s.cfg.hcRead lba count buf)

/-- DISK_WRITE: a WRITE_SECTOR for each logical sector (rule R225). -/
def execDiskWrite (lba : Lba) (count : SectorCount) (buf : HostAddr) (s : State) : Host.Outcome State Fault Refusal :=
  launch (.instr (.diskWrite lba count buf)) (progDiskWrite s lba count buf) (s.asks s.cfg.hcWrite lba count buf)

/-- DISK_VERIFY: a no-op reporting success (rule R226). -/
def execDiskVerify (lba : Lba) (count : SectorCount) (buf : HostAddr) (s : State) :
    Host.Outcome State Fault Refusal :=
  launch (.instr (.diskVerify lba count buf)) (progDiskVerify s.cfg) (s.asks s.cfg.hcVerify lba count buf)

/-- DISK_FORMAT: a no-op reporting success (rule R227). -/
def execDiskFormat (lba : Lba) (count : SectorCount) (buf : HostAddr) (s : State) :
    Host.Outcome State Fault Refusal :=
  launch (.instr (.diskFormat lba count buf)) (progDiskFormat s.cfg) (s.asks s.cfg.hcFormat lba count buf)

/-- DISK_UNKNOWN: the count becomes zero and the status a parameter error (rule R229). -/
def execDiskUnknown (k : Byte) (lba : Lba) (count : SectorCount) (buf : HostAddr) (s : State) :
    Host.Outcome State Fault Refusal :=
  launch (.instr (.diskUnknown k lba count buf)) progDiskUnknown (s.asks k lba count buf)

/-- SETUP: the block's initialisation (rule R222). -/
def execSetup (s : State) : Host.Outcome State Fault Refusal := launch (.instr .setup) progSetup s

end Sys2Proof.Machine
end

