-- ==== Sys2Proof/Machine/Dispatch.lean ====
section
/-! DEFINITION. One arm an operation: each calls its own meaning. -/

namespace Sys2Proof.Machine

def exec (i : Instr) (s : State) : Host.Outcome State Fault Refusal :=
  match i with
  | .csEn => Sys2Proof.Machine.execCsEn s
  | .csDis => Sys2Proof.Machine.execCsDis s
  | .wrByte b => Sys2Proof.Machine.execWrByte b s
  | .rdByte => Sys2Proof.Machine.execRdByte s
  | .wrAddr24 a => Sys2Proof.Machine.execWrAddr24 a s
  | .cmd1 c => Sys2Proof.Machine.execCmd1 c s
  | .wren => Sys2Proof.Machine.execWren s
  | .wrdi => Sys2Proof.Machine.execWrdi s
  | .read a m => Sys2Proof.Machine.execRead a m s
  | .rdsr m => Sys2Proof.Machine.execRdsr m s
  | .se a => Sys2Proof.Machine.execSe a s
  | .pp a d => Sys2Proof.Machine.execPp a d s
  | .writableEnter => Sys2Proof.Machine.execWritableEnter s
  | .writableExit => Sys2Proof.Machine.execWritableExit s
  | .waitWip => Sys2Proof.Machine.execWaitWip s
  | .readByte a => Sys2Proof.Machine.execReadByte a s
  | .readBurst a => Sys2Proof.Machine.execReadBurst a s
  | .readSector sector dest => Sys2Proof.Machine.execReadSector sector dest s
  | .eraseBlock a => Sys2Proof.Machine.execEraseBlock a s
  | .writeData a p n => Sys2Proof.Machine.execWriteData a p n s
  | .writeSector sector src => Sys2Proof.Machine.execWriteSector sector src s
  | .diskReset lba count buf => Sys2Proof.Machine.execDiskReset lba count buf s
  | .diskRead lba count buf => Sys2Proof.Machine.execDiskRead lba count buf s
  | .diskWrite lba count buf => Sys2Proof.Machine.execDiskWrite lba count buf s
  | .diskVerify lba count buf => Sys2Proof.Machine.execDiskVerify lba count buf s
  | .diskFormat lba count buf => Sys2Proof.Machine.execDiskFormat lba count buf s
  | .diskUnknown k lba count buf => Sys2Proof.Machine.execDiskUnknown k lba count buf s
  | .setup => Sys2Proof.Machine.execSetup s

end Sys2Proof.Machine
end

