-- ==== Sys2Proof/Machine/Programs.lean ====
section
/-! DEFINITION. Every operation's micro-program by its name (spec/10_state.md rule R28: the micro-programs are fixed;
rule R81 of spec/20_memory.md: they are stored nowhere), going on with an operation in progress, taking up a request
(spec/00_scope.md rule R6, agent HOST), and the hardware reset (spec/70_reset_and_hazards.md rules R271, R287). -/

namespace Sys2Proof.Machine

/-- The micro-program of an operation. -/
def programOf (s : State) : Operation → List Micro
  | .instr .csEn => progCsEn
  | .instr .csDis => progCsDis
  | .instr (.wrByte b) => progWrByte b
  | .instr .rdByte => progRdByte
  | .instr (.wrAddr24 a) => progWrAddr24 a
  | .instr (.cmd1 k) => progCmd1 k
  | .instr .wren => progWren s.cfg
  | .instr .wrdi => progWrdi s.cfg
  | .instr (.read a m) => progRead s.cfg a m
  | .instr (.rdsr m) => progRdsr s.cfg m
  | .instr (.se a) => progSe s.cfg a
  | .instr (.pp a d) => progPp s.cfg a d
  | .instr .writableEnter => progWritableEnter
  | .instr .writableExit => progWritableExit
  | .instr .waitWip => progWaitWip s.cfg
  | .instr (.readByte a) => progReadByte s.cfg a
  | .instr (.readBurst a) => progReadBurst s.cfg a
  | .instr (.readSector sector dest) => progReadSector s sector dest
  | .instr (.eraseBlock a) => progEraseBlock s.cfg a
  | .instr (.writeData a p n) => progWriteData s a p n
  | .instr (.writeSector sector src) => progWriteSector s sector src
  | .instr (.diskReset _ _ _) => progDiskReset s.cfg
  | .instr (.diskRead lba count buf) => progDiskRead s lba count buf
  | .instr (.diskWrite lba count buf) => progDiskWrite s lba count buf
  | .instr (.diskVerify _ _ _) => progDiskVerify s.cfg
  | .instr (.diskFormat _ _ _) => progDiskFormat s.cfg
  | .instr (.diskUnknown _ _ _ _) => progDiskUnknown
  | .instr .setup => progSetup
  | .portRead p => progPortRead p
  | .rawFrame host reads => progRawFrame host reads

/-- What is left of an operation in progress: the micro-actions from the position on. -/
def remaining (s : State) (o : Operation) : List Micro := (programOf s o).drop s.seq.pos

/-- The operation in progress goes on from where it waits (rules R28, R123). -/
def goOn (s : State) (o : Operation) : Host.Outcome State Fault Refusal := settle (runSeq (remaining s o) s)

/-- The next request of HOST, taken off the queue. -/
def nextInput (s : State) : Option (Input × State) :=
  match s.env.inputs with
  | [] => none
  | x :: rest => some (x, s.withEnv { s.env with inputs := rest })

/-- HOST's own store to its memory, where it has access: not to SCRATCH, not to STAGE (rules R32, R38, R42; log 34). -/
def hostInput (a : Nat) (d : List Byte) (s : State) : Host.Outcome State Fault Refusal :=
  if !hostCovers s a d.length then .refused .hostUnmapped
  else if hitsStage s a d.length || hitsScratch s a d.length then .refused .hostNoAccess
  else .next (hostStore s a d)

/-- Nothing to do: only SHIFT and FLASH_INT act, and ERR holds what it holds (rules R25, R43, R153). -/
def idleTurn (s : State) : Host.Outcome State Fault Refusal :=
  match takeTurn s with
  | .ok t => .next t.drawErr
  | .error r => .refused r

/-- The request put where the next machine step takes it up. -/
def placeRequest (r : Request) (s : State) : State :=
  (s.withSeq { s.seq with op := none, pc := 0, pos := 0 }).withEnv { s.env with inputs := .request r :: s.env.inputs }

/-! ## Reset -/

/-- The block a reset leaves open: the one an erase, a program or a WRITE_SECTOR in progress has begun to change, else
the one the device is still erasing or programming (rules R208, R287).

DESIGN CHOICE (log 28): rule R287 leaves FL.WEL, FL.WIP and FL.pending unspecified "until the next reset", rule R271
clears the latches at a reset with SEQ at IDLE, and rule R43 puts a reset during an erase or program outside the spec
(D28). Where the device still has something pending at a reset (a bare SE or PP frame, or what an earlier cut has drawn
into FL.pending), or the operation in progress at the reset hangs, the model does not clear them: it takes the reset as
one during an erase or program and draws the block, the latches and what is pending (again). -/
def interruptedBlock (s : State) : Option Nat :=
  match s.seq.openBlock, s.fl.pending with
  | some b, _ => some b
  | none, .erase b => some b
  | none, .program a _ => some (a.toNat / blockSize)
  | none, .none => none

/-- The `n`-th value a reset draws, past those of the device. -/
def State.drawn (s : State) (n : Nat) : Byte := Config.freeByte (s.draws + cutShortDraws + n)

/-- Values a reset draws, from the `n`-th on. -/
def State.drawnMany (s : State) (n k : Nat) : List Byte := freeList (s.draws + cutShortDraws + n) k

/-- HOSTMEM after a reset: SCRATCH and STAGE hold nothing any more (rules R43, R271), so their bytes are free. -/
def hostAfterReset (s : State) : Memory :=
  let m := s.host.splice s.cfg.stage.toNat (s.drawnMany 0 burstSize)
  match s.ctx.scratch with
  | some q => m.splice q.toNat (s.drawnMany burstSize blockSize)
  | none => m

/-- The device after a reset: its frame is closed; FL.MEM is as it was, its latches are clear and nothing is under way
(rules R34, R43, R271); where a write was cut short, the block concerned is free and the latches are unspecified (rules
R208, R287), also where the cut is an earlier one that has left something pending (DESIGN CHOICE: `interruptedBlock`,
log 28). -/
def deviceAfterReset (s : State) : Flash :=
  match interruptedBlock s with
  | none => { s.fl with wel := false, wip := false, phase := .idle, pending := .none }
  | some b => { s.fl.cutShort s.cfg s.draws b ((s.drawn 4224).getLsbD 0) with phase := .idle }

/-- CFG_WP after a reset: its managed bits are WP_CLOSED (rule R43); where a write was cut short the flash may be left
unlocked (rule R287). Its other bits are as they were (log 28). -/
def wpAfterReset (s : State) : BitVec 32 :=
  wpValue s.cfg s.chip.wp ((interruptedBlock s).isSome && (s.drawn 4224).getLsbD 1)

/-- A hardware reset (rules R43, R271, R287): every shift-engine register, the device context, DRIVE, SCRATCH and STAGE
are lost, FL.MEM stays, and what the table of rule R43 gives no value is free; CTRL, which that table draws, can only be
CTRL_IDLE, since rules R45, R272 and R275 leave it no other value (log 18, DEDUCED). DESIGN CHOICE (log 28; the rules are
silent): HOSTMEM outside SCRATCH and STAGE, OP, CFG_SPIBASE, the bits of CFG_WP outside WP_MASK, and what the device's
decoder holds of its last frame stay as they were. -/
def hardReset (s : State) : State :=
  let f := fun n => s.drawn (4225 + n)
  let g := fun n => Config.freeNat (s.draws + cutShortDraws + n)
  { sh :=
      { txd := f 0, rxd := f 1, shift := f 2, bitcnt := 0, busy := false
        txDone := (f 3).getLsbD 0, rxReady := (f 3).getLsbD 1, ctrl := s.cfg.ctrlIdle, cs := false, err := f 5, rxdHeld := false
        dir := .transmit, sub := 0, mosiByte := f 6, misoByte := f 7, misoFree := f 4, sample := f 8 }
    wire := { csn := true, sck := false, mosi := (f 3).getLsbD 2, miso := (f 3).getLsbD 3 }
    seq :=
      { op := none, pc := 0, pos := 0, byte := f 9, stat := f 10, word := f 13 ++ f 14 ++ f 15 ++ f 16, loops := []
        wipSeen := (f 3).getLsbD 4, openBlock := none }
    chip := { s.chip with wp := wpAfterReset s }
    ctx := { base := f 11 ++ f 12, ready := false, mode := .isProtected, scratch := none, aborted := false }
    fl := deviceAfterReset s
    host := hostAfterReset s
    filled := { stage := false, scratch := false }
    op := s.op
    drive :=
      { cylinders := g 0, heads := g 1, spt := g 2, sectorSize := g 3, sectors := g 4, registered := false }
    report := .none
    cfg := s.cfg
    env := s.env
    draws := s.draws + cutShortDraws + 4242
    trace := [] }

end Sys2Proof.Machine
end

