-- ==== Sys2Proof/Machine/Step.lean ====
section
/-! DEFINITION. One machine step. A reset is taken whenever it comes; an operation in progress goes on; otherwise HOST's
next request is decoded and executed, after the other agents have had their turn (log 9, 17). -/

namespace Sys2Proof.Machine

/-- A request that is no operation of the table: a wire frame goes out as it is and the device ignores it (rule R102); an
L0 request (rules R42, R62, R101, R107: an access that the rules refuse, or writes that are no primitive and no composite)
and an L2 request (rule R103) are refused. -/
def runUndecoded (r : Request) (e : DecodeError) (s : State) : Host.Outcome State Fault Refusal :=
  match r with
  | .frame host reads => execRawFrame host reads s
  | _ => .refused (.undecodable e)

/-- A request, decoded and executed. -/
def runRequest (r : Request) (s : State) : Host.Outcome State Fault Refusal :=
  match decode s.cfg r with
  | .instr i => exec i s
  | .portRead p => execPortRead p s
  | .reject e => runUndecoded r e s

/-- The turn of SHIFT and FLASH_INT, then the request. -/
def takeRequest (r : Request) (s : State) : Host.Outcome State Fault Refusal :=
  match takeTurn s with
  | .ok t => runRequest r t
  | .error e => .refused e

/-- What HOST does next, or nothing. -/
def takeInput (s : State) : Host.Outcome State Fault Refusal :=
  match nextInput s with
  | some (.request r, t) => takeRequest r t
  | some (.store a d, t) => hostInput a d t
  | some (.reset, t) => .next (hardReset t)
  | none => idleTurn s

/-- A reset is next on the queue. -/
def resetAsked (s : State) : Bool := s.env.inputs.head? == some .reset

/-- One step of the machine. -/
def step (s : State) : Host.Outcome State Fault Refusal :=
  if resetAsked s then takeInput s
  else
    match s.seq.op with
    | some o => goOn s o
    | none => takeInput s

/-- The state in which the next step takes up the operation of an opcode-table number: its request is the first of
HOST's queue and SEQ is idle (log 16, 17). A number that fits no row leaves the state as it is. -/
def State.withFetchWord (s : State) (nbits w : Nat) : State :=
  match tableRequest Config.default nbits w with
  | some r => placeRequest r s
  | none => s

end Sys2Proof.Machine
end

