-- ==== Sys2Proof/Safety.lean ====
section
/-! DEFINITION. What counts as a sound state of the block, the premises claims are stated under, and the relations that
say what an operation leaves alone. -/

namespace Sys2Proof.Machine

/-! ## How SHIFT and FLASH_INT act -/

/-- SHIFT and FLASH_INT are done before the next action of SEQ: every byte is across, every erase and program complete,
at the first poll. -/
abbrev State.prompt (s : State) : Prop :=
  s.env.turns = [] ∧ 24 ≤ s.env.after.shiftSteps ∧ s.env.after.flashInt = true

/-- SHIFT is done before the next action of SEQ, and FLASH_INT has nothing to do or does nothing: an erase under way
stays under way. -/
abbrev State.calm (s : State) : Prop :=
  s.env.turns = [] ∧ 24 ≤ s.env.after.shiftSteps ∧ (s.fl.pending = .none ∨ s.env.after.flashInt = false)

/-- The two fairness premises (rules R132, R153): once the turns written down are used up, SHIFT moves at every turn and
FLASH_INT completes. -/
abbrev State.fair (s : State) : Prop := 0 < s.env.after.shiftSteps ∧ s.env.after.flashInt = true

/-- SEQ's next action comes at once: no pause before it, and FLASH_INT has nothing to do by then or does nothing. -/
abbrev State.atOnce (s : State) : Prop :=
  s.pauses = false ∧ (s.fl.pending = .none ∨ (s.env.turns.headD s.env.after).flashInt = false)

/-! ## Where an operation may start -/

/-- A bus primitive or a frame may be asked for: SEQ idle, SETUP done, writable-protocol mode, no byte being shifted, and
the engine's ports fit 16 bits (rule R300; log 30). -/
abbrev State.onBus (s : State) : Prop :=
  s.seq.op = none ∧ s.ctx.ready = true ∧ s.canTransfer = true ∧ s.sh.busy = false ∧ s.portsFit = true

/-- An engine operation may be asked for (rules R45, R170), under parameters that meet item U15, the engine's ports fitting
16 bits. -/
abbrev State.atEngine (s : State) : Prop :=
  s.seq.op = none ∧ s.ctx.ready = true ∧ s.quiescent = true ∧ s.portsFit = true ∧ s.cfg.ok = true

/-- A host command may be asked for (rules R220, R312). -/
abbrev State.atCommand (s : State) : Prop :=
  s.seq.op = none ∧ s.ctx.ready = true ∧ s.ctx.mode = .isProtected ∧ s.sh.cs = false ∧ s.fl.wip = false

/-! ## What stays as it was -/

/-- The platform around the bus: chipset registers, device context, HOSTMEM, OP, DRIVE, parameters, the outside and CTRL
are as they were, and SEQ is as idle or as busy. (ERR is drawn: rule R25, log 27.) -/
structure SamePlatform (s t : State) : Prop where
  chip  : t.chip = s.chip
  ctx   : t.ctx = s.ctx
  host  : t.host = s.host
  filled : t.filled = s.filled
  op    : t.op = s.op
  drive : t.drive = s.drive
  cfg   : t.cfg = s.cfg
  env   : t.env = s.env
  ctrl  : t.sh.ctrl = s.sh.ctrl
  seqOp : t.seq.op = s.seq.op

/-- CFG_WP, at its width, with its managed bits WP_CLOSED and the others as they were (rules R30, R172, R303). -/
def State.lockedWp (s : State) : BitVec 32 :=
  clip s.cfg.wpReg.width ((clip s.cfg.wpReg.width s.chip.wp &&& ~~~ s.cfg.wpMask) ||| s.cfg.wpClosed)

/-- What an engine operation leaves alone outside the flash array and host memory: the device context, DRIVE, the
parameters, CFG_SPIBASE, CFG_WP but for its managed bits (now WP_CLOSED), HOST's queue and the other agents' turns; what
SCRATCH and STAGE hold is not lost; and it ends quiescent, SEQ idle (rules R30, R170, R172). `copies` is how many copies
it made. (ERR is drawn: rule R25, log 27.) -/
structure EngineFrame (copies : Nat) (s t : State) : Prop where
  ctx       : t.ctx = s.ctx
  drive     : t.drive = s.drive
  cfg       : t.cfg = s.cfg
  chip      : t.chip = { s.chip with wp := s.lockedWp }
  env       : t.env = { s.env with copies := s.env.copies.drop copies }
  stage     : s.filled.stage = true → t.filled.stage = true
  scratch   : s.filled.scratch = true → t.filled.scratch = true
  quiescent : t.quiescent = true
  idle      : t.seq.op = none

/-- What a wire frame leaves alone, and how it leaves the bus: the platform and the flash content are as they were, the
device is deselected and its frame closed, no byte is being shifted, and `last` is the last byte the host sent
(rules R122, R124, R151). -/
structure FrameClosed (last : Byte) (s t : State) : Prop where
  platform : SamePlatform s t
  mem      : t.fl.mem = s.fl.mem
  phase    : t.fl.phase = .idle
  cs       : t.sh.cs = false
  csn      : t.wire.csn = true
  busy     : t.sh.busy = false
  txd      : t.sh.txd = last
  txDone   : t.sh.txDone = true

/-- RXD, whether it holds a value, and RX_READY are as they were (rules R44, R124). -/
abbrev SameReceiver (s t : State) : Prop :=
  t.sh.rxd = s.sh.rxd ∧ t.sh.rxReady = s.sh.rxReady ∧ t.sh.rxdHeld = s.sh.rxdHeld

/-- WEL, WIP and what is pending are as they were. -/
abbrev SameLatches (s t : State) : Prop :=
  t.fl.wel = s.fl.wel ∧ t.fl.wip = s.fl.wip ∧ t.fl.pending = s.fl.pending

/-- Every copy the outside is asked for from here on succeeds (rule R9). -/
abbrev State.copiesSucceed (s : State) : Prop := ∀ b ∈ s.env.copies, b = true

/-- The `k`-th copy the outside is asked for from here on succeeds (rule R9). -/
def State.copyOk (s : State) (k : Nat) : Bool := (s.env.copies.drop k).headD true

/-- The `k`-th WRITE_SECTOR of a DISK_WRITE, of physical sector `sector`, keeps the flash byte at `x`: the byte lies in
another block, or the copy that backs its 128-byte chunk up succeeds (rules R203, R204, R250). -/
def State.keeps (s : State) (k sector x : Nat) : Prop :=
  x / blockSize = blockOf sector → s.copyOk (33 * k + x % blockSize / burstSize) = true

/-- The buffers the engine itself uses are there: STAGE and the allocated scratch buffer at `q` lie in host memory, inside
the normally addressable window, and do not overlap (rules R32, R33, R310). -/
structure Buffers (q : HostAddr) (s : State) : Prop where
  allocated : s.ctx.scratch = some q
  stage     : hostReaches s s.cfg.stage.toNat burstSize = true
  scratch   : hostReaches s q.toNat blockSize = true
  apart     : hitsStage s q.toNat blockSize = false

/-- A caller's buffer of `n` bytes at `a`: in host memory, inside the 32-bit space, away from STAGE and SCRATCH (rules
R64, R232). -/
structure CallerBuffer (s : State) (a n : Nat) : Prop where
  present : hostCovers s a n = true
  fits    : pastHostEnd a n = false
  stage   : hitsStage s a n = false
  scratch : hitsScratch s a n = false

/-- Host memory is as it was outside STAGE and the `n` bytes from `a`. -/
def State.SameHostBut (a n : Nat) (s t : State) : Prop :=
  ∀ x, x < a ∨ a + n ≤ x → x < s.cfg.stage.toNat ∨ s.cfg.stage.toNat + burstSize ≤ x → t.host.read x = s.host.read x

/-- The block waits for an erase or program that never completes: WAIT_WIP is in progress at the head of its loop, SHIFT
is prompt, and FLASH_INT does nothing (rules R153, R245). -/
structure Hung (s : State) : Prop where
  op      : s.seq.op = some (.instr .waitWip)
  pos     : s.seq.pos = 1
  openBlock : s.seq.openBlock = none
  shift   : s.env.turns = [] ∧ 24 ≤ s.env.after.shiftSteps
  dead    : s.env.after.flashInt = false
  wip     : s.fl.wip = true
  ready   : s.ctx.ready = true
  transfer : s.canTransfer = true
  busy    : s.sh.busy = false
  cs      : s.sh.cs = false
  phase   : s.fl.phase = .idle
  noReset : resetAsked s = false
  ports   : s.portsFit = true
  ok      : s.cfg.ok = true

/-- So many machine steps lead from one state to the other, each to a next state. -/
def State.stepsTo : Nat → State → State → Prop
  | 0, s, t => t = s
  | n + 1, s, t => ∃ u, step s = .next u ∧ State.stepsTo n u t

/-- Every address of a memory outside the `n` addresses from `a` reads as before. -/
def Memory.SameOutside (a n : Nat) (m m' : Memory) : Prop := ∀ x, x < a ∨ a + n ≤ x → m'.read x = m.read x

/-- Every address reads as before. -/
def Memory.Same (m m' : Memory) : Prop := ∀ x, m'.read x = m.read x

/-! ## The invariant of the machine -/

/-- What is so between any two actions, in every mode and in the middle of every operation. -/
structure Invariant (s : State) : Prop where
  /-- FL.MEM and HOSTMEM are in their canonical form. -/
  flashForm : s.fl.mem.wf = true
  hostForm  : s.host.wf = true
  /-- FL.pending ≠ NONE exactly when FL.WIP = 1 (rule R37). -/
  pendingWip : s.fl.wip = true ↔ s.fl.pending ≠ .none
  /-- A pending program has 1 to 256 bytes (rule R37). -/
  programSize : ∀ a d, s.fl.pending = .program a d → 1 ≤ d.length ∧ d.length ≤ 256
  /-- FL.page has the data bytes of the frame, at most 256 (rules R36, R144). -/
  pageSize : s.fl.page.length = s.fl.pageN ∧ s.fl.pageN ≤ 256
  /-- CSn = 0 exactly when CS = 1 (rule R27). -/
  selectLine : s.wire.csn = !s.sh.cs
  /-- The device's frame is open exactly while it is selected (rules R36, R141, R151). -/
  frameOpen : s.fl.phase ≠ .idle ↔ s.sh.cs = true
  /-- A byte is shifted only while the device is selected (rule R131). -/
  busySelected : s.sh.busy = true → s.sh.cs = true
  /-- BITCNT counts the bits still to shift: none exactly when no byte is being shifted (rule R21). -/
  bitCount : s.sh.bitcnt ≤ 8 ∧ (s.sh.busy = true ↔ s.sh.bitcnt ≠ 0)
  /-- SCK rests at 0 (rules R27, R128). -/
  clockRests : s.sh.busy = false → s.wire.sck = false
  /-- A chipset register holds nothing beyond its width (rules R29, R30, R303). -/
  chipWidths : clip s.cfg.spiBaseReg.width s.chip.spiBase = s.chip.spiBase ∧ clip s.cfg.wpReg.width s.chip.wp = s.chip.wp

end Sys2Proof.Machine
end

