-- ==== Sys2Proof/Certificates/Slice0/Obligations.lean ====
section
/-! DEFINITION. The statements about the SPIFLASH block, from the numbered rules of spec/. A premise is on the state and
the operands alone; `calm` and `prompt` say that SHIFT (and FLASH_INT) act at once, which is the named fairness premise of
rules R132 and R153 in its simplest form (log 9). -/

open Sys2Proof Sys2Proof.Machine

/-- Decoding undoes encoding, for all 28 operations and every value of every operand (rules R92 to R100, R107). Well-
formed means: a page program of at most 256 bytes (rule R94), an unknown command byte that is none of the five (rule
R104). -/
def Obligations.EncodedOperationsDecode : Prop :=
  ∀ (c : Config) (i : Instr), c.ok = true → i.wellFormed c = true → decode c (encode c i) = .instr i

/-- The other direction, for the two spaces in which each form has one meaning: what the decoder accepts, the encoder
writes back bit for bit (rules R93 to R95, R100). -/
def Obligations.FramesDecodeToTheirEncoding : Prop :=
  ∀ (c : Config) (i : Instr),
    (∀ host reads, decode c (.frame host reads) = .instr i → i.wellFormed c = true ∧ encode c i = .frame host reads)
    ∧ (c.ok = true → ∀ k lba count buf, decode c (.disk k lba count buf) = .instr i →
        i.wellFormed c = true ∧ encode c i = .disk k lba count buf)

/-- A few encodings written out from rules R92, R96, R98 and R100 under the defaults of rule R8 (which are parameters:
log 2). -/
def Obligations.WrittenWordsDecode : Prop :=
  decode Config.default (.bus [(4, 0x00)]) = .instr .csEn
    ∧ decode Config.default (.bus [(4, 0x01)]) = .instr .csDis
    ∧ decode Config.default (.bus [(0, 0x06)]) = .instr (.wrByte 0x06)
    ∧ decode Config.default (.bus [(1, 0x00)]) = .instr .rdByte
    ∧ decode Config.default (.frame [0x03, 0x00, 0x12, 0x00] 3) = .instr (.read 0x001200 3)
    ∧ decode Config.default (.frame [0x20, 0x00, 0x10, 0x00] 0) = .instr (.se 0x001000)
    ∧ decode Config.default (.frame [0x02, 0x00, 0x10, 0x80, 0xAA, 0x55] 0) = .instr (.pp 0x001080 [0xAA, 0x55])
    ∧ decode Config.default (.engine 0x5 9 0x100000 0) = .instr (.readSector 9 0x100000)
    ∧ decode Config.default (.disk 0x02 7 1 0x100000) = .instr (.diskRead 7 1 0x100000)
    ∧ decode Config.default (.disk 0x08 7 4 0x100000) = .instr (.diskUnknown 0x08 7 4 0x100000)

/-- Rules R101, R62, R24, R26 for L0; rule R103 for L2. That a write to REG_CTRL or REG_ERR by itself is refused is
the reading of the model, log 32, DEDUCED from rule R101, which only says that it is no L0 primitive; that a read of
REG_ERR is refused is log 32 too, DEDUCED from rules R25 and R42. -/
def Obligations.RequestsThatNameNothing : Prop :=
  (∀ s : State, s.cfg.ok = true →
      (∀ v, v ≠ s.cfg.csAssert → v ≠ s.cfg.csDeassert →
        runRequest (.bus [(s.cfg.regCs, v)]) s = .refused (.undecodable .badChipSelectValue))
      ∧ (∀ v, runRequest (.bus [(s.cfg.regStat, v)]) s = .refused (.undecodable .statusIsReadOnly))
      ∧ (∀ v, runRequest (.bus [(s.cfg.regCtrl, v)]) s = .refused (.undecodable .notABusPrimitive)
        ∧ runRequest (.bus [(s.cfg.regErr, v)]) s = .refused (.undecodable .notABusPrimitive))
      ∧ runRequest (.busRead s.cfg.regOut) s = .refused (.undecodable .writeOnlyPort)
      ∧ runRequest (.busRead s.cfg.regCs) s = .refused (.undecodable .writeOnlyPort)
      ∧ runRequest (.busRead s.cfg.regErr) s = .refused (.undecodable .neverReadPort)
      ∧ ∀ off access, runRequest (.busWide off access) s = .refused (.undecodable .notByteWide))
    ∧ ∀ (s : State) (sel : BitVec 4) (a : FlashAddr) (p : HostAddr) (n : BitVec 9),
      (9 ≤ sel.toNat → runRequest (.engine sel a p n) s = .refused (.undecodable .badSelector))
      ∧ (s.atEngine → 256 < n.toNat → ∃ t, runRequest (.engine 0x7 a p n) s = .next t ∧ t.report = .fail)

/-- Rule R223. -/
def Obligations.HostCommandDispatch : Prop :=
  ∀ (c : Config) (k : Byte) (lba : Lba) (count : SectorCount) (buf : HostAddr), c.ok = true →
    (k = c.hcRead → decode c (.disk k lba count buf) = .instr (.diskRead lba count buf))
    ∧ (k = c.hcWrite → decode c (.disk k lba count buf) = .instr (.diskWrite lba count buf))
    ∧ (k = c.hcVerify → decode c (.disk k lba count buf) = .instr (.diskVerify lba count buf))
    ∧ (k = c.hcFormat → decode c (.disk k lba count buf) = .instr (.diskFormat lba count buf))
    ∧ (k = c.hcReset → decode c (.disk k lba count buf) = .instr (.diskReset lba count buf))
    ∧ (k ∉ [c.hcRead, c.hcWrite, c.hcVerify, c.hcFormat, c.hcReset] →
        decode c (.disk k lba count buf) = .instr (.diskUnknown k lba count buf))

/-- One machine step from IDLE (rules R6, R28, R220; the queue and the turn are the model's: log 9, 11, 17, 34). -/
def Obligations.StepRunsTheDecodedOperation : Prop :=
  ∀ (s : State) (r : Request) (rest : List Input) (i : Instr),
    s.seq.op = none → s.env.inputs = .request r :: rest → decode s.cfg r = .instr i →
    (∀ t, takeTurn (s.withEnv { s.env with inputs := rest }) = .ok t → step s = exec i t)
    ∧ (s.calm → s.sh.busy = false → step s = exec i (s.withEnv { s.env with inputs := rest }))

/-- The rows of the table of rule R43 that have a value. The rows without one (draw, launch, no value) are the model's
own, log 2 to 5, and not stated here. -/
def Obligations.ResetState : Prop :=
  State.reset.sh.bitcnt = 0 ∧ State.reset.sh.busy = false ∧ State.reset.sh.cs = false ∧ State.reset.wire.csn = true
    ∧ State.reset.wire.sck = false ∧ State.reset.seq.op = none
    ∧ State.reset.chip.wp &&& State.reset.cfg.wpMask = State.reset.cfg.wpClosed
    ∧ State.reset.ctx.ready = false ∧ State.reset.ctx.scratch = none ∧ State.reset.ctx.mode = .isProtected
    ∧ State.reset.fl.wel = false ∧ State.reset.fl.wip = false ∧ State.reset.fl.pending = .none
    ∧ State.reset.fl.phase = .idle ∧ State.reset.drive.registered = false
    ∧ State.reset.filled.stage = false ∧ State.reset.filled.scratch = false

/-- The invariant of Safety.lean at reset. -/
def Obligations.ResetInvariant : Prop :=
  Invariant State.reset

/-- The invariant of Safety.lean: the memories keep their canonical form (log 5); FL.pending and WIP agree (rule R37);
a pending program has 1 to 256 bytes (R37); FL.page has FL.page_n bytes, at most 256 (R36, R144); CSn follows CS
(R27); a frame is open exactly while the device is selected (R36, R141, R151); a byte is shifted only while selected
(R131); BITCNT is at most 8 and 0 exactly when BUSY = 0 (R21); SCK rests at 0 between bytes (R27, R128); the chipset
registers hold nothing beyond their widths (R30, R303). -/
def Obligations.StepKeepsInvariant : Prop :=
  ∀ s t : State, Invariant s → step s = .next t → Invariant t

/-- The parameters of rule R8 are fixed for a run (log 1), and the block never writes CFG_SPIBASE (rule R29); that a
hardware reset keeps it too is log 28, a choice of the model. -/
def Obligations.StepKeepsParameters : Prop :=
  ∀ s t : State, step s = .next t → t.cfg = s.cfg ∧ t.chip.spiBase = s.chip.spiBase

/-- CTX.base is written once by SETUP (rules R31, R275), SCRATCH is allocated once (rule R32), DRIVE is written by
SETUP only (rule R42). -/
def Obligations.DeviceContextIsSetOnce : Prop :=
  ∀ s t : State, s.ctx.ready = true → s.seq.op ≠ some (.instr .setup) → resetAsked s = false → step s = .next t →
    t.ctx.base = s.ctx.base ∧ t.ctx.scratch = s.ctx.scratch ∧ t.ctx.ready = true ∧ t.drive = s.drive

/-- Rule R261, action by action: every operation is made of these actions, and the two that change the mode stand
nowhere but at the end of the sequences of rules R171 and R172. (A hardware reset is no action: HardwareReset.) -/
def Obligations.ModeChangesOnlyByEnterAndExit : Prop :=
  (∀ (m : Micro) (s t : State), (tick m s = .go t ∨ tick m s = .hold t ∨ tick m s = .stop t) →
      t.ctx.mode ≠ s.ctx.mode →
      (m = .control true ∧ t.ctx.mode = .isWritable) ∨ (m = .writeWp false ∧ t.ctx.mode = .isProtected))
    ∧ ∀ (s : State) (o : Operation) (before after : List Micro),
      (programOf s o = before ++ .control true :: after → ∃ l, before ++ [.control true] = l ++ seqEnter)
      ∧ (programOf s o = before ++ .writeWp false :: after → ∃ l, before ++ [.writeWp false] = l ++ seqExit)

/-- FL.MEM is written only by the completion of an erase or a program (rule R34), and no other byte changes (rules
R154, R155). Actions and turns are all a machine step is made of but for two things that rules R208 and R287 except: a
hardware reset (HardwareReset), and a wait that never ends inside an erase or program, which loses the block and the
latches (log 28). -/
def Obligations.FlashContentChangesOnlyByCompletion : Prop :=
  (∀ (m : Micro) (s t : State), (act m s = .go t ∨ act m s = .hold t ∨ act m s = .stop t) → t.fl.mem = s.fl.mem)
    ∧ ∀ s t : State, takeTurn s = .ok t →
      ((s.env.turns.headD s.env.after).flashInt = false → t.fl.mem = s.fl.mem)
      ∧ (s.fl.pending = .none → t.fl.mem = s.fl.mem)
      ∧ (∀ b, s.fl.pending = .erase b → Memory.SameOutside (4096 * b) 4096 s.fl.mem t.fl.mem)
      ∧ (∀ a d, s.fl.pending = .program a d → Memory.SameOutside a.toNat d.length s.fl.mem t.fl.mem)

/-- Rules R271, R287, R208 and the table of rule R43. When an operation counts as cut short, and that OP is as it was,
is log 28, a choice of the model; that CTRL, which R43 draws, is CTRL_IDLE, so that rules R45 and R275 hold after the
SETUP to come, is log 18 (DEDUCED). -/
def Obligations.HardwareReset : Prop :=
  ∀ (s : State) (rest : List Input), s.env.inputs = .reset :: rest → s.cfg.ok = true →
    ∃ t, step s = .next t ∧ t.seq.op = none ∧ t.ctx.ready = false ∧ t.ctx.mode = .isProtected ∧ t.ctx.scratch = none
      ∧ t.drive.registered = false ∧ t.filled.stage = false ∧ t.filled.scratch = false
      ∧ t.sh.cs = false ∧ t.wire.csn = true ∧ t.sh.busy = false ∧ t.sh.bitcnt = 0 ∧ t.fl.phase = .idle ∧ t.op = s.op
      ∧ (interruptedBlock s = none →
          t.fl.mem = s.fl.mem ∧ t.fl.wel = false ∧ t.fl.wip = false ∧ t.fl.pending = .none
          ∧ t.chip.wp &&& s.cfg.wpMask = s.cfg.wpClosed ∧ t.quiescent = true)
      ∧ (∀ b, interruptedBlock s = some b →
          Memory.SameOutside (4096 * b) 4096 s.fl.mem t.fl.mem ∧ (t.fl.wip = true ↔ t.fl.pending ≠ .none)
          ∧ (t.chip.wp &&& s.cfg.wpMask = s.cfg.wpClosed ∨ t.chip.wp &&& s.cfg.wpMask = s.cfg.wpOpen))

/-- Rules R121 and R141. (That MISO keeps its level is log 13, a choice of the model; the report and the trace of the
operation are the model's: log 11, 33; so is when ERR is drawn: log 27.) -/
def Obligations.CsEnSelects : Prop :=
  ∀ s : State, s.onBus → s.calm → s.sh.cs = false → s.fl.phase = .idle →
    exec .csEn s = .next { s with
      sh := { s.sh with cs := true, err := s.freeByte }
      wire := { s.wire with csn := false }
      fl := { s.fl with phase := .cmd, nbytes := 0, page := [], pageN := 0 }
      seq := { s.seq with op := none, pc := 0, pos := 0, loops := [], openBlock := none }
      draws := s.draws + 1
      report := .none
      trace := [.portOut (s.port s.cfg.regCs) s.cfg.csAssert] }

/-- Rule R122; what the device does is DeviceDeselect. (That MISO keeps its level is log 13, a choice of the model;
when ERR is drawn is log 27.) -/
def Obligations.CsDisDeselects : Prop :=
  ∀ s : State, s.onBus → s.calm → s.sh.cs = true →
    exec .csDis s = .next { s with
      sh := { s.sh with cs := false, err := s.freeByte }
      wire := { s.wire with csn := true }
      fl := s.fl.deselect s.cfg
      seq := { s.seq with op := none, pc := 0, pos := 0, loops := [], openBlock := none }
      draws := s.draws + 1
      report := .none
      trace := [.portOut (s.port s.cfg.regCs) s.cfg.csDeassert] }

/-- Rules R124 and R129, for every byte b and every phase that receives; where the device refuses the byte
(DeviceTakesBytes) there is no next state. Fair is the premise of rules R132 and R308: SHIFT moves, and FLASH_INT
completes, at every turn once the turns written down (any at all: log 9, 11) are used up. -/
def Obligations.WrByteSends : Prop :=
  ∀ (s : State) (b : Byte) (f : Flash), s.onBus → s.sh.cs = true → s.fl.phase ≠ .dataOut →
    (s.fl.wip = false ∨ s.statusFrame = true) → s.fl.receive s.cfg b = .ok f →
    (s.calm →
      ∃ t, exec (.wrByte b) s = .next t ∧ SamePlatform s t ∧ t.fl = f ∧ t.report = .none
        ∧ t.sh.txd = b ∧ t.sh.shift = b ∧ t.sh.txDone = true ∧ t.sh.busy = false ∧ t.sh.bitcnt = 0
        ∧ SameReceiver s t ∧ t.sh.cs = true ∧ t.wire.csn = s.wire.csn
        ∧ t.wire.sck = false ∧ t.wire.mosi = b.getLsbD 0)
    ∧ (s.fair → s.fl.pending = .none → resetAsked s = false →
      ∃ r n t k, exec (.wrByte b) s = .next r ∧ State.stepsTo n r t ∧ t.seq.op = none
        ∧ t.env = { s.env with turns := s.env.turns.drop k } ∧ SamePlatform s (t.withEnv s.env)
        ∧ t.fl = f ∧ t.report = .none
        ∧ t.sh.txd = b ∧ t.sh.shift = b ∧ t.sh.txDone = true ∧ t.sh.busy = false ∧ t.sh.bitcnt = 0
        ∧ SameReceiver s t ∧ t.sh.cs = true ∧ t.wire.csn = s.wire.csn
        ∧ t.wire.sck = false ∧ t.wire.mosi = b.getLsbD 0)

/-- Rules R126, R129, R147, R148; that the last falling edge puts bit 7 of the next byte on MISO is rule R128 (log
13). In an RDSR frame the byte shows WIP and WEL as StatusBytesAndPortReads says. -/
def Obligations.RdByteTakes : Prop :=
  ∀ s : State, s.onBus → s.calm → s.cfg.ok = true → s.sh.cs = true → s.fl.phase = .dataOut →
    (s.fl.wip = false ∨ s.statusFrame = true) →
    ∃ t v, exec .rdByte s = .next t ∧ SamePlatform s t ∧ t.report = .bytes [v]
      ∧ t.sh.rxd = v ∧ t.sh.rxdHeld = true ∧ t.sh.shift = v ∧ t.sh.rxReady = true ∧ t.sh.busy = false ∧ t.sh.bitcnt = 0
      ∧ t.sh.txd = s.sh.txd ∧ t.sh.txDone = s.sh.txDone ∧ t.sh.cs = true ∧ t.wire.csn = s.wire.csn
      ∧ t.wire.sck = false ∧ t.wire.miso = (t.fl.byteOut t.cfg t.sh.misoFree).getLsbD 7
      ∧ t.fl.mem = s.fl.mem ∧ SameLatches s t ∧ t.fl.phase = .dataOut
      ∧ (s.fl.cmd = s.cfg.cmdRead →
          v = s.fl.mem.read s.fl.addr.toNat ∧ t.fl.addr.toNat = (s.fl.addr.toNat + 1) % s.cfg.flashSize
          ∧ t.wire.miso = (s.fl.mem.read ((s.fl.addr.toNat + 1) % s.cfg.flashSize)).getLsbD 7)
      ∧ (s.fl.cmd = s.cfg.cmdRdsr → t.fl.addr = s.fl.addr ∧ ∃ free, v = statusByte s.cfg s.fl free)

/-- Rules R125, R65, R95, R143. -/
def Obligations.WrAddr24Sends : Prop :=
  ∀ (s : State) (a : FlashAddr), s.onBus → s.calm → s.sh.cs = true → s.fl.phase = .addr0 → s.fl.wip = false →
    a.toNat < s.cfg.flashSize →
    ∃ t, exec (.wrAddr24 a) s = .next t ∧ SamePlatform s t ∧ SameReceiver s t ∧ t.report = .none
      ∧ t.fl = { s.fl with
          addr := a, nbytes := s.fl.nbytes + 3
          phase := if s.fl.cmd = s.cfg.cmdRead then .dataOut else if s.fl.cmd = s.cfg.cmdSe then .done else .dataIn }
      ∧ t.sh.txd = a.extractLsb' 0 8 ∧ t.sh.txDone = true ∧ t.sh.busy = false
      ∧ t.sh.cs = true ∧ t.wire.csn = s.wire.csn

/-- Rules R127, R142, R151, R156. -/
def Obligations.Cmd1Frames : Prop :=
  ∀ (s : State) (k : Byte), s.onBus → s.calm → s.cfg.ok = true → s.sh.cs = false → s.fl.phase = .idle →
    s.fl.wip = false →
    ∃ t, exec (.cmd1 k) s = .next t ∧ FrameClosed k s t ∧ SameReceiver s t ∧ t.report = .none ∧ t.fl.cmd = k
      ∧ t.fl.wip = false ∧ t.fl.pending = s.fl.pending
      ∧ t.fl.wel = (if k = s.cfg.cmdWren then true else if k = s.cfg.cmdWrdi then false else s.fl.wel)

/-- Rules R145 and R146. -/
def Obligations.WrenAndWrdiFrames : Prop :=
  ∀ s : State, s.onBus → s.calm → s.cfg.ok = true → s.sh.cs = false → s.fl.phase = .idle → s.fl.wip = false →
    (∃ t, exec .wren s = .next t ∧ FrameClosed s.cfg.cmdWren s t ∧ SameReceiver s t ∧ t.report = .none
      ∧ t.fl.wel = true ∧ t.fl.wip = false ∧ t.fl.pending = s.fl.pending)
    ∧ (∃ t, exec .wrdi s = .next t ∧ FrameClosed s.cfg.cmdWrdi s t ∧ SameReceiver s t ∧ t.report = .none
      ∧ t.fl.wel = false ∧ t.fl.wip = false ∧ t.fl.pending = s.fl.pending)

/-- Rule R147 (the spec has m at least 1; m = 0 is the frame ended before any data byte). -/
def Obligations.ReadFrame : Prop :=
  ∀ (s : State) (a : FlashAddr) (m : BitVec 32), s.onBus → s.calm → s.cfg.ok = true → s.sh.cs = false →
    s.fl.phase = .idle → s.fl.wip = false → a.toNat < s.cfg.flashSize →
    ∃ t, exec (.read a m) s = .next t ∧ FrameClosed (a.extractLsb' 0 8) s t ∧ SameLatches s t
      ∧ t.report = .bytes ((List.range m.toNat).map fun i => s.fl.mem.read ((a.toNat + i) % s.cfg.flashSize))
      ∧ t.fl.addr.toNat = (a.toNat + m.toNat) % s.cfg.flashSize
      ∧ (m = 0 → SameReceiver s t)
      ∧ (m ≠ 0 → t.sh.rxd = s.fl.mem.read ((a.toNat + (m.toNat - 1)) % s.cfg.flashSize) ∧ t.sh.rxReady = true ∧ t.sh.rxdHeld = true)

/-- Rules R148 and R157; RDSR is the one command accepted while WIP = 1 (rule R152). -/
def Obligations.StatusFrame : Prop :=
  ∀ (s : State) (m : BitVec 32), s.onBus → s.calm → s.cfg.ok = true → s.sh.cs = false → s.fl.phase = .idle →
    ∃ t l, exec (.rdsr m) s = .next t ∧ FrameClosed s.cfg.cmdRdsr s t ∧ SameLatches s t
      ∧ t.report = .bytes l ∧ l.length = m.toNat
      ∧ ∀ b ∈ l, (b &&& s.cfg.srWip ≠ 0 ↔ s.fl.wip = true)
        ∧ (s.cfg.srWel ≠ 0 → (b &&& s.cfg.srWel ≠ 0 ↔ s.fl.wel = true))

/-- Rules R149 and R151; the low 12 bits of the address do not matter. -/
def Obligations.EraseFrame : Prop :=
  ∀ (s : State) (a : FlashAddr), s.onBus → s.calm → s.cfg.ok = true → s.sh.cs = false → s.fl.phase = .idle →
    s.fl.wip = false → a.toNat < s.cfg.flashSize →
    ∃ t, exec (.se a) s = .next t ∧ FrameClosed (a.extractLsb' 0 8) s t ∧ SameReceiver s t ∧ t.report = .none
      ∧ t.fl.wel = s.fl.wel ∧ t.fl.addr = a
      ∧ (s.fl.wel = true → t.fl.wip = true ∧ t.fl.pending = .erase (a.toNat / 4096))
      ∧ (s.fl.wel = false → t.fl.wip = false ∧ t.fl.pending = s.fl.pending)

/-- Rules R150, R151, R144. A frame that crosses its page is here closed with the program pending, and refused when
FLASH_INT completes it (rule R155): log 21. -/
def Obligations.ProgramFrame : Prop :=
  ∀ (s : State) (a : FlashAddr) (d : List Byte), s.onBus → s.calm → s.cfg.ok = true → s.sh.cs = false →
    s.fl.phase = .idle → s.fl.wip = false → a.toNat < s.cfg.flashSize → d.length ≤ 256 →
    ∃ t, exec (.pp a d) s = .next t ∧ FrameClosed (d.getLastD (a.extractLsb' 0 8)) s t ∧ SameReceiver s t
      ∧ t.report = .none ∧ t.fl.wel = s.fl.wel ∧ t.fl.addr = a
      ∧ (s.fl.wel = true ∧ d ≠ [] → t.fl.wip = true ∧ t.fl.pending = .program a d)
      ∧ (s.fl.wel = false ∨ d = [] → t.fl.wip = false ∧ t.fl.pending = s.fl.pending)

/-- Rule R171. That nothing but the columns of rule R312 is asked, and not the whole invariant of rule R45, is log 18,
a choice of the model. (SEQ.locals keep the word read: rule R28. When ERR is drawn is log 27.) -/
def Obligations.WritableEnterOpens : Prop :=
  ∀ s : State, s.seq.op = none → s.calm → s.ctx.ready = true → s.ctx.mode = .isProtected → s.sh.cs = false →
    s.fl.wip = false → s.sh.busy = false → s.portFits s.cfg.regCtrl = true →
    exec .writableEnter s = .next { s with
      chip := { s.chip with
        wp := clip s.cfg.wpReg.width ((clip s.cfg.wpReg.width s.chip.wp &&& ~~~ s.cfg.wpMask) ||| s.cfg.wpOpen) }
      sh := { s.sh with ctrl := s.cfg.ctrlXfer, err := s.freeByte }
      ctx := { s.ctx with mode := .isWritable }
      seq := { s.seq with
        op := none, pc := 0, pos := 0, loops := [], openBlock := none, word := clip s.cfg.wpReg.width s.chip.wp }
      draws := s.draws + 1
      report := .none
      trace := [.portOut (s.port s.cfg.regCtrl) s.cfg.ctrlXfer,
        .cfgWrite s.cfg.wpReg
          (clip s.cfg.wpReg.width ((clip s.cfg.wpReg.width s.chip.wp &&& ~~~ s.cfg.wpMask) ||| s.cfg.wpOpen)),
        .cfgRead s.cfg.wpReg (clip s.cfg.wpReg.width s.chip.wp)] }

/-- Rule R172. (When ERR is drawn is log 27.) -/
def Obligations.WritableExitCloses : Prop :=
  ∀ s : State, s.seq.op = none → s.calm → s.ctx.ready = true → s.ctx.mode = .isWritable → s.sh.cs = false →
    s.fl.wip = false → s.sh.busy = false → s.portFits s.cfg.regCtrl = true →
    exec .writableExit s = .next { s with
      chip := { s.chip with wp := s.lockedWp }
      sh := { s.sh with ctrl := s.cfg.ctrlIdle, err := s.freeByte }
      ctx := { s.ctx with mode := .isProtected }
      seq := { s.seq with
        op := none, pc := 0, pos := 0, loops := [], openBlock := none, word := clip s.cfg.wpReg.width s.chip.wp }
      draws := s.draws + 1
      report := .none
      trace := [.cfgWrite s.cfg.wpReg s.lockedWp, .cfgRead s.cfg.wpReg (clip s.cfg.wpReg.width s.chip.wp),
        .portOut (s.port s.cfg.regCtrl) s.cfg.ctrlIdle] }

/-- Rules R173, R153, R132 and R308; what the completion does to FL.MEM is EraseEffect and ProgramEffect. Prompt means
that the named fairness premises are met at once, fair that they are met once the turns written down (any at all: log
9, 11) are used up. -/
def Obligations.WaitWipReturns : Prop :=
  ∀ (s : State) (g : Flash), s.onBus → s.cfg.ok = true → s.sh.cs = false → s.fl.phase = .idle →
    (s.fl.wip = true ↔ s.fl.pending ≠ .none) → s.fl.complete s.cfg s.draws = .ok g →
    (s.prompt →
      ∃ k g' t, exec .waitWip s = .next t ∧ SamePlatform s t ∧ t.report = .none ∧ s.fl.complete s.cfg k = .ok g'
        ∧ t.fl.mem = g'.mem ∧ t.fl.wel = g'.wel ∧ t.fl.wip = false ∧ t.fl.pending = .none ∧ t.fl.phase = .idle
        ∧ t.sh.cs = false ∧ t.wire.csn = true ∧ t.sh.busy = false ∧ t.sh.txd = s.cfg.cmdRdsr)
    ∧ (s.fair → s.wire.csn = true → resetAsked s = false →
      ∃ r n t j k g', exec .waitWip s = .next r ∧ State.stepsTo n r t ∧ t.seq.op = none
        ∧ t.env = { s.env with turns := s.env.turns.drop j } ∧ SamePlatform s (t.withEnv s.env) ∧ t.report = .none
        ∧ s.fl.complete s.cfg k = .ok g'
        ∧ t.fl.mem = g'.mem ∧ t.fl.wel = g'.wel ∧ t.fl.wip = false ∧ t.fl.pending = .none ∧ t.fl.phase = .idle
        ∧ t.sh.cs = false ∧ t.wire.csn = true ∧ t.sh.busy = false ∧ t.sh.txd = s.cfg.cmdRdsr)

/-- Rules R245 and R173: a hang is an infinite execution, neither a fault nor a final state (log 10). -/
def Obligations.WaitWipHangs : Prop :=
  ∀ s : State, Hung s →
    ∃ t p q v, step s = .next t ∧ Hung t ∧ v &&& s.cfg.srWip ≠ 0
      ∧ t.trace = [.portOut (s.port s.cfg.regCs) s.cfg.csDeassert, .portIn (s.port s.cfg.regIn) v,
          .portIn (s.port s.cfg.regStat) q, .portOut (s.port s.cfg.regIn) 0, .portIn (s.port s.cfg.regStat) p,
          .portOut (s.port s.cfg.regOut) s.cfg.cmdRdsr, .portOut (s.port s.cfg.regCs) s.cfg.csAssert] ++ s.trace
      ∧ t.fl.mem = s.fl.mem ∧ SameLatches s t ∧ t.host = s.host ∧ t.op = s.op ∧ t.drive = s.drive
      ∧ t.ctx = s.ctx ∧ t.chip = s.chip ∧ t.cfg = s.cfg ∧ t.env = s.env ∧ t.report = s.report

/-- Rules R132 and R245: SEQ reads REG_STAT for ever, no error is reported, no state changes. -/
def Obligations.DeadShiftEngineHangs : Prop :=
  ∀ s : State, s.seq.pos = 1 → s.seq.openBlock = none → s.env.turns = [] → s.env.after.shiftSteps = 0 →
    s.fl.pending = .none → resetAsked s = false →
    ((∃ b, s.seq.op = some (.instr (.wrByte b))) ∧ s.sh.txDone = false
      ∨ s.seq.op = some (.instr .rdByte) ∧ s.sh.rxReady = false) →
    step s = .next { s with
      seq := { s.seq with stat := statByte s }
      draws := s.draws + 1
      trace := .portIn (s.port s.cfg.regStat) (statByte s) :: s.trace }

/-- Rules R174, R170, R45. (ERR is open: rule R25, log 27.) -/
def Obligations.ReadByteReturnsTheByte : Prop :=
  ∀ (s : State) (a : FlashAddr), s.atEngine → s.calm → a.toNat < s.cfg.flashSize →
    ∃ t, exec (.readByte a) s = .next t ∧ EngineFrame 0 s t ∧ t.op = s.op ∧ t.report = .bytes [s.fl.mem.read a.toNat]
      ∧ t.fl.mem = s.fl.mem ∧ t.host = s.host

/-- Rules R175, R170, R45. (ERR is open: rule R25, log 27.) -/
def Obligations.ReadBurstFillsStage : Prop :=
  ∀ (s : State) (a : FlashAddr), s.atEngine → s.calm → a.toNat + 128 ≤ s.cfg.flashSize →
    hostReaches s s.cfg.stage.toNat 128 = true →
    ∃ t, exec (.readBurst a) s = .next t ∧ EngineFrame 0 s t ∧ t.op = s.op ∧ t.report = .none
      ∧ t.fl.mem = s.fl.mem ∧ t.filled.stage = true
      ∧ (∀ i, i < 128 → t.host.read (s.cfg.stage.toNat + i) = s.fl.mem.read (a.toNat + i))
      ∧ Memory.SameOutside s.cfg.stage.toNat 128 s.host t.host

/-- Rules R176, R180, R250. A failed copy leaves free values at its 128 bytes (log 8), and nobody looks. (ERR is open:
rule R25, log 27.) -/
def Obligations.ReadSectorRelays : Prop :=
  ∀ (s : State) (sector : FlashAddr) (dest : HostAddr), s.atEngine → s.calm →
    512 * sector.toNat + 512 ≤ s.cfg.flashSize → hostReaches s s.cfg.stage.toNat 128 = true →
    CallerBuffer s dest.toNat 512 →
    ∃ t, exec (.readSector sector dest) s = .next t ∧ EngineFrame 4 s t ∧ t.op = s.op ∧ t.report = .ok
      ∧ t.fl.mem = s.fl.mem ∧ State.SameHostBut dest.toNat 512 s t
      ∧ ∀ j, j < 4 → s.copyOk j = true → ∀ i, i < 128 →
        t.host.read (dest.toNat + 128 * j + i) = s.fl.mem.read (512 * sector.toNat + (128 * j + i))

/-- Rules R177, R154, R170, R45. (ERR is open: rule R25, log 27.) -/
def Obligations.EraseBlockErases : Prop :=
  ∀ (s : State) (a : FlashAddr), s.atEngine → s.prompt → a.toNat < s.cfg.flashSize →
    ∃ t, exec (.eraseBlock a) s = .next t ∧ EngineFrame 0 s t ∧ t.op = s.op ∧ t.report = .none ∧ t.host = s.host
      ∧ (∀ i, i < 4096 → t.fl.mem.read (4096 * (a.toNat / 4096) + i) = s.cfg.erasedByte)
      ∧ Memory.SameOutside (4096 * (a.toNat / 4096)) 4096 s.fl.mem t.fl.mem

/-- Rules R178, R155, R180. A byte that was not erased holds a free value afterwards (log 8); what the window of rules
R178 and R310 is, is log 26; that STAGE and SCRATCH are no source for a caller is rules R32 and R33 (D37), and
EngineOperandRefusals. (ERR is open: rule R25, log 27.) -/
def Obligations.WriteDataPrograms : Prop :=
  ∀ (s : State) (a : FlashAddr) (p : HostAddr) (n : BitVec 9), s.atEngine → s.prompt → 1 ≤ n.toNat →
    a.toNat % 256 + n.toNat ≤ 256 → a.toNat + n.toNat ≤ s.cfg.flashSize → p.toNat + n.toNat ≤ 2 ^ 32 →
    hostReaches s p.toNat n.toNat = true → hitsStage s p.toNat n.toNat = false → hitsScratch s p.toNat n.toNat = false →
    ∃ t, exec (.writeData a p n) s = .next t ∧ EngineFrame 0 s t ∧ t.op = s.op ∧ t.report = .ok ∧ t.host = s.host
      ∧ (∀ i, i < n.toNat → s.fl.mem.read (a.toNat + i) = s.cfg.erasedByte →
          t.fl.mem.read (a.toNat + i) = s.host.read (p.toNat + i))
      ∧ Memory.SameOutside a.toNat n.toNat s.fl.mem t.fl.mem

/-- Abnormal end X2 (rules R243, R178, R247); that the quiescent state is asked first is log 19. (When ERR is drawn is
log 27.) -/
def Obligations.WriteDataRejectsLongRequests : Prop :=
  (∀ (s : State) (a : FlashAddr) (p : HostAddr) (n : BitVec 9), s.seq.op = none → s.ctx.ready = true →
      s.quiescent = true → 256 < n.toNat →
      exec (.writeData a p n) s = .next { s with
        sh := { s.sh with err := s.freeByte }, draws := s.draws + 1
        seq := { s.seq with op := none, pc := 0, pos := 0, loops := [], openBlock := none }, report := .fail, trace := [] })
    ∧ (∀ (s : State) (sector : FlashAddr) (src : HostAddr), Micro.rejectWrite ∉ progWriteSector s sector src)
    ∧ (∀ (s : State) (lba : Lba) (count : SectorCount) (buf : HostAddr),
      Micro.rejectWrite ∉ progDiskWrite s lba count buf)

/-- Rules R178, R179, R247, R304; the buffers are rules R64, R176, R202, R232; the source of a WRITE_DATA is rules
R32, R33, R38, R44, R178 and R310 (log 26). -/
def Obligations.EngineOperandRefusals : Prop :=
  ∀ s : State, s.atEngine →
    (∀ a, ¬ a.toNat < s.cfg.flashSize → exec (.readByte a) s = .refused .flashRange)
    ∧ (∀ a, ¬ a.toNat + 128 ≤ s.cfg.flashSize → exec (.readBurst a) s = .refused .flashRange)
    ∧ (∀ sector dest, ¬ 512 * sector.toNat + 512 ≤ s.cfg.flashSize →
        exec (.readSector sector dest) s = .refused .flashRange)
    ∧ (∀ sector src, ¬ 512 * sector.toNat + 512 ≤ s.cfg.flashSize →
        exec (.writeSector sector src) s = .refused .flashRange)
    ∧ (∀ a, ¬ a.toNat < s.cfg.flashSize → exec (.eraseBlock a) s = .refused .flashRange)
    ∧ (∀ a p, exec (.writeData a p 0) s = .refused .emptyWrite)
    ∧ (∀ a p n, n.toNat ≤ 256 → n ≠ 0 → 256 < a.toNat % 256 + n.toNat →
        exec (.writeData a p n) s = .refused .pageCross)
    ∧ (∀ a p n, n ≠ 0 → a.toNat % 256 + n.toNat ≤ 256 → ¬ a.toNat + n.toNat ≤ s.cfg.flashSize →
        exec (.writeData a p n) s = .refused .flashRange)
    ∧ (∀ a p n, n ≠ 0 → a.toNat % 256 + n.toNat ≤ 256 → a.toNat + n.toNat ≤ s.cfg.flashSize →
        (2 ^ 32 < p.toNat + n.toNat → exec (.writeData a p n) s = .refused .bufferRange)
        ∧ (p.toNat + n.toNat ≤ 2 ^ 32 →
          (hostCovers s p.toNat n.toNat = false → exec (.writeData a p n) s = .refused .hostUnmapped)
          ∧ (hostCovers s p.toNat n.toNat = true → hostReaches s p.toNat n.toNat = false →
              exec (.writeData a p n) s = .refused .outsideWindow)
          ∧ (hostReaches s p.toNat n.toNat = true →
              hitsStage s p.toNat n.toNat = true ∨ hitsScratch s p.toNat n.toNat = true →
              exec (.writeData a p n) s = .refused .bufferOverlap)))
    ∧ (∀ sector buf, 512 * sector.toNat + 512 ≤ s.cfg.flashSize → s.ctx.scratch.isSome = true →
        (2 ^ 32 < buf.toNat + 512 → exec (.readSector sector buf) s = .refused .bufferRange
          ∧ exec (.writeSector sector buf) s = .refused .bufferRange)
        ∧ (buf.toNat + 512 ≤ 2 ^ 32 → hitsStage s buf.toNat 512 = true ∨ hitsScratch s buf.toNat 512 = true →
          exec (.readSector sector buf) s = .refused .bufferOverlap
          ∧ exec (.writeSector sector buf) s = .refused .bufferOverlap))
    ∧ ∀ x, x < s.cfg.flashSize → (toFlashAddr x).toNat = x

/-- The erase-before-write merge (rules R202 to R207) as one effect; its backup, merge, erase and restore are 32
bursts, 33 copies, one erase and 32 programs. What a failed copy leaves is open and nobody looks (rules R204, R250;
log 8). (ERR is open: rule R25, log 27.) -/
def Obligations.WriteSectorRewritesOneSector : Prop :=
  ∀ (s : State) (sector : FlashAddr) (src q : HostAddr), s.atEngine → s.prompt → Buffers q s →
    512 * sector.toNat + 512 ≤ s.cfg.flashSize → CallerBuffer s src.toNat 512 →
    ∃ t, exec (.writeSector sector src) s = .next t ∧ EngineFrame 33 s t ∧ t.op = s.op ∧ t.report = .ok
      ∧ (s.copyOk 32 = true → ∀ i, i < 512 → t.fl.mem.read (512 * sector.toNat + i) = s.host.read (src.toNat + i))
      ∧ (∀ x, x < 512 * sector.toNat ∨ 512 * sector.toNat + 512 ≤ x →
          (x / 4096 = sector.toNat / 8 → s.copyOk (x % 4096 / 128) = true) → t.fl.mem.read x = s.fl.mem.read x)
      ∧ State.SameHostBut q.toNat 4096 s t

/-- The source's round-trip property (rule R207; S7 of spec/95_test_vectors.md). -/
def Obligations.WrittenSectorReadsBack : Prop :=
  ∀ (s : State) (sector : FlashAddr) (src dest q : HostAddr), s.atEngine → s.prompt → s.copiesSucceed → Buffers q s →
    512 * sector.toNat + 512 ≤ s.cfg.flashSize → CallerBuffer s src.toNat 512 → CallerBuffer s dest.toNat 512 →
    ∃ t u, exec (.writeSector sector src) s = .next t ∧ exec (.readSector sector dest) t = .next u
      ∧ ∀ i, i < 512 → u.host.read (dest.toNat + i) = s.host.read (src.toNat + i)

/-- The source's idempotence property (rule R207; S8 of spec/95_test_vectors.md). -/
def Obligations.WritingTwiceIsWritingOnce : Prop :=
  ∀ (s : State) (sector : FlashAddr) (src q : HostAddr), s.atEngine → s.prompt → s.copiesSucceed → Buffers q s →
    512 * sector.toNat + 512 ≤ s.cfg.flashSize → CallerBuffer s src.toNat 512 →
    ∃ t u, exec (.writeSector sector src) s = .next t ∧ exec (.writeSector sector src) t = .next u
      ∧ Memory.Same t.fl.mem u.fl.mem

/-- Rules R226, R227, R228. (ERR is open, rule R25; when it is drawn is log 27.) -/
def Obligations.NoOpCommandsSucceed : Prop :=
  ∀ (s : State) (lba : Lba) (count : SectorCount) (buf : HostAddr), s.atCommand →
    exec (.diskVerify lba count buf) s = .next { s with
      op := { command := s.cfg.hcVerify, lba := lba, count := count, buf := buf, status := s.cfg.stSuccess }
      sh := { s.sh with err := s.freeByte }, draws := s.draws + 1
      seq := { s.seq with op := none, pc := 0, pos := 0, loops := [], openBlock := none }, report := .none, trace := [] }
    ∧ exec (.diskFormat lba count buf) s = .next { s with
      op := { command := s.cfg.hcFormat, lba := lba, count := count, buf := buf, status := s.cfg.stSuccess }
      sh := { s.sh with err := s.freeByte }, draws := s.draws + 1
      seq := { s.seq with op := none, pc := 0, pos := 0, loops := [], openBlock := none }, report := .none, trace := [] }
    ∧ exec (.diskReset lba count buf) s = .next { s with
      op := { command := s.cfg.hcReset, lba := lba, count := count, buf := buf, status := s.cfg.stSuccess }
      sh := { s.sh with err := s.freeByte }, draws := s.draws + 1
      seq := { s.seq with op := none, pc := 0, pos := 0, loops := [], openBlock := none }, report := .none, trace := [] }

/-- Rule R229, abnormal end X1 (rule R242). (ERR is open, rule R25; when it is drawn is log 27.) -/
def Obligations.UnknownCommandIsAParameterError : Prop :=
  ∀ (s : State) (k : Byte) (lba : Lba) (count : SectorCount) (buf : HostAddr), s.atCommand →
    exec (.diskUnknown k lba count buf) s = .next { s with
      op := { command := k, lba := lba, count := 0, buf := buf, status := s.cfg.stParamError }
      sh := { s.sh with err := s.freeByte }, draws := s.draws + 1
      seq := { s.seq with op := none, pc := 0, pos := 0, loops := [], openBlock := none }, report := .none, trace := [] }
    ∧ (k ∉ [s.cfg.hcReset, s.cfg.hcRead, s.cfg.hcWrite, s.cfg.hcVerify, s.cfg.hcFormat] →
      runRequest (.disk k lba count buf) s = exec (.diskUnknown k lba count buf) s)

/-- Rules R224, R232, R233, R250; the map is the parameter of rule R221 (log 23). (ERR is open: rule R25, log 27.) -/
def Obligations.DiskReadReadsEverySector : Prop :=
  ∀ (s : State) (lba : Lba) (count : SectorCount) (buf : HostAddr), s.atEngine → s.calm →
    1 ≤ count.toNat → lba.toNat + count.toNat ≤ 15104 →
    (∀ i, i < count.toNat → 512 * lba2slba s.cfg (lba.toNat + i) + 512 ≤ s.cfg.flashSize) →
    hostReaches s s.cfg.stage.toNat 128 = true → CallerBuffer s buf.toNat (512 * count.toNat) →
    ∃ t, exec (.diskRead lba count buf) s = .next t ∧ EngineFrame (4 * count.toNat) s t ∧ t.report = .none
      ∧ t.op = { command := s.cfg.hcRead, lba := lba, count := count, buf := buf, status := s.cfg.stSuccess }
      ∧ t.fl.mem = s.fl.mem ∧ State.SameHostBut buf.toNat (512 * count.toNat) s t
      ∧ ∀ i, i < count.toNat → ∀ j, j < 4 → s.copyOk (4 * i + j) = true → ∀ x, x < 128 →
        t.host.read (buf.toNat + 512 * i + 128 * j + x)
          = s.fl.mem.read (512 * lba2slba s.cfg (lba.toNat + i) + (128 * j + x))

/-- Rules R225, R207, R232, R233, R250; the map is the parameter of rule R221, held to rule R234 by the constraints on
the parameters (log 23). (ERR is open: rule R25, log 27.) -/
def Obligations.DiskWriteWritesEverySector : Prop :=
  ∀ (s : State) (lba : Lba) (count : SectorCount) (buf q : HostAddr), s.atEngine → s.prompt → Buffers q s →
    1 ≤ count.toNat → lba.toNat + count.toNat ≤ 15104 →
    (∀ i, i < count.toNat → 512 * lba2slba s.cfg (lba.toNat + i) + 512 ≤ s.cfg.flashSize) →
    CallerBuffer s buf.toNat (512 * count.toNat) →
    ∃ t, exec (.diskWrite lba count buf) s = .next t ∧ EngineFrame (33 * count.toNat) s t ∧ t.report = .none
      ∧ t.op = { command := s.cfg.hcWrite, lba := lba, count := count, buf := buf, status := s.cfg.stSuccess }
      ∧ (∀ i, i < count.toNat → s.copyOk (33 * i + 32) = true → ∀ x, x < 512 →
          (∀ k, i < k → k < count.toNat → s.keeps k (lba2slba s.cfg (lba.toNat + k))
            (512 * lba2slba s.cfg (lba.toNat + i) + x)) →
          t.fl.mem.read (512 * lba2slba s.cfg (lba.toNat + i) + x) = s.host.read (buf.toNat + 512 * i + x))
      ∧ (∀ y, (∀ i, i < count.toNat → y < 512 * lba2slba s.cfg (lba.toNat + i)
            ∨ 512 * lba2slba s.cfg (lba.toNat + i) + 512 ≤ y) →
          (∀ k, k < count.toNat → s.keeps k (lba2slba s.cfg (lba.toNat + k)) y) → t.fl.mem.read y = s.fl.mem.read y)
      ∧ (∀ y, y / 512 % 8 = s.cfg.reservedSlot →
          (∀ k, k < count.toNat → s.keeps k (lba2slba s.cfg (lba.toNat + k)) y) → t.fl.mem.read y = s.fl.mem.read y)
      ∧ State.SameHostBut q.toNat 4096 s t

/-- Rules R224 and R225 (count = 0), R306 (zero iterations). (ERR is open, rule R25; when it is drawn is log 27.) -/
def Obligations.EmptyDiskTransfer : Prop :=
  ∀ (s : State) (lba : Lba) (buf : HostAddr), s.atCommand → lba.toNat ≤ 15104 →
    exec (.diskRead lba 0 buf) s = .next { s with
      op := { command := s.cfg.hcRead, lba := lba, count := 0, buf := buf, status := s.cfg.stSuccess }
      sh := { s.sh with err := s.freeByte }, draws := s.draws + 1
      seq := { s.seq with op := none, pc := 0, pos := 0, loops := [], openBlock := none }, report := .none, trace := [] }
    ∧ exec (.diskWrite lba 0 buf) s = .next { s with
      op := { command := s.cfg.hcWrite, lba := lba, count := 0, buf := buf, status := s.cfg.stSuccess }
      sh := { s.sh with err := s.freeByte }, draws := s.draws + 1
      seq := { s.seq with op := none, pc := 0, pos := 0, loops := [], openBlock := none }, report := .none, trace := [] }

/-- Rule R230 (DISK_SECTORS is 15104: rule R7), rule R232, and rule R64 with R176, R202 and R289, which each sector's
READ_SECTOR or WRITE_SECTOR asks. -/
def Obligations.DiskRange : Prop :=
  ∀ (s : State) (lba : Lba) (count : SectorCount) (buf : HostAddr), s.atCommand →
    (15104 < lba.toNat + count.toNat →
      exec (.diskRead lba count buf) s = .refused .diskRange ∧ exec (.diskWrite lba count buf) s = .refused .diskRange)
    ∧ (lba.toNat + count.toNat ≤ 15104 → 2 ^ 32 < buf.toNat + 512 * count.toNat →
      exec (.diskRead lba count buf) s = .refused .bufferRange
      ∧ exec (.diskWrite lba count buf) s = .refused .bufferRange)
    ∧ (s.atEngine → lba.toNat + count.toNat ≤ 15104 → buf.toNat + 512 * count.toNat ≤ 2 ^ 32 →
      (∀ i, i < count.toNat → 512 * lba2slba s.cfg (lba.toNat + i) + 512 ≤ s.cfg.flashSize) →
      ∀ i, i < count.toNat → (i = 0 ∨ CallerBuffer s buf.toNat (512 * i)) →
      (hitsStage s (buf.toNat + 512 * i) 512 = true ∨ hitsScratch s (buf.toNat + 512 * i) 512 = true) →
      (s.calm → hostReaches s s.cfg.stage.toNat 128 = true → exec (.diskRead lba count buf) s = .refused .bufferOverlap)
      ∧ (∀ q, s.prompt → Buffers q s → exec (.diskWrite lba count buf) s = .refused .bufferOverlap))

/-- Rules R222 and R235 (abnormal end X3; that a second SETUP after it is refused is log 22, from R235 and R248):
every field that is not named is unchanged, so nothing is sent on the wires and CTRL, CFG_WP and the flash are not
touched. That a used-up oracle answers null is log 24; the refusal of a port that does not fit is rule R300 (log 30).
-/
def Obligations.SetupInitialises : Prop :=
  ∀ s : State, s.seq.op = none →
    (s.ctx.ready = true → exec .setup s = .refused .alreadySetUp)
    ∧ (s.ctx.ready = false → s.ctx.aborted = true → exec .setup s = .refused .setupFailed)
    ∧ (s.ctx.ready = false → s.ctx.aborted = false → s.ctx.mode = .isProtected → s.sh.cs = false → s.calm →
        s.sh.busy = false →
      (¬ ((clip s.cfg.spiBaseReg.width s.chip.spiBase &&& s.cfg.spiBaseMask).setWidth 16).toNat + s.cfg.regErr.toNat < 2 ^ 16 →
        exec .setup s = .refused .portRange)
      ∧ (((clip s.cfg.spiBaseReg.width s.chip.spiBase &&& s.cfg.spiBaseMask).setWidth 16).toNat + s.cfg.regErr.toNat < 2 ^ 16 →
        (∀ q rest, s.env.allocs = some q :: rest →
          exec .setup s = .next { s with
            ctx := { s.ctx with
              base := (clip s.cfg.spiBaseReg.width s.chip.spiBase &&& s.cfg.spiBaseMask).setWidth 16, ready := true, scratch := some q }
            sh := { s.sh with err := s.cfg.errClear }
            draws := s.draws + 1
            filled := { s.filled with scratch := false }
            drive := { cylinders := 236, heads := 2, spt := 32, sectorSize := 512, sectors := 15104, registered := true }
            seq := { s.seq with
              op := none, pc := 0, pos := 0, loops := [], openBlock := none, word := clip s.cfg.spiBaseReg.width s.chip.spiBase }
            env := { s.env with allocs := rest }
            report := .none
            trace := [.registerBoot s.cfg.bootPriority, .alloc s.cfg.scratchAlign 4096 (some q),
              .portOut (((clip s.cfg.spiBaseReg.width s.chip.spiBase &&& s.cfg.spiBaseMask).setWidth 16).toNat
                + s.cfg.regErr.toNat) s.cfg.errClear,
              .cfgRead s.cfg.spiBaseReg (clip s.cfg.spiBaseReg.width s.chip.spiBase)] })
        ∧ (s.drive.registered = false → (s.env.allocs = [] ∨ ∃ rest, s.env.allocs = none :: rest) →
          exec .setup s = .next { s with
            ctx := { s.ctx with
              base := (clip s.cfg.spiBaseReg.width s.chip.spiBase &&& s.cfg.spiBaseMask).setWidth 16
              ready := false, scratch := none, aborted := true }
            sh := { s.sh with err := s.cfg.errClear }
            draws := s.draws + 1
            drive := { s.drive with registered := false }
            seq := { s.seq with
              op := none, pc := 0, pos := 0, loops := [], openBlock := none, word := clip s.cfg.spiBaseReg.width s.chip.spiBase }
            env := { s.env with allocs := s.env.allocs.tail }
            report := .none
            trace := [.alloc s.cfg.scratchAlign 4096 none,
              .portOut (((clip s.cfg.spiBaseReg.width s.chip.spiBase &&& s.cfg.spiBaseMask).setWidth 16).toNat
                + s.cfg.regErr.toNat) s.cfg.errClear,
              .cfgRead s.cfg.spiBaseReg (clip s.cfg.spiBaseReg.width s.chip.spiBase)] })))

/-- Rules R134, R170, R220 and the table of rule R312. That a WRITE_DATA of more than 256 bytes is refused here, and
not rejected (rules R178, R247), is log 19 (DEDUCED). -/
def Obligations.NothingRunsBeforeSetup : Prop :=
  ∀ (s : State) (i : Instr), s.seq.op = none → s.ctx.ready = false → s.calm → s.sh.busy = false → i ≠ .setup →
    exec i s = .refused .notReady

/-- Rules R289 and R248. -/
def Obligations.NoOperationBeginsWhileAnotherRuns : Prop :=
  ∀ (s : State) (i : Instr), s.seq.op ≠ none → exec i s = .refused .sequencerBusy

/-- Rules R131 (a) to (e), R280, R312. That CS_DIS is refused in PROTECTED, and DISK_RESET, VERIFY, FORMAT and UNKNOWN
in WRITABLE, is the table of rule R312, enforced as log 20 says (DESIGN CHOICE). -/
def Obligations.BusAndModeRefusals : Prop :=
  (∀ s : State, s.seq.op = none → s.ctx.ready = true → s.calm → s.sh.busy = false →
      (s.ctx.mode = .isProtected →
        exec .csEn s = .refused .wrongMode ∧ exec .csDis s = .refused .wrongMode
        ∧ (∀ b, exec (.wrByte b) s = .refused .wrongMode) ∧ exec .rdByte s = .refused .wrongMode
        ∧ (∀ a, exec (.wrAddr24 a) s = .refused .wrongMode) ∧ (∀ k, exec (.cmd1 k) s = .refused .wrongMode)
        ∧ exec .wren s = .refused .wrongMode ∧ exec .wrdi s = .refused .wrongMode
        ∧ (∀ a m, exec (.read a m) s = .refused .wrongMode) ∧ (∀ m, exec (.rdsr m) s = .refused .wrongMode)
        ∧ (∀ a, exec (.se a) s = .refused .wrongMode) ∧ (∀ a d, exec (.pp a d) s = .refused .wrongMode)
        ∧ exec .writableExit s = .refused .wrongMode ∧ exec .waitWip s = .refused .wrongMode)
      ∧ (s.ctx.mode = .isWritable →
        exec .writableEnter s = .refused .wrongMode
        ∧ (∀ lba count buf, exec (.diskReset lba count buf) s = .refused .wrongMode)
        ∧ (∀ lba count buf, exec (.diskRead lba count buf) s = .refused .wrongMode)
        ∧ (∀ lba count buf, exec (.diskWrite lba count buf) s = .refused .wrongMode)
        ∧ (∀ lba count buf, exec (.diskVerify lba count buf) s = .refused .wrongMode)
        ∧ (∀ lba count buf, exec (.diskFormat lba count buf) s = .refused .wrongMode)
        ∧ (∀ k lba count buf, exec (.diskUnknown k lba count buf) s = .refused .wrongMode)))
    ∧ ∀ s : State, s.seq.op = none → s.ctx.ready = true → s.canTransfer = true → s.atOnce →
      (s.sh.busy = false → s.sh.cs = false →
        exec .csDis s = .refused .chipNotSelected ∧ (∀ b, exec (.wrByte b) s = .refused .chipNotSelected)
        ∧ exec .rdByte s = .refused .chipNotSelected ∧ (∀ a, exec (.wrAddr24 a) s = .refused .chipNotSelected))
      ∧ (s.sh.busy = false → s.sh.cs = true →
        exec .csEn s = .refused .chipSelected ∧ (∀ k, exec (.cmd1 k) s = .refused .chipSelected)
        ∧ exec .wren s = .refused .chipSelected ∧ exec .wrdi s = .refused .chipSelected
        ∧ (∀ a m, exec (.read a m) s = .refused .chipSelected) ∧ (∀ m, exec (.rdsr m) s = .refused .chipSelected)
        ∧ (∀ a, exec (.se a) s = .refused .chipSelected) ∧ (∀ a d, exec (.pp a d) s = .refused .chipSelected))
      ∧ (s.sh.busy = true → (s.env.turns.headD s.env.after).shiftSteps = 0 →
        exec .csEn s = .refused .transferBusy ∧ exec .csDis s = .refused .transferBusy
        ∧ (∀ b, exec (.wrByte b) s = .refused .transferBusy) ∧ exec .rdByte s = .refused .transferBusy
        ∧ (∀ a, exec (.wrAddr24 a) s = .refused .transferBusy))
      ∧ (s.sh.busy = false → s.sh.cs = true → s.portsFit = true →
        (s.fl.phase ≠ .dataOut → exec .rdByte s = .refused .deviceNotSending)
        ∧ (s.fl.phase = .dataOut → (∀ b, exec (.wrByte b) s = .refused .deviceSending)
          ∧ ∀ a, exec (.wrAddr24 a) s = .refused .deviceSending))

/-- Rule R170; that READ_BURST asked for alone is among them, and WRITABLE_ENTER, WRITABLE_EXIT and WAIT_WIP are not,
is log 18, a choice of the model. That a WRITE_DATA of more than 256 bytes is refused here, and not rejected (rules
R178, R247), is log 19 (DEDUCED). -/
def Obligations.EngineNeedsTheQuiescentState : Prop :=
  ∀ s : State, s.seq.op = none → s.ctx.ready = true → s.quiescent = false →
    (∀ a, exec (.readByte a) s = .refused .notQuiescent) ∧ (∀ a, exec (.readBurst a) s = .refused .notQuiescent)
    ∧ (∀ sector dest, exec (.readSector sector dest) s = .refused .notQuiescent)
    ∧ (∀ a, exec (.eraseBlock a) s = .refused .notQuiescent)
    ∧ (∀ a p n, exec (.writeData a p n) s = .refused .notQuiescent)
    ∧ (∀ sector src, exec (.writeSector sector src) s = .refused .notQuiescent)

/-- Rules R152 and R312; that RDSR is accepted is StatusFrame. That CMD1 is refused whatever its byte, CMD_RDSR
included, is rule R312, read as log 20 says (DESIGN CHOICE). -/
def Obligations.BusyDeviceAcceptsOnlyStatusReads : Prop :=
  (∀ s : State, s.onBus → s.calm → s.cfg.ok = true → s.sh.cs = false → s.fl.phase = .idle → s.fl.wip = true →
    exec .wren s = .refused .deviceBusy ∧ exec .wrdi s = .refused .deviceBusy
    ∧ (∀ a m, exec (.read a m) s = .refused .deviceBusy) ∧ (∀ a, exec (.se a) s = .refused .deviceBusy)
    ∧ (∀ a d, exec (.pp a d) s = .refused .deviceBusy) ∧ (∀ k, exec (.cmd1 k) s = .refused .deviceBusy)
    ∧ (∀ k rest m, k ≠ s.cfg.cmdRdsr → runRequest (.frame (k :: rest) m) s = .refused .deviceBusy))
    ∧ ∀ (s : State) (b : Byte), s.onBus → s.sh.cs = true → s.fl.phase = .cmd → s.fl.wip = true → b ≠ s.cfg.cmdRdsr →
      s.pauses = false → (s.env.turns.headD s.env.after).flashInt = false →
      exec (.wrByte b) s = .refused .deviceBusy

/-- Rules R141 to R144, the device's side, under pairwise different command bytes. -/
def Obligations.DeviceTakesBytes : Prop :=
  ∀ (c : Config) (f : Flash) (b : Byte), c.ok = true →
    (f.phase = .idle → f.select = .ok { f with phase := .cmd, nbytes := 0, page := [], pageN := 0 })
    ∧ (f.phase ≠ .idle → f.select = .error .frameOpen)
    ∧ (f.phase = .cmd →
        (f.wip = true → b ≠ c.cmdRdsr → f.receive c b = .error .deviceBusy)
        ∧ (f.wip = false ∨ b = c.cmdRdsr →
          (b = c.cmdWren ∨ b = c.cmdWrdi → f.receive c b = .ok { f with cmd := b, phase := .done })
          ∧ (b = c.cmdRdsr → f.receive c b = .ok { f with cmd := b, phase := .dataOut })
          ∧ (b = c.cmdRead ∨ b = c.cmdSe ∨ b = c.cmdPp → f.receive c b = .ok { f with cmd := b, phase := .addr0 })
          ∧ (b ∉ [c.cmdWren, c.cmdWrdi, c.cmdRdsr, c.cmdRead, c.cmdSe, c.cmdPp] →
              f.receive c b = .ok { f with cmd := b, phase := .ignore })))
    ∧ (f.phase = .addr0 → f.receive c b = .ok { f with
        nbytes := f.nbytes + 1, addr := b ++ f.addr.extractLsb' 0 16, phase := .addr1 })
    ∧ (f.phase = .addr1 → f.receive c b = .ok { f with
        nbytes := f.nbytes + 1, addr := f.addr.extractLsb' 16 8 ++ b ++ f.addr.extractLsb' 0 8, phase := .addr2 })
    ∧ (f.phase = .addr2 →
        (c.flashSize ≤ (f.addr.extractLsb' 8 16 ++ b).toNat → f.receive c b = .error .flashRange)
        ∧ ((f.addr.extractLsb' 8 16 ++ b).toNat < c.flashSize →
          (f.cmd = c.cmdRead → f.receive c b = .ok { f with
            nbytes := f.nbytes + 1, addr := f.addr.extractLsb' 8 16 ++ b, phase := .dataOut })
          ∧ (f.cmd = c.cmdSe → f.receive c b = .ok { f with
            nbytes := f.nbytes + 1, addr := f.addr.extractLsb' 8 16 ++ b, phase := .done })
          ∧ (f.cmd = c.cmdPp → f.receive c b = .ok { f with
            nbytes := f.nbytes + 1, addr := f.addr.extractLsb' 8 16 ++ b, phase := .dataIn })))
    ∧ (f.phase = .dataIn →
        (f.pageN < 256 → f.receive c b = .ok { f with
          nbytes := f.nbytes + 1, pageN := f.pageN + 1, page := f.page ++ [b] })
        ∧ (256 ≤ f.pageN → f.receive c b = .error .pageOverflow))
    ∧ (f.phase = .done → f.receive c b = .ok { f with phase := .ignore })
    ∧ (f.phase = .ignore → f.receive c b = .ok f)
    ∧ (f.phase = .dataOut → f.receive c b = .error .deviceSending)
    ∧ (f.phase = .idle → f.receive c b = .error .chipNotSelected)

/-- Rule R151, under pairwise different command bytes. -/
def Obligations.DeviceDeselect : Prop :=
  ∀ (c : Config) (f : Flash), c.ok = true →
    (f.deselect c).phase = .idle ∧ (f.deselect c).mem = f.mem ∧ (f.deselect c).cmd = f.cmd
    ∧ (f.deselect c).addr = f.addr ∧ (f.deselect c).page = f.page ∧ (f.deselect c).pageN = f.pageN
    ∧ (f.phase = .done → f.cmd = c.cmdWren →
        (f.deselect c).wel = true ∧ (f.deselect c).wip = f.wip ∧ (f.deselect c).pending = f.pending)
    ∧ (f.phase = .done → f.cmd = c.cmdWrdi →
        (f.deselect c).wel = false ∧ (f.deselect c).wip = f.wip ∧ (f.deselect c).pending = f.pending)
    ∧ (f.phase = .done → f.cmd = c.cmdSe → f.wel = true →
        (f.deselect c).wel = true ∧ (f.deselect c).wip = true
        ∧ (f.deselect c).pending = .erase (f.addr.toNat / 4096))
    ∧ (f.phase = .dataIn → f.cmd = c.cmdPp → f.wel = true → 1 ≤ f.pageN →
        (f.deselect c).wel = true ∧ (f.deselect c).wip = true ∧ (f.deselect c).pending = .program f.addr f.page)
    ∧ (¬ (f.phase = .done ∧ (f.cmd = c.cmdWren ∨ f.cmd = c.cmdWrdi ∨ (f.cmd = c.cmdSe ∧ f.wel = true))) →
        ¬ (f.phase = .dataIn ∧ f.cmd = c.cmdPp ∧ f.wel = true ∧ 1 ≤ f.pageN) →
        (f.deselect c).wel = f.wel ∧ (f.deselect c).wip = f.wip ∧ (f.deselect c).pending = f.pending)

/-- Rule R154 (with the latches of rule R153). -/
def Obligations.EraseEffect : Prop :=
  ∀ (c : Config) (f : Flash) (k b : Nat), f.pending = .erase b →
    ∃ g, f.complete c k = .ok g ∧ (∀ i, i < 4096 → g.mem.read (4096 * b + i) = c.erasedByte)
      ∧ Memory.SameOutside (4096 * b) 4096 f.mem g.mem
      ∧ g = { f with mem := g.mem, pending := .none, wip := false, wel := false }

/-- Rules R155 and R153; a byte that was not erased holds a free value (log 8). -/
def Obligations.ProgramEffect : Prop :=
  ∀ (c : Config) (f : Flash) (k : Nat) (a : FlashAddr) (d : List Byte), f.pending = .program a d →
    (256 < a.toNat % 256 + d.length → f.complete c k = .error .pageCross)
    ∧ (a.toNat % 256 + d.length ≤ 256 →
      ∃ g, f.complete c k = .ok g
        ∧ (∀ i (h : i < d.length), f.mem.read (a.toNat + i) = c.erasedByte → g.mem.read (a.toNat + i) = d[i])
        ∧ Memory.SameOutside a.toNat d.length f.mem g.mem
        ∧ g = { f with mem := g.mem, pending := .none, wip := false, wel := false })

/-- Rules R26 and R157; rules R26, R72, R126, R134 and R23 for a read by itself (that HOST may ask for one is log 32,
that a read of REG_IN before any read transfer goes on with a free value, where rule R44 declines to give one, is log
3, both the choice of the model; when ERR is drawn is log 27). That each of the two masks of STAT has a bit the other
lacks is part of Config.ok: log 15, DEDUCED from R26. -/
def Obligations.StatusBytesAndPortReads : Prop :=
  (∀ s : State, s.cfg.ok = true →
      (statByte s &&& s.cfg.stTxDone ≠ 0 ↔ s.sh.txDone = true)
      ∧ (statByte s &&& s.cfg.stRxReady ≠ 0 ↔ s.sh.rxReady = true)
      ∧ (pollStat s).sh = s.sh ∧ (pollStat s).wire = s.wire ∧ (pollStat s).fl = s.fl ∧ (pollStat s).host = s.host)
    ∧ (∀ (c : Config) (f : Flash) (free : Byte), c.ok = true →
      (statusByte c f free &&& c.srWip ≠ 0 ↔ f.wip = true)
      ∧ (c.srWel ≠ 0 → (statusByte c f free &&& c.srWel ≠ 0 ↔ f.wel = true)))
    ∧ (∀ s : State, s.seq.op = none → s.ctx.ready = true → s.calm → s.sh.busy = false → s.cfg.ok = true →
      (s.portFits s.cfg.regStat = true → ∃ v, runRequest (.busRead s.cfg.regStat) s = .next { s with
          sh := { s.sh with err := s.freeByte }, draws := s.draws + 2
          seq := { s.seq with op := none, pc := 0, pos := 0, loops := [], openBlock := none, stat := v }
          report := .bytes [v], trace := [.portIn (s.port s.cfg.regStat) v] }
          ∧ (v &&& s.cfg.stTxDone ≠ 0 ↔ s.sh.txDone = true) ∧ (v &&& s.cfg.stRxReady ≠ 0 ↔ s.sh.rxReady = true))
      ∧ (s.sh.rxdHeld = true → s.portFits s.cfg.regIn = true → runRequest (.busRead s.cfg.regIn) s = .next { s with
          sh := { s.sh with err := s.freeByte }, draws := s.draws + 1
          seq := { s.seq with op := none, pc := 0, pos := 0, loops := [], openBlock := none, byte := s.sh.rxd }
          report := .bytes [s.sh.rxd], trace := [.portIn (s.port s.cfg.regIn) s.sh.rxd] })
      ∧ (s.sh.rxdHeld = false → s.portFits s.cfg.regIn = true → ∃ v, runRequest (.busRead s.cfg.regIn) s = .next { s with
          sh := { s.sh with err := s.freeByte }, draws := s.draws + 2
          seq := { s.seq with op := none, pc := 0, pos := 0, loops := [], openBlock := none, byte := v }
          report := .bytes [v], trace := [.portIn (s.port s.cfg.regIn) v] })
      ∧ (s.portFits s.cfg.regCtrl = true → runRequest (.busRead s.cfg.regCtrl) s = .next { s with
          sh := { s.sh with err := s.freeByte }, draws := s.draws + 1
          seq := { s.seq with op := none, pc := 0, pos := 0, loops := [], openBlock := none, byte := s.sh.ctrl }
          report := .bytes [s.sh.ctrl], trace := [.portIn (s.port s.cfg.regCtrl) s.sh.ctrl] }))
    ∧ ∀ s : State, s.seq.op = none → s.ctx.ready = false → s.calm → s.sh.busy = false → s.cfg.ok = true →
      ∀ off ∈ [s.cfg.regStat, s.cfg.regIn, s.cfg.regCtrl],
        runRequest (.busRead off) s = .refused .notReady

/-- Rules R66 and R128, R124 and R126. -/
def Obligations.BitsCrossMostSignificantFirst : Prop :=
  (∀ (s : State) (b : Byte) (j : Nat), s.wire.sck = false → j < 8 →
      (∃ u, shiftRun (3 * j + 1) (startTransmit b s) = .ok u ∧ u.wire.sck = false ∧ u.wire.mosi = b.getLsbD (7 - j)
        ∧ u.sh.bitcnt = 8 - j ∧ u.sh.busy = true)
      ∧ (∃ u, shiftRun (3 * j + 2) (startTransmit b s) = .ok u ∧ u.wire.sck = true ∧ u.wire.mosi = b.getLsbD (7 - j)
        ∧ u.sh.bitcnt = 8 - j ∧ u.sh.busy = true))
    ∧ ∀ s : State, s.wire.sck = false →
      ∃ v, (s.fl.cmd = s.cfg.cmdRead → v = s.fl.mem.read s.fl.addr.toNat)
        ∧ (s.wire.miso = (s.fl.byteOut s.cfg s.sh.misoFree).getLsbD 7 → v.getLsbD 7 = s.wire.miso)
        ∧ (∀ j, j < 8 →
          (∃ u, shiftRun (3 * j + 1) (startReceive s) = .ok u ∧ u.wire.sck = false ∧ u.wire.miso = v.getLsbD (7 - j)
            ∧ u.sh.bitcnt = 8 - j ∧ u.sh.busy = true)
          ∧ (∃ u, shiftRun (3 * j + 2) (startReceive s) = .ok u ∧ u.wire.sck = true ∧ u.wire.miso = v.getLsbD (7 - j)
            ∧ u.sh.bitcnt = 8 - j ∧ u.sh.busy = true))
        ∧ ∃ u, shiftRun 24 (startReceive s) = .ok u ∧ u.sh.rxd = v ∧ u.sh.rxReady = true ∧ u.sh.busy = false

/-- Rules R234 and R201; the formula is rule R221's, and the table of exceptions is the model's, held to rule R234 by
Config.ok (log 23). -/
def Obligations.SectorMap : Prop :=
  (∀ c : Config, c.ok = true → (∀ a, lba2slba c a % 8 ≠ c.reservedSlot)
      ∧ ∀ a b, a < 15104 → b < 15104 → a ≠ b → lba2slba c a ≠ lba2slba c b)
    ∧ ∀ c : Config, c.mapTable = [] → c.reservedSlot < 8 →
    (∀ a, lba2slba c a % 8 ≠ c.reservedSlot)
    ∧ (∀ a b, a < b → lba2slba c a < lba2slba c b)
    ∧ (∀ p, p % 8 ≠ c.reservedSlot → ∃ a, lba2slba c a = p)
    ∧ (∀ a g, blockOf (lba2slba c a) = g ↔ 7 * g ≤ a ∧ a ≤ 7 * g + 6)
    ∧ (c.reservedSlot = 0 → ∀ a, lba2slba c a = 8 * (a / 7) + a % 7 + 1)
    ∧ ∀ s, 512 * s = blockBase s + sectorOffset s ∧ blockBase s % 4096 = 0 ∧ sectorOffset s ≤ 3584

/-- Rule R102 (with R151 and R156): such a frame is no refusal. (That HOST may ask for one at all is the model's: log
17.) -/
def Obligations.RawFramesAreIgnored : Prop :=
  ∀ (s : State) (host : List Byte), s.onBus → s.calm → s.cfg.ok = true → s.sh.cs = false → s.fl.phase = .idle →
    s.fl.wip = false →
    (host = [] ∨ ∃ k rest, host = k :: rest ∧
      (k ∉ [s.cfg.cmdWren, s.cfg.cmdWrdi, s.cfg.cmdRdsr, s.cfg.cmdRead, s.cfg.cmdSe, s.cfg.cmdPp]
      ∨ (k = s.cfg.cmdWren ∨ k = s.cfg.cmdWrdi) ∧ rest ≠ []
      ∨ (k = s.cfg.cmdRead ∨ k = s.cfg.cmdSe ∨ k = s.cfg.cmdPp) ∧ rest.length < 3
      ∨ k = s.cfg.cmdSe ∧ ∃ a2 a1 a0 b more, rest = a2 :: a1 :: a0 :: b :: more
          ∧ (a2 ++ a1 ++ a0 : BitVec 24).toNat < s.cfg.flashSize)) →
    ∃ t, runRequest (.frame host 0) s = .next t ∧ SamePlatform s t ∧ t.fl.mem = s.fl.mem ∧ SameLatches s t
      ∧ t.fl.phase = .idle ∧ t.sh.cs = false ∧ t.wire.csn = true ∧ t.sh.busy = false ∧ t.report = .bytes []
end

