-- ==== Sys2Proof/Laws/Memory.lean ====
section
/-! SUPPORT. What the memory operations do: a read after a splice, and the canonical form. -/

namespace Sys2Proof.Machine

theorem Memory.read_append_of_none {m₁ m₂ : Memory} {a : Nat} (h : ∀ c ∈ m₁, c.1 ≠ a) :
    Memory.read (m₁ ++ m₂) a = Memory.read m₂ a := by
  induction m₁ with
  | nil => rfl
  | cons c m ih =>
    have hc : a ≠ c.1 := fun e => h c (by simp) e.symm
    simp only [List.cons_append, Memory.read, if_neg hc]
    exact ih fun d hd => h d (by simp [hd])

theorem Memory.read_of_none {m : Memory} {a : Nat} (h : ∀ c ∈ m, c.1 ≠ a) : m.read a = Memory.blank := by
  simpa [Memory.read] using Memory.read_append_of_none (m₂ := []) h

theorem Memory.read_append_none {m₁ m₂ : Memory} {a : Nat} (h : ∀ c ∈ m₂, c.1 ≠ a) :
    Memory.read (m₁ ++ m₂) a = m₁.read a := by
  induction m₁ with
  | nil => simpa [Memory.read] using Memory.read_of_none h
  | cons c m ih =>
    by_cases hc : a = c.1
    · simp [Memory.read, hc]
    · simp only [List.cons_append, Memory.read, if_neg hc]
      exact ih

theorem Memory.read_filter {m : Memory} {a : Nat} {p : Nat → Bool} (h : p a = true) :
    Memory.read (m.filter fun c => p c.1) a = m.read a := by
  induction m with
  | nil => rfl
  | cons c m ih =>
    by_cases hp : p c.1 = true
    · simp only [List.filter_cons, hp, if_true, Memory.read, ih]
    · have hc : a ≠ c.1 := fun e => hp (e ▸ h)
      simp only [List.filter_cons, hp, Memory.read, if_neg hc]
      simpa using ih

theorem Memory.cells_bounds {d : List Byte} {a : Nat} {c : Host.Cell} (h : c ∈ Memory.cells a d) :
    a ≤ c.1 ∧ c.1 < a + d.length := by
  induction d generalizing a with
  | nil => simp [Memory.cells] at h
  | cons v vs ih =>
    simp only [Memory.cells] at h
    split at h
    · have := ih h; simp; omega
    · rcases List.mem_cons.1 h with rfl | h
      · simp
      · have := ih h; simp; omega

theorem Memory.read_cells {d : List Byte} {a i : Nat} (h : i < d.length) :
    Memory.read (Memory.cells a d) (a + i) = d[i] := by
  induction d generalizing a i with
  | nil => simp at h
  | cons v vs ih =>
    cases i with
    | zero =>
      simp only [Memory.cells]
      split
      · rename_i hv
        rw [Memory.read_of_none (fun c hc => by have := Memory.cells_bounds hc; omega)]
        simp [hv]
      · simp [Memory.read]
    | succ i =>
      have hi : i < vs.length := by simpa using h
      have e := ih (a := a + 1) hi
      rw [show a + (i + 1) = a + 1 + i by omega]
      simp only [Memory.cells]
      split
      · simpa using e
      · simp only [Memory.read]
        rw [if_neg (by omega)]
        simpa using e

/-- A read inside the spliced range gives the byte put there. -/
theorem Memory.read_splice_inside {m : Memory} {a : Nat} {d : List Byte} {i : Nat} (h : i < d.length) :
    (m.splice a d).read (a + i) = d[i] := by
  unfold Memory.splice
  rw [Memory.read_append_none, Memory.read_append_of_none, Memory.read_cells h]
  · intro c hc; have := (List.mem_filter.1 hc).2; simp at this; omega
  · intro c hc; have := (List.mem_filter.1 hc).2; simp at this; omega

/-- A read outside the spliced range gives what it gave before. -/
theorem Memory.read_splice_outside {m : Memory} {a x : Nat} {d : List Byte} (h : x < a ∨ a + d.length ≤ x) :
    (m.splice a d).read x = m.read x := by
  unfold Memory.splice
  rcases h with h | h
  · rw [Memory.read_append_none, Memory.read_append_none,
      Memory.read_filter (p := fun b => decide (b < a)) (by simpa using h)]
    · intro c hc; have := Memory.cells_bounds hc; omega
    · intro c hc; have := (List.mem_filter.1 hc).2; simp at this; omega
  · rw [Memory.read_append_of_none,
      Memory.read_filter (p := fun b => decide (a + d.length ≤ b)) (by simpa using h)]
    intro c hc
    rcases List.mem_append.1 hc with hc | hc
    · have := (List.mem_filter.1 hc).2; simp at this; omega
    · have := Memory.cells_bounds hc; omega

/-- Both cases at once. -/
theorem Memory.read_splice (m : Memory) (a : Nat) (d : List Byte) (x : Nat) :
    (m.splice a d).read x = if h : a ≤ x ∧ x < a + d.length then d[x - a]'(by omega) else m.read x := by
  split
  · rename_i h
    have := Memory.read_splice_inside (m := m) (a := a) (d := d) (i := x - a) (by omega)
    rwa [show a + (x - a) = x by omega] at this
  · rename_i h
    exact Memory.read_splice_outside (by omega)

@[simp] theorem Memory.length_readMany (m : Memory) (a n : Nat) : (m.readMany a n).length = n := by
  simp [Memory.readMany]

@[simp] theorem Memory.getElem_readMany (m : Memory) (a n i : Nat) (h : i < (m.readMany a n).length) :
    (m.readMany a n)[i] = m.read (a + i) := by
  simp [Memory.readMany]

/-! ## The canonical form -/

/-- The canonical form, as what it says of the entries. -/
theorem Memory.wf_iff {m : Memory} :
    m.wf = true ↔ m.Pairwise (fun c d => c.1 < d.1) ∧ ∀ c ∈ m, c.2 ≠ Memory.blank := by
  induction m with
  | nil => simp [Memory.wf]
  | cons c m ih =>
    simp only [Memory.wf, Bool.and_eq_true, bne_iff_ne, ne_eq, List.all_eq_true, decide_eq_true_eq, ih,
      List.pairwise_cons, List.mem_cons, forall_eq_or_imp]
    tauto

theorem Memory.cells_wf (a : Nat) (d : List Byte) :
    (Memory.cells a d).Pairwise (fun c e => c.1 < e.1) ∧ ∀ c ∈ Memory.cells a d, c.2 ≠ Memory.blank := by
  induction d generalizing a with
  | nil => simp [Memory.cells]
  | cons v vs ih =>
    simp only [Memory.cells]
    split
    · exact ih (a + 1)
    · rename_i hv
      refine ⟨List.pairwise_cons.2 ⟨fun e he => ?_, (ih (a + 1)).1⟩, fun e he => ?_⟩
      · have := Memory.cells_bounds he; simp; omega
      · rcases List.mem_cons.1 he with rfl | he
        · exact hv
        · exact (ih (a + 1)).2 e he

/-- A splice keeps the canonical form; there is no other way a memory changes. -/
theorem Memory.wf_splice {m : Memory} (h : m.wf = true) (a : Nat) (d : List Byte) : (m.splice a d).wf = true := by
  obtain ⟨hp, hb⟩ := Memory.wf_iff.1 h
  obtain ⟨hcp, hcb⟩ := Memory.cells_wf a d
  refine Memory.wf_iff.2 ⟨?_, ?_⟩
  · unfold Memory.splice
    refine List.pairwise_append.2 ⟨List.pairwise_append.2 ⟨hp.filter _, hcp, ?_⟩, hp.filter _, ?_⟩
    · intro c hc e he
      have h1 := (List.mem_filter.1 hc).2
      have h2 := Memory.cells_bounds he
      simp at h1; omega
    · intro c hc e he
      have h2 := (List.mem_filter.1 he).2
      simp at h2
      rcases List.mem_append.1 hc with hc | hc
      · have h1 := (List.mem_filter.1 hc).2; simp at h1; omega
      · have h1 := Memory.cells_bounds hc; omega
  · intro c hc
    unfold Memory.splice at hc
    rcases List.mem_append.1 hc with hc | hc
    · rcases List.mem_append.1 hc with hc | hc
      · exact hb c (List.mem_filter.1 hc).1
      · exact hcb c hc
    · exact hb c (List.mem_filter.1 hc).1

/-- Putting nothing changes nothing. -/
theorem Memory.read_splice_nil (m : Memory) (a x : Nat) : (m.splice a []).read x = m.read x :=
  Memory.read_splice_outside (by simp; omega)

end Sys2Proof.Machine
end

