-- ==== Sys2Proof/Laws/State.lean ====
section
/-! SUPPORT. Reading a field after an update, one lemma a field and update, all true by rfl. -/

namespace Sys2Proof.Machine

@[simp] theorem State.withSh_sh (s : State) (x : ShiftEngine) : (s.withSh x).sh = x := rfl
@[simp] theorem State.withSh_wire (s : State) (x : ShiftEngine) : (s.withSh x).wire = s.wire := rfl
@[simp] theorem State.withSh_seq (s : State) (x : ShiftEngine) : (s.withSh x).seq = s.seq := rfl
@[simp] theorem State.withSh_chip (s : State) (x : ShiftEngine) : (s.withSh x).chip = s.chip := rfl
@[simp] theorem State.withSh_ctx (s : State) (x : ShiftEngine) : (s.withSh x).ctx = s.ctx := rfl
@[simp] theorem State.withSh_fl (s : State) (x : ShiftEngine) : (s.withSh x).fl = s.fl := rfl
@[simp] theorem State.withSh_host (s : State) (x : ShiftEngine) : (s.withSh x).host = s.host := rfl
@[simp] theorem State.withSh_filled (s : State) (x : ShiftEngine) : (s.withSh x).filled = s.filled := rfl
@[simp] theorem State.withSh_op (s : State) (x : ShiftEngine) : (s.withSh x).op = s.op := rfl
@[simp] theorem State.withSh_drive (s : State) (x : ShiftEngine) : (s.withSh x).drive = s.drive := rfl
@[simp] theorem State.withSh_report (s : State) (x : ShiftEngine) : (s.withSh x).report = s.report := rfl
@[simp] theorem State.withSh_cfg (s : State) (x : ShiftEngine) : (s.withSh x).cfg = s.cfg := rfl
@[simp] theorem State.withSh_env (s : State) (x : ShiftEngine) : (s.withSh x).env = s.env := rfl
@[simp] theorem State.withSh_draws (s : State) (x : ShiftEngine) : (s.withSh x).draws = s.draws := rfl
@[simp] theorem State.withSh_trace (s : State) (x : ShiftEngine) : (s.withSh x).trace = s.trace := rfl

@[simp] theorem State.withWire_sh (s : State) (x : Wires) : (s.withWire x).sh = s.sh := rfl
@[simp] theorem State.withWire_wire (s : State) (x : Wires) : (s.withWire x).wire = x := rfl
@[simp] theorem State.withWire_seq (s : State) (x : Wires) : (s.withWire x).seq = s.seq := rfl
@[simp] theorem State.withWire_chip (s : State) (x : Wires) : (s.withWire x).chip = s.chip := rfl
@[simp] theorem State.withWire_ctx (s : State) (x : Wires) : (s.withWire x).ctx = s.ctx := rfl
@[simp] theorem State.withWire_fl (s : State) (x : Wires) : (s.withWire x).fl = s.fl := rfl
@[simp] theorem State.withWire_host (s : State) (x : Wires) : (s.withWire x).host = s.host := rfl
@[simp] theorem State.withWire_filled (s : State) (x : Wires) : (s.withWire x).filled = s.filled := rfl
@[simp] theorem State.withWire_op (s : State) (x : Wires) : (s.withWire x).op = s.op := rfl
@[simp] theorem State.withWire_drive (s : State) (x : Wires) : (s.withWire x).drive = s.drive := rfl
@[simp] theorem State.withWire_report (s : State) (x : Wires) : (s.withWire x).report = s.report := rfl
@[simp] theorem State.withWire_cfg (s : State) (x : Wires) : (s.withWire x).cfg = s.cfg := rfl
@[simp] theorem State.withWire_env (s : State) (x : Wires) : (s.withWire x).env = s.env := rfl
@[simp] theorem State.withWire_draws (s : State) (x : Wires) : (s.withWire x).draws = s.draws := rfl
@[simp] theorem State.withWire_trace (s : State) (x : Wires) : (s.withWire x).trace = s.trace := rfl

@[simp] theorem State.withSeq_sh (s : State) (x : Sequencer) : (s.withSeq x).sh = s.sh := rfl
@[simp] theorem State.withSeq_wire (s : State) (x : Sequencer) : (s.withSeq x).wire = s.wire := rfl
@[simp] theorem State.withSeq_seq (s : State) (x : Sequencer) : (s.withSeq x).seq = x := rfl
@[simp] theorem State.withSeq_chip (s : State) (x : Sequencer) : (s.withSeq x).chip = s.chip := rfl
@[simp] theorem State.withSeq_ctx (s : State) (x : Sequencer) : (s.withSeq x).ctx = s.ctx := rfl
@[simp] theorem State.withSeq_fl (s : State) (x : Sequencer) : (s.withSeq x).fl = s.fl := rfl
@[simp] theorem State.withSeq_host (s : State) (x : Sequencer) : (s.withSeq x).host = s.host := rfl
@[simp] theorem State.withSeq_filled (s : State) (x : Sequencer) : (s.withSeq x).filled = s.filled := rfl
@[simp] theorem State.withSeq_op (s : State) (x : Sequencer) : (s.withSeq x).op = s.op := rfl
@[simp] theorem State.withSeq_drive (s : State) (x : Sequencer) : (s.withSeq x).drive = s.drive := rfl
@[simp] theorem State.withSeq_report (s : State) (x : Sequencer) : (s.withSeq x).report = s.report := rfl
@[simp] theorem State.withSeq_cfg (s : State) (x : Sequencer) : (s.withSeq x).cfg = s.cfg := rfl
@[simp] theorem State.withSeq_env (s : State) (x : Sequencer) : (s.withSeq x).env = s.env := rfl
@[simp] theorem State.withSeq_draws (s : State) (x : Sequencer) : (s.withSeq x).draws = s.draws := rfl
@[simp] theorem State.withSeq_trace (s : State) (x : Sequencer) : (s.withSeq x).trace = s.trace := rfl

@[simp] theorem State.withChip_sh (s : State) (x : ChipRegs) : (s.withChip x).sh = s.sh := rfl
@[simp] theorem State.withChip_wire (s : State) (x : ChipRegs) : (s.withChip x).wire = s.wire := rfl
@[simp] theorem State.withChip_seq (s : State) (x : ChipRegs) : (s.withChip x).seq = s.seq := rfl
@[simp] theorem State.withChip_chip (s : State) (x : ChipRegs) : (s.withChip x).chip = x := rfl
@[simp] theorem State.withChip_ctx (s : State) (x : ChipRegs) : (s.withChip x).ctx = s.ctx := rfl
@[simp] theorem State.withChip_fl (s : State) (x : ChipRegs) : (s.withChip x).fl = s.fl := rfl
@[simp] theorem State.withChip_host (s : State) (x : ChipRegs) : (s.withChip x).host = s.host := rfl
@[simp] theorem State.withChip_filled (s : State) (x : ChipRegs) : (s.withChip x).filled = s.filled := rfl
@[simp] theorem State.withChip_op (s : State) (x : ChipRegs) : (s.withChip x).op = s.op := rfl
@[simp] theorem State.withChip_drive (s : State) (x : ChipRegs) : (s.withChip x).drive = s.drive := rfl
@[simp] theorem State.withChip_report (s : State) (x : ChipRegs) : (s.withChip x).report = s.report := rfl
@[simp] theorem State.withChip_cfg (s : State) (x : ChipRegs) : (s.withChip x).cfg = s.cfg := rfl
@[simp] theorem State.withChip_env (s : State) (x : ChipRegs) : (s.withChip x).env = s.env := rfl
@[simp] theorem State.withChip_draws (s : State) (x : ChipRegs) : (s.withChip x).draws = s.draws := rfl
@[simp] theorem State.withChip_trace (s : State) (x : ChipRegs) : (s.withChip x).trace = s.trace := rfl

@[simp] theorem State.withCtx_sh (s : State) (x : Context) : (s.withCtx x).sh = s.sh := rfl
@[simp] theorem State.withCtx_wire (s : State) (x : Context) : (s.withCtx x).wire = s.wire := rfl
@[simp] theorem State.withCtx_seq (s : State) (x : Context) : (s.withCtx x).seq = s.seq := rfl
@[simp] theorem State.withCtx_chip (s : State) (x : Context) : (s.withCtx x).chip = s.chip := rfl
@[simp] theorem State.withCtx_ctx (s : State) (x : Context) : (s.withCtx x).ctx = x := rfl
@[simp] theorem State.withCtx_fl (s : State) (x : Context) : (s.withCtx x).fl = s.fl := rfl
@[simp] theorem State.withCtx_host (s : State) (x : Context) : (s.withCtx x).host = s.host := rfl
@[simp] theorem State.withCtx_filled (s : State) (x : Context) : (s.withCtx x).filled = s.filled := rfl
@[simp] theorem State.withCtx_op (s : State) (x : Context) : (s.withCtx x).op = s.op := rfl
@[simp] theorem State.withCtx_drive (s : State) (x : Context) : (s.withCtx x).drive = s.drive := rfl
@[simp] theorem State.withCtx_report (s : State) (x : Context) : (s.withCtx x).report = s.report := rfl
@[simp] theorem State.withCtx_cfg (s : State) (x : Context) : (s.withCtx x).cfg = s.cfg := rfl
@[simp] theorem State.withCtx_env (s : State) (x : Context) : (s.withCtx x).env = s.env := rfl
@[simp] theorem State.withCtx_draws (s : State) (x : Context) : (s.withCtx x).draws = s.draws := rfl
@[simp] theorem State.withCtx_trace (s : State) (x : Context) : (s.withCtx x).trace = s.trace := rfl

@[simp] theorem State.withFl_sh (s : State) (x : Flash) : (s.withFl x).sh = s.sh := rfl
@[simp] theorem State.withFl_wire (s : State) (x : Flash) : (s.withFl x).wire = s.wire := rfl
@[simp] theorem State.withFl_seq (s : State) (x : Flash) : (s.withFl x).seq = s.seq := rfl
@[simp] theorem State.withFl_chip (s : State) (x : Flash) : (s.withFl x).chip = s.chip := rfl
@[simp] theorem State.withFl_ctx (s : State) (x : Flash) : (s.withFl x).ctx = s.ctx := rfl
@[simp] theorem State.withFl_fl (s : State) (x : Flash) : (s.withFl x).fl = x := rfl
@[simp] theorem State.withFl_host (s : State) (x : Flash) : (s.withFl x).host = s.host := rfl
@[simp] theorem State.withFl_filled (s : State) (x : Flash) : (s.withFl x).filled = s.filled := rfl
@[simp] theorem State.withFl_op (s : State) (x : Flash) : (s.withFl x).op = s.op := rfl
@[simp] theorem State.withFl_drive (s : State) (x : Flash) : (s.withFl x).drive = s.drive := rfl
@[simp] theorem State.withFl_report (s : State) (x : Flash) : (s.withFl x).report = s.report := rfl
@[simp] theorem State.withFl_cfg (s : State) (x : Flash) : (s.withFl x).cfg = s.cfg := rfl
@[simp] theorem State.withFl_env (s : State) (x : Flash) : (s.withFl x).env = s.env := rfl
@[simp] theorem State.withFl_draws (s : State) (x : Flash) : (s.withFl x).draws = s.draws := rfl
@[simp] theorem State.withFl_trace (s : State) (x : Flash) : (s.withFl x).trace = s.trace := rfl

@[simp] theorem State.withHost_sh (s : State) (x : Memory) : (s.withHost x).sh = s.sh := rfl
@[simp] theorem State.withHost_wire (s : State) (x : Memory) : (s.withHost x).wire = s.wire := rfl
@[simp] theorem State.withHost_seq (s : State) (x : Memory) : (s.withHost x).seq = s.seq := rfl
@[simp] theorem State.withHost_chip (s : State) (x : Memory) : (s.withHost x).chip = s.chip := rfl
@[simp] theorem State.withHost_ctx (s : State) (x : Memory) : (s.withHost x).ctx = s.ctx := rfl
@[simp] theorem State.withHost_fl (s : State) (x : Memory) : (s.withHost x).fl = s.fl := rfl
@[simp] theorem State.withHost_host (s : State) (x : Memory) : (s.withHost x).host = x := rfl
@[simp] theorem State.withHost_filled (s : State) (x : Memory) : (s.withHost x).filled = s.filled := rfl
@[simp] theorem State.withHost_op (s : State) (x : Memory) : (s.withHost x).op = s.op := rfl
@[simp] theorem State.withHost_drive (s : State) (x : Memory) : (s.withHost x).drive = s.drive := rfl
@[simp] theorem State.withHost_report (s : State) (x : Memory) : (s.withHost x).report = s.report := rfl
@[simp] theorem State.withHost_cfg (s : State) (x : Memory) : (s.withHost x).cfg = s.cfg := rfl
@[simp] theorem State.withHost_env (s : State) (x : Memory) : (s.withHost x).env = s.env := rfl
@[simp] theorem State.withHost_draws (s : State) (x : Memory) : (s.withHost x).draws = s.draws := rfl
@[simp] theorem State.withHost_trace (s : State) (x : Memory) : (s.withHost x).trace = s.trace := rfl

@[simp] theorem State.withFilled_sh (s : State) (x : Filled) : (s.withFilled x).sh = s.sh := rfl
@[simp] theorem State.withFilled_wire (s : State) (x : Filled) : (s.withFilled x).wire = s.wire := rfl
@[simp] theorem State.withFilled_seq (s : State) (x : Filled) : (s.withFilled x).seq = s.seq := rfl
@[simp] theorem State.withFilled_chip (s : State) (x : Filled) : (s.withFilled x).chip = s.chip := rfl
@[simp] theorem State.withFilled_ctx (s : State) (x : Filled) : (s.withFilled x).ctx = s.ctx := rfl
@[simp] theorem State.withFilled_fl (s : State) (x : Filled) : (s.withFilled x).fl = s.fl := rfl
@[simp] theorem State.withFilled_host (s : State) (x : Filled) : (s.withFilled x).host = s.host := rfl
@[simp] theorem State.withFilled_filled (s : State) (x : Filled) : (s.withFilled x).filled = x := rfl
@[simp] theorem State.withFilled_op (s : State) (x : Filled) : (s.withFilled x).op = s.op := rfl
@[simp] theorem State.withFilled_drive (s : State) (x : Filled) : (s.withFilled x).drive = s.drive := rfl
@[simp] theorem State.withFilled_report (s : State) (x : Filled) : (s.withFilled x).report = s.report := rfl
@[simp] theorem State.withFilled_cfg (s : State) (x : Filled) : (s.withFilled x).cfg = s.cfg := rfl
@[simp] theorem State.withFilled_env (s : State) (x : Filled) : (s.withFilled x).env = s.env := rfl
@[simp] theorem State.withFilled_draws (s : State) (x : Filled) : (s.withFilled x).draws = s.draws := rfl
@[simp] theorem State.withFilled_trace (s : State) (x : Filled) : (s.withFilled x).trace = s.trace := rfl

@[simp] theorem State.withOp_sh (s : State) (x : OpRecord) : (s.withOp x).sh = s.sh := rfl
@[simp] theorem State.withOp_wire (s : State) (x : OpRecord) : (s.withOp x).wire = s.wire := rfl
@[simp] theorem State.withOp_seq (s : State) (x : OpRecord) : (s.withOp x).seq = s.seq := rfl
@[simp] theorem State.withOp_chip (s : State) (x : OpRecord) : (s.withOp x).chip = s.chip := rfl
@[simp] theorem State.withOp_ctx (s : State) (x : OpRecord) : (s.withOp x).ctx = s.ctx := rfl
@[simp] theorem State.withOp_fl (s : State) (x : OpRecord) : (s.withOp x).fl = s.fl := rfl
@[simp] theorem State.withOp_host (s : State) (x : OpRecord) : (s.withOp x).host = s.host := rfl
@[simp] theorem State.withOp_filled (s : State) (x : OpRecord) : (s.withOp x).filled = s.filled := rfl
@[simp] theorem State.withOp_op (s : State) (x : OpRecord) : (s.withOp x).op = x := rfl
@[simp] theorem State.withOp_drive (s : State) (x : OpRecord) : (s.withOp x).drive = s.drive := rfl
@[simp] theorem State.withOp_report (s : State) (x : OpRecord) : (s.withOp x).report = s.report := rfl
@[simp] theorem State.withOp_cfg (s : State) (x : OpRecord) : (s.withOp x).cfg = s.cfg := rfl
@[simp] theorem State.withOp_env (s : State) (x : OpRecord) : (s.withOp x).env = s.env := rfl
@[simp] theorem State.withOp_draws (s : State) (x : OpRecord) : (s.withOp x).draws = s.draws := rfl
@[simp] theorem State.withOp_trace (s : State) (x : OpRecord) : (s.withOp x).trace = s.trace := rfl

@[simp] theorem State.withDrive_sh (s : State) (x : Drive) : (s.withDrive x).sh = s.sh := rfl
@[simp] theorem State.withDrive_wire (s : State) (x : Drive) : (s.withDrive x).wire = s.wire := rfl
@[simp] theorem State.withDrive_seq (s : State) (x : Drive) : (s.withDrive x).seq = s.seq := rfl
@[simp] theorem State.withDrive_chip (s : State) (x : Drive) : (s.withDrive x).chip = s.chip := rfl
@[simp] theorem State.withDrive_ctx (s : State) (x : Drive) : (s.withDrive x).ctx = s.ctx := rfl
@[simp] theorem State.withDrive_fl (s : State) (x : Drive) : (s.withDrive x).fl = s.fl := rfl
@[simp] theorem State.withDrive_host (s : State) (x : Drive) : (s.withDrive x).host = s.host := rfl
@[simp] theorem State.withDrive_filled (s : State) (x : Drive) : (s.withDrive x).filled = s.filled := rfl
@[simp] theorem State.withDrive_op (s : State) (x : Drive) : (s.withDrive x).op = s.op := rfl
@[simp] theorem State.withDrive_drive (s : State) (x : Drive) : (s.withDrive x).drive = x := rfl
@[simp] theorem State.withDrive_report (s : State) (x : Drive) : (s.withDrive x).report = s.report := rfl
@[simp] theorem State.withDrive_cfg (s : State) (x : Drive) : (s.withDrive x).cfg = s.cfg := rfl
@[simp] theorem State.withDrive_env (s : State) (x : Drive) : (s.withDrive x).env = s.env := rfl
@[simp] theorem State.withDrive_draws (s : State) (x : Drive) : (s.withDrive x).draws = s.draws := rfl
@[simp] theorem State.withDrive_trace (s : State) (x : Drive) : (s.withDrive x).trace = s.trace := rfl

@[simp] theorem State.withReport_sh (s : State) (x : Report) : (s.withReport x).sh = s.sh := rfl
@[simp] theorem State.withReport_wire (s : State) (x : Report) : (s.withReport x).wire = s.wire := rfl
@[simp] theorem State.withReport_seq (s : State) (x : Report) : (s.withReport x).seq = s.seq := rfl
@[simp] theorem State.withReport_chip (s : State) (x : Report) : (s.withReport x).chip = s.chip := rfl
@[simp] theorem State.withReport_ctx (s : State) (x : Report) : (s.withReport x).ctx = s.ctx := rfl
@[simp] theorem State.withReport_fl (s : State) (x : Report) : (s.withReport x).fl = s.fl := rfl
@[simp] theorem State.withReport_host (s : State) (x : Report) : (s.withReport x).host = s.host := rfl
@[simp] theorem State.withReport_filled (s : State) (x : Report) : (s.withReport x).filled = s.filled := rfl
@[simp] theorem State.withReport_op (s : State) (x : Report) : (s.withReport x).op = s.op := rfl
@[simp] theorem State.withReport_drive (s : State) (x : Report) : (s.withReport x).drive = s.drive := rfl
@[simp] theorem State.withReport_report (s : State) (x : Report) : (s.withReport x).report = x := rfl
@[simp] theorem State.withReport_cfg (s : State) (x : Report) : (s.withReport x).cfg = s.cfg := rfl
@[simp] theorem State.withReport_env (s : State) (x : Report) : (s.withReport x).env = s.env := rfl
@[simp] theorem State.withReport_draws (s : State) (x : Report) : (s.withReport x).draws = s.draws := rfl
@[simp] theorem State.withReport_trace (s : State) (x : Report) : (s.withReport x).trace = s.trace := rfl

@[simp] theorem State.withEnv_sh (s : State) (x : Env) : (s.withEnv x).sh = s.sh := rfl
@[simp] theorem State.withEnv_wire (s : State) (x : Env) : (s.withEnv x).wire = s.wire := rfl
@[simp] theorem State.withEnv_seq (s : State) (x : Env) : (s.withEnv x).seq = s.seq := rfl
@[simp] theorem State.withEnv_chip (s : State) (x : Env) : (s.withEnv x).chip = s.chip := rfl
@[simp] theorem State.withEnv_ctx (s : State) (x : Env) : (s.withEnv x).ctx = s.ctx := rfl
@[simp] theorem State.withEnv_fl (s : State) (x : Env) : (s.withEnv x).fl = s.fl := rfl
@[simp] theorem State.withEnv_host (s : State) (x : Env) : (s.withEnv x).host = s.host := rfl
@[simp] theorem State.withEnv_filled (s : State) (x : Env) : (s.withEnv x).filled = s.filled := rfl
@[simp] theorem State.withEnv_op (s : State) (x : Env) : (s.withEnv x).op = s.op := rfl
@[simp] theorem State.withEnv_drive (s : State) (x : Env) : (s.withEnv x).drive = s.drive := rfl
@[simp] theorem State.withEnv_report (s : State) (x : Env) : (s.withEnv x).report = s.report := rfl
@[simp] theorem State.withEnv_cfg (s : State) (x : Env) : (s.withEnv x).cfg = s.cfg := rfl
@[simp] theorem State.withEnv_env (s : State) (x : Env) : (s.withEnv x).env = x := rfl
@[simp] theorem State.withEnv_draws (s : State) (x : Env) : (s.withEnv x).draws = s.draws := rfl
@[simp] theorem State.withEnv_trace (s : State) (x : Env) : (s.withEnv x).trace = s.trace := rfl

@[simp] theorem State.withDraws_sh (s : State) (x : Nat) : (s.withDraws x).sh = s.sh := rfl
@[simp] theorem State.withDraws_wire (s : State) (x : Nat) : (s.withDraws x).wire = s.wire := rfl
@[simp] theorem State.withDraws_seq (s : State) (x : Nat) : (s.withDraws x).seq = s.seq := rfl
@[simp] theorem State.withDraws_chip (s : State) (x : Nat) : (s.withDraws x).chip = s.chip := rfl
@[simp] theorem State.withDraws_ctx (s : State) (x : Nat) : (s.withDraws x).ctx = s.ctx := rfl
@[simp] theorem State.withDraws_fl (s : State) (x : Nat) : (s.withDraws x).fl = s.fl := rfl
@[simp] theorem State.withDraws_host (s : State) (x : Nat) : (s.withDraws x).host = s.host := rfl
@[simp] theorem State.withDraws_filled (s : State) (x : Nat) : (s.withDraws x).filled = s.filled := rfl
@[simp] theorem State.withDraws_op (s : State) (x : Nat) : (s.withDraws x).op = s.op := rfl
@[simp] theorem State.withDraws_drive (s : State) (x : Nat) : (s.withDraws x).drive = s.drive := rfl
@[simp] theorem State.withDraws_report (s : State) (x : Nat) : (s.withDraws x).report = s.report := rfl
@[simp] theorem State.withDraws_cfg (s : State) (x : Nat) : (s.withDraws x).cfg = s.cfg := rfl
@[simp] theorem State.withDraws_env (s : State) (x : Nat) : (s.withDraws x).env = s.env := rfl
@[simp] theorem State.withDraws_draws (s : State) (x : Nat) : (s.withDraws x).draws = x := rfl
@[simp] theorem State.withDraws_trace (s : State) (x : Nat) : (s.withDraws x).trace = s.trace := rfl

@[simp] theorem State.withTrace_sh (s : State) (x : List Event) : (s.withTrace x).sh = s.sh := rfl
@[simp] theorem State.withTrace_wire (s : State) (x : List Event) : (s.withTrace x).wire = s.wire := rfl
@[simp] theorem State.withTrace_seq (s : State) (x : List Event) : (s.withTrace x).seq = s.seq := rfl
@[simp] theorem State.withTrace_chip (s : State) (x : List Event) : (s.withTrace x).chip = s.chip := rfl
@[simp] theorem State.withTrace_ctx (s : State) (x : List Event) : (s.withTrace x).ctx = s.ctx := rfl
@[simp] theorem State.withTrace_fl (s : State) (x : List Event) : (s.withTrace x).fl = s.fl := rfl
@[simp] theorem State.withTrace_host (s : State) (x : List Event) : (s.withTrace x).host = s.host := rfl
@[simp] theorem State.withTrace_filled (s : State) (x : List Event) : (s.withTrace x).filled = s.filled := rfl
@[simp] theorem State.withTrace_op (s : State) (x : List Event) : (s.withTrace x).op = s.op := rfl
@[simp] theorem State.withTrace_drive (s : State) (x : List Event) : (s.withTrace x).drive = s.drive := rfl
@[simp] theorem State.withTrace_report (s : State) (x : List Event) : (s.withTrace x).report = s.report := rfl
@[simp] theorem State.withTrace_cfg (s : State) (x : List Event) : (s.withTrace x).cfg = s.cfg := rfl
@[simp] theorem State.withTrace_env (s : State) (x : List Event) : (s.withTrace x).env = s.env := rfl
@[simp] theorem State.withTrace_draws (s : State) (x : List Event) : (s.withTrace x).draws = s.draws := rfl
@[simp] theorem State.withTrace_trace (s : State) (x : List Event) : (s.withTrace x).trace = x := rfl

end Sys2Proof.Machine
end

