-- ==== Sys2Proof/Laws/Shift.lean ====
section
/-! SUPPORT. What the shift engine does to a whole byte: twenty-four steps carry it across, bit by bit, most significant
bit first (rules R124, R126, R128, R129), and what a turn of the other agents does (log 9). -/

namespace Sys2Proof.Machine

/-- A byte's worth of samples, with bit `i` of `b` shifted in. -/
def bitIn (acc b : Byte) (i : Nat) : Byte := (acc <<< 1) ||| (BitVec.ofBool (b.getLsbD i)).setWidth 8

/-- Eight bits shifted in, most significant first, are the byte. -/
theorem bitIn_all (b : Byte) :
    bitIn (bitIn (bitIn (bitIn (bitIn (bitIn (bitIn (bitIn 0 b 7) b 6) b 5) b 4) b 3) b 2) b 1) b 0 = b := by
  revert b; decide +kernel

/-! ## Running -/

@[simp] theorem shiftRun_zero (s : State) : shiftRun 0 s = .ok s := rfl

theorem shiftRun_of_idle (n : Nat) {s : State} (h : s.sh.busy = false) : shiftRun n s = .ok s := by
  cases n <;> simp [shiftRun, h]

/-! ## One bit -/

/-- A transfer with `k` bits left, `acc` sampled so far, these levels on SCK and MOSI, the next bit on MISO. -/
def atBit (d : Direction) (s : State) (k : Nat) (acc : Byte) (c m : Bool) : State :=
  (s.withSh { s.sh with busy := true, dir := d, bitcnt := k, sub := 0, sample := acc }).withWire
    { s.wire with sck := c, mosi := m, miso := s.sh.misoByte.getLsbD (k - 1) }

/-- One bit of a transmission that is not the last. -/
theorem transmit_bit (s : State) (k n : Nat) (acc : Byte) (c m : Bool) (hk : k ≠ 0) :
    shiftRun (n + 3) (atBit .transmit s (k + 1) acc c m)
      = shiftRun n (atBit .transmit s k (bitIn acc s.sh.mosiByte k) false (s.sh.mosiByte.getLsbD k)) := by
  simp [shiftRun, atBit, shiftStep, putBit, takeDeviceByte, clockHigh, clockLow, nextMiso, State.sampledLevel,
    ShiftEngine.bitIndex, bitIn, State.withSh, State.withWire, hk]

/-- The state after the last bit of a transmission, but for what the device makes of the byte. -/
def transmitted (s : State) : State :=
  (s.withSh { s.sh with
    dir := .transmit, sub := 0, bitcnt := 0, sample := s.sh.mosiByte, busy := false, txDone := true }).withWire
    { s.wire with sck := false, mosi := s.sh.mosiByte.getLsbD 0 }

/-- The last bit of a transmission. -/
theorem transmit_last (s : State) (n : Nat) (acc : Byte) (c m : Bool) (f : Flash)
    (hb : bitIn acc s.sh.mosiByte 0 = s.sh.mosiByte) (hf : s.fl.receive s.cfg s.sh.mosiByte = .ok f) :
    shiftRun (n + 3) (atBit .transmit s 1 acc c m) = .ok (lastEdge ((transmitted s).withFl f)) := by
  have hb : acc <<< 1 ||| (BitVec.ofBool s.sh.mosiByte[0]).setWidth 8 = s.sh.mosiByte := by simpa [bitIn] using hb
  simp [shiftRun, atBit, shiftStep, putBit, takeDeviceByte, clockHigh, clockLow, State.sampledLevel, transmitted,
    ShiftEngine.bitIndex, State.withSh, State.withWire, byteDone, State.withFl, hb, hf, lastEdge, State.freeByte,
    State.drew, State.withDraws, shiftRun_of_idle]

/-- The last bit of a transmission of a byte the device refuses. -/
theorem transmit_refused (s : State) (n : Nat) (acc : Byte) (c m : Bool) (r : Refusal)
    (hb : bitIn acc s.sh.mosiByte 0 = s.sh.mosiByte) (hf : s.fl.receive s.cfg s.sh.mosiByte = .error r) :
    shiftRun (n + 3) (atBit .transmit s 1 acc c m) = .error r := by
  have hb : acc <<< 1 ||| (BitVec.ofBool s.sh.mosiByte[0]).setWidth 8 = s.sh.mosiByte := by simpa [bitIn] using hb
  simp [shiftRun, atBit, shiftStep, putBit, takeDeviceByte, clockHigh, clockLow, State.sampledLevel,
    ShiftEngine.bitIndex, State.withSh, State.withWire, byteDone, hb, hf]

/-- The first seven bits of a transmission. -/
theorem shiftRun_seven (s : State) (k : Nat) (hb : s.sh.busy = true) (hd : s.sh.dir = .transmit)
    (hc : s.sh.bitcnt = 8) (hs : s.sh.sub = 0) (ha : s.sh.sample = 0) (hm : s.wire.miso = s.sh.misoByte.getLsbD 7) :
    ∃ acc c m, shiftRun (k + 24) s = shiftRun (k + 3) (atBit .transmit s 1 acc c m)
      ∧ bitIn acc s.sh.mosiByte 0 = s.sh.mosiByte := by
  have e : s = atBit .transmit s 8 0 s.wire.sck s.wire.mosi := by
    rcases s with ⟨⟨⟩, ⟨⟩⟩
    simp only at hb hd hc hs ha hm
    subst hb hd hc hs ha hm
    rfl
  refine ⟨_, false, s.sh.mosiByte.getLsbD 1, ?_, bitIn_all s.sh.mosiByte⟩
  conv_lhs => rw [e]
  show shiftRun (k + 3 + 3 + 3 + 3 + 3 + 3 + 3 + 3) _ = _
  iterate 7 rw [transmit_bit _ _ _ _ _ _ (by decide)]

/-- A whole byte sent (rules R124, R129): the device gets the byte, TX_DONE is set, MOSI holds its last bit. -/
theorem shiftRun_transmit (s : State) (n : Nat) (f : Flash) (hn : 24 ≤ n) (hb : s.sh.busy = true)
    (hd : s.sh.dir = .transmit) (hc : s.sh.bitcnt = 8) (hs : s.sh.sub = 0) (ha : s.sh.sample = 0)
    (hm : s.wire.miso = s.sh.misoByte.getLsbD 7) (hf : s.fl.receive s.cfg s.sh.mosiByte = .ok f) :
    shiftRun n s = .ok (lastEdge ((transmitted s).withFl f)) := by
  obtain ⟨k, rfl⟩ : ∃ k, n = k + 24 := ⟨n - 24, by omega⟩
  obtain ⟨acc, c, m, e, h⟩ := shiftRun_seven s k hb hd hc hs ha hm
  rw [e]
  exact transmit_last s k acc c m f h hf

/-- A whole byte sent that the device refuses (rules R142 to R144, R152). -/
theorem shiftRun_refused (s : State) (n : Nat) (r : Refusal) (hn : 24 ≤ n) (hb : s.sh.busy = true)
    (hd : s.sh.dir = .transmit) (hc : s.sh.bitcnt = 8) (hs : s.sh.sub = 0) (ha : s.sh.sample = 0)
    (hm : s.wire.miso = s.sh.misoByte.getLsbD 7) (hf : s.fl.receive s.cfg s.sh.mosiByte = .error r) :
    shiftRun n s = .error r := by
  obtain ⟨k, rfl⟩ : ∃ k, n = k + 24 := ⟨n - 24, by omega⟩
  obtain ⟨acc, c, m, e, h⟩ := shiftRun_seven s k hb hd hc hs ha hm
  rw [e]
  exact transmit_refused s k acc c m r h hf

/-! ## Receiving -/

/-- The device's byte taken, before the first bit (rule R126). -/
def deviceTaken (s : State) : State :=
  ((s.withSh { s.sh with misoByte := s.fl.byteOut s.cfg s.sh.misoFree }).withWire
    { s.wire with miso := (s.fl.byteOut s.cfg s.sh.misoFree).getLsbD 7 }).withFl (s.fl.afterByteOut s.cfg)

/-- The first bit of a reception. -/
theorem receive_first (s : State) (n : Nat) (acc : Byte) (c m : Bool) :
    shiftRun (n + 3) (atBit .receive s 8 acc c m)
      = shiftRun n (atBit .receive (deviceTaken s) 7 (bitIn acc (s.fl.byteOut s.cfg s.sh.misoFree) 7) false
          (s.sh.mosiByte.getLsbD 7)) := by
  simp [shiftRun, atBit, shiftStep, putBit, takeDeviceByte, clockHigh, clockLow, nextMiso, State.sampledLevel,
    deviceTaken, ShiftEngine.bitIndex, bitIn, State.withSh, State.withWire, State.withFl]

/-- A later bit of a reception that is not the last. -/
theorem receive_bit (s : State) (k n : Nat) (acc : Byte) (c m : Bool) (hk : k ≠ 0) (h8 : k ≠ 7) :
    shiftRun (n + 3) (atBit .receive s (k + 1) acc c m)
      = shiftRun n (atBit .receive s k (bitIn acc s.sh.misoByte k) false (s.sh.mosiByte.getLsbD k)) := by
  simp [shiftRun, atBit, shiftStep, putBit, takeDeviceByte, clockHigh, clockLow, nextMiso, State.sampledLevel,
    ShiftEngine.bitIndex, bitIn, State.withSh, State.withWire, hk, h8]

/-- The state after the last bit of a reception. -/
def received (s : State) : State :=
  (s.withSh { s.sh with
    dir := .receive, sub := 0, bitcnt := 0, sample := s.sh.misoByte, busy := false, rxReady := true
    shift := s.sh.misoByte, rxd := s.sh.misoByte, rxdHeld := true }).withWire
    { s.wire with sck := false, mosi := s.sh.mosiByte.getLsbD 0 }

/-- The last bit of a reception. -/
theorem receive_last (s : State) (n : Nat) (acc : Byte) (c m : Bool) (hb : bitIn acc s.sh.misoByte 0 = s.sh.misoByte) :
    shiftRun (n + 3) (atBit .receive s 1 acc c m) = .ok (lastEdge (received s)) := by
  have hb : acc <<< 1 ||| (BitVec.ofBool s.sh.misoByte[0]).setWidth 8 = s.sh.misoByte := by simpa [bitIn] using hb
  simp [shiftRun, atBit, shiftStep, putBit, takeDeviceByte, clockHigh, clockLow, State.sampledLevel, received,
    ShiftEngine.bitIndex, State.withSh, State.withWire, byteDone, hb, lastEdge, State.freeByte, State.drew,
    State.withDraws, shiftRun_of_idle]

/-- A whole byte received (rules R126, R129): RXD and SHIFT hold the device's byte, RX_READY is set, and the device has
gone on as it does. -/
theorem shiftRun_receive (s : State) (n : Nat) (hn : 24 ≤ n) (hb : s.sh.busy = true) (hd : s.sh.dir = .receive)
    (hc : s.sh.bitcnt = 8) (hs : s.sh.sub = 0) (ha : s.sh.sample = 0) :
    shiftRun n s = .ok (lastEdge (received (deviceTaken s))) := by
  obtain ⟨k, rfl⟩ : ∃ k, n = k + 3 + 3 + 3 + 3 + 3 + 3 + 3 + 3 := ⟨n - 24, by omega⟩
  have e : shiftRun (k + 3 + 3 + 3 + 3 + 3 + 3 + 3 + 3) s
      = shiftRun (k + 3 + 3 + 3 + 3 + 3 + 3 + 3 + 3) (atBit .receive s 8 0 s.wire.sck s.wire.mosi) := by
    rcases s with ⟨⟨⟩, ⟨⟩⟩
    simp only at hb hd hc hs ha
    subst hb hd hc hs ha
    simp [shiftRun, atBit, shiftStep, putBit, takeDeviceByte, State.withSh, State.withWire, State.withFl]
  rw [e, receive_first]
  iterate 6 rw [receive_bit _ _ _ _ _ _ (by decide) (by decide)]
  exact receive_last (deviceTaken s) k _ _ _ (bitIn_all _)

/-- What MISO carries after a byte (rule R128): bit 7 of the byte the device sends next. -/
theorem lastEdge_miso (s : State) (h : s.fl.phase = .dataOut) :
    (lastEdge s).wire.miso = (s.fl.byteOut s.cfg (lastEdge s).sh.misoFree).getLsbD 7 := by
  simp [lastEdge, h, State.drew]

/-- The device's first bit does not move MISO (rule R128), which has it since the byte before. -/
theorem deviceTaken_miso (s : State) (h : s.wire.miso = (s.fl.byteOut s.cfg s.sh.misoFree).getLsbD 7) :
    (deviceTaken s).wire = s.wire := by
  simp only [deviceTaken, ← h]
  rfl

/-! ## A turn of the other agents -/

/-- Nothing is pending: FLASH_INT does nothing (rule R153). -/
theorem flashInt_of_none {s : State} (h : s.fl.pending = .none) : flashInt s = .ok s := by
  simp [flashInt, Flash.complete, Flash.completionDraws, h, State.withDevice, State.drew, State.withDraws,
    State.withFl]

end Sys2Proof.Machine
end

