-- ==== Sys2Proof/Laws/Run.lean ====
section
/-! SUPPORT. Running micro-programs: composition, and what launching one answers. -/

namespace Sys2Proof.Machine

/-- What follows a part that went on. -/
def Res.andThen (r : Res) (f : State → Res) : Res :=
  match r with
  | .go s => f s
  | r => r

@[simp] theorem Res.andThen_go (s : State) (f : State → Res) : (Res.go s).andThen f = f s := rfl
@[simp] theorem Res.andThen_hold (s : State) (f : State → Res) : (Res.hold s).andThen f = .hold s := rfl
@[simp] theorem Res.andThen_stop (s : State) (f : State → Res) : (Res.stop s).andThen f = .stop s := rfl
@[simp] theorem Res.andThen_refuse (r : Refusal) (f : State → Res) : (Res.refuse r).andThen f = .refuse r := rfl

@[simp] theorem runSeq_nil (s : State) : runSeq [] s = .go s := rfl

theorem runSeq_cons (m : Micro) (ms : List Micro) (s : State) :
    runSeq (m :: ms) s = (tick m s).andThen fun t => runSeq ms (t.advance m) := by
  cases h : tick m s <;> simp [runSeq, h]

/-- A micro-program in two parts. -/
theorem runSeq_append (as bs : List Micro) (s : State) :
    runSeq (as ++ bs) s = (runSeq as s).andThen (runSeq bs) := by
  induction as generalizing s with
  | nil => rfl
  | cons m ms ih =>
    rw [List.cons_append, runSeq_cons, runSeq_cons]
    cases tick m s <;> simp [ih]

/-- A part runs to its end, in a state with a property. -/
def Runs (ms : List Micro) (s : State) (P : State → Prop) : Prop := ∃ t, runSeq ms s = .go t ∧ P t

theorem Runs.nil {s : State} {P : State → Prop} (h : P s) : Runs [] s P := ⟨s, rfl, h⟩

theorem Runs.append {as bs : List Micro} {s : State} {P Q : State → Prop}
    (h : Runs as s P) (k : ∀ t, P t → Runs bs t Q) : Runs (as ++ bs) s Q := by
  obtain ⟨t, ht, hp⟩ := h
  obtain ⟨u, hu, hq⟩ := k t hp
  exact ⟨u, by rw [runSeq_append, ht]; exact hu, hq⟩

theorem Runs.cons {m : Micro} {ms : List Micro} {s t : State} {Q : State → Prop}
    (h : tick m s = .go t) (k : Runs ms (t.advance m) Q) : Runs (m :: ms) s Q := by
  obtain ⟨u, hu, hq⟩ := k
  exact ⟨u, by rw [runSeq_cons, h]; exact hu, hq⟩

theorem Runs.weaken {ms : List Micro} {s : State} {P Q : State → Prop} (h : Runs ms s P) (k : ∀ t, P t → Q t) :
    Runs ms s Q := by
  obtain ⟨t, ht, hp⟩ := h
  exact ⟨t, ht, k t hp⟩

/-- An operation whose micro-program runs to its end answers the state it ends in, SEQ idle. -/
theorem launch_of_runs {o : Operation} {ms : List Micro} {s : State} {P : State → Prop} (h0 : s.seq.op = none)
    (h : Runs ms (s.begin o) P) : ∃ t, launch o ms s = .next t ∧ ∃ u, P u ∧ t = u.finish := by
  obtain ⟨u, hu, hp⟩ := h
  exact ⟨u.finish, by simp [launch, h0, hu, settle], u, hp, rfl⟩

/-- No operation starts while another is in progress (rule R289). -/
theorem launch_of_busy {o : Operation} {ms : List Micro} {s : State} (h : s.seq.op ≠ none) :
    launch o ms s = .refused .sequencerBusy := by
  simp [launch, h]

/-! ## Actions that are not external -/

theorem tick_of_internal {m : Micro} (h : m.isExternal = false) (s : State) : tick m s = act m s := by
  simp [tick, h]

theorem tick_of_external {m : Micro} {s t : State} (h : m.isExternal = true) (hp : s.pauses = false)
    (ht : takeTurn s = .ok t) : tick m s = act m t := by
  simp [tick, h, hp, ht]

theorem State.calm.pauses {s : State} (h : s.calm) : s.pauses = false := by simp [State.pauses, h.1]

theorem State.prompt.pauses {s : State} (h : s.prompt) : s.pauses = false := by simp [State.pauses, h.1]

theorem State.prompt.calm {s : State} (h : s.prompt) (hp : s.fl.pending = .none) : s.calm := ⟨h.1, h.2.1, .inl hp⟩

/-! ## Actions that only note where SEQ is -/

/-- Only SEQ's program counter and position, loops and block in hand differ. -/
def Quiet (s t : State) : Prop :=
  t = s.withSeq { s.seq with pc := t.seq.pc, pos := t.seq.pos, loops := t.seq.loops, openBlock := t.seq.openBlock }

theorem Quiet.refl (s : State) : Quiet s s := rfl

theorem Quiet.advance {s t : State} (h : Quiet s t) (m : Micro) : Quiet s (t.advance m) := by
  unfold Quiet at *; rw [h]; rfl

theorem Quiet.trans {s t u : State} (h : Quiet s t) (k : Quiet t u) : Quiet s u := by
  unfold Quiet at *; rw [k, h]; rfl

/-- The micro-actions that are of that kind. -/
def Micro.isQuiet : Micro → Bool
  | .push _ => true
  | .pop _ => true
  | .openBlock _ => true
  | .closeBlock => true
  | _ => false

theorem tick_quiet {m : Micro} (h : m.isQuiet = true) (s : State) : ∃ t, tick m s = .go t ∧ Quiet s t := by
  cases m <;> first | (cases h; done) | exact ⟨_, rfl, rfl⟩

/-- A run of them goes on, and nothing else has changed. -/
theorem runs_quiet {ms : List Micro} (h : ∀ m ∈ ms, m.isQuiet = true) (s : State) : Runs ms s (Quiet s) := by
  induction ms generalizing s with
  | nil => exact Runs.nil (.refl s)
  | cons m ms ih =>
    obtain ⟨t, ht, hq⟩ := tick_quiet (h m (by simp)) s
    exact Runs.cons ht ((ih (fun x hx => h x (by simp [hx])) (t.advance m)).weaken fun u hu => (hq.advance m).trans hu)

/-- A loop is its first `i` iterations, then the body once more. -/
theorem forEach_split {n i : Nat} (h : i < n) (body : Nat → List Micro) :
    ∃ rest, forEach n body
      = iterations (fun i => decide (i + 1 < n)) i body ++ ([.push i] ++ body i ++ rest) := by
  obtain ⟨k, rfl⟩ : ∃ k, n = i + (1 + k) := ⟨n - i - 1, by omega⟩
  exact ⟨_, by simp [forEach, iterations, List.range_add]; rfl⟩

/-- One iteration of a loop, with an invariant that does not look at what SEQ notes. -/
theorem runs_iteration {body : List Micro} {P Q : State → Prop} {s : State} (i : Nat) (more : Bool)
    (pre : ∀ t u, P t → Quiet t u → P u) (post : ∀ t u, Q t → Quiet t u → Q u) (h : P s)
    (k : ∀ t, P t → Runs body t Q) : Runs ([.push i] ++ body ++ [.pop more]) s Q :=
  ((runs_quiet (by simp [Micro.isQuiet]) s).append fun u hu => k u (pre _ _ h hu)).append
    fun u hu => (runs_quiet (by simp [Micro.isQuiet]) u).weaken fun _ hv => post _ _ hu hv

/-- The first iterations of a loop, with an invariant that does not look at what SEQ notes; all of them where `n` is the
loop's own. -/
theorem runs_iterations {more : Nat → Bool} {body : Nat → List Micro} {I : Nat → State → Prop} {s : State} {n : Nat}
    (quiet : ∀ i t u, I i t → Quiet t u → I i u) (h0 : I 0 s)
    (step : ∀ i, i < n → ∀ t, I i t → Runs (body i) t (I (i + 1))) :
    Runs (iterations more n body) s (I n) := by
  induction n with
  | zero => exact Runs.nil h0
  | succ n ih =>
    unfold iterations at *
    rw [List.range_succ, List.flatMap_append]
    refine (ih fun i h => step i (by omega)).append fun t ht => ?_
    simp only [List.flatMap_cons, List.flatMap_nil, List.append_nil]
    exact runs_iteration n _ (quiet n) (quiet (n + 1)) ht (step n (by omega))

/-- The same, where the invariant holds from the first iteration on. -/
theorem runs_iterations_from {more : Nat → Bool} {body : Nat → List Micro} {I : Nat → State → Prop} {s : State} {n : Nat} (hn : 1 ≤ n)
    (quiet : ∀ i t u, I i t → Quiet t u → I i u) (first : ∀ t, Quiet s t → Runs (body 0) t (I 1))
    (next : ∀ i, 1 ≤ i → i < n → ∀ t, I i t → Runs (body i) t (I (i + 1))) :
    Runs (iterations more n body) s (I n) := by
  refine (runs_iterations (I := fun i t => (i = 0 ∧ Quiet s t) ∨ (1 ≤ i ∧ I i t)) ?_ (.inl ⟨rfl, .refl s⟩) ?_).weaken
    fun t ht => ?_
  · rintro i t u (⟨h, hq⟩ | ⟨h, hi⟩) k
    · exact .inl ⟨h, hq.trans k⟩
    · exact .inr ⟨h, quiet _ _ _ hi k⟩
  · rintro i hi t (⟨rfl, hq⟩ | ⟨h, hI⟩)
    · exact (first t hq).weaken fun u hu => .inr ⟨by omega, hu⟩
    · exact (next i h hi t hI).weaken fun u hu => .inr ⟨by omega, hu⟩
  · rcases ht with ⟨h, _⟩ | ⟨_, h⟩
    · omega
    · exact h

/-- With no turn written down, taking one leaves the outside as it was. -/
theorem env_of_no_turns {s : State} (h : s.env.turns = []) :
    s.withEnv { s.env with turns := s.env.turns.tail } = s := by
  rcases s with ⟨_, _, _, _, _, _, _, _, _, _, _, _, ⟨_, _, _, _, _⟩⟩
  simp only at h
  subst h
  rfl

/-- While no byte is being shifted and FLASH_INT has nothing to do, a turn changes nothing. -/
theorem takeTurn_calm {s : State} (hc : s.calm) (hb : s.sh.busy = false) : takeTurn s = .ok s := by
  obtain ⟨h1, h2, h3⟩ := hc
  have e := env_of_no_turns h1
  simp only [takeTurn, h1, List.headD_nil]
  rw [h1] at e
  simp only [e, shiftRun_of_idle _ hb]
  split
  · rename_i hf
    rcases h3 with h3 | h3
    · exact flashInt_of_none h3
    · simp [h3] at hf
  · rfl

/-- While a byte is being shifted, a turn carries it across. -/
theorem takeTurn_shifting {s t : State} (hc : s.calm) (hr : shiftRun s.env.after.shiftSteps s = .ok t)
    (hp : t.fl.pending = s.fl.pending) : takeTurn s = .ok t := by
  obtain ⟨h1, h2, h3⟩ := hc
  have e := env_of_no_turns h1
  simp only [takeTurn, h1, List.headD_nil]
  rw [h1] at e
  simp only [e, hr]
  split
  · rename_i hf
    rcases h3 with h3 | h3
    · exact flashInt_of_none (hp.trans h3)
    · simp [h3] at hf
  · rfl

end Sys2Proof.Machine
end

