-- ==== Sys2Proof/Laws/Bytes.lean ====
section
/-! SUPPORT. One byte on the bus: everything WR_BYTE and RD_BYTE can do once SHIFT is prompt (rules R124, R126), and what
the device keeps when a byte reaches it. -/

namespace Sys2Proof.Machine

/-! ## What the device keeps -/

/-- A byte that reaches the device changes neither its content, nor its latches, nor what is under way. -/
theorem Flash.receive_keeps {c : Config} {b : Byte} {f g : Flash} (h : f.receive c b = .ok g) :
    g.mem = f.mem ∧ g.pending = f.pending ∧ g.wip = f.wip ∧ g.wel = f.wel ∧ g.sentWip = f.sentWip := by
  revert h
  unfold Flash.receive Flash.commandByte Flash.lastAddressByte Flash.dataByte
  intro h
  split at h
  all_goals first
    | (split at h <;> first | (cases h; done) | (cases h; simp))
    | (cases h; done)
    | (cases h; simp)

/-- Sending a byte back changes neither the content, nor the latches, nor what is under way. -/
theorem Flash.afterByteOut_keeps (c : Config) (f : Flash) :
    (f.afterByteOut c).mem = f.mem ∧ (f.afterByteOut c).pending = f.pending ∧ (f.afterByteOut c).wip = f.wip
      ∧ (f.afterByteOut c).wel = f.wel ∧ (f.afterByteOut c).phase = f.phase ∧ (f.afterByteOut c).cmd = f.cmd := by
  unfold Flash.afterByteOut
  split
  · simp
  · split <;> simp

/-! ## The relations -/

/-- What every micro-action of a frame leaves alone: all but SH's transfer registers, the wires, the device, HOSTMEM, the
report, SEQ's program counter and locals, the draws and the trace. -/
structure SameBase (s t : State) : Prop where
  chip  : t.chip = s.chip
  ctx   : t.ctx = s.ctx
  filled : t.filled = s.filled
  op    : t.op = s.op
  drive : t.drive = s.drive
  cfg   : t.cfg = s.cfg
  env   : t.env = s.env
  ctrl  : t.sh.ctrl = s.sh.ctrl
  seqOp : t.seq.op = s.seq.op

theorem SameBase.refl (s : State) : SameBase s s := ⟨rfl, rfl, rfl, rfl, rfl, rfl, rfl, rfl, rfl⟩

theorem SameBase.trans {s t u : State} (h : SameBase s t) (k : SameBase t u) : SameBase s u :=
  ⟨k.chip.trans h.chip, k.ctx.trans h.ctx, k.filled.trans h.filled, k.op.trans h.op, k.drive.trans h.drive,
    k.cfg.trans h.cfg, k.env.trans h.env, k.ctrl.trans h.ctrl, k.seqOp.trans h.seqOp⟩

/-- With HOSTMEM as it was, that is the platform of Safety.lean. -/
theorem SameBase.platform {s t : State} (h : SameBase s t) (k : t.host = s.host) : SamePlatform s t :=
  ⟨h.chip, h.ctx, k, h.filled, h.op, h.drive, h.cfg, h.env, h.ctrl, h.seqOp⟩

/-- What SEQ notes is no part of it. -/
theorem Quiet.base {s t : State} (h : Quiet s t) : SameBase s t := by
  unfold Quiet at h; rw [h]; exact ⟨rfl, rfl, rfl, rfl, rfl, rfl, rfl, rfl, rfl⟩

/-- Whether the ports fit depends on CTX.base and the offsets alone. -/
theorem portsFit_of {s t : State} {m : Mode} (h : t.ctx = { s.ctx with mode := m }) (hc : t.cfg = s.cfg) :
    t.portsFit = s.portsFit := by
  have e : t.portFits = s.portFits := by
    funext off; unfold State.portFits State.port; rw [h]
  unfold State.portsFit
  rw [e, hc]

theorem SameBase.portsFit {s t : State} (h : SameBase s t) : t.portsFit = s.portsFit :=
  portsFit_of (m := s.ctx.mode) h.ctx h.cfg

theorem SameBase.canTransfer {s t : State} (h : SameBase s t) : t.canTransfer = s.canTransfer := by
  simp [State.canTransfer, State.unlocked, h.chip, h.ctx, h.cfg, h.ctrl]

theorem SameBase.calm {s t : State} (h : SameBase s t) (hc : s.calm) (hp : t.fl.pending = s.fl.pending) : t.calm := by
  unfold State.calm at *
  rw [h.env, hp]
  exact hc

/-- A byte has gone out (rule R124): the device is `f`. -/
structure Sent (b : Byte) (f : Flash) (s t : State) : Prop where
  base    : SameBase s t
  host    : t.host = s.host
  report  : t.report = s.report
  seen    : t.seq.wipSeen = s.seq.wipSeen
  fl      : t.fl = f
  txd     : t.sh.txd = b
  shift   : t.sh.shift = b
  busy    : t.sh.busy = false
  bitcnt  : t.sh.bitcnt = 0
  txDone  : t.sh.txDone = true
  rxd     : t.sh.rxd = s.sh.rxd
  rxReady : t.sh.rxReady = s.sh.rxReady
  held    : t.sh.rxdHeld = s.sh.rxdHeld
  cs      : t.sh.cs = s.sh.cs
  csn     : t.wire.csn = s.wire.csn
  sck     : t.wire.sck = false
  mosi    : t.wire.mosi = b.getLsbD 0

/-- The engine is open for a byte: nothing in the way, SHIFT prompt. -/
structure Ready (s : State) : Prop where
  calm : s.calm
  ready : s.ctx.ready = true
  transfer : s.canTransfer = true
  busy : s.sh.busy = false
  ports : s.portsFit = true

theorem Ready.of_base {s t : State} (r : Ready s) (h : SameBase s t) (hb : t.sh.busy = false)
    (hp : t.fl.pending = s.fl.pending) : Ready t :=
  ⟨h.calm r.calm hp, by rw [h.ctx]; exact r.ready, by rw [h.canTransfer]; exact r.transfer, hb, by
    rw [h.portsFit]; exact r.ports⟩

theorem portsFit_all {s : State} (h : s.portsFit = true) :
    s.portFits s.cfg.regOut = true ∧ s.portFits s.cfg.regIn = true ∧ s.portFits s.cfg.regCtrl = true
      ∧ s.portFits s.cfg.regStat = true ∧ s.portFits s.cfg.regCs = true := by
  simpa [State.portsFit, and_assoc] using h

theorem Ready.busRefusal {s : State} (r : Ready s) (sel : Bool) (regs : List Byte) (hc : s.sh.cs = sel)
    (hr : regs.all s.portFits = true) : busRefusal s sel regs = none := by
  cases sel <;> simp [Machine.busRefusal, r.ready, r.transfer, r.busy, hc, hr, portRefusal]

/-- A byte a direct access reaches. -/
theorem directRefusal_one {s : State} {a : Nat} (h : hostDirect s a = true) : directRefusal s a 1 = none := by
  simp [directRefusal, hostReaches, h]

/-- A byte the device takes in a frame that may be a status read is one of a status read, or nothing is under way (rules
R142, R152). -/
theorem statusByteNext_of_receive {b : Byte} {f : Flash} {s : State} (h : s.statusFrame = true)
    (hf : s.fl.receive s.cfg b = .ok f) : (s.fl.wip && !s.statusByteNext b) = false := by
  by_cases hp : s.fl.phase = .cmd
  · simp only [Flash.receive, hp, Flash.commandByte] at hf
    split at hf
    · cases hf
    · rename_i h
      cases hw : s.fl.wip <;> simp_all [State.statusByteNext]
  · simp_all [State.statusFrame, State.statusByteNext]

/-- WR_BYTE, any source (rules R124, R129): with SHIFT prompt, the byte goes out and the device takes it. -/
theorem runs_sendByte {src : ByteSource} {b : Byte} {f : Flash} {s : State} (r : Ready s) (hcs : s.sh.cs = true)
    (hsrc : sourceByte s src = .ok b) (hph : s.fl.phase ≠ .dataOut) (hwip : s.fl.wip = false ∨ s.statusFrame = true)
    (hf : s.fl.receive s.cfg b = .ok f) : Runs (sendByte src) s (Sent b f s) := by
  have hsend : sendRefusal b s = none := by
    obtain ⟨p1, _, _, p4, _⟩ := portsFit_all r.ports
    unfold sendRefusal
    rw [r.busRefusal true _ hcs (by simp [p1, p4])]
    rcases hwip with h | h
    · simp [hph, h]
    · simp [hph, statusByteNext_of_receive h hf]
  let s1 := ((startTransmit b s).saw (.portOut (s.port s.cfg.regOut) b)).advance (.out src)
  have t1 : tick (.out src) s = .go ((startTransmit b s).saw (.portOut (s.port s.cfg.regOut) b)) := by
    rw [tick_of_external rfl r.calm.pauses (takeTurn_calm r.calm r.busy)]
    simp [act, actOut, guardBy, hsend, hsrc]
  have c1 : s1.calm := ⟨r.calm.1, r.calm.2.1, r.calm.2.2⟩
  have hrun : takeTurn s1 = .ok (lastEdge ((transmitted s1).withFl f)) :=
    takeTurn_shifting c1 (shiftRun_transmit s1 s1.env.after.shiftSteps f r.calm.2.1 rfl rfl rfl rfl rfl rfl hf)
      (Flash.receive_keeps hf).2.1
  have t2 : tick .pollTx s1 = .go (pollStat (lastEdge ((transmitted s1).withFl f))) := by
    rw [tick_of_external rfl c1.pauses hrun]
    simp [act, actPollTx, transmitted, lastEdge, State.drew]
  exact Runs.cons t1 (Runs.cons t2 (Runs.nil ⟨⟨rfl, rfl, rfl, rfl, rfl, rfl, rfl, rfl, rfl⟩, rfl, rfl, rfl, rfl, rfl,
    rfl, rfl, rfl, rfl, rfl, rfl, rfl, rfl, rfl, rfl, rfl⟩))

/-- The byte the device sends next. -/
def State.deviceByte (s : State) : Byte := s.fl.byteOut s.cfg s.sh.misoFree

/-- A byte `v` has come in (rule R126) and gone where it is wanted. -/
structure Took (d : ByteDest) (v : Byte) (s t : State) : Prop where
  base    : SameBase s t
  host    : t.host = match d with
    | .stage i => s.host.splice (s.cfg.stage.toNat + i) [v]
    | _ => s.host
  report  : t.report = match d with
    | .caller => s.report.add v
    | _ => s.report
  seen    : t.seq.wipSeen = match d with
    | .status => (s.fl.afterByteOut s.cfg).sentWip
    | _ => s.seq.wipSeen
  fl      : t.fl = s.fl.afterByteOut s.cfg
  byte    : t.seq.byte = v
  rxd     : t.sh.rxd = v
  shift   : t.sh.shift = v
  busy    : t.sh.busy = false
  bitcnt  : t.sh.bitcnt = 0
  txDone  : t.sh.txDone = s.sh.txDone
  rxReady : t.sh.rxReady = true
  held    : t.sh.rxdHeld = true
  txd     : t.sh.txd = s.sh.txd
  cs      : t.sh.cs = s.sh.cs
  csn     : t.wire.csn = s.wire.csn
  sck     : t.wire.sck = false
  miso    : t.wire.miso = ((s.fl.afterByteOut s.cfg).byteOut s.cfg t.sh.misoFree).getLsbD 7

/-- RD_BYTE, any destination (rules R126, R129): with SHIFT prompt, the device's next byte comes in. -/
theorem runs_takeByte {d : ByteDest} {s : State} (r : Ready s) (hcs : s.sh.cs = true) (hph : s.fl.phase = .dataOut)
    (hwip : s.fl.wip = false ∨ s.statusFrame = true)
    (hd : ∀ i, d = .stage i → hostDirect s (s.cfg.stage.toNat + i) = true) :
    Runs (takeByte d) s (Took d s.deviceByte s) := by
  have htake : takeRefusal s = none := by
    obtain ⟨_, p2, _, p4, _⟩ := portsFit_all r.ports
    unfold takeRefusal
    rw [r.busRefusal true _ hcs (by simp [p2, p4])]
    rcases hwip with h | h <;> simp [hph, h]
  let s1 := ((startReceive s).saw (.portOut (s.port s.cfg.regIn) 0)).advance .strobe
  have t1 : tick .strobe s = .go ((startReceive s).saw (.portOut (s.port s.cfg.regIn) 0)) := by
    rw [tick_of_external rfl r.calm.pauses (takeTurn_calm r.calm r.busy)]
    simp [act, actStrobe, guardBy, htake]
  let s2 := (pollStat (lastEdge (received (deviceTaken s1)))).advance .pollRx
  have c1 : s1.calm := ⟨r.calm.1, r.calm.2.1, r.calm.2.2⟩
  have hrun : takeTurn s1 = .ok (lastEdge (received (deviceTaken s1))) := by
    refine takeTurn_shifting c1 ?_ ?_
    · exact shiftRun_receive s1 s1.env.after.shiftSteps r.calm.2.1 rfl rfl rfl rfl rfl
    · exact (Flash.afterByteOut_keeps s.cfg s.fl).2.1
  have t2 : tick .pollRx s1 = .go (pollStat (lastEdge (received (deviceTaken s1)))) := by
    rw [tick_of_external rfl c1.pauses hrun]
    simp [act, actPollRx, received, lastEdge, State.drew]
  have c2 : s2.calm := by
    refine ⟨r.calm.1, r.calm.2.1, ?_⟩
    have : s2.fl.pending = s.fl.pending := (Flash.afterByteOut_keeps s.cfg s.fl).2.1
    rw [this]; exact r.calm.2.2
  refine Runs.cons t1 (Runs.cons t2 ?_)
  have ht3 : tick (.inp d) s2 = act (.inp d) s2 := tick_of_external rfl c2.pauses (takeTurn_calm c2 rfl)
  have hmiso : s2.wire.miso = ((s.fl.afterByteOut s.cfg).byteOut s.cfg s2.sh.misoFree).getLsbD 7 :=
    lastEdge_miso _ ((Flash.afterByteOut_keeps s.cfg s.fl).2.2.2.2.1.trans hph)
  cases d with
  | caller =>
    exact Runs.cons ht3 (Runs.nil ⟨⟨rfl, rfl, rfl, rfl, rfl, rfl, rfl, rfl, rfl⟩, rfl, rfl, rfl, rfl, rfl, rfl, rfl, rfl,
      rfl, rfl, rfl, rfl, rfl, rfl, rfl, rfl, hmiso⟩)
  | status =>
    exact Runs.cons ht3 (Runs.nil ⟨⟨rfl, rfl, rfl, rfl, rfl, rfl, rfl, rfl, rfl⟩, rfl, rfl, rfl, rfl, rfl, rfl, rfl, rfl,
      rfl, rfl, rfl, rfl, rfl, rfl, rfl, rfl, hmiso⟩)
  | stage i =>
    have hp : directRefusal s2 (s2.cfg.stage.toNat + i) 1 = none := directRefusal_one (hd i rfl)
    have : act (.inp (.stage i)) s2 = .go (hostStore (s2.portIn s2.cfg.regIn s2.sh.rxd) (s2.cfg.stage.toNat + i) [s2.sh.rxd]) := by
      simp [act, actIn, guardBy, hp]
    exact Runs.cons (ht3.trans this) (Runs.nil ⟨⟨rfl, rfl, rfl, rfl, rfl, rfl, rfl, rfl, rfl⟩, rfl, rfl, rfl, rfl, rfl,
      rfl, rfl, rfl, rfl, rfl, rfl, rfl, rfl, rfl, rfl, rfl, hmiso⟩)

end Sys2Proof.Machine
end

