-- ==== Sys2Proof/Laws/Frames.lean ====
section
/-! SUPPORT. Whole frames on the bus (rules R61, R93, R141 to R151): a frame is computed by what it does to a few fields
of the state, its `Link`; everything else is `SameBase`. -/

namespace Sys2Proof.Machine

/-! ## The part of the state a frame acts on -/

/-- The fields a frame acts on. -/
structure Link where
  cs : Bool
  csn : Bool
  fl : Flash
  host : Memory
  report : Report
  txd : Byte
  txDone : Bool
  rxd : Byte
  rxReady : Bool
  held : Bool
  seen : Bool

/-- The link of a state. -/
def State.link (s : State) : Link :=
  { cs := s.sh.cs, csn := s.wire.csn, fl := s.fl, host := s.host, report := s.report, txd := s.sh.txd,
    txDone := s.sh.txDone, rxd := s.sh.rxd, rxReady := s.sh.rxReady, held := s.sh.rxdHeld, seen := s.seq.wipSeen }

/-- `t` is `s` with its link replaced by `l` (SEQ's other locals, SHIFT, BITCNT, the lines, draws and trace aside), no
byte being shifted. -/
structure At (l : Link) (s t : State) : Prop where
  base : SameBase s t
  link : t.link = l
  busy : t.sh.busy = false

namespace At

variable {l k : Link} {s t u : State}

theorem cs (h : At l s t) : t.sh.cs = l.cs := congrArg Link.cs h.link
theorem csn (h : At l s t) : t.wire.csn = l.csn := congrArg Link.csn h.link
theorem fl (h : At l s t) : t.fl = l.fl := congrArg Link.fl h.link
theorem host (h : At l s t) : t.host = l.host := congrArg Link.host h.link
theorem report (h : At l s t) : t.report = l.report := congrArg Link.report h.link
theorem txd (h : At l s t) : t.sh.txd = l.txd := congrArg Link.txd h.link
theorem txDone (h : At l s t) : t.sh.txDone = l.txDone := congrArg Link.txDone h.link
theorem rxd (h : At l s t) : t.sh.rxd = l.rxd := congrArg Link.rxd h.link
theorem rxReady (h : At l s t) : t.sh.rxReady = l.rxReady := congrArg Link.rxReady h.link
theorem held (h : At l s t) : t.sh.rxdHeld = l.held := congrArg Link.held h.link
theorem seen (h : At l s t) : t.seq.wipSeen = l.seen := congrArg Link.seen h.link

theorem start (s : State) (h : s.sh.busy = false) : At s.link s s := ⟨.refl s, rfl, h⟩

theorem trans (h : At l s t) (g : At k t u) : At k s u := ⟨h.base.trans g.base, g.link, g.busy⟩

theorem quiet (h : At l s t) (q : Quiet t u) : At l s u := by
  have hb := h.base.trans q.base
  unfold Quiet at q
  refine ⟨hb, ?_, ?_⟩ <;> rw [q]
  · exact h.link
  · exact h.busy

theorem ready (h : At l s t) (r : Ready s) (hp : l.fl.pending = s.fl.pending) : Ready t :=
  r.of_base h.base h.busy (by rw [h.fl]; exact hp)

end At

/-! ## The pieces -/

/-- The device right after it is selected (rule R141). -/
def Flash.opened (f : Flash) : Flash := { f with phase := .cmd, nbytes := 0, page := [], pageN := 0 }

/-- The link after a byte has gone out. -/
def Link.sent (l : Link) (b : Byte) (f : Flash) : Link := { l with fl := f, txd := b, txDone := true }

/-- Selecting a device whose frame is closed (rules R121, R141). -/
theorem runs_csEn {s : State} (r : Ready s) (hcs : s.sh.cs = false) (hph : s.fl.phase = .idle) :
    Runs [.csEn] s (At { s.link with cs := true, csn := false, fl := s.fl.opened } s) := by
  have hsel : s.fl.select = .ok s.fl.opened := by simp [Flash.select, hph, Flash.opened]
  have ht : tick .csEn s = .go ((((s.withSh { s.sh with cs := true }).withWire { s.wire with csn := false }).saw
      (.portOut (s.port s.cfg.regCs) s.cfg.csAssert)).withFl s.fl.opened) := by
    rw [tick_of_external rfl r.calm.pauses (takeTurn_calm r.calm r.busy)]
    simp [act, actCsEn, guardBy, r.busRefusal false [s.cfg.regCs] hcs (by simp [portsFit_all r.ports]), hsel, State.withDevice]
  exact Runs.cons ht (Runs.nil ⟨⟨rfl, rfl, rfl, rfl, rfl, rfl, rfl, rfl, rfl⟩, rfl, r.busy⟩)

/-- Deselecting the device (rules R122, R151). -/
theorem runs_csDis {s : State} (r : Ready s) (hcs : s.sh.cs = true) :
    Runs [.csDis] s (At { s.link with cs := false, csn := true, fl := s.fl.deselect s.cfg } s) := by
  have ht : tick .csDis s = .go ((((s.withSh { s.sh with cs := false }).withWire { s.wire with csn := true }).saw
      (.portOut (s.port s.cfg.regCs) s.cfg.csDeassert)).withFl (s.fl.deselect s.cfg)) := by
    rw [tick_of_external rfl r.calm.pauses (takeTurn_calm r.calm r.busy)]
    simp [act, actCsDis, guardBy, r.busRefusal true [s.cfg.regCs] hcs (by simp [portsFit_all r.ports])]
  exact Runs.cons ht (Runs.nil ⟨⟨rfl, rfl, rfl, rfl, rfl, rfl, rfl, rfl, rfl⟩, rfl, r.busy⟩)

/-- Sending one byte (rule R124), in link form. -/
theorem runs_send {src : ByteSource} {b : Byte} {f : Flash} {s : State} (r : Ready s) (hcs : s.sh.cs = true)
    (hsrc : sourceByte s src = .ok b) (hph : s.fl.phase ≠ .dataOut) (hwip : s.fl.wip = false ∨ s.statusFrame = true)
    (hf : s.fl.receive s.cfg b = .ok f) : Runs (sendByte src) s (At (s.link.sent b f) s) := by
  refine (runs_sendByte r hcs hsrc hph hwip hf).weaken fun t h => ⟨h.base, ?_, h.busy⟩
  simp [State.link, Link.sent, h.cs, h.csn, h.fl, h.host, h.report, h.txd, h.txDone, h.rxd, h.rxReady, h.held, h.seen]

/-- The link after a byte has come in. -/
def Link.took (c : Config) (l : Link) (d : ByteDest) (v : Byte) : Link :=
  { l with
    fl := l.fl.afterByteOut c
    host := match d with
      | .stage i => l.host.splice (c.stage.toNat + i) [v]
      | _ => l.host
    report := match d with
      | .caller => l.report.add v
      | _ => l.report
    seen := match d with
      | .status => (l.fl.afterByteOut c).sentWip
      | _ => l.seen
    rxd := v
    rxReady := true
    held := true }

/-- Taking one byte (rule R126), in link form. -/
theorem runs_take {d : ByteDest} {s : State} (r : Ready s) (hcs : s.sh.cs = true) (hph : s.fl.phase = .dataOut)
    (hwip : s.fl.wip = false ∨ s.statusFrame = true)
    (hd : ∀ i, d = .stage i → hostDirect s (s.cfg.stage.toNat + i) = true) :
    Runs (takeByte d) s (At (s.link.took s.cfg d (s.deviceByte)) s) := by
  refine (runs_takeByte r hcs hph hwip hd).weaken fun t h => ⟨h.base, ?_, h.busy⟩
  unfold State.link Link.took
  rw [h.cs, h.csn, h.fl, h.host, h.report, h.txd, h.txDone, h.rxd, h.rxReady, h.held, h.seen]
  cases d <;> rfl

/-! ## A device in the middle of a frame -/

/-- The device takes these bytes one after the other, each as rules R142 to R144 say. -/
def Flash.receiveAll (c : Config) : List Byte → Flash → Except Refusal Flash
  | [], f => .ok f
  | b :: bs, f =>
    match f.receive c b with
    | .ok g => Flash.receiveAll c bs g
    | .error r => .error r

/-- The device expects more bytes from the host after each of these, or none. -/
def Flash.listens (c : Config) : List Byte → Flash → Prop
  | [], _ => True
  | b :: bs, f => f.phase ≠ .dataOut ∧ f.wip = false ∧ ∀ g, f.receive c b = .ok g → Flash.listens c bs g

theorem hostPresent_congr {s t : State} (h : t.cfg = s.cfg) (a : Nat) : hostPresent t a = hostPresent s a := by
  simp only [hostPresent, h]

theorem hostDirect_congr {s t : State} (h : t.cfg = s.cfg) (a : Nat) : hostDirect t a = hostDirect s a := by
  simp only [hostDirect, hostPresent_congr h, h]

theorem hostCovers_congr {s t : State} (h : t.cfg = s.cfg) (a n : Nat) : hostCovers t a n = hostCovers s a n := by
  unfold hostCovers
  congr 1; funext i; exact hostPresent_congr h _

theorem hostReaches_congr {s t : State} (h : t.cfg = s.cfg) (a n : Nat) : hostReaches t a n = hostReaches s a n := by
  unfold hostReaches
  congr 1; funext i; exact hostDirect_congr h _

theorem SameBase.sourceByte {s t : State} (h : SameBase s t) (hh : t.host = s.host) (src : ByteSource) :
    sourceByte t src = sourceByte s src := by
  cases src with
  | lit b => rfl
  | host a => simp only [Machine.sourceByte, directRefusal, hostReaches_congr h.cfg, hostCovers_congr h.cfg, hh]

/-- Sending a run of bytes. -/
theorem runs_sends {srcs : List ByteSource} {d : List Byte} {s : State} {f : Flash} {i : Nat} (r : Ready s)
    (hcs : s.sh.cs = true) (hsrc : srcs.map (sourceByte s) = d.map .ok) (hl : s.fl.listens s.cfg d)
    (hf : s.fl.receiveAll s.cfg d = .ok f) :
    Runs (sendFrom i srcs) s
      (At { s.link with fl := f, txd := d.getLastD s.sh.txd, txDone := s.sh.txDone || !d.isEmpty } s) := by
  induction srcs generalizing s d i with
  | nil =>
    cases d with
    | nil =>
      simp only [Flash.receiveAll] at hf
      cases hf
      exact Runs.nil ⟨.refl s, by simp [State.link], r.busy⟩
    | cons => simp at hsrc
  | cons src srcs ih =>
    cases d with
    | nil => simp at hsrc
    | cons b d =>
      simp only [List.map_cons, List.cons.injEq] at hsrc
      simp only [Flash.receiveAll] at hf
      obtain ⟨h1, h2, h3⟩ := hl
      cases hg : s.fl.receive s.cfg b with
      | error e => rw [hg] at hf; cases hf
      | ok g =>
        rw [hg] at hf
        have start : At s.link s s := .start s r.busy
        have one : Runs ([.push i] ++ sendByte src ++ [.pop (!srcs.isEmpty)]) s (At (s.link.sent b g) s) := by
          refine runs_iteration i _ (P := At s.link s) (fun _ _ h k => h.quiet k) (fun _ _ h k => h.quiet k) start
            fun t ht => ?_
          have hfl : t.fl = s.fl := ht.fl
          refine (runs_send (ht.ready r rfl) (ht.cs.trans hcs) ((ht.base.sourceByte ht.host src).trans hsrc.1)
            (by rw [hfl]; exact h1) (.inl (by rw [hfl]; exact h2)) (by rw [hfl, ht.base.cfg]; exact hg)).weaken
            fun u hu => ⟨ht.base.trans hu.base, ?_, hu.busy⟩
          rw [hu.link, ht.link]
        rw [sendFrom]
        refine one.append fun t ht => ?_
        have hfl : t.fl = g := ht.fl
        refine (ih (d := d) (i := i + 1) (ht.ready r (Flash.receive_keeps hg).2.1) (ht.cs.trans hcs) ?_ ?_ ?_).weaken fun u hu => ?_
        · rw [← hsrc.2]
          exact List.map_congr_left fun x _ => ht.base.sourceByte ht.host x
        · rw [hfl, ht.base.cfg]; exact h3 g hg
        · rw [hfl, ht.base.cfg]; exact hf
        · refine ⟨ht.base.trans hu.base, ?_, hu.busy⟩
          rw [hu.link, ht.link, ht.txd, ht.txDone]
          cases d with
          | nil => simp [Link.sent, State.link]
          | cons e d => simp [Link.sent, State.link, List.getLast?_cons]

/-- Bytes given by the operation itself are always there. -/
theorem literals_there (s : State) (d : List Byte) : (d.map ByteSource.lit).map (sourceByte s) = d.map .ok := by
  simp [sourceByte, Function.comp_def]

/-- The parameters' commands are distinct (item U15). -/
theorem Config.ok_commands {c : Config} (h : c.ok = true) :
    c.cmdRead ≠ c.cmdPp ∧ c.cmdRead ≠ c.cmdSe ∧ c.cmdRead ≠ c.cmdWren ∧ c.cmdRead ≠ c.cmdWrdi ∧ c.cmdRead ≠ c.cmdRdsr
      ∧ c.cmdPp ≠ c.cmdSe ∧ c.cmdPp ≠ c.cmdWren ∧ c.cmdPp ≠ c.cmdWrdi ∧ c.cmdPp ≠ c.cmdRdsr
      ∧ c.cmdSe ≠ c.cmdWren ∧ c.cmdSe ≠ c.cmdWrdi ∧ c.cmdSe ≠ c.cmdRdsr
      ∧ c.cmdWren ≠ c.cmdWrdi ∧ c.cmdWren ≠ c.cmdRdsr ∧ c.cmdWrdi ≠ c.cmdRdsr := by
  simp only [Config.ok, Bool.and_eq_true, decide_eq_true_eq, List.nodup_cons, List.mem_cons, List.not_mem_nil,
    or_false, not_or] at h
  tauto

/-! ## Bare frames -/

/-- The link after a frame is closed. -/
def Link.closed (c : Config) (l : Link) : Link := { l with cs := false, csn := true, fl := l.fl.deselect c }

/-- The link inside a frame: selected, the device is `f`, `k` the last byte sent. -/
def Link.inFrame (l : Link) (k : Byte) (f : Flash) : Link :=
  { l with cs := true, csn := false, fl := f, txd := k, txDone := true }

/-- The device after a command byte. -/
def Flash.commanded (c : Config) (k : Byte) (f : Flash) : Flash :=
  { f.opened with cmd := k, phase := phaseAfterCommand c k }

/-- Closing an open frame. -/
theorem At.close {l : Link} {s t : State} (r : Ready s) (h : At l s t) (hcs : l.cs = true)
    (hp : l.fl.pending = s.fl.pending) : Runs [.csDis] t (At (l.closed s.cfg) s) := by
  refine (runs_csDis (h.ready r hp) (h.cs.trans hcs)).weaken fun v hv => ⟨h.base.trans hv.base, ?_, hv.busy⟩
  rw [hv.link, h.link, h.fl, h.base.cfg]
  rfl

/-- Selecting, noting what there is to note, and sending the command byte. -/
theorem runs_command {k : Byte} {mark : List Micro} {s : State} (hmark : ∀ m ∈ mark, m.isQuiet = true) (r : Ready s)
    (hcs : s.sh.cs = false) (hph : s.fl.phase = .idle) (hw : s.fl.wip = false ∨ k = s.cfg.cmdRdsr) :
    Runs ([.csEn] ++ mark ++ sendByte (.lit k)) s (At (s.link.inFrame k (s.fl.commanded s.cfg k)) s) := by
  refine ((runs_csEn r hcs hph).append fun t ht => (runs_quiet hmark t).weaken fun u hu => ht.quiet hu).append
    fun t ht => ?_
  have hfl : t.fl = s.fl.opened := ht.fl
  refine (runs_send (b := k) (f := s.fl.commanded s.cfg k)
    (ht.ready r rfl) ht.cs rfl ?_ (.inr ?_) ?_).weaken fun u hu => ⟨ht.base.trans hu.base, ?_, hu.busy⟩
  · rw [hfl]; simp [Flash.opened]
  · simp [State.statusFrame, hfl, Flash.opened]
  · rw [hfl, ht.base.cfg]
    rcases hw with hw | hw <;> simp [Flash.receive, Flash.opened, Flash.commandByte, hw, Flash.commanded]
  · rw [hu.link, ht.link]; rfl

/-- A frame of one byte (rule R107) from a closed frame with no erase or program under way. -/
theorem runs_bareFrame {k : Byte} {s : State} (r : Ready s) (hcs : s.sh.cs = false) (hph : s.fl.phase = .idle)
    (hw : s.fl.wip = false) :
    Runs (bareFrame k) s (At ((s.link.inFrame k (s.fl.commanded s.cfg k)).closed s.cfg) s) :=
  (runs_command (mark := []) (by simp) r hcs hph (.inl hw)).append fun _ hu => hu.close r rfl rfl

/-! ## Addressed frames -/

/-- The device after the header of an addressed frame: command and address taken (rules R142, R143). -/
def Flash.addressed (c : Config) (k : Byte) (a : FlashAddr) (f : Flash) : Flash :=
  { f.opened with cmd := k, addr := a, nbytes := 3, phase := phaseAfterAddress c k }

/-- The three address bytes put together are the address (rules R95, R143). -/
theorem setAddr_all (f a : FlashAddr) :
    setAddrLow (setAddrMid (setAddrHigh f (addrHigh a)) (addrMid a)) (addrLow a) = a := by
  simp only [setAddrLow, setAddrMid, setAddrHigh, addrHigh, addrMid, addrLow]
  ext i hi
  simp only [BitVec.getElem_append, BitVec.getElem_extractLsb', BitVec.getLsbD_append, BitVec.getLsbD_extractLsb']
  rcases Nat.lt_or_ge i 8 with h8 | h8
  · simp [h8, BitVec.getLsbD_eq_getElem, hi]
  · rcases Nat.lt_or_ge i 16 with h16 | h16
    · have : 8 + (i - 8) = i := by omega
      simp [BitVec.getLsbD_eq_getElem, hi, this, show ¬ i < 8 by omega, show i - 8 < 8 by omega]
    · have e1 : 8 + (i - 8) = i := by omega
      have e2 : 16 + (i - 16) = i := by omega
      simp [BitVec.getLsbD_eq_getElem, hi, e1, e2, show ¬ i < 8 by omega, show ¬ i - 8 < 8 by omega,
        show i - 8 - 8 = i - 16 by omega, show i - 16 < 8 by omega]
      intros; omega

/-- WR_ADDR24 (rules R65, R125): the three bytes go out and the device takes each. -/
theorem runs_address {a : FlashAddr} {s : State} {f : Flash} (r : Ready s) (hcs : s.sh.cs = true)
    (hl : s.fl.listens s.cfg [addrHigh a, addrMid a, addrLow a])
    (hf : s.fl.receiveAll s.cfg [addrHigh a, addrMid a, addrLow a] = .ok f) :
    Runs (sendAddress a) s (At (s.link.sent (addrLow a) f) s) := by
  obtain ⟨h1, h2, h3⟩ := hl
  simp only [Flash.receiveAll] at hf
  cases hg : s.fl.receive s.cfg (addrHigh a) with
  | error e => rw [hg] at hf; cases hf
  | ok g =>
    rw [hg] at hf
    obtain ⟨h4, h5, h6⟩ := h3 g hg
    simp only at hf
    cases hk : g.receive s.cfg (addrMid a) with
    | error e => rw [hk] at hf; cases hf
    | ok k =>
      rw [hk] at hf
      obtain ⟨h7, h8, h9⟩ := h6 k hk
      simp only at hf
      cases hm : k.receive s.cfg (addrLow a) with
      | error e => rw [hm] at hf; cases hf
      | ok m =>
        rw [hm] at hf
        cases hf
        unfold sendAddress
        refine ((runs_send r hcs rfl h1 (.inl h2) hg).append (Q := At (s.link.sent (addrMid a) k) s) fun t ht => ?_).append
          fun t ht => ?_
        · have hfl : t.fl = g := ht.fl
          refine (runs_send (ht.ready r (Flash.receive_keeps hg).2.1) (ht.cs.trans hcs) rfl (by rw [hfl]; exact h4)
            (.inl (by rw [hfl]; exact h5)) (by rw [hfl, ht.base.cfg]; exact hk)).weaken
            fun u hu => ⟨ht.base.trans hu.base, by rw [hu.link, ht.link]; rfl, hu.busy⟩
        · have hfl : t.fl = k := ht.fl
          refine (runs_send (ht.ready r ((Flash.receive_keeps hk).2.1.trans (Flash.receive_keeps hg).2.1))
            (ht.cs.trans hcs) rfl (by rw [hfl]; exact h7)
            (.inl (by rw [hfl]; exact h8)) (by rw [hfl, ht.base.cfg]; exact hm)).weaken
            fun u hu => ⟨ht.base.trans hu.base, by rw [hu.link, ht.link]; rfl, hu.busy⟩

/-- The header of an addressed frame: select, command, address (rules R61, R93, R143). -/
theorem runs_header {k : Byte} {a : FlashAddr} {mark : List Micro} {s : State} (hmark : ∀ m ∈ mark, m.isQuiet = true)
    (r : Ready s) (hcs : s.sh.cs = false) (hph : s.fl.phase = .idle) (hw : s.fl.wip = false)
    (hk : phaseAfterCommand s.cfg k = .addr0) (ha : a.toNat < s.cfg.flashSize) :
    Runs ([.csEn] ++ mark ++ sendByte (.lit k) ++ sendAddress a) s
      (At (s.link.inFrame (addrLow a) (s.fl.addressed s.cfg k a)) s) := by
  refine (runs_command hmark r hcs hph (.inl hw)).append fun t ht => ?_
  have hfl : t.fl = { s.fl.opened with cmd := k, phase := .addr0 } := by rw [ht.fl]; simp [Link.inFrame, Flash.commanded, hk]
  have hrecv : t.fl.receiveAll s.cfg [addrHigh a, addrMid a, addrLow a] = .ok (s.fl.addressed s.cfg k a) := by
    simp [hfl, Flash.receiveAll, Flash.receive, Flash.lastAddressByte, setAddr_all, Flash.addressed, Flash.opened,
      Nat.not_le.2 ha]
  refine (runs_address (a := a) (f := s.fl.addressed s.cfg k a) (ht.ready r rfl) ht.cs ?_ ?_).weaken
    fun u hu => ⟨ht.base.trans hu.base, ?_, hu.busy⟩
  · simp [hfl, Flash.listens, Flash.opened, Flash.receive, hw]
  · rw [ht.base.cfg]; exact hrecv
  · rw [hu.link, ht.link]; simp [Link.inFrame, Link.sent]

/-- The command bytes that are followed by an address (rules R94, R142). -/
theorem phaseAfterCommand_addressed {c : Config} (h : c.ok = true) {k : Byte}
    (hk : k = c.cmdRead ∨ k = c.cmdSe ∨ k = c.cmdPp) : phaseAfterCommand c k = .addr0 := by
  have := Config.ok_commands h
  unfold phaseAfterCommand
  rcases hk with rfl | rfl | rfl
  · simp [show ¬ (c.cmdRead = c.cmdWren ∨ c.cmdRead = c.cmdWrdi) by tauto, show ¬ c.cmdRead = c.cmdRdsr by tauto]
  · simp [show ¬ (c.cmdSe = c.cmdWren ∨ c.cmdSe = c.cmdWrdi) by tauto, show ¬ c.cmdSe = c.cmdRdsr by tauto]
  · simp [show ¬ (c.cmdPp = c.cmdWren ∨ c.cmdPp = c.cmdWrdi) by tauto, show ¬ c.cmdPp = c.cmdRdsr by tauto]

/-- A whole addressed frame, given what its body does from the header on. -/
theorem runs_addressedFrame {k : Byte} {a : FlashAddr} {body mark : List Micro} {l : Link} {s : State}
    (hmark : ∀ m ∈ mark, m.isQuiet = true) (r : Ready s)
    (hcs : s.sh.cs = false) (hph : s.fl.phase = .idle) (hw : s.fl.wip = false)
    (hk : phaseAfterCommand s.cfg k = .addr0) (ha : a.toNat < s.cfg.flashSize)
    (hbody : ∀ t, At (s.link.inFrame (addrLow a) (s.fl.addressed s.cfg k a)) s t → Runs body t (At l s))
    (hl : l.cs = true) (hp : l.fl.pending = s.fl.pending) :
    Runs (addressedFrame k a body mark) s (At (l.closed s.cfg) s) :=
  ((runs_header hmark r hcs hph hw hk ha).append hbody).append fun _ hu => hu.close r hl hp

end Sys2Proof.Machine
end

