-- ==== Sys2Proof/Laws/Status.lean ====
section
/-! SUPPORT. What the two status bytes show (rules R26, R157), whatever the free bits are. -/

namespace Sys2Proof.Machine

@[simp] theorem freeList_length (k n : Nat) : (freeList k n).length = n := by simp [freeList]

@[simp] theorem State.freeBytes_length (s : State) (n : Nat) : (s.freeBytes n).length = n := by simp [State.freeBytes]

/-- The bits that show a flag lie under its mask. -/
theorem flagBits_and_mask (m : Byte) (f : Bool) (free : Byte) : flagBits m f free &&& m = flagBits m f free := by
  unfold flagBits
  split
  · split
    · simp
    · rw [BitVec.and_assoc, BitVec.and_self]
  · simp

/-- They are not all clear exactly when the flag is set. -/
theorem flagBits_ne_zero {m : Byte} (hm : m ≠ 0) (f : Bool) (free : Byte) : flagBits m f free ≠ 0 ↔ f = true := by
  unfold flagBits
  cases f
  · simp
  · simp only [if_true, iff_true]
    split
    · exact hm
    · assumption

/-- The own bits of a mask lie under it. -/
theorem ownBits_and_mask (m o : Byte) (f : Bool) : ownBits m o f &&& m = ownBits m o f := by
  unfold ownBits
  split
  · exact BitVec.and_self
  · rw [BitVec.and_assoc, BitVec.and_comm (~~~ o), ← BitVec.and_assoc, BitVec.and_self]

/-- A mask with a bit the other lacks has an own bit, whatever the other flag is. -/
theorem ownBits_ne_zero {m o : Byte} (h : m &&& ~~~ o ≠ 0) (f : Bool) : ownBits m o f ≠ 0 := by
  unfold ownBits
  split
  · rintro rfl; simp at h
  · exact h

/-- Under the other mask there is none where the other flag is clear. -/
theorem ownBits_and_other (m o : Byte) : ownBits m o false &&& o = 0 := by
  ext i hi
  simp [ownBits]

/-- A mask of which the other has no bit keeps a bit of its own where it has one at all. -/
theorem own_of_disjoint {m o : Byte} (hm : m ≠ 0) (hd : m &&& o = 0) : m &&& ~~~ o ≠ 0 := by
  intro h
  apply hm
  ext i hi
  have h1 := congrArg (fun x : Byte => x[i]) h
  have h2 := congrArg (fun x : Byte => x[i]) hd
  simp at h1 h2 ⊢
  cases hmi : m[i] <;> simp_all

/-- A byte that shows two flags shows the first under its mask, where that has a bit the other mask lacks. -/
theorem twoFlagByte_first {m1 m2 : Byte} (h1 : m1 &&& ~~~ m2 ≠ 0) (f1 f2 : Bool) (free : Byte) :
    twoFlagByte m1 m2 f1 f2 free &&& m1 ≠ 0 ↔ f1 = true := by
  have e1 : free &&& ~~~ (m1 ||| m2) &&& m1 = 0 := by
    ext i hi
    cases h1 : m1[i] <;> simp [h1]
  have dist : ∀ x y : Byte, (x ||| y) &&& m1 = (x &&& m1) ||| (y &&& m1) := fun x y => by
    ext i hi
    simp [Bool.and_or_distrib_right]
  have own : flagBits (ownBits m1 m2 f2) f1 free &&& m1 = flagBits (ownBits m1 m2 f2) f1 free := by
    rw [← flagBits_and_mask, BitVec.and_assoc, ownBits_and_mask]
  unfold twoFlagByte
  rw [dist, dist, e1, own]
  cases f1 with
  | true =>
    have := (flagBits_ne_zero (ownBits_ne_zero h1 f2) true free).2 rfl
    simp only [iff_true]
    intro h
    apply this
    ext i hi
    have := congrArg (fun x : Byte => x[i]) h
    simp at this ⊢
    exact this.1
  | false =>
    have e2 : flagBits (ownBits m2 m1 false) f2 free &&& m1 = 0 := by
      rw [← flagBits_and_mask, BitVec.and_assoc, ownBits_and_other]; simp
    rw [e2]
    simp [flagBits]

/-- And the second. -/
theorem twoFlagByte_second {m1 m2 : Byte} (h2 : m2 &&& ~~~ m1 ≠ 0) (f1 f2 : Bool) (free : Byte) :
    twoFlagByte m1 m2 f1 f2 free &&& m2 ≠ 0 ↔ f2 = true := by
  have e : twoFlagByte m1 m2 f1 f2 free = twoFlagByte m2 m1 f2 f1 free := by
    unfold twoFlagByte
    rw [BitVec.or_comm m1 m2, BitVec.or_assoc, BitVec.or_assoc,
      BitVec.or_comm (flagBits (ownBits m1 m2 f2) f1 free)]
  rw [e]; exact twoFlagByte_first h2 f2 f1 free

end Sys2Proof.Machine
end

