-- ==== Sys2Proof/Laws/Wire.lean ====
section
/-! SUPPORT. The six wire commands (rules R145 to R150) with SHIFT prompt: what each frame does to the link, written out;
runs of bytes taken from the device. -/

namespace Sys2Proof.Machine

/-! ## Splices next to one another -/

theorem Memory.cells_append (a : Nat) (d e : List Byte) :
    Memory.cells a (d ++ e) = Memory.cells a d ++ Memory.cells (a + d.length) e := by
  induction d generalizing a with
  | nil => rfl
  | cons v d ih =>
    simp only [List.cons_append, Memory.cells, ih (a + 1), List.length_cons,
      show a + 1 + d.length = a + (d.length + 1) by omega]
    split <;> simp

/-- Two runs put one behind the other are one run. -/
theorem Memory.splice_append (m : Memory) (a : Nat) (d e : List Byte) :
    (m.splice a d).splice (a + d.length) e = m.splice a (d ++ e) := by
  have low : List.filter (fun c => decide (c.1 < a + d.length)) (Memory.cells a d) = Memory.cells a d :=
    List.filter_eq_self.2 fun c hc => by have := Memory.cells_bounds hc; simp; omega
  have lowNone : List.filter (fun c => decide (a + d.length + e.length ≤ c.1)) (Memory.cells a d) = [] :=
    List.filter_eq_nil_iff.2 fun c hc => by have := Memory.cells_bounds hc; simp; omega
  have f1 : List.filter (fun c : Host.Cell => decide (c.1 < a + d.length)) (List.filter (fun c => decide (c.1 < a)) m)
      = List.filter (fun c => decide (c.1 < a)) m :=
    List.filter_eq_self.2 fun c hc => by have := (List.mem_filter.1 hc).2; simp at this ⊢; omega
  have f2 : List.filter (fun c : Host.Cell => decide (c.1 < a + d.length))
      (List.filter (fun c => decide (a + d.length ≤ c.1)) m) = [] :=
    List.filter_eq_nil_iff.2 fun c hc => by have := (List.mem_filter.1 hc).2; simp at this ⊢; omega
  have f3 : List.filter (fun c : Host.Cell => decide (a + d.length + e.length ≤ c.1))
      (List.filter (fun c => decide (c.1 < a)) m) = [] :=
    List.filter_eq_nil_iff.2 fun c hc => by have := (List.mem_filter.1 hc).2; simp at this ⊢; omega
  have f4 : List.filter (fun c : Host.Cell => decide (a + d.length + e.length ≤ c.1))
      (List.filter (fun c => decide (a + d.length ≤ c.1)) m)
        = List.filter (fun c => decide (a + d.length + e.length ≤ c.1)) m := by
    rw [List.filter_filter]
    congr 1; funext c; simp; omega
  simp only [Memory.splice, List.filter_append, f1, low, f2, Memory.cells_append, List.length_append,
    List.append_assoc, List.append_nil, Nat.add_assoc]
  simp only [Nat.add_assoc] at f3 lowNone f4
  simp [f3, lowNone, f4]

/-! ## Taking runs of bytes out of a READ frame -/

/-- The address `i` data bytes further on (rules R147, R302). -/
def flashAddrAfter (c : Config) (a : FlashAddr) (i : Nat) : FlashAddr := BitVec.ofNat 24 ((a.toNat + i) % c.flashSize)

theorem flashAddrAfter_toNat {c : Config} (h : c.flashSize ≤ 2 ^ 24) (h0 : 0 < c.flashSize) (a : FlashAddr) (i : Nat) :
    (flashAddrAfter c a i).toNat = (a.toNat + i) % c.flashSize := by
  have := Nat.mod_lt (a.toNat + i) h0
  simp only [flashAddrAfter, BitVec.toNat_ofNat]
  exact Nat.mod_eq_of_lt (by omega)

theorem flashAddrAfter_zero {c : Config} {a : FlashAddr} (h : a.toNat < c.flashSize) : flashAddrAfter c a 0 = a := by
  simp [flashAddrAfter, Nat.mod_eq_of_lt h]

theorem nextFlashAddr_after {c : Config} (h : c.flashSize ≤ 2 ^ 24) (h0 : 0 < c.flashSize) (a : FlashAddr) (i : Nat) :
    nextFlashAddr c (flashAddrAfter c a i) = flashAddrAfter c a (i + 1) := by
  unfold nextFlashAddr
  rw [flashAddrAfter_toNat h h0]
  simp [flashAddrAfter, Nat.add_assoc]

/-- The `m` bytes a READ frame sends from an address (rules R147, R302). -/
def Flash.bytesFrom (c : Config) (f : Flash) (a : FlashAddr) (m : Nat) : List Byte :=
  (List.range m).map fun i => f.mem.read ((a.toNat + i) % c.flashSize)

@[simp] theorem Flash.length_bytesFrom (c : Config) (f : Flash) (a : FlashAddr) (m : Nat) :
    (f.bytesFrom c a m).length = m := by simp [Flash.bytesFrom]

theorem Flash.bytesFrom_succ (c : Config) (f : Flash) (a : FlashAddr) (m : Nat) :
    f.bytesFrom c a (m + 1) = f.bytesFrom c a m ++ [f.mem.read ((a.toNat + m) % c.flashSize)] := by
  simp [Flash.bytesFrom, List.range_succ]

/-- A device sending flash bytes: in a READ frame, past its header. -/
structure Sending (c : Config) (s : State) : Prop where
  cfg : s.cfg = c
  cs : s.sh.cs = true
  phase : s.fl.phase = .dataOut
  cmd : s.fl.cmd = c.cmdRead
  wip : s.fl.wip = false
  size : c.flashSize ≤ 2 ^ 24
  addr : s.fl.addr.toNat < c.flashSize

/-- The link after `m` bytes of a READ frame, for the caller. -/
def Link.readOut (c : Config) (l : Link) (m : Nat) : Link :=
  { l with
    fl := { l.fl with addr := flashAddrAfter c l.fl.addr m }
    report := (l.fl.bytesFrom c l.fl.addr m).foldl Report.add l.report
    rxd := (l.fl.bytesFrom c l.fl.addr m).getLastD l.rxd
    rxReady := l.rxReady || decide (m ≠ 0)
    held := l.held || decide (m ≠ 0) }

/-- The link after `m` bytes of a READ frame, into STAGE. -/
def Link.readIn (c : Config) (l : Link) (m : Nat) : Link :=
  { l with
    fl := { l.fl with addr := flashAddrAfter c l.fl.addr m }
    host := if m = 0 then l.host else l.host.splice c.stage.toNat (l.fl.bytesFrom c l.fl.addr m)
    rxd := (l.fl.bytesFrom c l.fl.addr m).getLastD l.rxd
    rxReady := l.rxReady || decide (m ≠ 0)
    held := l.held || decide (m ≠ 0) }

theorem Link.readOut_zero {c : Config} {l : Link} (h : l.fl.addr.toNat < c.flashSize) : l.readOut c 0 = l := by
  simp [Link.readOut, flashAddrAfter_zero h, Flash.bytesFrom]

theorem Link.readIn_zero {c : Config} {l : Link} (h : l.fl.addr.toNat < c.flashSize) : l.readIn c 0 = l := by
  simp [Link.readIn, flashAddrAfter_zero h, Flash.bytesFrom]

/-- One more byte, for the caller. -/
theorem Link.readOut_succ {c : Config} {l : Link} (hs : c.flashSize ≤ 2 ^ 24) (ha : l.fl.addr.toNat < c.flashSize)
    (hc : l.fl.cmd = c.cmdRead) (m : Nat) :
    (l.readOut c m).took c .caller (l.fl.mem.read ((l.fl.addr.toNat + m) % c.flashSize)) = l.readOut c (m + 1) := by
  simp [Link.took, Link.readOut, Flash.afterByteOut, hc, nextFlashAddr_after hs (by omega), Flash.bytesFrom_succ]

/-- One more byte, into STAGE. -/
theorem Link.readIn_succ {c : Config} {l : Link} (hs : c.flashSize ≤ 2 ^ 24) (ha : l.fl.addr.toNat < c.flashSize)
    (hc : l.fl.cmd = c.cmdRead) (m : Nat) :
    (l.readIn c m).took c (.stage m) (l.fl.mem.read ((l.fl.addr.toNat + m) % c.flashSize)) = l.readIn c (m + 1) := by
  have hh : (if m = 0 then l.host else l.host.splice c.stage.toNat (l.fl.bytesFrom c l.fl.addr m)).splice
      (c.stage.toNat + m) [l.fl.mem.read ((l.fl.addr.toNat + m) % c.flashSize)]
        = l.host.splice c.stage.toNat (l.fl.bytesFrom c l.fl.addr (m + 1)) := by
    split
    · rename_i h0; subst h0; simp [Flash.bytesFrom]
    · rw [Flash.bytesFrom_succ, ← Memory.splice_append]; simp
  simp [Link.took, Link.readIn, Flash.afterByteOut, hc, nextFlashAddr_after hs (by omega), Flash.bytesFrom_succ, hh]

/-- One byte of a READ frame that has sent `m` bytes since `s`. -/
theorem runs_take_read {d : ByteDest} {c : Config} {s t : State} {l : Link} {m : Nat} (r : Ready s) (hs : Sending c s)
    (ht : At l s t) (hl : l.cs = true) (hfl : l.fl = { s.fl with addr := flashAddrAfter c s.fl.addr m })
    (hd : ∀ i, d = .stage i → hostDirect t (c.stage.toNat + i) = true) :
    Runs (takeByte d) t (At (l.took c d (s.fl.mem.read ((s.fl.addr.toNat + m) % c.flashSize))) s) := by
  have htf := ht.fl.trans hfl
  have hcfg : t.cfg = c := ht.base.cfg.trans hs.cfg
  have hrdy : Ready t := ht.ready r (by rw [hfl])
  have hbyte : t.deviceByte = s.fl.mem.read ((s.fl.addr.toNat + m) % c.flashSize) := by
    simp [State.deviceByte, htf, Flash.byteOut, hcfg, hs.cmd,
      flashAddrAfter_toNat hs.size (Nat.lt_of_le_of_lt (Nat.zero_le _) hs.addr)]
  refine (runs_take hrdy (ht.cs.trans hl) (by rw [htf]; exact hs.phase) (.inl (by rw [htf]; exact hs.wip))
    (by rw [hcfg]; exact hd)).weaken fun u hu => ⟨ht.base.trans hu.base, ?_, hu.busy⟩
  rw [hu.link, ht.link, hbyte, hcfg]

/-- A run of bytes for the caller. -/
theorem runs_takeForCaller {c : Config} {s : State} (r : Ready s) (hs : Sending c s) (m : Nat) :
    Runs (takeForCaller m) s (At (s.link.readOut c m) s) := by
  refine runs_iterations (I := fun i => At (s.link.readOut c i) s) (fun i t u h q => h.quiet q) ?_ fun i _ t ht =>
    (runs_take_read r hs ht hs.cs rfl (by simp)).weaken fun u hu => ?_
  · rw [Link.readOut_zero hs.addr]
    exact .start s r.busy
  · rw [← Link.readOut_succ (l := s.link) hs.size hs.addr hs.cmd]
    exact hu

/-- One byte for the caller. -/
theorem runs_takeOne {c : Config} {s : State} (r : Ready s) (hs : Sending c s) :
    Runs (takeByte .caller) s (At (s.link.readOut c 1) s) := by
  refine (runs_take_read (m := 0) r hs (.start s r.busy) hs.cs ?_ (by simp)).weaken fun u hu => ?_
  · rw [flashAddrAfter_zero hs.addr]; rfl
  · have := Link.readOut_succ (l := s.link) hs.size hs.addr hs.cmd 0
    rw [Link.readOut_zero hs.addr] at this
    rw [← this]
    exact hu

/-- A run of bytes into STAGE. -/
theorem runs_takeForStage {c : Config} {s : State} (r : Ready s) (hs : Sending c s) (m : Nat)
    (hm : ∀ i, i < m → hostDirect s (c.stage.toNat + i) = true) :
    Runs (forEach m fun i => takeByte (.stage i)) s (At (s.link.readIn c m) s) := by
  refine runs_iterations (I := fun i => At (s.link.readIn c i) s) (fun i t u h q => h.quiet q) ?_ fun i hi t ht =>
    (runs_take_read r hs ht hs.cs rfl ?_).weaken fun u hu => ?_
  · rw [Link.readIn_zero hs.addr]
    exact .start s r.busy
  · intro j hj
    cases hj
    rw [hostDirect_congr ht.base.cfg]
    exact hm i hi
  · rw [← Link.readIn_succ (l := s.link) hs.size hs.addr hs.cmd]
    exact hu

end Sys2Proof.Machine
end

