-- ==== Sys2Proof/Laws/Commands.lean ====
section
/-! SUPPORT. The six wire frames, start to end, with SHIFT prompt (rules R145 to R151): what each does to the link. -/

namespace Sys2Proof.Machine

/-- The device after a frame of command `k`, its latches as they were. -/
def Flash.after (k : Byte) (f : Flash) : Flash := { f.opened with cmd := k, phase := .idle }

/-- A closed link: deselected, the device is `f`, `k` the last byte sent. -/
def Link.rested (l : Link) (k : Byte) (f : Flash) : Link :=
  { l with cs := false, csn := true, fl := f, txd := k, txDone := true }

/-- Where a frame may be opened: SHIFT prompt, device deselected and not busy. -/
structure Open (s : State) : Prop where
  ready : Ready s
  cs : s.sh.cs = false
  phase : s.fl.phase = .idle
  wip : s.fl.wip = false

theorem At.open {l : Link} {s t : State} (h : At l s t) (o : Open s) (hcs : l.cs = false) (hph : l.fl.phase = .idle)
    (hw : l.fl.wip = false) (hp : l.fl.pending = s.fl.pending) : Open t :=
  ⟨h.ready o.ready hp, h.cs.trans hcs, by rw [h.fl]; exact hph, by rw [h.fl]; exact hw⟩

/-! ## WREN and WRDI -/

theorem Flash.deselect_wren (c : Config) (f : Flash) :
    (f.commanded c c.cmdWren).deselect c = { f.after c.cmdWren with wel := true } := by
  simp [Flash.deselect, Flash.frameEffect, Flash.commanded, phaseAfterCommand, Flash.after, Flash.opened]

theorem Flash.deselect_wrdi {c : Config} (h : c.ok = true) (f : Flash) :
    (f.commanded c c.cmdWrdi).deselect c = { f.after c.cmdWrdi with wel := false } := by
  have := Config.ok_commands h
  have hne : ¬ c.cmdWrdi = c.cmdWren := by tauto
  simp [Flash.deselect, Flash.frameEffect, Flash.commanded, phaseAfterCommand, Flash.after, Flash.opened, hne]

/-- CMD1(CMD_WREN) inside a sequence (rule R145). -/
theorem runs_wren {s : State} (o : Open s) :
    Runs (bareFrame s.cfg.cmdWren) s
      (At (s.link.rested s.cfg.cmdWren { s.fl.after s.cfg.cmdWren with wel := true }) s) := by
  refine (runs_bareFrame o.ready o.cs o.phase o.wip).weaken fun t ht => ⟨ht.base, ?_, ht.busy⟩
  rw [ht.link]
  simp only [Link.closed, Link.inFrame, Flash.deselect_wren]
  rfl

/-- CMD1(CMD_WRDI) inside a sequence (rule R146). -/
theorem runs_wrdi {s : State} (o : Open s) (hok : s.cfg.ok = true) :
    Runs (bareFrame s.cfg.cmdWrdi) s
      (At (s.link.rested s.cfg.cmdWrdi { s.fl.after s.cfg.cmdWrdi with wel := false }) s) := by
  refine (runs_bareFrame o.ready o.cs o.phase o.wip).weaken fun t ht => ⟨ht.base, ?_, ht.busy⟩
  rw [ht.link]
  simp only [Link.closed, Link.inFrame, Flash.deselect_wrdi hok]
  rfl

/-! ## READ -/

/-- The device is sending, right after the header of a READ frame. -/
theorem sending_of_header {a : FlashAddr} {s t : State} (o : Open s)
    (hsize : s.cfg.flashSize ≤ 2 ^ 24) (ha : a.toNat < s.cfg.flashSize)
    (ht : At (s.link.inFrame (addrLow a) (s.fl.addressed s.cfg s.cfg.cmdRead a)) s t) : Sending s.cfg t := by
  have hf : t.fl = s.fl.addressed s.cfg s.cfg.cmdRead a := ht.fl
  refine ⟨ht.base.cfg, ht.cs, ?_, ?_, ?_, hsize, ?_⟩ <;>
    simp [hf, Flash.addressed, phaseAfterAddress, Flash.opened, o.wip, ha]

theorem Flash.deselect_of_dataOut {c : Config} {f : Flash} (h : f.phase = .dataOut) :
    f.deselect c = { f with phase := .idle } := by simp [Flash.deselect, Flash.frameEffect, h]

/-- The device after a READ frame of `m` bytes from `a`. -/
def Flash.afterRead (c : Config) (a : FlashAddr) (m : Nat) (f : Flash) : Flash :=
  { f.after c.cmdRead with addr := flashAddrAfter c a m, nbytes := 3 }

/-- The link after a READ frame of `m` bytes for the caller. -/
def Link.afterReadOut (c : Config) (a : FlashAddr) (m : Nat) (l : Link) : Link :=
  { l.rested (addrLow a) (l.fl.afterRead c a m) with
    report := (l.fl.bytesFrom c a m).foldl Report.add l.report
    rxd := (l.fl.bytesFrom c a m).getLastD l.rxd
    rxReady := l.rxReady || decide (m ≠ 0)
    held := l.held || decide (m ≠ 0) }

/-- The link after a READ frame of `m` bytes into STAGE. -/
def Link.afterReadIn (c : Config) (a : FlashAddr) (m : Nat) (l : Link) : Link :=
  { l.rested (addrLow a) (l.fl.afterRead c a m) with
    host := if m = 0 then l.host else l.host.splice c.stage.toNat (l.fl.bytesFrom c a m)
    rxd := (l.fl.bytesFrom c a m).getLastD l.rxd
    rxReady := l.rxReady || decide (m ≠ 0)
    held := l.held || decide (m ≠ 0) }

/-- A READ frame whose bytes the caller takes, however SEQ counts them (rules R147, R174). -/
theorem runs_readFrame {a : FlashAddr} {m : Nat} {body : List Micro} {s : State} (o : Open s) (hok : s.cfg.ok = true)
    (hsize : s.cfg.flashSize ≤ 2 ^ 24) (ha : a.toNat < s.cfg.flashSize)
    (hbody : ∀ t, Ready t → Sending s.cfg t → Runs body t (At (t.link.readOut s.cfg m) t)) :
    Runs (addressedFrame s.cfg.cmdRead a body) s (At (s.link.afterReadOut s.cfg a m) s) := by
  have hk := phaseAfterCommand_addressed hok (.inl rfl : s.cfg.cmdRead = s.cfg.cmdRead ∨ _)
  have hsend := fun t => sending_of_header (t := t) o hsize ha
  have hframe : ∀ t, At (s.link.inFrame (addrLow a) (s.fl.addressed s.cfg s.cfg.cmdRead a)) s t →
      Runs body t (At ((s.link.inFrame (addrLow a) (s.fl.addressed s.cfg s.cfg.cmdRead a)).readOut s.cfg m) s) := by
    intro t ht
    refine (hbody t (ht.ready o.ready rfl) (hsend t ht)).weaken fun u hu => ?_
    rw [ht.link] at hu
    exact ht.trans hu
  refine (runs_addressedFrame (mark := []) (by simp) o.ready o.cs o.phase o.wip hk ha hframe rfl rfl).weaken
    fun t ht => ⟨ht.base, ?_, ht.busy⟩
  rw [ht.link]
  simp only [Link.closed, Link.readOut, Link.inFrame]
  rw [Flash.deselect_of_dataOut (by simp [Flash.addressed, phaseAfterAddress])]
  rfl

/-- A READ frame for the caller (rule R147). -/
theorem runs_readOut {a : FlashAddr} {s : State} (o : Open s) (hok : s.cfg.ok = true)
    (hsize : s.cfg.flashSize ≤ 2 ^ 24) (ha : a.toNat < s.cfg.flashSize) (m : Nat) :
    Runs (addressedFrame s.cfg.cmdRead a (takeForCaller m)) s (At (s.link.afterReadOut s.cfg a m) s) :=
  runs_readFrame o hok hsize ha fun _ r hs => runs_takeForCaller r hs m

/-- A READ frame into STAGE (rules R147, R175). -/
theorem runs_readIn {a : FlashAddr} {s : State} (o : Open s) (hok : s.cfg.ok = true) (hsize : s.cfg.flashSize ≤ 2 ^ 24)
    (ha : a.toNat < s.cfg.flashSize) (m : Nat)
    (hm : ∀ i, i < m → hostDirect s (s.cfg.stage.toNat + i) = true) :
    Runs (addressedFrame s.cfg.cmdRead a (forEach m fun i => takeByte (.stage i))) s
      (At (s.link.afterReadIn s.cfg a m) s) := by
  have hk := phaseAfterCommand_addressed hok (.inl rfl : s.cfg.cmdRead = s.cfg.cmdRead ∨ _)
  have hbody : ∀ t, At (s.link.inFrame (addrLow a) (s.fl.addressed s.cfg s.cfg.cmdRead a)) s t →
      Runs (forEach m fun i => takeByte (.stage i)) t
        (At ((s.link.inFrame (addrLow a) (s.fl.addressed s.cfg s.cfg.cmdRead a)).readIn s.cfg m) s) := by
    intro t ht
    refine (runs_takeForStage (ht.ready o.ready rfl) (sending_of_header o hsize ha ht) m fun i hi => ?_).weaken
      fun u hu => ?_
    · have := hm i hi
      rw [hostDirect_congr ht.base.cfg]
      exact this
    · rw [ht.link] at hu
      exact ht.trans hu
  refine (runs_addressedFrame (mark := []) (by simp) o.ready o.cs o.phase o.wip hk ha hbody rfl rfl).weaken fun t ht => ⟨ht.base, ?_, ht.busy⟩
  rw [ht.link]
  simp only [Link.closed, Link.readIn, Link.inFrame]
  rw [Flash.deselect_of_dataOut (by simp [Flash.addressed, phaseAfterAddress])]
  rfl

/-! ## SE -/

/-- What an erase frame starts, if the latch is set (rules R149, R151). -/
def Flash.eraseStarted (a : FlashAddr) (f : Flash) : Flash :=
  if f.wel then { f with wip := true, pending := .erase (a.toNat / blockSize) } else f

theorem Flash.deselect_erase {c : Config} (h : c.ok = true) (a : FlashAddr) (f : Flash) :
    (f.addressed c c.cmdSe a).deselect c = { (f.eraseStarted a).after c.cmdSe with addr := a, nbytes := 3 } := by
  have := Config.ok_commands h
  have h1 : ¬ c.cmdSe = c.cmdWren := by tauto
  have h2 : ¬ c.cmdSe = c.cmdWrdi := by tauto
  have h3 : ¬ c.cmdSe = c.cmdRead := fun e => by have := this.2.1; exact this e.symm
  cases hw : f.wel <;>
    simp [Flash.deselect, Flash.frameEffect, Flash.addressed, phaseAfterAddress, Flash.after, Flash.opened, h1, h2, h3,
      Flash.eraseStarted, hw]

/-- SE (rule R149), with a note of SEQ at its start or without. -/
theorem runs_se {a : FlashAddr} {mark : List Micro} {s : State} (hmark : ∀ m ∈ mark, m.isQuiet = true) (o : Open s)
    (hok : s.cfg.ok = true) (ha : a.toNat < s.cfg.flashSize) :
    Runs (addressedFrame s.cfg.cmdSe a [] mark) s
      (At (s.link.rested (addrLow a) { (s.fl.eraseStarted a).after s.cfg.cmdSe with addr := a, nbytes := 3 }) s) := by
  have hk := phaseAfterCommand_addressed hok (.inr (.inl rfl) : s.cfg.cmdSe = s.cfg.cmdRead ∨ _)
  refine (runs_addressedFrame hmark o.ready o.cs o.phase o.wip hk ha (fun t ht => Runs.nil ht) rfl rfl).weaken
    fun t ht => ⟨ht.base, ?_, ht.busy⟩
  rw [ht.link]
  simp only [Link.closed, Link.inFrame]
  rw [Flash.deselect_erase hok]
  rfl

/-! ## PP -/

/-- A device taking data bytes takes them all, up to 256 (rule R144). -/
theorem Flash.receiveAll_data {c : Config} {d : List Byte} {f : Flash} (h : f.phase = .dataIn)
    (hn : f.pageN + d.length ≤ pageLimit) :
    f.receiveAll c d
      = .ok { f with nbytes := f.nbytes + d.length, pageN := f.pageN + d.length, page := f.page ++ d } := by
  induction d generalizing f with
  | nil => simp [Flash.receiveAll]
  | cons b d ih =>
    simp only [List.length_cons] at hn
    have hr : f.receive c b = .ok { f with nbytes := f.nbytes + 1, pageN := f.pageN + 1, page := f.page ++ [b] } := by
      simp only [Flash.receive, h, Flash.dataByte]
      rw [if_neg (by omega)]
    simp only [Flash.receiveAll, hr]
    rw [ih (by exact h) (by show f.pageN + 1 + d.length ≤ pageLimit; omega)]
    simp [Nat.add_assoc, Nat.add_comm 1]

/-- And it goes on listening. -/
theorem Flash.listens_data {c : Config} {d : List Byte} {f : Flash} (h : f.phase = .dataIn) (hw : f.wip = false) :
    f.listens c d := by
  induction d generalizing f with
  | nil => trivial
  | cons b d ih =>
    refine ⟨by simp [h], hw, fun g hg => ?_⟩
    simp only [Flash.receive, h, Flash.dataByte] at hg
    split at hg
    · cases hg
    · cases hg
      exact ih rfl (by exact hw)

/-- What a program frame starts, if the latch is set and there is data (rules R150, R151). -/
def Flash.programStarted (a : FlashAddr) (d : List Byte) (f : Flash) : Flash :=
  if f.wel ∧ d ≠ [] then { f with wip := true, pending := .program a d } else f

/-- The device after a program frame. -/
def Flash.afterProgram (c : Config) (a : FlashAddr) (d : List Byte) (f : Flash) : Flash :=
  { (f.programStarted a d).after c.cmdPp with addr := a, nbytes := 3 + d.length, pageN := d.length, page := d }

theorem Flash.deselect_program {c : Config} (h : c.ok = true) (a : FlashAddr) (d : List Byte) (f : Flash) :
    Flash.deselect c { f.addressed c c.cmdPp a with nbytes := 3 + d.length, pageN := d.length, page := d }
      = f.afterProgram c a d := by
  have := Config.ok_commands h
  have h1 : ¬ c.cmdPp = c.cmdSe := by tauto
  have h3 : ¬ c.cmdPp = c.cmdRead := fun e => this.1 e.symm
  have hph : phaseAfterAddress c c.cmdPp = .dataIn := by simp [phaseAfterAddress, h1, h3]
  cases hw : f.wel <;> cases d <;>
    simp [Flash.deselect, Flash.frameEffect, Flash.addressed, hph, Flash.after, Flash.opened,
      Flash.programStarted, Flash.afterProgram, hw]

/-- A program frame whose data bytes come from anywhere (rules R150, R178). -/
theorem runs_programFrame {a : FlashAddr} {srcs : List ByteSource} {d : List Byte} {s : State} (o : Open s)
    (hok : s.cfg.ok = true) (ha : a.toNat < s.cfg.flashSize) (hd : d.length ≤ pageLimit)
    (hsrc : srcs.map (sourceByte s) = d.map .ok) :
    Runs (addressedFrame s.cfg.cmdPp a (sendFrom 0 srcs)) s
      (At (s.link.rested (d.getLastD (addrLow a)) (s.fl.afterProgram s.cfg a d)) s) := by
  have hk := phaseAfterCommand_addressed hok (.inr (.inr rfl) : s.cfg.cmdPp = s.cfg.cmdRead ∨ _)
  have hc := Config.ok_commands hok
  have hph : (s.fl.addressed s.cfg s.cfg.cmdPp a).phase = .dataIn := by
    have h1 : ¬ s.cfg.cmdPp = s.cfg.cmdSe := by tauto
    have h3 : ¬ s.cfg.cmdPp = s.cfg.cmdRead := fun e => hc.1 e.symm
    simp [Flash.addressed, phaseAfterAddress, h1, h3]
  have hbody : ∀ t, At (s.link.inFrame (addrLow a) (s.fl.addressed s.cfg s.cfg.cmdPp a)) s t →
      Runs (sendFrom 0 srcs) t
        (At (s.link.inFrame (d.getLastD (addrLow a))
          { s.fl.addressed s.cfg s.cfg.cmdPp a with nbytes := 3 + d.length, pageN := d.length, page := d }) s) := by
    intro t ht
    have hf : t.fl = s.fl.addressed s.cfg s.cfg.cmdPp a := ht.fl
    have hw : t.fl.wip = false := by rw [hf]; exact o.wip
    refine (runs_sends (d := d)
      (f := { s.fl.addressed s.cfg s.cfg.cmdPp a with nbytes := 3 + d.length, pageN := d.length, page := d })
      (ht.ready o.ready rfl) ht.cs ?_ ?_ ?_).weaken fun u hu => ⟨ht.base.trans hu.base, ?_, hu.busy⟩
    · rw [← hsrc]
      exact List.map_congr_left fun x _ => ht.base.sourceByte ht.host x
    · exact Flash.listens_data (by rw [hf]; exact hph) hw
    · rw [Flash.receiveAll_data (by rw [hf]; exact hph) (by rw [hf]; simpa [Flash.addressed, Flash.opened] using hd), hf]
      simp [Flash.addressed, Flash.opened]
    · rw [hu.link, ht.link, ht.txd, ht.txDone]
      simp [Link.inFrame]
  refine (runs_addressedFrame (mark := []) (by simp) o.ready o.cs o.phase o.wip hk ha hbody rfl rfl).weaken fun t ht => ⟨ht.base, ?_, ht.busy⟩
  rw [ht.link]
  simp only [Link.closed, Link.inFrame]
  rw [Flash.deselect_program hok]
  rfl

/-- PP (rule R150). -/
theorem runs_pp {a : FlashAddr} {d : List Byte} {s : State} (o : Open s)
    (hok : s.cfg.ok = true) (ha : a.toNat < s.cfg.flashSize) (hd : d.length ≤ pageLimit) :
    Runs (progPp s.cfg a d) s
      (At (s.link.rested (d.getLastD (addrLow a)) (s.fl.afterProgram s.cfg a d)) s) :=
  runs_programFrame o hok ha hd (literals_there s d)

/-! ## RDSR -/

/-- A status byte of the device (rule R157). -/
def StatusOf (c : Config) (f : Flash) (b : Byte) : Prop := ∃ free, b = statusByte c f free

/-- The link after a status frame that sent `l` (rule R148). -/
def Link.afterStatus (c : Config) (sent : List Byte) (l : Link) : Link :=
  { l.rested c.cmdRdsr
      { l.fl.after c.cmdRdsr with sentWip := if sent = [] then l.fl.sentWip else l.fl.wip } with
    report := sent.foldl Report.add l.report
    rxd := sent.getLastD l.rxd
    rxReady := l.rxReady || decide (sent ≠ [])
    held := l.held || decide (sent ≠ []) }

theorem commanded_status {c : Config} (h : c.ok = true) (f : Flash) :
    (f.commanded c c.cmdRdsr).phase = .dataOut := by
  have := Config.ok_commands h
  have h1 : ¬ (c.cmdRdsr = c.cmdWren ∨ c.cmdRdsr = c.cmdWrdi) := by
    rintro (e | e)
    · exact this.2.2.2.2.2.2.2.2.2.2.2.2.2.1 e.symm
    · exact this.2.2.2.2.2.2.2.2.2.2.2.2.2.2 e.symm
  simp [Flash.commanded, phaseAfterCommand, h1]

/-- `m` status bytes for the caller, inside a status frame. -/
theorem runs_takeStatus {s t : State} {k : Link} (r : Ready s) (ht : At k s t) (hcs : k.cs = true)
    (hp : k.fl.pending = s.fl.pending) (hph : k.fl.phase = .dataOut) (hcmd : k.fl.cmd = s.cfg.cmdRdsr)
    (hne : s.cfg.cmdRdsr ≠ s.cfg.cmdRead) (m : Nat) :
    Runs (takeForCaller m) t fun u => ∃ sent : List Byte, sent.length = m ∧ (∀ b ∈ sent, StatusOf s.cfg k.fl b) ∧
      At { k with
        fl := { k.fl with sentWip := if sent = [] then k.fl.sentWip else k.fl.wip }
        report := sent.foldl Report.add k.report
        rxd := sent.getLastD k.rxd
        rxReady := k.rxReady || decide (sent ≠ [])
        held := k.held || decide (sent ≠ []) } s u := by
  refine runs_iterations (I := fun i u => ∃ sent : List Byte, sent.length = i ∧ (∀ b ∈ sent, StatusOf s.cfg k.fl b) ∧
      At { k with
        fl := { k.fl with sentWip := if sent = [] then k.fl.sentWip else k.fl.wip }
        report := sent.foldl Report.add k.report
        rxd := sent.getLastD k.rxd
        rxReady := k.rxReady || decide (sent ≠ [])
        held := k.held || decide (sent ≠ []) } s u) ?_ ⟨[], rfl, by simp, by simpa using ht⟩ fun i _ u hu => ?_
  · rintro i u v ⟨sent, hlen, hall, hu⟩ q
    exact ⟨sent, hlen, hall, hu.quiet q⟩
  · obtain ⟨sent, hlen, hall, hu⟩ := hu
    have hru : Ready u := hu.ready r hp
    have hfl := hu.fl
    have hcmd' : u.fl.cmd = s.cfg.cmdRdsr := by rw [hfl]; exact hcmd
    refine (runs_take hru (hu.cs.trans hcs) (by rw [hfl]; exact hph)
      (.inr (by simp [State.statusFrame, hcmd', hu.base.cfg])) (by simp)).weaken fun v hv => ?_
    refine ⟨sent ++ [u.deviceByte], by simp [hlen], ?_, hu.base.trans hv.base, ?_, hv.busy⟩
    · intro b hb
      rcases List.mem_append.1 hb with hb | hb
      · exact hall b hb
      · refine ⟨u.sh.misoFree, ?_⟩
        simp only [List.mem_singleton] at hb
        rw [hb]
        simp [State.deviceByte, Flash.byteOut, hu.base.cfg, hcmd, hne, hfl, statusByte]
    · rw [hv.link, hu.link, hu.base.cfg]
      simp [Link.took, Flash.afterByteOut, hcmd, hne]

/-- RDSR (rule R148), whatever is under way in the device. -/
theorem runs_rdsr {s : State} (r : Ready s) (hcs : s.sh.cs = false) (hph : s.fl.phase = .idle) (hok : s.cfg.ok = true)
    (m : BitVec 32) :
    Runs ([.csEn] ++ sendByte (.lit s.cfg.cmdRdsr) ++ takeForCaller m.toNat ++ [.csDis]) s
      fun u => ∃ sent : List Byte, sent.length = m.toNat ∧ (∀ b ∈ sent, StatusOf s.cfg s.fl b) ∧
        At (s.link.afterStatus s.cfg sent) s u := by
  have hc := Config.ok_commands hok
  refine ((runs_command (mark := []) (by simp) r hcs hph (.inr rfl)).append fun t ht => runs_takeStatus r ht rfl rfl
    (commanded_status hok s.fl) rfl (fun e => hc.2.2.2.2.1 e.symm) m.toNat).append fun u hu => ?_
  obtain ⟨sent, hlen, hall, hu⟩ := hu
  refine (hu.close r rfl rfl).weaken fun v hv => ⟨sent, hlen, fun b hb => ?_, hv.base, ?_, hv.busy⟩
  · obtain ⟨free, hf⟩ := hall b hb
    exact ⟨free, by rw [hf]; rfl⟩
  · rw [hv.link]
    simp only [Link.closed, Link.inFrame]
    rw [Flash.deselect_of_dataOut (by exact commanded_status hok s.fl)]
    rfl

end Sys2Proof.Machine
end

