-- ==== Sys2Proof/Laws/Engine.lean ====
section
/-! SUPPORT. The engine operations with SHIFT prompt (rules R171 to R178): the writable-mode bracket, the poll, and what an
operation that runs to its end does to flash and host memory. -/

namespace Sys2Proof.Machine

/-! ## The parameters -/

theorem Config.ok_flash {c : Config} (h : c.ok = true) :
    c.flashSize % 4096 = 0 ∧ 4096 ≤ c.flashSize ∧ c.flashSize ≤ 2 ^ 24 := by
  simp only [Config.ok, Bool.and_eq_true, decide_eq_true_eq] at h
  tauto

theorem Config.ok_wp {c : Config} (h : c.ok = true) :
    c.wpOpen ≠ c.wpClosed ∧ c.wpOpen &&& ~~~ c.wpMask = 0 ∧ c.wpClosed &&& ~~~ c.wpMask = 0
      ∧ c.wpMask.toNat < 2 ^ c.wpReg.width := by
  simp only [Config.ok, Bool.and_eq_true, decide_eq_true_eq, bne_iff_ne, ne_eq, beq_iff_eq] at h
  tauto

theorem Config.ok_status {c : Config} (h : c.ok = true) : c.srWip ≠ 0 ∧ c.srWip &&& c.srWel = 0 := by
  simp only [Config.ok, Bool.and_eq_true, decide_eq_true_eq, bne_iff_ne, ne_eq, beq_iff_eq] at h
  tauto

@[simp] theorem getElem_clip (w : Nat) (v : BitVec 32) (i : Nat) (h : i < 32) :
    (clip w v)[i] = (decide (i < w) && v[i]) := by
  simp [clip, BitVec.getElem_setWidth, BitVec.getLsbD_setWidth, h]

theorem clip_clip (w : Nat) (v : BitVec 32) : clip w (clip w v) = clip w v := by
  ext i hi; simp

/-- A mask inside a width has no bit beyond it. -/
theorem mask_inside {w : Nat} {m : BitVec 32} (h : m.toNat < 2 ^ w) (i : Nat) (hi : i < 32) (hm : m[i] = true) :
    i < w := by
  rcases Nat.lt_or_ge i w with h1 | h1
  · exact h1
  · have := Nat.testBit_lt_two_pow (Nat.lt_of_lt_of_le h (Nat.pow_le_pow_right (by decide) h1))
    rw [← BitVec.getLsbD_eq_getElem hi, BitVec.getLsbD, this] at hm
    cases hm

/-- Writing back CFG_WP, at its width, leaves exactly the wanted value under the mask (rules R30, R303). -/
theorem managed_bits {w m v : BitVec 32} {n : Nat} (hm : m.toNat < 2 ^ n) (h : v &&& ~~~ m = 0) :
    clip n (clip n (clip n w &&& ~~~ m ||| v)) &&& m = v := by
  ext i hi
  have := congrArg (fun x : BitVec 32 => x[i]) h
  have hin := mask_inside hm i hi
  simp only [BitVec.getElem_and, BitVec.getElem_not, BitVec.getElem_or, getElem_clip] at this ⊢
  cases h1 : m[i] <;> cases h2 : v[i] <;> simp [h1, h2] at this ⊢
  exact hin h1

/-- And leaves every other bit alone: a second write-back does not see the first. -/
theorem other_bits {w m v u : BitVec 32} {n : Nat} (h : v &&& ~~~ m = 0) :
    clip n (clip n (clip n (clip n w &&& ~~~ m ||| v)) &&& ~~~ m ||| u) = clip n (clip n w &&& ~~~ m ||| u) := by
  ext i hi
  have := congrArg (fun x : BitVec 32 => x[i]) h
  simp only [BitVec.getElem_and, BitVec.getElem_not, BitVec.getElem_or, getElem_clip] at this ⊢
  cases h0 : decide (i < n) <;> cases h1 : m[i] <;> cases h2 : v[i] <;> simp [h1, h2] at this ⊢

/-- CFG_WP locked, its other bits as they were. -/
def lockedWp (c : Config) (w : BitVec 32) : BitVec 32 := wpValue c (clip c.wpReg.width w) false

/-- CFG_WP unlocked, its other bits as they were. -/
def unlockedWp (c : Config) (w : BitVec 32) : BitVec 32 := wpValue c (clip c.wpReg.width w) true

theorem lockedWp_unlocked {c : Config} (h : c.ok = true) (w : BitVec 32) :
    lockedWp c (unlockedWp c w) = lockedWp c w := other_bits (Config.ok_wp h).2.1

theorem lockedWp_twice {c : Config} (h : c.ok = true) (w : BitVec 32) :
    lockedWp c (lockedWp c w) = lockedWp c w := other_bits (Config.ok_wp h).2.2.1

/-! ## Entering and leaving writable-protocol mode -/

/-- WRITABLE_ENTER has been done (rule R171). -/
structure Entered (s t : State) : Prop where
  link  : t.link = s.link
  sh    : t.sh = { s.sh with ctrl := s.cfg.ctrlXfer }
  wire  : t.wire = s.wire
  filled : t.filled = s.filled
  op    : t.op = s.op
  drive : t.drive = s.drive
  cfg   : t.cfg = s.cfg
  env   : t.env = s.env
  draws : t.draws = s.draws
  seqOp : t.seq.op = s.seq.op
  ctx   : t.ctx = { s.ctx with mode := .isWritable }
  chip  : t.chip = { s.chip with wp := unlockedWp s.cfg s.chip.wp }

/-- WRITABLE_EXIT has been done (rule R172). -/
structure Exited (s t : State) : Prop where
  link  : t.link = s.link
  sh    : t.sh = { s.sh with ctrl := s.cfg.ctrlIdle }
  wire  : t.wire = s.wire
  filled : t.filled = s.filled
  op    : t.op = s.op
  drive : t.drive = s.drive
  cfg   : t.cfg = s.cfg
  env   : t.env = s.env
  draws : t.draws = s.draws
  seqOp : t.seq.op = s.seq.op
  ctx   : t.ctx = { s.ctx with mode := .isProtected }
  chip  : t.chip = { s.chip with wp := lockedWp s.cfg s.chip.wp }

/-- A check that holds changes nothing but the position. -/
theorem runs_need {n : Need} {s : State} (h : needRefusal n s = none) : Runs [.need n] s (fun t => t = s.advance (.need n)) := by
  refine Runs.cons (t := s) ?_ (Runs.nil rfl)
  rw [tick_of_internal rfl]
  simp [act, guardBy, h]

/-- The same for a condition on the operands. -/
theorem runs_check {b : Bool} {r : Refusal} {s : State} (h : b = true) :
    Runs [.check b r] s (fun t => t = s.advance (.check b r)) := by
  refine Runs.cons (t := s) ?_ (Runs.nil rfl)
  rw [tick_of_internal rfl]
  simp [act, h]

/-- Advancing SEQ.pc leaves a state calm. -/
theorem tick_calm {m : Micro} {s : State} (he : m.isExternal = true) (hc : s.calm) (hb : s.sh.busy = false) :
    tick m s = act m s := tick_of_external he hc.pauses (takeTurn_calm hc hb)

theorem act_control (xfer : Bool) {s : State} (h : s.portFits s.cfg.regCtrl = true) :
    act (.control xfer) s = .go (match xfer with
      | true => ((s.withSh { s.sh with ctrl := s.cfg.ctrlXfer }).saw
          (.portOut (s.port s.cfg.regCtrl) s.cfg.ctrlXfer)).withCtx { s.ctx with mode := .isWritable }
      | false => (s.withSh { s.sh with ctrl := s.cfg.ctrlIdle }).saw
          (.portOut (s.port s.cfg.regCtrl) s.cfg.ctrlIdle)) := by
  cases xfer <;> simp [act, actControl, guardBy, portRefusal, h, State.saw]

theorem runs_enter {s : State} (hc : s.calm) (hr : s.ctx.ready = true) (hm : s.ctx.mode = .isProtected)
    (hcs : s.sh.cs = false) (hw : s.fl.wip = false) (hb : s.sh.busy = false)
    (hp : s.portFits s.cfg.regCtrl = true) : Runs seqEnter s (Entered s) := by
  have hneed : needRefusal .enter s = none := by
    simp [needRefusal, readyAnd, modeCsWip, firstRefusal, portRefusal, hr, hm, hcs, hw, hp]
  refine (runs_need hneed).append (bs := [.readWp, .writeWp true, .control true]) fun t ht => ?_
  subst ht
  refine Runs.cons (tick_calm rfl (by exact hc) (by exact hb)) ?_
  refine Runs.cons (tick_calm rfl (by exact hc) (by exact hb)) ?_
  refine Runs.cons ((tick_calm rfl (by exact hc) (by exact hb)).trans (act_control true (by exact hp))) (Runs.nil ?_)
  exact ⟨rfl, rfl, rfl, rfl, rfl, rfl, rfl, rfl, rfl, rfl, rfl, rfl⟩

theorem runs_exit {s : State} (hc : s.calm) (hr : s.ctx.ready = true) (hm : s.ctx.mode = .isWritable)
    (hcs : s.sh.cs = false) (hw : s.fl.wip = false) (hb : s.sh.busy = false)
    (hp : s.portFits s.cfg.regCtrl = true) : Runs seqExit s (Exited s) := by
  have hneed : needRefusal .writable s = none := by simp [needRefusal, readyAnd, modeCsWip, hr, hm, hcs, hw]
  refine (runs_need hneed).append (bs := [.control false, .readWp, .writeWp false]) fun t ht => ?_
  subst ht
  refine Runs.cons ((tick_calm rfl (by exact hc) (by exact hb)).trans (act_control false (by exact hp))) ?_
  refine Runs.cons (tick_calm rfl (by exact hc) (by exact hb)) ?_
  refine Runs.cons (tick_calm rfl (by exact hc) (by exact hb)) (Runs.nil ?_)
  exact ⟨rfl, rfl, rfl, rfl, rfl, rfl, rfl, rfl, rfl, rfl, rfl, rfl⟩

/-- In writable-protocol mode the engine is ready for frames. -/
theorem Entered.ready {s t : State} (h : Entered s t) (hc : s.calm) (hr : s.ctx.ready = true) (hb : s.sh.busy = false)
    (hp : s.portsFit = true) (hok : s.cfg.ok = true) : Ready t := by
  have hfl : t.fl = s.fl := congrArg Link.fl h.link
  refine ⟨?_, by rw [h.ctx]; exact hr, ?_, by rw [h.sh]; exact hb, ?_⟩
  · unfold State.calm at *; rw [h.env, hfl]; exact hc
  · simp [State.canTransfer, State.unlocked, h.ctx, h.chip, h.sh, h.cfg, unlockedWp, wpValue,
      managed_bits (Config.ok_wp hok).2.2.2 (Config.ok_wp hok).2.1]
  · rw [portsFit_of h.ctx h.cfg]; exact hp

/-! ## At rest -/

/-- Where an engine operation may start, SHIFT prompt. -/
structure Rest (s : State) : Prop where
  calm   : s.calm
  ready  : s.ctx.ready = true
  quiet  : s.quiescent = true
  ports  : s.portsFit = true
  ok     : s.cfg.ok = true

theorem quiescent_fields {s : State} (h : s.quiescent = true) :
    s.sh.cs = false ∧ s.ctx.mode = .isProtected ∧ s.unlocked = false ∧ s.fl.phase = .idle ∧ s.fl.wip = false
      ∧ s.fl.pending = .none ∧ s.fl.wel = false ∧ s.sh.busy = false ∧ s.sh.ctrl = s.cfg.ctrlIdle := by
  simp only [State.quiescent, Bool.and_eq_true, Bool.not_eq_true', beq_iff_eq] at h
  tauto

theorem Rest.fields {s : State} (h : Rest s) :
    s.sh.cs = false ∧ s.ctx.mode = .isProtected ∧ s.unlocked = false ∧ s.fl.phase = .idle ∧ s.fl.wip = false
      ∧ s.fl.pending = .none ∧ s.fl.wel = false ∧ s.sh.busy = false ∧ s.sh.ctrl = s.cfg.ctrlIdle :=
  quiescent_fields h.quiet

/-- What SEQ notes is no part of it. -/
theorem Rest.of_quiet {s t : State} (h : Rest s) (q : Quiet s t) : Rest t := by
  unfold Quiet at q; rw [q]; exact ⟨h.calm, h.ready, h.quiet, h.ports, h.ok⟩

/-- An operation, or a part of one, has run from rest to rest: `copies` copies were made, the flash holds `m`, HOSTMEM
`h`, and `r` is reported. -/
structure Done (copies : Nat) (m h : Memory) (r : Report) (s t : State) : Prop where
  mem    : t.fl.mem = m
  host   : t.host = h
  report : t.report = r
  ctx    : t.ctx = s.ctx
  op     : t.op = s.op
  drive  : t.drive = s.drive
  cfg    : t.cfg = s.cfg
  chip   : t.chip = { s.chip with wp := lockedWp s.cfg s.chip.wp }
  env    : t.env = { s.env with copies := s.env.copies.drop copies }
  seqOp  : t.seq.op = s.seq.op
  quiet  : t.quiescent = true
  stage  : s.filled.stage = true → t.filled.stage = true
  scratch : s.filled.scratch = true → t.filled.scratch = true

theorem Done.ctrl {n : Nat} {m h : Memory} {r : Report} {s t : State} (d : Done n m h r s t) :
    t.sh.ctrl = s.cfg.ctrlIdle := by
  rw [(quiescent_fields d.quiet).2.2.2.2.2.2.2.2, d.cfg]

theorem Done.rest {n : Nat} {m h : Memory} {r : Report} {s t : State} (d : Done n m h r s t) (q : Rest s) : Rest t := by
  refine ⟨?_, by rw [d.ctx]; exact q.ready, d.quiet, by rw [portsFit_of (m := s.ctx.mode) d.ctx d.cfg]; exact q.ports,
    by rw [d.cfg]; exact q.ok⟩
  refine ⟨by rw [d.env]; exact q.calm.1, by rw [d.env]; exact q.calm.2.1, .inl (quiescent_fields d.quiet).2.2.2.2.2.1⟩

/-- What SEQ notes before and after is no part of it. -/
theorem Done.after {n : Nat} {m h : Memory} {r : Report} {s t u : State} (d : Done n m h r s t) (q : Quiet t u) :
    Done n m h r s u := by
  unfold Quiet at q
  rw [q]
  exact ⟨d.mem, d.host, d.report, d.ctx, d.op, d.drive, d.cfg, d.chip, d.env, d.seqOp, d.quiet, d.stage, d.scratch⟩

theorem Done.before {n : Nat} {m h : Memory} {r : Report} {s t u : State} (q : Quiet s t) (d : Done n m h r t u) :
    Done n m h r s u := by
  unfold Quiet at q
  rw [q] at d
  exact ⟨d.mem, d.host, d.report, d.ctx, d.op, d.drive, d.cfg, d.chip, d.env, d.seqOp, d.quiet, d.stage, d.scratch⟩

theorem Done.trans {n k : Nat} {m h m' h' : Memory} {r r' : Report} {s t u : State} (q : Rest s) (d : Done n m h r s t)
    (e : Done k m' h' r' t u) : Done (n + k) m' h' r' s u := by
  refine ⟨e.mem, e.host, e.report, e.ctx.trans d.ctx, e.op.trans d.op, e.drive.trans d.drive, e.cfg.trans d.cfg,
    ?_, ?_, e.seqOp.trans d.seqOp, e.quiet, fun x => e.stage (d.stage x), fun x => e.scratch (d.scratch x)⟩
  · rw [e.chip, d.chip, d.cfg]; simp [lockedWp_twice q.ok]
  · rw [e.env, d.env]; simp

/-- The writable-mode bracket (rules R170 to R172) around a body that keeps SameBase and ends closed and not busy. -/
theorem runs_bracket {body : List Micro} {P : State → Prop} {s : State} (q : Rest s)
    (hbody : ∀ t, Ready t → t.link = s.link → t.cfg = s.cfg → t.env = s.env → Runs body t fun u =>
      SameBase t u ∧ u.sh.cs = false ∧ u.sh.busy = false ∧ u.fl.phase = .idle ∧ u.fl.wip = false
        ∧ u.fl.pending = .none ∧ u.fl.wel = false ∧ P u) :
    Runs (seqEnter ++ body ++ seqExit) s fun v => ∃ u, P u ∧ Done 0 u.fl.mem u.host u.report s v := by
  obtain ⟨h1, h2, h3, h4, h5, h6, h7, h8, _⟩ := q.fields
  have hports := (portsFit_all q.ports).2.2.1
  refine ((runs_enter q.calm q.ready h2 h1 h5 h8 hports).append (Q := fun u => (∃ t, Entered s t ∧ SameBase t u) ∧
    u.sh.cs = false ∧ u.sh.busy = false ∧ u.fl.phase = .idle ∧ u.fl.wip = false
        ∧ u.fl.pending = .none ∧ u.fl.wel = false ∧ P u) fun t ht => ?_).append fun u hu => ?_
  · exact (hbody t (ht.ready q.calm q.ready h8 q.ports q.ok) ht.link ht.cfg ht.env).weaken fun u hu => ⟨⟨t, ht, hu.1⟩, hu.2⟩
  · obtain ⟨⟨t, ht, hb⟩, g1, g2, g3, g4, g5, g6, g7⟩ := hu
    have hcalm : u.calm := ⟨by rw [hb.env, ht.env]; exact q.calm.1, by rw [hb.env, ht.env]; exact q.calm.2.1, .inl g5⟩
    have hcfg : u.cfg = s.cfg := hb.cfg.trans ht.cfg
    have hctx : u.ctx = { s.ctx with mode := .isWritable } := by rw [hb.ctx, ht.ctx]
    have hfit : u.portFits u.cfg.regCtrl = true := by
      rw [hcfg]
      have e : u.port s.cfg.regCtrl = s.port s.cfg.regCtrl := by unfold State.port; rw [hctx]
      unfold State.portFits at hports ⊢
      rw [e]; exact hports
    refine (runs_exit hcalm (by rw [hctx]; exact q.ready) (by rw [hctx]) g1 g4 g2 hfit).weaken
      fun v hv => ⟨u, g7, ?_⟩
    have hfl : v.fl = u.fl := congrArg Link.fl hv.link
    refine ⟨by rw [hfl], congrArg Link.host hv.link, congrArg Link.report hv.link, ?_, ?_, ?_, ?_, ?_, ?_, ?_, ?_, ?_, ?_⟩
    · rw [hv.ctx, hb.ctx, ht.ctx, ← h2]
    · rw [hv.op, hb.op, ht.op]
    · rw [hv.drive, hb.drive, ht.drive]
    · rw [hv.cfg, hcfg]
    · rw [hv.chip, hcfg, hb.chip, ht.chip]
      simp [lockedWp_unlocked q.ok]
    · rw [hv.env, hb.env, ht.env]; simp
    · rw [hv.seqOp, hb.seqOp, ht.seqOp]
    · have hun : v.unlocked = false := by
        have := Config.ok_wp q.ok
        simp only [State.unlocked, hv.chip, hv.cfg, hcfg, lockedWp, wpValue, managed_bits this.2.2.2 this.2.2.1,
          beq_eq_false_iff_ne]
        exact this.1.symm
      simp only [State.quiescent, Bool.and_eq_true, Bool.not_eq_true', beq_iff_eq, hun, hfl, hv.ctx, hv.sh, hv.cfg]
      exact ⟨⟨⟨⟨⟨⟨⟨⟨g1, trivial⟩, trivial⟩, g3⟩, g4⟩, g5⟩, g6⟩, g2⟩, trivial⟩
    · rw [hv.filled, hb.filled, ht.filled]; exact id
    · rw [hv.filled, hb.filled, ht.filled]; exact id

end Sys2Proof.Machine
end

