-- ==== Sys2Proof/Laws/Blocks.lean ====
section
/-! SUPPORT. Reading and rewriting the flash through the engine, SHIFT and FLASH_INT prompt (rules R173 to R178): the
poll, a burst, a sector, an erase, a program. -/

namespace Sys2Proof.Machine

/-! ## The poll -/

/-- A turn in which FLASH_INT completes what is pending. -/
theorem takeTurn_completes {s : State} {g : Flash} (hp : s.prompt) (hb : s.sh.busy = false)
    (hg : s.fl.complete s.cfg s.draws = .ok g) :
    takeTurn s = .ok ((s.drew s.fl.completionDraws).withFl g) := by
  obtain ⟨h1, h2, h3⟩ := hp
  have e := env_of_no_turns h1
  simp only [takeTurn, h1, List.headD_nil]
  rw [h1] at e
  simp only [e, shiftRun_of_idle _ hb, h3, if_true, flashInt, hg, State.withDevice]

/-- A device ready for the poll to end. -/
structure Settled (g : Flash) : Prop where
  wip : g.wip = false
  pending : g.pending = .none
  phase : g.phase = .idle

/-- The link after the poll of a device that is (by then) `g`. -/
def Link.polled (c : Config) (g : Flash) (v : Byte) (l : Link) : Link :=
  { l.rested c.cmdRdsr { g.after c.cmdRdsr with sentWip := false } with rxd := v, rxReady := true, held := true, seen := false }

/-- One status frame, kept by the sequencer (rule R173). -/
theorem runs_pollFrame {s : State} (r : Ready s) (hcs : s.sh.cs = false) (hg : Settled s.fl) (hok : s.cfg.ok = true) :
    Runs (pollFrame s.cfg) s fun u => ∃ v, StatusOf s.cfg s.fl v ∧ At (s.link.polled s.cfg s.fl v) s u := by
  have hc := Config.ok_commands hok
  have hne : s.cfg.cmdRdsr ≠ s.cfg.cmdRead := fun e => hc.2.2.2.2.1 e.symm
  refine ((runs_command (mark := []) (by simp) r hcs hg.phase (.inr rfl)).append (Q := fun u => ∃ v, StatusOf s.cfg s.fl v ∧
      At { s.link.inFrame s.cfg.cmdRdsr { s.fl.commanded s.cfg s.cfg.cmdRdsr with sentWip := false } with
        rxd := v, rxReady := true, held := true, seen := false } s u) fun t ht => ?_).append fun u hu => ?_
  · have hf : t.fl = s.fl.commanded s.cfg s.cfg.cmdRdsr := ht.fl
    refine (runs_take (ht.ready r rfl) ht.cs (by rw [hf]; exact commanded_status hok s.fl)
      (.inl (by rw [hf]; exact hg.wip)) (by simp)).weaken fun u hu =>
        ⟨t.deviceByte, ⟨t.sh.misoFree, ?_⟩, ht.base.trans hu.base, ?_, hu.busy⟩
    · simp [State.deviceByte, Flash.byteOut, ht.base.cfg, hf, hne, Flash.commanded, statusByte, Flash.opened]
    · rw [hu.link, ht.link, ht.base.cfg]
      simp [Link.took, Link.inFrame, Flash.afterByteOut, Flash.commanded, hne, Flash.opened, hg.wip]
  · obtain ⟨v, hv, hu⟩ := hu
    refine (hu.close r rfl rfl).weaken fun w hw => ⟨v, hv, hw.base, ?_, hw.busy⟩
    rw [hw.link]
    simp only [Link.closed, Link.inFrame]
    rw [Flash.deselect_of_dataOut (by exact commanded_status hok s.fl)]
    rfl

/-- WAIT_WIP (rule R173), SHIFT and FLASH_INT prompt: what was pending is complete, and the first poll sees it. -/
theorem runs_wait {s : State} {g : Flash} (hp : s.prompt) (hr : s.ctx.ready = true) (ht : s.canTransfer = true)
    (hb : s.sh.busy = false) (hcs : s.sh.cs = false) (hports : s.portsFit = true) (hok : s.cfg.ok = true)
    (hg : s.fl.complete s.cfg s.draws = .ok g) (hs : Settled g) :
    Runs (seqWaitWip s.cfg) s fun u => ∃ v, StatusOf s.cfg g v ∧ At (s.link.polled s.cfg g v) s u := by
  have hmode : s.ctx.mode = .isWritable := by
    simp only [State.canTransfer, Bool.and_eq_true, beq_iff_eq] at ht
    exact ht.1.1
  have hneed : needRefusal .poll s = none := by simp [needRefusal, readyAnd, modeCsWip, hr, hmode, hcs]
  have e : seqWaitWip s.cfg = [.need .poll] ++ (pollFrame s.cfg ++ [.untilIdle]) := by
    simp [seqWaitWip]
  rw [e]
  refine (runs_need hneed).append fun t0 ht0 => ?_
  subst ht0
  let t : State := (((s.advance (.need .poll)).drew s.fl.completionDraws).withFl g)
  have hturn : takeTurn (s.advance (.need .poll)) = .ok t := takeTurn_completes (s := s.advance (.need .poll)) hp hb hg
  have hrt : Ready t := ⟨⟨hp.1, hp.2.1, .inl hs.pending⟩, hr, ht, hb, hports⟩
  have hcons : pollFrame s.cfg ++ [Micro.untilIdle] = .csEn :: ((pollFrame s.cfg ++ [Micro.untilIdle]).tail) := rfl
  have hsame : runSeq (pollFrame s.cfg ++ [.untilIdle]) (s.advance (.need .poll))
      = runSeq (pollFrame s.cfg ++ [.untilIdle]) t := by
    rw [hcons, runSeq_cons, runSeq_cons, tick_of_external rfl (State.prompt.pauses (s := s.advance (.need .poll)) hp) hturn,
      tick_of_external rfl hrt.calm.pauses (takeTurn_calm hrt.calm hrt.busy)]
  have hrun : Runs (pollFrame s.cfg ++ [.untilIdle]) t fun u =>
      ∃ v, StatusOf s.cfg g v ∧ At (s.link.polled s.cfg g v) s u := by
    refine (runs_pollFrame hrt hcs hs hok).append fun u hu => ?_
    obtain ⟨v, hv, hu⟩ := hu
    have hseen : u.seq.wipSeen = false := hu.seen
    refine Runs.cons (t := u) ?_ (Runs.nil ⟨v, hv, ⟨⟨?_, ?_, ?_, ?_, ?_, ?_, ?_, ?_, ?_⟩, ?_, hu.busy⟩⟩)
    · rw [tick_of_internal rfl]; simp [act, actUntilIdle, hseen]
    · exact hu.base.chip
    · exact hu.base.ctx
    · exact hu.base.filled
    · exact hu.base.op
    · exact hu.base.drive
    · exact hu.base.cfg
    · exact hu.base.env
    · exact hu.base.ctrl
    · exact hu.base.seqOp
    · exact hu.link
  obtain ⟨u, hu, hq⟩ := hrun
  exact ⟨u, hsame.trans hu, hq⟩

/-! ## Reading -/

/-- A buffer's being filled changes nothing else (rule R44). -/
theorem Done.marked {n : Nat} {m h : Memory} {r : Report} {s t : State} (d : Done n m h r s t) (b : Buffer) :
    Done n m h r s ((markFilled b t).advance (.filled b)) := by
  cases b
  · exact ⟨d.mem, d.host, d.report, d.ctx, d.op, d.drive, d.cfg, d.chip, d.env, d.seqOp, d.quiet, fun _ => rfl,
      d.scratch⟩
  · exact ⟨d.mem, d.host, d.report, d.ctx, d.op, d.drive, d.cfg, d.chip, d.env, d.seqOp, d.quiet, d.stage,
      fun _ => rfl⟩

theorem Done.runs_filled {n : Nat} {m h : Memory} {r : Report} {s t : State} (d : Done n m h r s t) (b : Buffer) :
    Runs [.filled b] t (Done n m h r s) :=
  Runs.cons (t := markFilled b t) rfl (Runs.nil (d.marked b))

theorem hostCovers_of_reaches {s : State} {a n : Nat} (h : hostReaches s a n = true) : hostCovers s a n = true := by
  refine List.all_eq_true.2 fun i hi => ?_
  have := List.all_eq_true.1 h i hi
  simp only [hostDirect, Bool.and_eq_true] at this
  exact this.1

theorem Rest.open_of {s t : State} (q : Rest s) (r : Ready t) (hl : t.link = s.link) : Open t := by
  obtain ⟨h1, _, _, h4, h5, _, _, _, _⟩ := q.fields
  have hcs : t.sh.cs = s.sh.cs := congrArg Link.cs hl
  have hfl : t.fl = s.fl := congrArg Link.fl hl
  exact ⟨r, hcs.trans h1, by rw [hfl]; exact h4, by rw [hfl]; exact h5⟩

/-- READ_BYTE past its checks (rule R174). -/
theorem runs_readByte {a : FlashAddr} {s : State} (q : Rest s) (ha : a.toNat < s.cfg.flashSize) :
    Runs (seqEnter ++ addressedFrame s.cfg.cmdRead a (takeByte .caller) ++ seqExit) s
      (Done 0 s.fl.mem s.host (s.report.add (s.fl.mem.read a.toNat)) s) := by
  obtain ⟨h1, _, _, h4, h5, h6, h7, _, _⟩ := q.fields
  refine (runs_bracket (P := fun u => u.fl.mem = s.fl.mem ∧ u.host = s.host ∧
      u.report = s.report.add (s.fl.mem.read a.toNat)) q fun t r hl hc he => ?_).weaken fun v hv => ?_
  · have hfl : t.fl = s.fl := congrArg Link.fl hl
    have := runs_readFrame (a := a) (m := 1) (q.open_of r hl) (by rw [hc]; exact q.ok)
      (by rw [hc]; exact (Config.ok_flash q.ok).2.2) (by rw [hc]; exact ha) fun _ r hs => runs_takeOne r hs
    rw [hc] at this
    refine this.weaken fun u hu => ⟨hu.base, hu.cs, hu.busy, ?_, ?_, ?_, ?_, ?_, ?_, ?_⟩
    · rw [hu.fl]; rfl
    · rw [hu.fl]; show t.fl.wip = false; rw [hfl]; exact h5
    · rw [hu.fl]; show t.fl.pending = .none; rw [hfl]; exact h6
    · rw [hu.fl]; show t.fl.wel = false; rw [hfl]; exact h7
    · rw [hu.fl]; show t.fl.mem = _; rw [hfl]
    · rw [hu.host, hl]; rfl
    · rw [hu.report, hl]
      simp [Link.afterReadOut, Flash.bytesFrom, State.link, Nat.mod_eq_of_lt ha]
  · obtain ⟨u, ⟨e1, e2, e3⟩, hd⟩ := hv
    rw [e1, e2, e3] at hd
    exact hd

/-- READ_BURST (rule R175): the 128 bytes are in STAGE. -/
theorem runs_burst {a : Nat} {s : State} (q : Rest s) (ha : a + burstSize ≤ s.cfg.flashSize)
    (hm : hostReaches s s.cfg.stage.toNat burstSize = true) :
    Runs (seqReadBurst s.cfg a) s
      (Done 0 s.fl.mem (s.host.splice s.cfg.stage.toNat (s.fl.mem.readMany a burstSize)) s.report s) := by
  obtain ⟨h1, _, _, h4, h5, h6, h7, _, _⟩ := q.fields
  have hb : burstSize = 128 := rfl
  have hsize := (Config.ok_flash q.ok).2.2
  have hA : (toFlashAddr a).toNat = a := by
    simp only [toFlashAddr, BitVec.toNat_ofNat]; exact Nat.mod_eq_of_lt (by omega)
  have hbytes : s.fl.bytesFrom s.cfg (toFlashAddr a) burstSize = s.fl.mem.readMany a burstSize := by
    simp only [Flash.bytesFrom, Memory.readMany, hA]
    refine List.map_congr_left fun i hi => ?_
    rw [Nat.mod_eq_of_lt (by have := List.mem_range.1 hi; omega)]
  refine Runs.append (P := Done 0 s.fl.mem (s.host.splice s.cfg.stage.toNat (s.fl.mem.readMany a burstSize)) s.report s)
    ((runs_bracket (P := fun u => u.fl.mem = s.fl.mem ∧
      u.host = s.host.splice s.cfg.stage.toNat (s.fl.mem.readMany a burstSize) ∧ u.report = s.report) q
      fun t r hl hc he => ?_).weaken fun v hv => ?_) fun v hv => hv.runs_filled .stage
  · have hfl : t.fl = s.fl := congrArg Link.fl hl
    have hpres : ∀ i, i < burstSize → hostDirect t (t.cfg.stage.toNat + i) = true := by
      intro i hi
      rw [hostDirect_congr hc, hc]
      exact List.all_eq_true.1 hm i (List.mem_range.2 hi)
    have := runs_readIn (q.open_of r hl) (by rw [hc]; exact q.ok) (by rw [hc]; exact hsize)
      (a := toFlashAddr a) (by rw [hc, hA]; omega) burstSize hpres
    rw [hc] at this
    refine this.weaken fun u hu => ⟨hu.base, hu.cs, hu.busy, ?_, ?_, ?_, ?_, ?_, ?_, ?_⟩
    · rw [hu.fl]; rfl
    · rw [hu.fl]; show t.fl.wip = false; rw [hfl]; exact h5
    · rw [hu.fl]; show t.fl.pending = .none; rw [hfl]; exact h6
    · rw [hu.fl]; show t.fl.wel = false; rw [hfl]; exact h7
    · rw [hu.fl]; show t.fl.mem = _; rw [hfl]
    · rw [hu.host, hl]
      show (if burstSize = 0 then s.host else s.host.splice _ (s.fl.bytesFrom s.cfg _ burstSize)) = _
      rw [hbytes]; rfl
    · rw [hu.report, hl]; rfl
  · obtain ⟨u, ⟨e1, e2, e3⟩, hd⟩ := hv
    rw [e1, e2, e3] at hd
    exact hd

/-! ## Copying -/

theorem Done.copiesSucceed {n : Nat} {m h : Memory} {r : Report} {s t : State} (d : Done n m h r s t)
    (hs : s.copiesSucceed) : t.copiesSucceed := by
  intro b hb
  rw [d.env] at hb
  exact hs b (List.mem_of_mem_drop hb)

/-- ExtCopy (rules R9, R176, R204, R310): on success the bytes of the source, on failure bytes that no rule constrains;
the operation goes on either way (rule R250). -/
theorem runs_copy_any {dst src n : Nat} {s : State} (q : Rest s)
    (h1 : hostCovers s src n = true) (h2 : hostCovers s dst n = true) (hov : overlaps dst n src n = false)
    (hwp : lockedWp s.cfg s.chip.wp = s.chip.wp) :
    Runs [.copy dst src n] s fun t => ∃ d : List Byte, d.length = n
      ∧ (s.env.copies.headD true = true → d = s.host.readMany src n)
      ∧ Done 1 s.fl.mem (s.host.splice dst d) s.report s t := by
  have hb := q.fields.2.2.2.2.2.2.2.1
  have hno : copyRefusal s dst src n = none := by simp [copyRefusal, h1, h2, hov]
  have hchip : s.chip = { s.chip with wp := lockedWp s.cfg s.chip.wp } := by rw [hwp]
  have henv : { s.env with copies := s.env.copies.tail } = { s.env with copies := s.env.copies.drop 1 } := by simp
  cases hok : s.env.copies.headD true with
  | true =>
    have ht : tick (.copy dst src n) s = .go (hostStore ((s.withEnv { s.env with copies := s.env.copies.tail }).saw
        (.extCopy dst src n true)) dst (s.host.readMany src n)) := by
      rw [tick_calm rfl q.calm hb]
      simp only [act, extCopy, hno, guardBy, if_true, hok]
    exact Runs.cons ht (Runs.nil ⟨_, by simp, fun _ => rfl,
      ⟨rfl, rfl, rfl, rfl, rfl, rfl, rfl, hchip, henv, rfl, q.quiet, id, id⟩⟩)
  | false =>
    have ht : tick (.copy dst src n) s = .go ((hostStore ((s.withEnv { s.env with copies := s.env.copies.tail }).saw
        (.extCopy dst src n false)) dst (s.freeBytes n)).drew n) := by
      rw [tick_calm rfl q.calm hb]
      simp only [act, extCopy, hno, guardBy, hok]
      rfl
    exact Runs.cons ht (Runs.nil ⟨s.freeBytes n, by simp, nofun,
      ⟨rfl, rfl, rfl, rfl, rfl, rfl, rfl, hchip, henv, rfl, q.quiet, id, id⟩⟩)

theorem State.copiesSucceed.head {s : State} (hs : s.copiesSucceed) : s.env.copies.headD true = true := by
  cases h : s.env.copies with
  | nil => rfl
  | cons b l => exact hs b (by rw [h]; simp)

end Sys2Proof.Machine
end

