-- ==== Sys2Proof/Laws/Rewrite.lean ====
section
/-! SUPPORT. Erasing and programming through the engine, SHIFT and FLASH_INT prompt (rules R177, R178, R154, R155). -/

namespace Sys2Proof.Machine

/-- What a frame that starts an erase or a program must do for the bracket around it: the device is deselected with
something pending that completes into a content with `R`. -/
def Starts (R : Memory → Prop) (t u : State) : Prop :=
  ∃ k f, At (t.link.rested k f) t u ∧ f.phase = .idle ∧
    ∀ n, ∃ g, f.complete t.cfg n = .ok g ∧ g.wip = false ∧ g.pending = .none ∧ g.phase = .idle ∧ R g.mem

/-- The sequence erase and program share (rules R177, R178). -/
theorem runs_modify {b : Nat} {frame : List Micro} {more : Bool} {R : Memory → Prop} {s : State} (q : Rest s)
    (hp : s.prompt)
    (hframe : ∀ t, Open t → t.cfg = s.cfg → t.host = s.host → t.fl.wel = true → t.fl.mem = s.fl.mem →
      Runs frame t (Starts R t)) :
    Runs (seqModify s.cfg b frame more) s fun v => ∃ m, R m ∧ Done 0 m s.host s.report s v := by
  have e : seqModify s.cfg b frame more = seqEnter ++ (bareFrame s.cfg.cmdWren ++ ((frame ++ [.openBlock b])
      ++ ((seqWaitWip s.cfg ++ if more then [] else [.closeBlock]) ++ bareFrame s.cfg.cmdWrdi))) ++ seqExit := by
    simp [seqModify]
  rw [e]
  refine (runs_bracket (P := fun u => R u.fl.mem ∧ u.host = s.host ∧ u.report = s.report) q
    fun t r hl hc he => ?_).weaken fun v hv => ?_
  · have hfl : t.fl = s.fl := congrArg Link.fl hl
    have hcfg : t.cfg.ok = true := by rw [hc]; exact q.ok
    have o := q.open_of r hl
    have w1 := runs_wren o
    rw [hc] at w1
    refine w1.append fun a ha => ?_
    have hac : a.cfg = s.cfg := ha.base.cfg.trans hc
    have oa : Open a := ha.open o rfl rfl (by show t.fl.wip = false; exact o.wip) rfl
    refine ((hframe a oa hac (by rw [ha.host, hl]; rfl) (by rw [ha.fl]; rfl)
      (by rw [ha.fl]; show t.fl.mem = _; rw [hfl])).append (Q := Starts R a) fun u hu =>
        (runs_quiet (by simp [Micro.isQuiet]) u).weaken fun v hv => ?_).append fun b hb => ?_
    · obtain ⟨k, f, hu, hrest⟩ := hu
      exact ⟨k, f, hu.quiet hv, hrest⟩
    obtain ⟨k, f, hb, hfph, hcomp⟩ := hb
    have hbase := ha.base.trans hb.base
    have hbc : b.cfg = s.cfg := hb.base.cfg.trans hac
    have hbf : b.fl = f := hb.fl
    have hpb : b.prompt := by
      unfold State.prompt at *; rw [hbase.env, he]; exact hp
    obtain ⟨g, hg, hgw, hgp, hgph, hgR⟩ := hcomp b.draws
    rw [← hbf, ← hb.base.cfg] at hg
    have wt := runs_wait hpb (by rw [hbase.ctx]; exact r.ready) (by rw [hbase.canTransfer]; exact r.transfer) hb.busy
      hb.cs (by rw [hbase.portsFit]; exact r.ports) (by rw [hbc]; exact q.ok) hg ⟨hgw, hgp, hgph⟩
    rw [hbc] at wt
    refine (wt.append fun w hw => (runs_quiet (by cases more <;> simp [Micro.isQuiet]) w).weaken
      (Q := fun w => ∃ v, At (b.link.polled s.cfg g v) b w) fun w' hq => ?_).append fun w hw => ?_
    · obtain ⟨x, _, hw⟩ := hw
      exact ⟨x, hw.quiet hq⟩
    obtain ⟨x, hw⟩ := hw
    have hbase' := hbase.trans hw.base
    have hwf := hw.fl
    have hwc : w.cfg = s.cfg := hw.base.cfg.trans hbc
    have ow : Open w := by
      refine ⟨⟨⟨?_, ?_, .inl ?_⟩, by rw [hbase'.ctx]; exact r.ready, by rw [hbase'.canTransfer]; exact r.transfer, hw.busy,
        by rw [hbase'.portsFit]; exact r.ports⟩, hw.cs, by rw [hwf]; rfl, by rw [hwf]; exact hgw⟩
      · rw [hw.base.env]; exact hpb.1
      · rw [hw.base.env]; exact hpb.2.1
      · rw [hwf]; exact hgp
    have wd := runs_wrdi ow (by rw [hwc]; exact q.ok)
    rw [hwc] at wd
    refine wd.weaken fun u hu => ⟨hbase'.trans hu.base, hu.cs, hu.busy, ?_, ?_, ?_, ?_, ?_, ?_, ?_⟩
    · rw [hu.fl]; rfl
    · rw [hu.fl]; exact ow.wip
    · rw [hu.fl]; show w.fl.pending = .none; rw [hwf]; exact hgp
    · rw [hu.fl]; rfl
    · rw [hu.fl]; show R w.fl.mem; rw [hwf]; exact hgR
    · rw [hu.host]; show w.host = _; rw [hw.host]; show b.host = _; rw [hb.host]; show a.host = _; rw [ha.host, hl]; rfl
    · rw [hu.report]; show w.report = _; rw [hw.report]; show b.report = _; rw [hb.report]; show a.report = _
      rw [ha.report, hl]; rfl
  · obtain ⟨u, ⟨e1, e2, e3⟩, hd⟩ := hv
    rw [e2, e3] at hd
    exact ⟨u.fl.mem, e1, hd⟩

/-- ERASE_BLOCK (rule R177): the block is erased. -/
theorem runs_eraseBlock {a : Nat} {mark : List Micro} {more : Bool} {s : State}
    (hmark : ∀ m ∈ mark, m.isQuiet = true) (q : Rest s) (hp : s.prompt) (ha : a < s.cfg.flashSize) :
    Runs (seqEraseBlock s.cfg a mark more) s
      (Done 0 (eraseBytes s.cfg s.fl.mem (a / blockSize)) s.host s.report s) := by
  have hsize := (Config.ok_flash q.ok).2.2
  have hA : (toFlashAddr a).toNat = a := by
    simp only [toFlashAddr, BitVec.toNat_ofNat]; exact Nat.mod_eq_of_lt (by omega)
  refine (runs_modify (R := fun m => m = eraseBytes s.cfg s.fl.mem (a / blockSize)) q hp
    fun t o hc hh hw hm => ?_).weaken fun v hv => ?_
  · have := runs_se (a := toFlashAddr a) hmark o (by rw [hc]; exact q.ok) (by rw [hc, hA]; exact ha)
    rw [hc] at this
    refine this.weaken fun u hu => ⟨_, _, hu, rfl, fun n =>
      ⟨Flash.completed { (t.fl.eraseStarted (toFlashAddr a)).after s.cfg.cmdSe with addr := toFlashAddr a, nbytes := 3 }
        (eraseBytes t.cfg t.fl.mem (a / blockSize)), ?_, rfl, rfl, rfl, by rw [hc, hm]; rfl⟩⟩
    simp [Flash.eraseStarted, hw, Flash.after, Flash.opened, Flash.complete, hA]
  · obtain ⟨m, rfl, hd⟩ := hv
    exact hd

/-- The bytes a source range holds. -/
theorem hostSources_there {s : State} {p n : Nat} (h : hostReaches s p n = true) :
    ((List.range n).map fun i => ByteSource.host (p + i)).map (sourceByte s) = (s.host.readMany p n).map .ok := by
  simp only [List.map_map, Memory.readMany]
  refine List.map_congr_left fun i hi => ?_
  simp [sourceByte, directRefusal_one (List.all_eq_true.1 h i hi)]

/-- WRITE_DATA past its checks (rule R178): the page is programmed, free values where it was not erased (rule R155). -/
theorem runs_writeData {a p n : Nat} {more : Bool} {s : State} (q : Rest s) (hp : s.prompt) (h0 : n ≠ 0)
    (hpage : a % pageLimit + n ≤ pageLimit) (ha : a + n ≤ s.cfg.flashSize) (hh : hostReaches s p n = true) :
    Runs (seqWriteData s.cfg a p n more) s fun v => ∃ k,
      Done 0 (s.fl.mem.splice a (programmed s.cfg.erasedByte s.fl.mem a k (s.host.readMany p n))) s.host s.report s v := by
  have hsize := (Config.ok_flash q.ok).2.2
  have hA : (toFlashAddr a).toNat = a := by
    simp only [toFlashAddr, BitVec.toNat_ofNat]; exact Nat.mod_eq_of_lt (by omega)
  refine (runs_modify (R := fun m => ∃ k, m =
      s.fl.mem.splice a (programmed s.cfg.erasedByte s.fl.mem a k (s.host.readMany p n))) q hp
    fun t o hc hhost hw hm => ?_).weaken fun v hv => ?_
  · have hcov : hostReaches t p n = true := by rw [hostReaches_congr hc]; exact hh
    have := runs_programFrame (a := toFlashAddr a) (d := t.host.readMany p n) o (by rw [hc]; exact q.ok)
      (by rw [hc, hA]; omega) (by simp; omega) (hostSources_there hcov)
    rw [hc] at this
    have hne : t.host.readMany p n ≠ [] := fun e => h0 (by simpa using congrArg List.length e)
    refine this.weaken fun u hu => ⟨_, _, hu, rfl, fun k =>
      ⟨Flash.completed (t.fl.afterProgram s.cfg (toFlashAddr a) (t.host.readMany p n))
        (t.fl.mem.splice a (programmed t.cfg.erasedByte t.fl.mem a k (t.host.readMany p n))), ?_, rfl, rfl, rfl,
        k, by rw [hc, hm, hhost]; rfl⟩⟩
    simp only [Flash.complete, Flash.afterProgram, Flash.programStarted, hw, Flash.after, Flash.opened, hne, hA,
      ne_eq, not_false_eq_true, and_self, if_true, Memory.length_readMany]
    rw [if_neg (by omega)]
  · obtain ⟨m, ⟨k, rfl⟩, hd⟩ := hv
    exact ⟨k, hd⟩

/-- Programming bytes that are all erased stores exactly the bytes (rule R155). -/
theorem programmed_of_erased {erased : Byte} {m : Memory} {d : List Byte} {a k : Nat}
    (h : ∀ i, i < d.length → m.read (a + i) = erased) : programmed erased m a k d = d := by
  induction d generalizing a k with
  | nil => rfl
  | cons b d ih =>
    have h0 := h 0 (by simp)
    simp only [Nat.add_zero] at h0
    simp only [programmed, h0, if_true]
    rw [ih fun i hi => ?_]
    have := h (i + 1) (by simpa using hi)
    rwa [show a + (i + 1) = a + 1 + i by omega] at this

@[simp] theorem length_programmed (erased : Byte) (m : Memory) (a k : Nat) (d : List Byte) :
    (programmed erased m a k d).length = d.length := by
  induction d generalizing a k with
  | nil => rfl
  | cons b d ih => simp [programmed, ih]

end Sys2Proof.Machine
end

