-- ==== Sys2Proof/Laws/Sector.lean ====
section
/-! SUPPORT. Whole sectors, SHIFT and FLASH_INT prompt, whatever the copies do (rules R176, R202 to R207, R250). -/

namespace Sys2Proof.Machine

/-- A loop of parts that each run from rest to rest: `I` is what it has done to the flash and to host memory, `c` the
copies an iteration makes. -/
theorem runs_iterations_done {more : Nat → Bool} {body : Nat → List Micro} {c n : Nat} {I : Nat → Memory → Memory → Prop} {s : State}
    (hn : 1 ≤ n) (q : Rest s) (h0 : I 0 s.fl.mem s.host)
    (step : ∀ i, i < n → ∀ t : State, t.cfg = s.cfg → t.ctx = s.ctx →
      t.env = { s.env with copies := s.env.copies.drop (c * i) } → Rest t → I i t.fl.mem t.host →
      Runs (body i) t fun v => ∃ m h, I (i + 1) m h ∧ Done c m h t.report t v) :
    Runs (iterations more n body) s fun v => ∃ m h, I n m h ∧ Done (c * n) m h s.report s v := by
  refine runs_iterations_from (I := fun i v => ∃ m h, I i m h ∧ Done (c * i) m h s.report s v) hn ?_ ?_ ?_
  · rintro i t u ⟨m, h, hi, hd⟩ k
    exact ⟨m, h, hi, hd.after k⟩
  · intro t hq
    have e := hq
    unfold Quiet at e
    refine (step 0 hn t (by rw [e]; rfl) (by rw [e]; rfl) (by rw [e]; rfl) (q.of_quiet hq) (by rw [e]; exact h0)).weaken
      fun v hv => ?_
    obtain ⟨m, h, hi, hd⟩ := hv
    have hr : t.report = s.report := by rw [e]; rfl
    rw [hr] at hd
    exact ⟨m, h, hi, by simpa using hd.before hq⟩
  · rintro i h1 h2 t ⟨m, h, hi, hd⟩
    refine (step i h2 t hd.cfg hd.ctx hd.env (hd.rest q) (by rw [hd.mem, hd.host]; exact hi)).weaken fun v hv => ?_
    obtain ⟨m', h', hi', hd'⟩ := hv
    have := hd.trans q hd'
    rw [hd.report] at this
    exact ⟨m', h', hi', by simpa [Nat.mul_succ] using this⟩

theorem not_overlaps {a n b m : Nat} (h : overlaps a n b m = false) : a + n ≤ b ∨ b + m ≤ a := by
  simp only [overlaps, Bool.and_eq_false_iff, decide_eq_false_iff_not] at h
  omega

theorem overlaps_of_apart {a n b m : Nat} (h : a + n ≤ b ∨ b + m ≤ a) : overlaps a n b m = false := by
  simp only [overlaps, Bool.and_eq_false_iff, decide_eq_false_iff_not]
  omega

theorem State.copiesSucceed.copyOk {s : State} (hs : s.copiesSucceed) (k : Nat) : s.copyOk k = true := by
  unfold State.copyOk
  cases h : s.env.copies.drop k with
  | nil => rfl
  | cons b l => exact hs b (List.mem_of_mem_drop (i := k) (by rw [h]; simp))

theorem copyOk_of_env {s t : State} {n : Nat} (h : t.env = { s.env with copies := s.env.copies.drop n }) (k : Nat) :
    t.copyOk k = s.copyOk (n + k) := by
  simp [State.copyOk, h]

theorem Done.copyOk {n : Nat} {m h : Memory} {r : Report} {s t : State} (d : Done n m h r s t) (k : Nat) :
    t.copyOk k = s.copyOk (n + k) := copyOk_of_env d.env k

theorem Memory.readMany_splice (m : Memory) (a : Nat) (d : List Byte) : (m.splice a d).readMany a d.length = d := by
  refine List.ext_getElem (by simp) fun i h1 h2 => ?_
  simp only [Memory.getElem_readMany]
  exact Memory.read_splice_inside h2

theorem hostCovers_sub {s : State} {a n b m : Nat} (h : hostCovers s a n = true) (h1 : a ≤ b) (h2 : b + m ≤ a + n) :
    hostCovers s b m = true := by
  refine List.all_eq_true.2 fun i hi => ?_
  have hi := List.mem_range.1 hi
  have := List.all_eq_true.1 h (b - a + i) (List.mem_range.2 (by omega))
  rwa [show a + (b - a + i) = b + i by omega] at this

theorem hostReaches_sub {s : State} {a n b m : Nat} (h : hostReaches s a n = true) (h1 : a ≤ b) (h2 : b + m ≤ a + n) :
    hostReaches s b m = true := by
  refine List.all_eq_true.2 fun i hi => ?_
  have hi := List.mem_range.1 hi
  have := List.all_eq_true.1 h (b - a + i) (List.mem_range.2 (by omega))
  rwa [show a + (b - a + i) = b + i by omega] at this

/-- Bursts relayed through STAGE, some of whose copies may have failed (rules R176, R250): where a copy succeeded the
destination holds the burst, and host memory is as it was outside the destination and outside STAGE. -/
structure Relayed (stage dest n : Nat) (good : Nat → Bool) (src : Nat → Byte) (h h' : Memory) : Prop where
  inside  : ∀ j, j < n → good j = true → ∀ i, i < burstSize → h'.read (dest + burstSize * j + i) = src (burstSize * j + i)
  outside : ∀ x, x < dest ∨ dest + burstSize * n ≤ x → x < stage ∨ stage + burstSize ≤ x → h'.read x = h.read x
  wf      : h.wf = true → h'.wf = true

theorem Relayed.zero (stage dest : Nat) (good : Nat → Bool) (src : Nat → Byte) (h : Memory) :
    Relayed stage dest 0 good src h h :=
  ⟨fun j hj => absurd hj (Nat.not_lt_zero j), fun _ _ _ => rfl, id⟩

/-- Two relays whose destinations follow one another are one. -/
theorem Relayed.append {stage dest n m : Nat} {good good' : Nat → Bool} {src src' : Nat → Byte} {h h1 h2 : Memory}
    (a : Relayed stage dest n good src h h1)
    (b : Relayed stage (dest + burstSize * n) m good' src' h1 h2)
    (hgood : ∀ j, good' j = good (n + j)) (hsrc : ∀ i, i < burstSize * m → src' i = src (burstSize * n + i))
    (hov : dest + burstSize * (n + m) ≤ stage ∨ stage + burstSize ≤ dest) :
    Relayed stage dest (n + m) good src h h2 := by
  have hb : burstSize = 128 := rfl
  have hmul : ∀ k, burstSize * k = 128 * k := fun _ => rfl
  have e1 := hmul n
  have e2 := hmul m
  have e3 := hmul (n + m)
  refine ⟨fun j hj hg i hi => ?_, fun x h3 h4 => ?_, fun hw => b.wf (a.wf hw)⟩
  · have e4 := hmul j
    rcases Nat.lt_or_ge j n with hlt | hge
    · rw [b.outside _ (by omega) (by omega)]
      exact a.inside j hlt hg i hi
    · have e5 := hmul (j - n)
      have := b.inside (j - n) (by omega) (by rw [hgood, show n + (j - n) = j by omega]; exact hg) i hi
      rw [hsrc _ (by omega)] at this
      rwa [show dest + burstSize * n + burstSize * (j - n) + i = dest + burstSize * j + i by omega,
        show burstSize * n + (burstSize * (j - n) + i) = burstSize * j + i by omega] at this
  · rw [b.outside x (by omega) h4]
    exact a.outside x (by omega) h4

/-- Where every copy succeeded the destination holds it all. -/
theorem Relayed.all {stage dest n : Nat} {good : Nat → Bool} {src : Nat → Byte} {h h' : Memory}
    (r : Relayed stage dest n good src h h') (hg : ∀ j, j < n → good j = true) (i : Nat) (hi : i < burstSize * n) :
    h'.read (dest + i) = src i := by
  have hi : i < 128 * n := hi
  have e := r.inside (i / 128) (by omega) (hg _ (by omega)) (i % 128) (by show _ < 128; omega)
  rw [show burstSize * (i / 128) = 128 * (i / 128) from rfl] at e
  rwa [show dest + 128 * (i / 128) + i % 128 = dest + i by omega,
    show 128 * (i / 128) + i % 128 = i by omega] at e

/-- One burst relayed (rule R176). -/
theorem runs_relay {a dest : Nat} {s : State} (q : Rest s)
    (ha : a + burstSize ≤ s.cfg.flashSize) (hm : hostReaches s s.cfg.stage.toNat burstSize = true)
    (hd : hostCovers s dest burstSize = true) (hov : dest + burstSize ≤ s.cfg.stage.toNat ∨ s.cfg.stage.toNat + burstSize ≤ dest) :
    Runs (seqReadBurst s.cfg a ++ [.copy dest s.cfg.stage.toNat burstSize]) s fun v => ∃ h',
      Relayed s.cfg.stage.toNat dest 1 s.copyOk (fun i => s.fl.mem.read (a + i)) s.host h'
        ∧ Done 1 s.fl.mem h' s.report s v := by
  refine (runs_burst q ha hm).append fun t ht => ?_
  have hwp : lockedWp t.cfg t.chip.wp = t.chip.wp := by
    rw [ht.chip, ht.cfg]; exact lockedWp_twice q.ok _
  refine (runs_copy_any (ht.rest q) (by rw [hostCovers_congr ht.cfg]; exact hostCovers_of_reaches hm)
    (by rw [hostCovers_congr ht.cfg]; exact hd) (overlaps_of_apart hov) hwp).weaken fun v hv => ?_
  obtain ⟨d, hlen, hgood, hv⟩ := hv
  have hstage : t.host.readMany s.cfg.stage.toNat burstSize = s.fl.mem.readMany a burstSize := by
    rw [ht.host]
    have := Memory.readMany_splice s.host s.cfg.stage.toNat (s.fl.mem.readMany a burstSize)
    simpa using this
  refine ⟨t.host.splice dest d, ⟨?_, ?_, ?_⟩, ?_⟩
  · intro j hj hok i hi
    have hj : j = 0 := by omega
    subst hj
    have e : t.env.copies.headD true = true := by rw [ht.env]; simpa [State.copyOk] using hok
    have := Memory.read_splice_inside (m := t.host) (a := dest) (d := d) (i := i) (by omega)
    simp only [Nat.mul_zero, Nat.add_zero, Nat.zero_add]
    rw [this]
    simp [hgood e, hstage]
  · intro x h1 h2
    rw [Memory.read_splice_outside (by rw [hlen]; exact h1), ht.host, Memory.read_splice_outside (by simpa using h2)]
  · intro hw
    refine Memory.wf_splice ?_ _ _
    rw [ht.host]; exact Memory.wf_splice hw _ _
  · have := ht.trans q hv
    rw [ht.mem, ht.report] at this
    simpa using this

/-- READ_SECTOR past its checks (rule R176), whatever its copies do. -/
theorem runs_readSector {sector dest : Nat} {s : State} (q : Rest s)
    (ha : sectorFits s.cfg sector = true) (hm : hostReaches s s.cfg.stage.toNat burstSize = true)
    (hd : hostCovers s dest sectorSize = true) (hov : hitsStage s dest sectorSize = false) :
    Runs (seqReadSector s.cfg sector dest) s fun v => ∃ h',
      Relayed s.cfg.stage.toNat dest 4 s.copyOk (fun i => s.fl.mem.read (sectorAddr sector + i)) s.host h'
        ∧ Done 4 s.fl.mem h' s.report s v := by
  have hb : burstSize = 128 := rfl
  have hss : sectorSize = 512 := rfl
  have hmul : ∀ k, burstSize * k = 128 * k := fun _ => rfl
  have hno := not_overlaps hov
  have hfit : sectorAddr sector + sectorSize ≤ s.cfg.flashSize := of_decide_eq_true ha
  unfold seqReadSector forEach
  refine (runs_iterations_done (c := 1) (n := 4) (I := fun j m h => m = s.fl.mem ∧
      Relayed s.cfg.stage.toNat dest j s.copyOk (fun i => s.fl.mem.read (sectorAddr sector + i)) s.host h)
    (by decide) q ⟨rfl, .zero _ _ _ _ _⟩ fun j hj t hc hx he qt hI => ?_).weaken fun v hv => ?_
  · obtain ⟨hmem, hr⟩ := hI
    have hmj := hmul j
    have hmj1 := hmul (j + 1)
    have := runs_relay (a := sectorAddr sector + burstSize * j) (dest := dest + burstSize * j) qt
      (by rw [hc]; omega) (by rw [hostReaches_congr hc, hc]; exact hm)
      (by rw [hostCovers_congr hc]; exact hostCovers_sub hd (by omega) (by omega)) (by rw [hc]; omega)
    rw [hc] at this
    refine this.weaken fun v hv => ?_
    obtain ⟨h', hr', hd'⟩ := hv
    refine ⟨t.fl.mem, h', ⟨hmem, hr.append hr' (fun k => ?_) (fun i _ => ?_) (by omega)⟩, hd'⟩
    · rw [copyOk_of_env he, Nat.one_mul]
    · rw [hmem, Nat.add_assoc]
  · obtain ⟨m, h, ⟨rfl, hr⟩, hd⟩ := hv
    exact ⟨h, hr, hd⟩

/-! ## WRITE_SECTOR -/

/-- The backup (rule R203): the block is in the buffer at `p`, but where a copy failed. -/
theorem runs_backup {g p : Nat} {s : State} (q : Rest s)
    (ha : blockSize * g + blockSize ≤ s.cfg.flashSize) (hm : hostReaches s s.cfg.stage.toNat burstSize = true)
    (hd : hostCovers s p blockSize = true) (hov : hitsStage s p blockSize = false) :
    Runs (seqBackup s.cfg g p) s fun v => ∃ h',
      Relayed s.cfg.stage.toNat p 32 s.copyOk (fun i => s.fl.mem.read (blockSize * g + i)) s.host h'
        ∧ Done 32 s.fl.mem h' s.report s v := by
  have hb : burstSize = 128 := rfl
  have hbs : blockSize = 4096 := rfl
  have hss : sectorSize = 512 := rfl
  have hmul : ∀ k, sectorSize * k = 512 * k := fun _ => rfl
  have hmul' : ∀ k, burstSize * k = 128 * k := fun _ => rfl
  have hno := not_overlaps hov
  have hsec : ∀ i, sectorAddr (sectorsPerBlock * g + i) = blockSize * g + sectorSize * i := by
    intro i; simp only [sectorAddr, sectorsPerBlock, sectorSize, blockSize]; omega
  refine ((runs_iterations_done (c := 4) (n := 8) (I := fun i m h => m = s.fl.mem ∧
      Relayed s.cfg.stage.toNat p (4 * i) s.copyOk (fun i => s.fl.mem.read (blockSize * g + i)) s.host h)
    (by decide) q ⟨rfl, .zero _ _ _ _ _⟩ fun i hi t hc hx he qt hI => ?_).weaken fun v hv => ?_).append
    (P := fun v => ∃ h', Relayed s.cfg.stage.toNat p 32 s.copyOk (fun i => s.fl.mem.read (blockSize * g + i)) s.host h'
        ∧ Done 32 s.fl.mem h' s.report s v) fun v hv => ?_
  · obtain ⟨hmem, hr⟩ := hI
    have e1 := hmul i
    have e2 := hmul' (4 * i)
    have e3 := hmul' (4 * i + 4)
    have := runs_readSector (sector := sectorsPerBlock * g + i) (dest := p + sectorSize * i) qt
      (by rw [hc]; simp only [sectorFits, decide_eq_true_eq, hsec]; omega)
      (by rw [hostReaches_congr hc, hc]; exact hm)
      (by rw [hostCovers_congr hc]; exact hostCovers_sub hd (by omega) (by omega))
      (by unfold hitsStage; rw [hc]; exact overlaps_of_apart (by omega))
    rw [hc] at this
    refine this.weaken fun v hv => ?_
    obtain ⟨h', hr', hd'⟩ := hv
    have e4 : p + sectorSize * i = p + burstSize * (4 * i) := by omega
    rw [e4] at hr'
    refine ⟨t.fl.mem, h', ⟨hmem, hr.append hr' (fun k => copyOk_of_env he k) (fun j _ => ?_) (by omega)⟩, hd'⟩
    rw [hmem, hsec, show blockSize * g + sectorSize * i + j = blockSize * g + (burstSize * (4 * i) + j) by omega]
  · obtain ⟨m, h, ⟨rfl, hr⟩, hd⟩ := hv
    exact ⟨h, hr, hd⟩
  · obtain ⟨h', hr, hd'⟩ := hv
    exact (hd'.runs_filled .scratch).weaken fun u hu => ⟨h', hr, hu⟩

/-- What the restore has done after `k` chunks (rule R206): they hold the buffer, the rest of the block is erased, and
outside the block nothing changed. -/
structure Restored (erased : Byte) (base : Nat) (buffer : Nat → Byte) (k : Nat) (m m' : Memory) : Prop where
  done    : ∀ i, i < burstSize * k → m'.read (base + i) = buffer i
  rest    : ∀ i, burstSize * k ≤ i → i < blockSize → m'.read (base + i) = erased
  outside : ∀ x, x < base ∨ base + blockSize ≤ x → m'.read x = m.read x
  wf      : m.wf = true → m'.wf = true

/-- The restore (rule R206), from a block that has just been erased. -/
theorem runs_restore {base p : Nat} {m : Memory} {s : State} (q : Rest s) (hp : s.prompt) (halign : base % blockSize = 0)
    (ha : base + blockSize ≤ s.cfg.flashSize) (hd : hostReaches s p blockSize = true)
    (h0 : Restored s.cfg.erasedByte base (fun i => s.host.read (p + i)) 0 m s.fl.mem) :
    Runs (seqRestore s.cfg base p) s fun v => ∃ m',
      Restored s.cfg.erasedByte base (fun i => s.host.read (p + i)) 32 m m' ∧ Done 0 m' s.host s.report s v := by
  have hb : burstSize = 128 := rfl
  have hbs : blockSize = 4096 := rfl
  have hpl : pageLimit = 256 := rfl
  have hmul : ∀ k, burstSize * k = 128 * k := fun _ => rfl
  unfold seqRestore forEach
  refine (runs_iterations_done (c := 0) (n := 32) (I := fun k f h => h = s.host ∧
      Restored s.cfg.erasedByte base (fun i => s.host.read (p + i)) k m f)
    (by decide) q ⟨rfl, h0⟩ fun k hk t hc hx he qt hI => ?_).weaken fun v hv => ?_
  · obtain ⟨hh, hr⟩ := hI
    have hmk := hmul k
    have hmk1 := hmul (k + 1)
    have hpt : t.prompt := by unfold State.prompt at *; rw [he]; exact hp
    have := runs_writeData (a := base + burstSize * k) (p := p + burstSize * k) (n := burstSize)
      (more := decide (k + 1 < chunksPerBlock)) qt hpt (by decide)
      (by
        have h4 : base % 4096 = 0 := halign
        show (base + 128 * k) % 256 + 128 ≤ 256
        omega)
      (by rw [hc]; omega)
      (by rw [hostReaches_congr hc]; exact hostReaches_sub hd (by omega) (by omega))
    rw [hc, hh] at this
    refine this.weaken fun v hv => ?_
    obtain ⟨n, hv⟩ := hv
    rw [programmed_of_erased (fun i hi => by
      have hi : i < burstSize := by simpa using hi
      rw [Nat.add_assoc]; exact hr.rest _ (by omega) (by omega))] at hv
    refine ⟨_, _, ⟨rfl, ⟨fun i hi => ?_, fun i h1 h2 => ?_, fun x hx => ?_, fun hw => Memory.wf_splice (hr.wf hw) _ _⟩⟩, hv⟩
    · rcases Nat.lt_or_ge i (burstSize * k) with hlt | hge
      · rw [Memory.read_splice_outside (by omega)]
        exact hr.done i hlt
      · have hlen : i - burstSize * k < (s.host.readMany (p + burstSize * k) burstSize).length := by simp; omega
        have e := Memory.read_splice_inside (m := t.fl.mem) (a := base + burstSize * k) hlen
        rw [show base + burstSize * k + (i - burstSize * k) = base + i by omega] at e
        rw [e, Memory.getElem_readMany, show p + burstSize * k + (i - burstSize * k) = p + i by omega]
    · rw [Memory.read_splice_outside (by simp; omega)]
      exact hr.rest i (by omega) h2
    · rw [Memory.read_splice_outside (by simp; omega)]
      exact hr.outside x hx
  · obtain ⟨f, h, ⟨rfl, hr⟩, hd⟩ := hv
    exact ⟨f, hr, hd⟩

/-- A sector's 512 flash bytes have been replaced (rules R202, R207). `good k` says whether the `k`-th of the 33 copies
succeeded: the thirty-two of the backup, each of 128 bytes of the block, then that of the new bytes. A byte whose copy
failed is open (rules R204, R250); no byte of another block changes. -/
structure Rewritten (sector : Nat) (good : Nat → Bool) (d : Nat → Byte) (m m' : Memory) : Prop where
  inside  : good 32 = true → ∀ i, i < sectorSize → m'.read (sectorAddr sector + i) = d i
  rest    : ∀ x, x / blockSize = blockOf sector → x < sectorAddr sector ∨ sectorAddr sector + sectorSize ≤ x →
    good (x % blockSize / burstSize) = true → m'.read x = m.read x
  outside : ∀ x, x / blockSize ≠ blockOf sector → m'.read x = m.read x
  wf      : m.wf = true → m'.wf = true

/-- Host memory is as it was but for SCRATCH and STAGE. -/
structure Buffered (stage p : Nat) (h h' : Memory) : Prop where
  outside : ∀ x, x < p ∨ p + blockSize ≤ x → x < stage ∨ stage + burstSize ≤ x → h'.read x = h.read x
  wf      : h.wf = true → h'.wf = true

/-- Erasing block `g` (rule R154). -/
theorem read_eraseBytes (c : Config) (m : Memory) (g x : Nat) :
    (eraseBytes c m g).read x
      = if blockSize * g ≤ x ∧ x < blockSize * g + blockSize then c.erasedByte else m.read x := by
  unfold eraseBytes
  rw [Memory.read_splice]
  simp only [List.length_replicate]
  split <;> simp

/-- WRITE_SECTOR past its checks (rules R202 to R207), whatever its copies do. -/
theorem runs_writeSector {p sector src : Nat} {s : State} (q : Rest s) (hp : s.prompt)
    (ha : sectorFits s.cfg sector = true) (hm : hostReaches s s.cfg.stage.toNat burstSize = true)
    (hd : hostReaches s p blockSize = true) (hsrc : hostCovers s src sectorSize = true)
    (hov : hitsStage s p blockSize = false) (hov1 : hitsStage s src sectorSize = false)
    (hov2 : overlaps src sectorSize p blockSize = false) :
    Runs (seqWriteSector s.cfg p sector src) s fun v => ∃ m' h',
      Rewritten sector s.copyOk (fun i => s.host.read (src + i)) s.fl.mem m' ∧ Buffered s.cfg.stage.toNat p s.host h'
        ∧ Done 33 m' h' s.report s v := by
  have hb : burstSize = 128 := rfl
  have hbs : blockSize = 4096 := rfl
  have hss : sectorSize = 512 := rfl
  have hfl := Config.ok_flash q.ok
  have hfits : 512 * sector + 512 ≤ s.cfg.flashSize := of_decide_eq_true ha
  have hsa : sectorAddr sector = 512 * sector := rfl
  have hblk : blockOf sector = sector / 8 := rfl
  have hbase : blockBase sector = 4096 * (sector / 8) := rfl
  have hoff : sectorOffset sector = 512 * (sector % 8) := rfl
  have hbg : blockSize * blockOf sector = 4096 * (sector / 8) := rfl
  have hin : 4096 * (sector / 8) + 4096 ≤ s.cfg.flashSize := by omega
  have hdiv : blockBase sector / blockSize = blockOf sector := Nat.mul_div_cancel_left _ (by decide)
  have hmod : blockBase sector % blockSize = 0 := Nat.mul_mod_right _ _
  have n1 := not_overlaps hov
  have n2 := not_overlaps hov1
  have n3 := not_overlaps hov2
  have hcopy : hostCovers s (p + sectorOffset sector) sectorSize = true :=
    hostCovers_sub (hostCovers_of_reaches hd) (by omega) (by omega)
  let Merged (h1 : Memory) : Prop :=
    (s.copyOk 32 = true → ∀ i, i < 512 → h1.read (p + sectorOffset sector + i) = s.host.read (src + i))
      ∧ (∀ i, i < 4096 → i < sectorOffset sector ∨ sectorOffset sector + 512 ≤ i → s.copyOk (i / 128) = true →
        h1.read (p + i) = s.fl.mem.read (blockBase sector + i))
      ∧ Buffered s.cfg.stage.toNat p s.host h1
  refine (((runs_backup (g := blockOf sector) q (by omega) hm (hostCovers_of_reaches hd) hov).append
    (Q := fun t => ∃ h1, Merged h1 ∧ Done 33 s.fl.mem h1 s.report s t) fun t ht => ?_).append
    (Q := fun t => ∃ h1, Merged h1 ∧ Done 33 (eraseBytes s.cfg s.fl.mem (blockOf sector)) h1 s.report s t)
    fun t ht => ?_).append fun t ht => ?_
  · obtain ⟨h1, hr, hdone⟩ := ht
    have hr32 : p + burstSize * 32 = p + blockSize := rfl
    refine (runs_copy_any (hdone.rest q) (by rw [hostCovers_congr hdone.cfg]; exact hsrc)
      (by rw [hostCovers_congr hdone.cfg]; exact hcopy) (overlaps_of_apart (by omega))
      (by rw [hdone.chip, hdone.cfg]; exact lockedWp_twice q.ok _)).weaken fun v hv => ?_
    obtain ⟨d, hlen, hgood, hv⟩ := hv
    rw [hdone.host] at hgood hv
    refine ⟨h1.splice (p + sectorOffset sector) d, ⟨fun hg i hi => ?_, fun i hi hi' hg => ?_,
      ⟨fun x h2 h3 => ?_, fun hw => Memory.wf_splice (hr.wf hw) _ _⟩⟩, ?_⟩
    · have e : t.env.copies.headD true = true := by rw [hdone.env]; simpa [State.copyOk] using hg
      have e' := Memory.read_splice_inside (m := h1) (a := p + sectorOffset sector) (d := d) (i := i) (by omega)
      rw [e']
      simp only [hgood e, Memory.getElem_readMany]
      exact hr.outside _ (by omega) (by omega)
    · rw [Memory.read_splice_outside (by omega)]
      have e := hr.inside (i / 128) (by omega) hg (i % 128) (by show _ < 128; omega)
      rw [show burstSize * (i / 128) = 128 * (i / 128) from rfl] at e
      rwa [show p + 128 * (i / 128) + i % 128 = p + i by omega,
        show 128 * (i / 128) + i % 128 = i by omega, hbg, ← hbase] at e
    · rw [Memory.read_splice_outside (by omega)]
      exact hr.outside x (by omega) h3
    · have := hdone.trans q hv
      rw [hdone.mem, hdone.report] at this
      exact this
  · obtain ⟨h1, hr, hdone⟩ := ht
    have hpt : t.prompt := by unfold State.prompt at *; rw [hdone.env]; exact hp
    have := runs_eraseBlock (a := blockBase sector) (mark := [.openBlock (blockOf sector)]) (more := true)
      (by simp [Micro.isQuiet]) (hdone.rest q) hpt (by rw [hdone.cfg]; omega)
    rw [hdone.cfg] at this
    refine this.weaken fun v hv => ⟨h1, hr, ?_⟩
    have := hdone.trans q hv
    rw [hdone.mem, hdone.report, hdone.host, hdiv] at this
    exact this
  · obtain ⟨h1, ⟨hr1, hr2, hbuf⟩, hdone⟩ := ht
    have hpt : t.prompt := by unfold State.prompt at *; rw [hdone.env]; exact hp
    have hrest : Restored t.cfg.erasedByte (blockBase sector) (fun i => t.host.read (p + i)) 0 s.fl.mem t.fl.mem := by
      rw [hdone.mem, hdone.cfg]
      refine ⟨fun i hi => by simp at hi, fun i _ hi => ?_, fun x hx => ?_, fun hw => Memory.wf_splice hw _ _⟩
      · rw [read_eraseBytes, if_pos (by omega)]
      · rw [read_eraseBytes, if_neg (by omega)]
    have := runs_restore (base := blockBase sector) (p := p) (hdone.rest q) hpt hmod (by rw [hdone.cfg]; omega)
      (by rw [hostReaches_congr hdone.cfg]; exact hd) hrest
    rw [hdone.cfg, hdone.host] at this
    refine this.weaken fun v hv => ?_
    obtain ⟨m', hrm, hd2⟩ := hv
    refine ⟨m', h1, ⟨fun hg i hi => ?_, fun x hx hx' hg => ?_, fun x hx => ?_, hrm.wf⟩, hbuf, ?_⟩
    · have e := hrm.done (sectorOffset sector + i) (by show _ < 128 * 32; omega)
      rw [show blockBase sector + (sectorOffset sector + i) = sectorAddr sector + i by omega] at e
      rw [e, ← Nat.add_assoc, hr1 hg i (by omega)]
    · rw [hbs, hblk] at hx
      rw [hbs, hb] at hg
      have e := hrm.done (x % 4096) (by show _ < 128 * 32; omega)
      rw [show blockBase sector + x % 4096 = x by omega] at e
      rw [e, hr2 _ (by omega) (by omega) hg, show blockBase sector + x % 4096 = x by omega]
    · rw [hbs, hblk] at hx
      exact hrm.outside x (by omega)
    · have := hdone.trans q hd2
      rw [hdone.report] at this
      exact this

end Sys2Proof.Machine
end

