-- ==== Sys2Proof/Laws/Drive.lean ====
section
/-! SUPPORT. The loops of DISK_READ and DISK_WRITE, SHIFT and FLASH_INT prompt, whatever the copies do (rules R224, R225,
R250), and the sector map (rules R221, R234). -/

namespace Sys2Proof.Machine

/-! ## The map -/

/-- The formula of rule R221 never answers the reserved slot of a block. -/
theorem skipMap_mod {r : Nat} (hr : r < 8) (a : Nat) : skipMap r a % 8 ≠ r := by
  unfold skipMap
  split <;> omega

/-- It is strictly increasing (rule R234). -/
theorem skipMap_lt {r a b : Nat} (h : a < b) : skipMap r a < skipMap r b := by
  unfold skipMap
  rcases Nat.lt_or_ge (a / 7) (b / 7) with hq | hq
  · split <;> split <;> omega
  · have : a / 7 = b / 7 := by omega
    split <;> split <;> omega

/-- `Config.formulaSource` undoes it (rule R234). -/
theorem formulaSource_skipMap {r : Nat} (a : Nat) : Config.formulaSource r (skipMap r a) = a := by
  unfold Config.formulaSource skipMap
  split <;> split <;> omega

theorem Config.ok_map {c : Config} (h : c.ok = true) : c.reservedSlot < 8 ∧ c.mapOk = true := by
  simp only [Config.ok, Bool.and_eq_true, decide_eq_true_eq] at h
  tauto

theorem Config.mapOk_fields {c : Config} (h : c.mapOk = true) :
    (c.mapTable.map Prod.snd).Nodup ∧ ∀ e ∈ c.mapTable, e.2 % 8 ≠ c.reservedSlot
      ∧ (15104 ≤ Config.formulaSource c.reservedSlot e.2
        ∨ Config.formulaSource c.reservedSlot e.2 ∈ c.mapTable.map Prod.fst) := by
  simp only [Config.mapOk, Bool.and_eq_true, decide_eq_true_eq, List.all_eq_true, Bool.or_eq_true, bne_iff_ne, ne_eq,
    List.contains_iff_mem] at h
  exact ⟨h.1.2, fun e he => ⟨(h.2 e he).1.2, (h.2 e he).2⟩⟩

theorem lookup_mem {l : List (Nat × Nat)} {a v : Nat} (h : l.lookup a = some v) : (a, v) ∈ l := by
  induction l with
  | nil => cases h
  | cons e l ih =>
    obtain ⟨k, w⟩ := e
    rw [List.lookup_cons] at h
    split at h
    · rename_i hk
      cases h
      have : a = k := by simpa using hk
      subst this
      exact List.mem_cons_self
    · exact List.mem_cons_of_mem _ (ih h)

/-- What the map answers: an exception of the table, or the formula where the table has none. -/
theorem lba2slba_cases (c : Config) (a : Nat) :
    (a, lba2slba c a) ∈ c.mapTable ∨ (a ∉ c.mapTable.map Prod.fst ∧ lba2slba c a = skipMap c.reservedSlot a) := by
  unfold lba2slba
  cases h : c.mapTable.lookup a with
  | some v => exact .inl (lookup_mem h)
  | none =>
    refine .inr ⟨fun hm => ?_, rfl⟩
    obtain ⟨⟨k, v⟩, he, rfl⟩ := List.mem_map.1 hm
    rw [List.lookup_eq_none_iff] at h
    simpa using h _ he

/-- No logical sector is sent to a reserved one, whatever the map's exceptions (rule R234). -/
theorem lba2slba_mod {c : Config} (h : c.ok = true) (a : Nat) : lba2slba c a % 8 ≠ c.reservedSlot := by
  obtain ⟨hr, hm⟩ := Config.ok_map h
  rcases lba2slba_cases c a with hc | ⟨_, hc⟩
  · exact ((Config.mapOk_fields hm).2 _ hc).1
  · rw [hc]; exact skipMap_mod hr a

/-- No two logical sectors are sent to the same one (rule R234). -/
theorem lba2slba_inj {c : Config} (h : c.ok = true) {a b : Nat} (ha : a < diskSectors) (hb : b < diskSectors)
    (hab : a ≠ b) : lba2slba c a ≠ lba2slba c b := by
  have hm := Config.mapOk_fields (Config.ok_map h).2
  have mixed : ∀ {x y : Nat}, y < diskSectors → (x, lba2slba c x) ∈ c.mapTable → y ∉ c.mapTable.map Prod.fst →
      lba2slba c y = skipMap c.reservedSlot y → lba2slba c x ≠ lba2slba c y := by
    intro x y hy h1 h2 h3 e
    have := (hm.2 _ h1).2
    simp only [e, h3, formulaSource_skipMap] at this
    rcases this with h4 | h4
    · exact absurd hy (Nat.not_lt.2 h4)
    · exact h2 h4
  rcases lba2slba_cases c a with h1 | ⟨h1, e1⟩ <;> rcases lba2slba_cases c b with h2 | ⟨h2, e2⟩
  · intro e
    have := List.inj_on_of_nodup_map hm.1 h1 h2 e
    exact hab (congrArg Prod.fst this)
  · exact mixed hb h1 h2 e2
  · exact fun e => mixed ha h2 h1 e1 e.symm
  · rw [e1, e2]
    rcases Nat.lt_or_ge a b with hlt | hge
    · exact Nat.ne_of_lt (skipMap_lt hlt)
    · exact Nat.ne_of_gt (skipMap_lt (by omega))

/-! ## What every sector's operation asks first -/

theorem hitsScratch_sub {s : State} {a n b m : Nat} (h : hitsScratch s a n = false) (h1 : a ≤ b) (h2 : b + m ≤ a + n) :
    hitsScratch s b m = false := by
  unfold hitsScratch at h ⊢
  split at h
  · have := not_overlaps h
    exact overlaps_of_apart (by omega)
  · rfl

theorem hitsStage_sub {s : State} {a n b m : Nat} (h : hitsStage s a n = false) (h1 : a ≤ b) (h2 : b + m ≤ a + n) :
    hitsStage s b m = false := by
  have := not_overlaps h
  exact overlaps_of_apart (by omega)

theorem Rest.need {s : State} (q : Rest s) : needRefusal .engine s = none := by
  simp [needRefusal, readyAnd, q.ready, q.quiet, q.ports, portRefusal]

/-- Checks that hold cost nothing but the program counter. -/
theorem runs_checks {l : List Micro} (h : ∀ m ∈ l, ∃ r, m = .check true r) (s : State) : Runs l s (Quiet s) := by
  induction l generalizing s with
  | nil => exact Runs.nil (.refl s)
  | cons m l ih =>
    obtain ⟨r, rfl⟩ := h m (by simp)
    exact Runs.cons (t := s) rfl ((ih (fun m hm => h m (by simp [hm])) (s.advance _)).weaken fun u hu =>
      ((Quiet.refl s).advance _).trans hu)

theorem runs_needEngine {s : State} (q : Rest s) : Runs [.need .engine] s (Quiet s) :=
  (runs_need q.need).weaken fun t ht => by subst ht; exact (Quiet.refl s).advance _

/-! ## DISK_READ -/

/-- The flash byte a logical range's byte `i` lies at. -/
def rangeByte (c : Config) (lba i : Nat) : Nat := sectorAddr (lba2slba c (lba + i / sectorSize)) + i % sectorSize

/-- The loop of DISK_READ, or its first iterations (rule R224). -/
theorem runs_readRange {more : Nat → Bool} {lba buf n : Nat} {s t : State} (hn : 1 ≤ n) (q : Rest t) (hc : t.cfg = s.cfg)
    (hfit : ∀ i, i < n → sectorFits s.cfg (lba2slba s.cfg (lba + i)) = true)
    (hm : hostReaches s s.cfg.stage.toNat burstSize = true) (hd : hostCovers s buf (sectorSize * n) = true)
    (hend : pastHostEnd buf (sectorSize * n) = false)
    (hov : hitsStage s buf (sectorSize * n) = false) (hov2 : hitsScratch s buf (sectorSize * n) = false) :
    Runs (iterations more n fun i => readOne s (lba2slba s.cfg (lba + i)) (buf + sectorSize * i)) t
      fun v => ∃ h', Relayed s.cfg.stage.toNat buf (4 * n) t.copyOk (fun i => t.fl.mem.read (rangeByte s.cfg lba i))
        t.host h' ∧ Done (4 * n) t.fl.mem h' t.report t v := by
  have hss : sectorSize = 512 := rfl
  have hb : burstSize = 128 := rfl
  have hmul : ∀ k, sectorSize * k = 512 * k := fun _ => rfl
  have hmul' : ∀ k, burstSize * k = 128 * k := fun _ => rfl
  have hmn := hmul n
  have hno := not_overlaps hov
  have hend : buf + sectorSize * n ≤ 2 ^ 32 := by simpa [pastHostEnd] using hend
  refine (runs_iterations_done (c := 4) (I := fun i m h => m = t.fl.mem ∧
      Relayed s.cfg.stage.toNat buf (4 * i) t.copyOk (fun i => t.fl.mem.read (rangeByte s.cfg lba i)) t.host h)
    hn q ⟨rfl, .zero _ _ _ _ _⟩ fun i hi u hcu hx he qu hI => ?_).weaken fun v hv => ?_
  · obtain ⟨hmem, hr⟩ := hI
    have e1 := hmul i
    have e2 := hmul' (4 * i)
    have e3 := hmul' (4 * i + 4)
    have hcc : u.cfg = s.cfg := hcu.trans hc
    have c1 : pastHostEnd (buf + sectorSize * i) sectorSize = false := by
      simp only [pastHostEnd, decide_eq_false_iff_not]; omega
    have c2 : hitsStage s (buf + sectorSize * i) sectorSize = false := hitsStage_sub hov (by omega) (by omega)
    have c3 : hitsScratch s (buf + sectorSize * i) sectorSize = false := hitsScratch_sub hov2 (by omega) (by omega)
    have e : readOne s (lba2slba s.cfg (lba + i)) (buf + sectorSize * i) = [.need .engine]
        ++ ([.check (sectorFits s.cfg (lba2slba s.cfg (lba + i))) .flashRange] ++ bufferChecks s (buf + sectorSize * i))
        ++ seqReadSector s.cfg (lba2slba s.cfg (lba + i)) (buf + sectorSize * i) := by
      simp [readOne, checkedReadSector]
    rw [e]
    refine ((runs_needEngine qu).append (Q := Quiet u) fun x hx => (runs_checks ?_ x).weaken fun y hy => hx.trans hy).append
      fun w hq => ?_
    · simp [bufferChecks, hfit i hi, c1, c2, c3]
    have ew := hq
    unfold Quiet at ew
    have hcw : w.cfg = s.cfg := by rw [ew]; exact hcc
    have hfw : w.fl = u.fl := by rw [ew]; rfl
    have hhw : w.host = u.host := by rw [ew]; rfl
    have hrw : w.report = u.report := by rw [ew]; rfl
    have hew : w.env = u.env := by rw [ew]; rfl
    have := runs_readSector (sector := lba2slba s.cfg (lba + i)) (dest := buf + sectorSize * i) (qu.of_quiet hq)
      (by rw [hcw]; exact hfit i hi)
      (by rw [hostReaches_congr hcw, hcw]; exact hm)
      (by rw [hostCovers_congr hcw]; exact hostCovers_sub hd (by omega) (by omega))
      (by unfold hitsStage; rw [hcw]; exact c2)
    rw [hcw] at this
    refine this.weaken fun v hv => ?_
    obtain ⟨h', hr', hd'⟩ := hv
    have e4 : buf + sectorSize * i = buf + burstSize * (4 * i) := by omega
    rw [e4, hhw] at hr'
    rw [hrw] at hd'
    refine ⟨w.fl.mem, h', ⟨by rw [hfw]; exact hmem, hr.append hr' (fun k => ?_) (fun j hj => ?_) (by omega)⟩, hd'.before hq⟩
    · exact copyOk_of_env (hew.trans he) k
    · have hj : j < 512 := hj
      unfold rangeByte
      rw [hfw, hmem, show (burstSize * (4 * i) + j) / sectorSize = i by rw [hss]; omega,
        show (burstSize * (4 * i) + j) % sectorSize = j by rw [hss]; omega]
  · obtain ⟨m, h, ⟨rfl, hr⟩, hd⟩ := hv
    exact ⟨h, hr, hd⟩

/-! ## DISK_WRITE -/

/-- The `k`-th WRITE_SECTOR of a DISK_WRITE keeps the byte at `x`, if that lies in its block at all: the copy that backs
it up succeeds (rules R203, R204). -/
def Kept (sector : Nat → Nat) (good : Nat → Bool) (k x : Nat) : Prop :=
  x / blockSize = blockOf (sector k) → good (33 * k + x % blockSize / burstSize) = true

/-- `n` sectors have been rewritten, the `i`-th with the bytes `d i`; a byte changes otherwise only where a copy failed. -/
structure RewrittenAll (sector : Nat → Nat) (n : Nat) (good : Nat → Bool) (d : Nat → Nat → Byte) (m m' : Memory) :
    Prop where
  inside  : ∀ i, i < n → good (33 * i + 32) = true → ∀ j, j < sectorSize →
    (∀ k, i < k → k < n → Kept sector good k (sectorAddr (sector i) + j)) → m'.read (sectorAddr (sector i) + j) = d i j
  outside : ∀ x, (∀ i, i < n → x < sectorAddr (sector i) ∨ sectorAddr (sector i) + sectorSize ≤ x) →
    (∀ k, k < n → Kept sector good k x) → m'.read x = m.read x
  wf      : m.wf = true → m'.wf = true

theorem Rewritten.kept {sector x : Nat} {good : Nat → Bool} {d : Nat → Byte} {m m' : Memory}
    (k : Rewritten sector good d m m') (h : x < sectorAddr sector ∨ sectorAddr sector + sectorSize ≤ x)
    (hk : x / blockSize = blockOf sector → good (x % blockSize / burstSize) = true) : m'.read x = m.read x := by
  by_cases hb : x / blockSize = blockOf sector
  · exact k.rest x hb h (hk hb)
  · exact k.outside x hb

theorem RewrittenAll.succ {sector : Nat → Nat} {n : Nat} {good good' : Nat → Bool} {d : Nat → Nat → Byte}
    {e : Nat → Byte} {m m' m'' : Memory} (h : RewrittenAll sector n good d m m')
    (k : Rewritten (sector n) good' e m' m'') (hgood : ∀ j, good' j = good (33 * n + j))
    (hd : ∀ j, j < sectorSize → e j = d n j) (hinj : ∀ i, i < n → sector i ≠ sector n) :
    RewrittenAll sector (n + 1) good d m m'' := by
  have hsa : ∀ a, sectorAddr a = 512 * a := fun _ => rfl
  have hss : sectorSize = 512 := rfl
  refine ⟨fun i hi hg j hj hk => ?_, fun x hx hk => ?_, fun hw => k.wf (h.wf hw)⟩
  · rcases Nat.lt_or_ge i n with hlt | hge
    · have h1 := hsa (sector i)
      have h2 := hsa (sector n)
      have h3 := hinj i hlt
      rw [k.kept (by omega) fun hb => by rw [hgood]; exact hk n hlt (Nat.lt_succ_self n) hb]
      exact h.inside i hlt hg j hj fun l hl hl' => hk l hl (by omega)
    · have : i = n := by omega
      subst this
      rw [← hd j hj]
      exact k.inside (by rw [hgood]; exact hg) j hj
  · rw [k.kept (hx n (by omega)) fun hb => by rw [hgood]; exact hk n (Nat.lt_succ_self n) hb]
    exact h.outside x (fun i hi => hx i (by omega)) fun l hl => hk l (by omega)

/-- The loop of DISK_WRITE, or its first iterations (rule R225), the scratch buffer at `p`. -/
theorem runs_writeRange {more : Nat → Bool} {lba buf n : Nat} {p : HostAddr} {s t : State} (hn : 1 ≤ n) (q : Rest t) (hp : t.prompt)
    (hc : t.cfg = s.cfg) (hscr : s.ctx.scratch = some p) (hlba : lba + n ≤ diskSectors)
    (hfit : ∀ i, i < n → sectorFits s.cfg (lba2slba s.cfg (lba + i)) = true)
    (hm : hostReaches s s.cfg.stage.toNat burstSize = true) (hpc : hostReaches s p.toNat blockSize = true)
    (hpo : hitsStage s p.toNat blockSize = false)
    (hd : hostCovers s buf (sectorSize * n) = true) (hend : pastHostEnd buf (sectorSize * n) = false)
    (hov : hitsStage s buf (sectorSize * n) = false) (hov2 : hitsScratch s buf (sectorSize * n) = false) :
    Runs (iterations more n fun i => writeOne s (lba2slba s.cfg (lba + i)) (buf + sectorSize * i)) t
      fun v => ∃ m' h', RewrittenAll (fun i => lba2slba s.cfg (lba + i)) n t.copyOk
          (fun i j => t.host.read (buf + sectorSize * i + j)) t.fl.mem m'
        ∧ Buffered s.cfg.stage.toNat p.toNat t.host h' ∧ Done (33 * n) m' h' t.report t v := by
  have hss : sectorSize = 512 := rfl
  have hb : burstSize = 128 := rfl
  have hmul : ∀ k, sectorSize * k = 512 * k := fun _ => rfl
  have hmn := hmul n
  have hno := not_overlaps hov
  have hov2' : overlaps buf (sectorSize * n) p.toNat blockSize = false := by
    simpa only [hitsScratch, hscr] using hov2
  have hno2 := not_overlaps hov2'
  have hend : buf + sectorSize * n ≤ 2 ^ 32 := by simpa [pastHostEnd] using hend
  have hsa : scratchAddr s = p.toNat := by simp [scratchAddr, hscr]
  have hinj : ∀ i j, i < j → j < n → lba2slba s.cfg (lba + i) ≠ lba2slba s.cfg (lba + j) := fun i j h1 h2 =>
    lba2slba_inj (by rw [← hc]; exact q.ok) (by omega) (by omega) (by omega)
  have zero : RewrittenAll (fun i => lba2slba s.cfg (lba + i)) 0 t.copyOk
      (fun i j => t.host.read (buf + sectorSize * i + j)) t.fl.mem t.fl.mem :=
    ⟨fun i hi => absurd hi (Nat.not_lt_zero i), fun _ _ _ => rfl, id⟩
  refine (runs_iterations_done (c := 33) (I := fun i m h =>
      RewrittenAll (fun i => lba2slba s.cfg (lba + i)) i t.copyOk
          (fun i j => t.host.read (buf + sectorSize * i + j)) t.fl.mem m
        ∧ Buffered s.cfg.stage.toNat p.toNat t.host h)
    hn q ⟨zero, fun _ _ _ => rfl, id⟩ fun i hi u hcu hx he qu hI => ?_).weaken fun v hv => ?_
  · obtain ⟨hr, hbuf⟩ := hI
    have e1 := hmul i
    have hcc : u.cfg = s.cfg := hcu.trans hc
    have hpu : u.prompt := by unfold State.prompt at *; rw [he]; exact hp
    have c1 : pastHostEnd (buf + sectorSize * i) sectorSize = false := by
      simp only [pastHostEnd, decide_eq_false_iff_not]; omega
    have c2 : hitsStage s (buf + sectorSize * i) sectorSize = false := hitsStage_sub hov (by omega) (by omega)
    have c3 : hitsScratch s (buf + sectorSize * i) sectorSize = false := hitsScratch_sub hov2 (by omega) (by omega)
    have c4 : s.ctx.scratch.isSome = true := by simp [hscr]
    have e : writeOne s (lba2slba s.cfg (lba + i)) (buf + sectorSize * i) = [.need .engine]
        ++ ([.check (sectorFits s.cfg (lba2slba s.cfg (lba + i))) .flashRange, .check s.ctx.scratch.isSome .noScratch]
          ++ bufferChecks s (buf + sectorSize * i))
        ++ seqWriteSector s.cfg p.toNat (lba2slba s.cfg (lba + i)) (buf + sectorSize * i) := by
      simp [writeOne, checkedWriteSector, hsa]
    rw [e]
    refine ((runs_needEngine qu).append (Q := Quiet u) fun x hx => (runs_checks ?_ x).weaken fun y hy => hx.trans hy).append
      fun w hq => ?_
    · simp [bufferChecks, hfit i hi, c1, c2, c3, c4]
    have ew := hq
    unfold Quiet at ew
    have hcw : w.cfg = s.cfg := by rw [ew]; exact hcc
    have hfw : w.fl = u.fl := by rw [ew]; rfl
    have hhw : w.host = u.host := by rw [ew]; rfl
    have hrw : w.report = u.report := by rw [ew]; rfl
    have hew : w.env = u.env := by rw [ew]; rfl
    have := runs_writeSector (p := p.toNat) (sector := lba2slba s.cfg (lba + i)) (src := buf + sectorSize * i)
      (qu.of_quiet hq) (by unfold State.prompt at *; rw [hew]; exact hpu)
      (by rw [hcw]; exact hfit i hi)
      (by rw [hostReaches_congr hcw, hcw]; exact hm)
      (by rw [hostReaches_congr hcw]; exact hpc)
      (by rw [hostCovers_congr hcw]; exact hostCovers_sub hd (by omega) (by omega))
      (by unfold hitsStage; rw [hcw]; exact hpo)
      (by unfold hitsStage; rw [hcw]; exact c2)
      (overlaps_of_apart (by omega))
    rw [hcw, hfw, hhw, hrw] at this
    refine this.weaken fun v hv => ?_
    obtain ⟨m', h', hr', hbuf', hd'⟩ := hv
    refine ⟨m', h', ⟨hr.succ hr' (fun j => copyOk_of_env (hew.trans he) j) (fun j hj => ?_)
      (fun j hj => hinj j i hj hi), fun x h1 h2 => ?_, fun hw => hbuf'.wf (hbuf.wf hw)⟩, hd'.before hq⟩
    · exact hbuf.outside _ (by omega) (by omega)
    · rw [hbuf'.outside x h1 h2, hbuf.outside x h1 h2]
  · obtain ⟨m, h, ⟨hr, hbuf⟩, hd⟩ := hv
    exact ⟨m, h, hr, hbuf, hd⟩

end Sys2Proof.Machine
end

