-- ==== Sys2Proof/Laws/Keep.lean ====
section
/-! SUPPORT. What a turn of the other agents leaves alone, and what every action of SEQ leaves alone: the parameters,
CFG_SPIBASE, HOST's queue, FL.MEM, and but for the two actions rule R261 names CTX.mode. -/

namespace Sys2Proof.Machine

/-! ## SHIFT and FLASH_INT -/

/-- What SHIFT and FLASH_INT never touch. -/
structure TurnFrame (s t : State) : Prop where
  cfg    : t.cfg = s.cfg
  chip   : t.chip = s.chip
  ctx    : t.ctx = s.ctx
  host   : t.host = s.host
  filled : t.filled = s.filled
  op     : t.op = s.op
  drive  : t.drive = s.drive
  seq    : t.seq = s.seq
  report : t.report = s.report
  trace  : t.trace = s.trace
  inputs : t.env.inputs = s.env.inputs
  after  : t.env.after = s.env.after

theorem TurnFrame.refl (s : State) : TurnFrame s s := ⟨rfl, rfl, rfl, rfl, rfl, rfl, rfl, rfl, rfl, rfl, rfl, rfl⟩

theorem TurnFrame.trans {s t u : State} (a : TurnFrame s t) (b : TurnFrame t u) : TurnFrame s u :=
  ⟨b.cfg.trans a.cfg, b.chip.trans a.chip, b.ctx.trans a.ctx, b.host.trans a.host, b.filled.trans a.filled,
    b.op.trans a.op, b.drive.trans a.drive, b.seq.trans a.seq, b.report.trans a.report, b.trace.trans a.trace,
    b.inputs.trans a.inputs, b.after.trans a.after⟩

/-- Neither does SHIFT touch the content of the array or what is under way in it. -/
structure ShiftFrame (s t : State) : Prop where
  frame   : TurnFrame s t
  mem     : t.fl.mem = s.fl.mem
  pending : t.fl.pending = s.fl.pending
  env     : t.env = s.env

theorem ShiftFrame.refl (s : State) : ShiftFrame s s := ⟨.refl s, rfl, rfl, rfl⟩

theorem ShiftFrame.trans {s t u : State} (a : ShiftFrame s t) (b : ShiftFrame t u) : ShiftFrame s u :=
  ⟨a.frame.trans b.frame, b.mem.trans a.mem, b.pending.trans a.pending, b.env.trans a.env⟩

theorem takeDeviceByte_frame (s : State) : ShiftFrame s (takeDeviceByte s) := by
  unfold takeDeviceByte
  split
  · exact ⟨⟨rfl, rfl, rfl, rfl, rfl, rfl, rfl, rfl, rfl, rfl, rfl, rfl⟩, (Flash.afterByteOut_keeps _ _).1,
      (Flash.afterByteOut_keeps _ _).2.1, rfl⟩
  · exact .refl s

theorem shiftStep_frame {s t : State} (h : shiftStep s = .ok t) : ShiftFrame s t := by
  unfold shiftStep at h
  split at h
  · cases h
    exact (takeDeviceByte_frame s).trans
      ⟨⟨rfl, rfl, rfl, rfl, rfl, rfl, rfl, rfl, rfl, rfl, rfl, rfl⟩, rfl, rfl, rfl⟩
  split at h
  · cases h; exact ⟨⟨rfl, rfl, rfl, rfl, rfl, rfl, rfl, rfl, rfl, rfl, rfl, rfl⟩, rfl, rfl, rfl⟩
  split at h
  · unfold byteDone at h
    split at h
    · split at h
      · cases h
        rename_i hf
        have := Flash.receive_keeps hf
        exact ⟨⟨rfl, rfl, rfl, rfl, rfl, rfl, rfl, rfl, rfl, rfl, rfl, rfl⟩, this.1, this.2.1, rfl⟩
      · cases h
    · cases h; exact ⟨⟨rfl, rfl, rfl, rfl, rfl, rfl, rfl, rfl, rfl, rfl, rfl, rfl⟩, rfl, rfl, rfl⟩
  · cases h; exact ⟨⟨rfl, rfl, rfl, rfl, rfl, rfl, rfl, rfl, rfl, rfl, rfl, rfl⟩, rfl, rfl, rfl⟩

theorem shiftRun_frame {n : Nat} {s t : State} (h : shiftRun n s = .ok t) : ShiftFrame s t := by
  induction n generalizing s with
  | zero => cases h; exact .refl _
  | succ n ih =>
    unfold shiftRun at h
    split at h
    · split at h
      · rename_i u hu
        exact (shiftStep_frame hu).trans (ih h)
      · cases h
    · cases h; exact .refl _

/-- A turn is SHIFT's steps, then, where the turn says so, FLASH_INT's. -/
theorem takeTurn_cases {s t : State} (h : takeTurn s = .ok t) :
    ∃ u, shiftRun (s.env.turns.headD s.env.after).shiftSteps (s.withEnv { s.env with turns := s.env.turns.tail }) = .ok u
      ∧ if (s.env.turns.headD s.env.after).flashInt then flashInt u = .ok t else u = t := by
  unfold takeTurn at h
  split at h
  · rename_i u hu
    refine ⟨u, hu, ?_⟩
    split at h
    · rename_i hf; rw [if_pos hf]; exact h
    · rename_i hf; rw [if_neg hf]; cases h; rfl
  · cases h

theorem flashInt_frame {s t : State} (h : flashInt s = .ok t) : TurnFrame s t := by
  unfold flashInt State.withDevice at h
  split at h
  · cases h; exact ⟨rfl, rfl, rfl, rfl, rfl, rfl, rfl, rfl, rfl, rfl, rfl, rfl⟩
  · cases h

theorem takeTurn_frame {s t : State} (h : takeTurn s = .ok t) : TurnFrame s t := by
  obtain ⟨u, hu, ht⟩ := takeTurn_cases h
  have k : TurnFrame s u := TurnFrame.trans (t := s.withEnv { s.env with turns := s.env.turns.tail })
    ⟨rfl, rfl, rfl, rfl, rfl, rfl, rfl, rfl, rfl, rfl, rfl, rfl⟩ (shiftRun_frame hu).frame
  split at ht
  · exact k.trans (flashInt_frame ht)
  · subst ht; exact k

/-- It uses up one of the turns written down. -/
theorem takeTurn_env {s t : State} (h : takeTurn s = .ok t) :
    t.env = { s.env with turns := s.env.turns.tail } := by
  obtain ⟨u, hu, ht⟩ := takeTurn_cases h
  have k : u.env = { s.env with turns := s.env.turns.tail } := (shiftRun_frame hu).env
  split at ht
  · unfold flashInt State.withDevice at ht
    split at ht
    · cases ht; exact k
    · cases ht
  · subst ht; exact k

/-! ## The actions of SEQ -/

/-- Every state an outcome has is related so. -/
def Res.All (r : Res) (P : State → Prop) : Prop := ∀ t, r = .go t ∨ r = .hold t ∨ r = .stop t → P t

theorem Res.all_go {s : State} {P : State → Prop} (h : P s) : (Res.go s).All P := by
  rintro t (e | e | e) <;> cases e; exact h

theorem Res.all_hold {s : State} {P : State → Prop} (h : P s) : (Res.hold s).All P := by
  rintro t (e | e | e) <;> cases e; exact h

theorem Res.all_stop {s : State} {P : State → Prop} (h : P s) : (Res.stop s).All P := by
  rintro t (e | e | e) <;> cases e; exact h

theorem Res.all_refuse {r : Refusal} {P : State → Prop} : (Res.refuse r).All P := by
  rintro t (e | e | e) <;> cases e

theorem guardBy_all {w : Option Refusal} {r : Res} {P : State → Prop} (h : w = none → r.All P) : (guardBy w r).All P := by
  cases w with
  | none => exact h rfl
  | some x => exact Res.all_refuse

/-- The three actions that only SETUP has. -/
def Micro.ofSetup : Micro → Bool
  | .readBase => true
  | .alloc => true
  | .registerBoot => true
  | _ => false

/-- The two actions that say which block is in hand. -/
def Micro.marks : Micro → Bool
  | .openBlock _ => true
  | .closeBlock => true
  | _ => false

/-- What an action of SEQ leaves alone. -/
structure MicroFrame (m : Micro) (s t : State) : Prop where
  cfg     : t.cfg = s.cfg
  spiBase : t.chip.spiBase = s.chip.spiBase
  inputs  : t.env.inputs = s.env.inputs
  after   : t.env.after = s.env.after
  seqOp   : t.seq.op = s.seq.op
  mode    : t.ctx.mode = s.ctx.mode ∨ (m = .control true ∧ t.ctx.mode = .isWritable)
    ∨ (m = .writeWp false ∧ t.ctx.mode = .isProtected)
  setup   : m.ofSetup = false →
    t.ctx.base = s.ctx.base ∧ t.ctx.scratch = s.ctx.scratch ∧ t.ctx.ready = s.ctx.ready ∧ t.drive = s.drive
  block   : m.marks = false → t.seq.openBlock = s.seq.openBlock

theorem MicroFrame.of_same {m : Micro} {s t : State} (h1 : t.cfg = s.cfg) (h2 : t.chip = s.chip)
    (h3 : t.env.inputs = s.env.inputs) (h4 : t.env.after = s.env.after) (h5 : t.seq.op = s.seq.op) (h6 : t.ctx = s.ctx)
    (h7 : t.drive = s.drive) (h8 : m.marks = false → t.seq.openBlock = s.seq.openBlock) : MicroFrame m s t :=
  ⟨h1, by rw [h2], h3, h4, h5, .inl (by rw [h6]), fun _ => by rw [h6, h7]; exact ⟨rfl, rfl, rfl, rfl⟩, h8⟩

theorem Flash.deselect_mem (c : Config) (f : Flash) : (f.deselect c).mem = f.mem := by
  unfold Flash.deselect Flash.frameEffect
  repeat' split
  all_goals rfl

/-- Every action keeps it, and FL.MEM with it (rules R8, R29, R34, R261). -/
theorem act_frame (m : Micro) (s : State) : (act m s).All fun t => MicroFrame m s t ∧ t.fl.mem = s.fl.mem := by
  have key : ∀ t : State, t.cfg = s.cfg → t.chip = s.chip → t.env.inputs = s.env.inputs → t.env.after = s.env.after →
      t.seq.op = s.seq.op → t.ctx = s.ctx → t.drive = s.drive → t.fl.mem = s.fl.mem →
      (m.marks = false → t.seq.openBlock = s.seq.openBlock) → MicroFrame m s t ∧ t.fl.mem = s.fl.mem :=
    fun t h1 h2 h3 h4 h5 h6 h7 h8 h9 => ⟨.of_same h1 h2 h3 h4 h5 h6 h7 h9, h8⟩
  cases m with
  | need n => exact guardBy_all fun _ => Res.all_go (key s rfl rfl rfl rfl rfl rfl rfl rfl fun _ => rfl)
  | check b r =>
    unfold act; dsimp only
    split
    · exact Res.all_go (key s rfl rfl rfl rfl rfl rfl rfl rfl fun _ => rfl)
    · exact Res.all_refuse
  | csEn =>
    refine guardBy_all fun _ => ?_
    by_cases hph : s.fl.phase = .idle
    · simp only [Flash.select, hph, if_true, State.withDevice]
      exact Res.all_go (key _ rfl rfl rfl rfl rfl rfl rfl rfl fun _ => rfl)
    · simp only [Flash.select, hph, if_false, State.withDevice]
      exact Res.all_refuse
  | csDis => exact guardBy_all fun _ => Res.all_go (key _ rfl rfl rfl rfl rfl rfl rfl (Flash.deselect_mem _ _) fun _ => rfl)
  | out b =>
    unfold act actOut; dsimp only
    split
    · exact guardBy_all fun _ => Res.all_go (key _ rfl rfl rfl rfl rfl rfl rfl rfl fun _ => rfl)
    · exact Res.all_refuse
  | pollTx =>
    unfold act actPollTx; dsimp only
    split
    · exact Res.all_go (key _ rfl rfl rfl rfl rfl rfl rfl rfl fun _ => rfl)
    · exact Res.all_hold (key _ rfl rfl rfl rfl rfl rfl rfl rfl fun _ => rfl)
  | strobe => exact guardBy_all fun _ => Res.all_go (key _ rfl rfl rfl rfl rfl rfl rfl rfl fun _ => rfl)
  | pollRx =>
    unfold act actPollRx; dsimp only
    split
    · exact Res.all_go (key _ rfl rfl rfl rfl rfl rfl rfl rfl fun _ => rfl)
    · exact Res.all_hold (key _ rfl rfl rfl rfl rfl rfl rfl rfl fun _ => rfl)
  | inp d =>
    unfold act actIn
    cases d with
    | caller => exact Res.all_go (key _ rfl rfl rfl rfl rfl rfl rfl rfl fun _ => rfl)
    | stage i => exact guardBy_all fun _ => Res.all_go (key _ rfl rfl rfl rfl rfl rfl rfl rfl fun _ => rfl)
    | status => exact Res.all_go (key _ rfl rfl rfl rfl rfl rfl rfl rfl fun _ => rfl)
  | readPort p =>
    refine guardBy_all fun _ => ?_
    cases p <;> exact Res.all_go (key _ rfl rfl rfl rfl rfl rfl rfl rfl fun _ => rfl)
  | untilIdle =>
    unfold act actUntilIdle; dsimp only
    split
    · exact Res.all_hold (key _ rfl rfl rfl rfl rfl rfl rfl rfl fun _ => rfl)
    · exact Res.all_go (key _ rfl rfl rfl rfl rfl rfl rfl rfl fun _ => rfl)
  | readWp => exact Res.all_go (key _ rfl rfl rfl rfl rfl rfl rfl rfl fun _ => rfl)
  | writeWp u =>
    cases u
    · exact Res.all_go ⟨⟨rfl, rfl, rfl, rfl, rfl, .inr (.inr ⟨rfl, rfl⟩), fun _ => ⟨rfl, rfl, rfl, rfl⟩, fun _ => rfl⟩, rfl⟩
    · exact Res.all_go ⟨⟨rfl, rfl, rfl, rfl, rfl, .inl rfl, fun _ => ⟨rfl, rfl, rfl, rfl⟩, fun _ => rfl⟩, rfl⟩
  | control u =>
    refine guardBy_all fun _ => ?_
    cases u
    · exact Res.all_go (key _ rfl rfl rfl rfl rfl rfl rfl rfl fun _ => rfl)
    · exact Res.all_go ⟨⟨rfl, rfl, rfl, rfl, rfl, .inr (.inl ⟨rfl, rfl⟩), fun _ => ⟨rfl, rfl, rfl, rfl⟩, fun _ => rfl⟩, rfl⟩
  | readBase => exact Res.all_go ⟨⟨rfl, rfl, rfl, rfl, rfl, .inl rfl, nofun, fun _ => rfl⟩, rfl⟩
  | clearErr => exact guardBy_all fun _ => Res.all_go (key _ rfl rfl rfl rfl rfl rfl rfl rfl fun _ => rfl)
  | alloc =>
    unfold act actAlloc; dsimp only
    split
    · exact Res.all_stop ⟨⟨rfl, rfl, rfl, rfl, rfl, .inl rfl, nofun, fun _ => rfl⟩, rfl⟩
    · exact Res.all_go ⟨⟨rfl, rfl, rfl, rfl, rfl, .inl rfl, nofun, fun _ => rfl⟩, rfl⟩
  | registerBoot => exact Res.all_go ⟨⟨rfl, rfl, rfl, rfl, rfl, .inl rfl, nofun, fun _ => rfl⟩, rfl⟩
  | copy dst src n =>
    unfold act extCopy; dsimp only
    refine guardBy_all fun _ => ?_
    split
    · exact Res.all_go (key _ rfl rfl rfl rfl rfl rfl rfl rfl fun _ => rfl)
    · exact Res.all_go (key _ rfl rfl rfl rfl rfl rfl rfl rfl fun _ => rfl)
  | report r => exact Res.all_go (key _ rfl rfl rfl rfl rfl rfl rfl rfl fun _ => rfl)
  | status st => exact Res.all_go (key _ rfl rfl rfl rfl rfl rfl rfl rfl fun _ => rfl)
  | push i => exact Res.all_go (key _ rfl rfl rfl rfl rfl rfl rfl rfl fun _ => rfl)
  | pop => exact Res.all_go (key _ rfl rfl rfl rfl rfl rfl rfl rfl fun _ => rfl)
  | openBlock b => exact Res.all_go (key _ rfl rfl rfl rfl rfl rfl rfl rfl nofun)
  | closeBlock => exact Res.all_go (key _ rfl rfl rfl rfl rfl rfl rfl rfl nofun)
  | filled b => cases b <;> exact Res.all_go (key _ rfl rfl rfl rfl rfl rfl rfl rfl fun _ => rfl)
  | paramError => exact Res.all_go (key _ rfl rfl rfl rfl rfl rfl rfl rfl fun _ => rfl)
  | rejectWrite => exact Res.all_go (key _ rfl rfl rfl rfl rfl rfl rfl rfl fun _ => rfl)

/-- With the turn before it, or the pause instead of it. -/
theorem tick_frame (m : Micro) (s : State) : (tick m s).All (MicroFrame m s) := by
  unfold tick
  split
  · cases hu : takeTurn s with
    | error r => exact Res.all_refuse
    | ok u =>
      have k := takeTurn_frame hu
      dsimp only
      split
      · exact Res.all_hold (.of_same k.cfg k.chip k.inputs k.after (by rw [k.seq]) k.ctx k.drive
          fun _ => by rw [k.seq])
      · intro t ht
        have q := (act_frame m u t ht).1
        refine ⟨q.cfg.trans k.cfg, q.spiBase.trans (by rw [k.chip]), q.inputs.trans k.inputs, q.after.trans k.after,
          q.seqOp.trans (by rw [k.seq]), ?_, fun h => ?_, fun h => (q.block h).trans (by rw [k.seq])⟩
        · rw [← k.ctx]; exact q.mode
        · rw [← k.ctx, ← k.drive]; exact q.setup h
  · exact fun t ht => (act_frame m s t ht).1

/-- A run that marks no block leaves the block in hand as it was. -/
theorem runSeq_block {ms : List Micro} {s t : State} (hm : ∀ m ∈ ms, m.marks = false) (h : runSeq ms s = .go t) :
    t.seq.openBlock = s.seq.openBlock := by
  induction ms generalizing s with
  | nil => cases h; rfl
  | cons m ms ih =>
    unfold runSeq at h
    split at h
    · rename_i u hu
      exact (ih (s := u.advance m) (fun x hx => hm x (List.mem_cons_of_mem m hx)) h).trans
        ((tick_frame m s u (.inl hu)).block (hm m List.mem_cons_self))
    · rename_i x hx
      exact absurd h (hx t)

/-- An action that is done leaves the position where it is, as every action of SEQ does whose poll or pause holds it, but for the
poll of WAIT_WIP, which goes back to the loop head (rule R173). -/
theorem act_pos {m : Micro} {s t : State} (h : act m s = .go t ∨ (m ≠ .untilIdle ∧ act m s = .hold t)) :
    t.seq.pos = s.seq.pos := by
  have guard : ∀ {w : Option Refusal} {u : State}, guardBy w (.go u) = .go t ∨ (m ≠ .untilIdle ∧ guardBy w (.go u) = .hold t) →
      u.seq.pos = s.seq.pos → t.seq.pos = s.seq.pos := by
    intro w u h k
    rcases h with h | ⟨_, h⟩ <;> cases w <;> cases h; exact k
  cases m with
  | need n => exact guard h rfl
  | check b r =>
    unfold act at h; dsimp only at h
    split at h <;> rcases h with h | ⟨_, h⟩ <;> cases h; rfl
  | csEn =>
    unfold act actCsEn at h
    rcases h with h | ⟨_, h⟩ <;> cases hb : busRefusal s false [s.cfg.regCs] <;> rw [hb] at h <;>
      simp only [guardBy, Flash.select] at h <;> (try cases h) <;> split at h <;> cases h
    rename_i h'
    simp only [State.withDevice] at h'
    split at h' <;> cases h'
    rfl
  | csDis => exact guard h rfl
  | out b =>
    unfold act actOut at h; dsimp only at h
    cases hs : sourceByte s b with
    | ok v => rw [hs] at h; exact guard h rfl
    | error r => rw [hs] at h; rcases h with h | ⟨_, h⟩ <;> cases h
  | pollTx =>
    unfold act actPollTx at h; dsimp only at h
    split at h <;> rcases h with h | ⟨_, h⟩ <;> cases h <;> rfl
  | strobe => exact guard h rfl
  | pollRx =>
    unfold act actPollRx at h; dsimp only at h
    split at h <;> rcases h with h | ⟨_, h⟩ <;> cases h <;> rfl
  | inp d =>
    unfold act actIn at h
    cases d with
    | caller => rcases h with h | ⟨_, h⟩ <;> cases h; rfl
    | stage i => exact guard h rfl
    | status => rcases h with h | ⟨_, h⟩ <;> cases h; rfl
  | readPort p => cases p <;> exact guard h rfl
  | untilIdle =>
    unfold act actUntilIdle at h; dsimp only at h
    split at h <;> rcases h with h | ⟨k, h⟩ <;> first | (cases h; done) | (cases h; rfl) | exact absurd rfl k
  | readWp => rcases h with h | ⟨_, h⟩ <;> cases h; rfl
  | writeWp u => cases u <;> rcases h with h | ⟨_, h⟩ <;> cases h <;> rfl
  | control u => cases u <;> exact guard h rfl
  | readBase => rcases h with h | ⟨_, h⟩ <;> cases h; rfl
  | clearErr => exact guard h rfl
  | alloc =>
    unfold act actAlloc at h; dsimp only at h
    split at h <;> rcases h with h | ⟨_, h⟩ <;> cases h; rfl
  | registerBoot => rcases h with h | ⟨_, h⟩ <;> cases h; rfl
  | copy dst src n =>
    unfold act extCopy at h; dsimp only at h
    split at h <;> exact guard h rfl
  | report r => rcases h with h | ⟨_, h⟩ <;> cases h; rfl
  | status st => rcases h with h | ⟨_, h⟩ <;> cases h; rfl
  | push i => rcases h with h | ⟨_, h⟩ <;> cases h; rfl
  | pop _ => rcases h with h | ⟨_, h⟩ <;> cases h; rfl
  | openBlock b => rcases h with h | ⟨_, h⟩ <;> cases h; rfl
  | closeBlock => rcases h with h | ⟨_, h⟩ <;> cases h; rfl
  | filled b => cases b <;> rcases h with h | ⟨_, h⟩ <;> cases h <;> rfl
  | paramError => rcases h with h | ⟨_, h⟩ <;> cases h; rfl
  | rejectWrite => rcases h with h | ⟨_, h⟩ <;> cases h; rfl

end Sys2Proof.Machine
end

