-- ==== Sys2Proof/Laws/Fair.lean ====
section
/-! SUPPORT. Operations that wait: SHIFT and FLASH_INT act at turns of their own, SEQ may be paused anywhere, and under the
two fairness premises (rules R132, R153, R308) an operation still ends after finitely many machine steps. -/

namespace Sys2Proof.Machine

/-! ## From actions to machine steps -/

/-- SEQ gets through its micro-program from one state to another by finitely many actions, each done or held. -/
inductive Gets (prog : List Micro) : State → State → Prop where
  | done {s : State} (h : prog.drop s.seq.pos = []) : Gets prog s s
  | go {s t u : State} {m : Micro} {ms : List Micro} (h : prog.drop s.seq.pos = m :: ms) (ht : tick m s = .go t)
      (k : Gets prog (t.advance m) u) : Gets prog s u
  | hold {s t u : State} {m : Micro} {ms : List Micro} (h : prog.drop s.seq.pos = m :: ms) (ht : tick m s = .hold t)
      (k : Gets prog t.wait u) : Gets prog s u

theorem tick_pos {m : Micro} {s t : State} (h : tick m s = .go t) : t.seq.pos = s.seq.pos := by
  unfold tick at h
  split at h
  · split at h
    · rename_i u hu
      split at h
      · cases h
      · rw [act_pos (.inl h), (takeTurn_frame hu).seq]
    · cases h
  · exact act_pos (.inl h)

theorem wait_keeps (s : State) : s.wait.seq = s.seq ∧ s.wait.cfg = s.cfg ∧ s.wait.env = s.env := by
  unfold State.wait
  split
  · split
    · exact ⟨rfl, rfl, rfl⟩
    · exact ⟨rfl, rfl, rfl⟩
  · exact ⟨rfl, rfl, rfl⟩

theorem drop_succ_of {α : Type} {l ms : List α} {m : α} {n : Nat} (h : l.drop n = m :: ms) : l.drop (n + 1) = ms := by
  rw [← List.tail_drop, h]
  rfl

/-- An operation in progress that gets to the end of its micro-program ends after so many machine steps. -/
theorem Gets.steps {prog : List Micro} {s u : State} {o : Operation} (h : Gets prog s u) (ho : s.seq.op = some o)
    (hr : resetAsked s = false) (hprog : ∀ x : State, x.cfg = s.cfg → programOf x o = prog) :
    ∃ r n, settle (runSeq (prog.drop s.seq.pos) s) = .next r ∧ State.stepsTo n r u.finish := by
  induction h with
  | @done s h => exact ⟨s.finish, 0, by rw [h]; rfl, rfl⟩
  | @go s t u m ms h ht k ih =>
    have f := tick_frame m s t (.inl ht)
    obtain ⟨r, n, e, hn⟩ := ih (f.seqOp.trans ho) (by
      show (t.env.inputs.head? == some .reset) = false
      rw [f.inputs]; exact hr) (fun x hx => hprog x (hx.trans f.cfg))
    refine ⟨r, n, ?_, hn⟩
    have hpc : (t.advance m).seq.pos = s.seq.pos + 1 := by show t.seq.pos + 1 = _; rw [tick_pos ht]
    rw [hpc, drop_succ_of h] at e
    rw [h, runSeq_cons, ht]
    exact e
  | @hold s t u m ms h ht k ih =>
    have f := tick_frame m s t (.inr (.inl ht))
    obtain ⟨w1, w2, w3⟩ := wait_keeps t
    have hop : t.wait.seq.op = some o := by rw [w1]; exact f.seqOp.trans ho
    have hres : resetAsked t.wait = false := by
      show (t.wait.env.inputs.head? == some .reset) = false
      rw [w3, f.inputs]; exact hr
    have hc : t.wait.cfg = s.cfg := w2.trans f.cfg
    obtain ⟨r, n, e, hn⟩ := ih hop hres (fun x hx => hprog x (hx.trans hc))
    refine ⟨t.wait, n + 1, by rw [h, runSeq_cons, ht]; rfl, r, ?_, hn⟩
    have hs : step t.wait = goOn t.wait o := by simp [step, hres, hop]
    rw [hs]
    unfold goOn remaining
    rw [hprog _ hc]
    exact e

/-- The same from the start of the operation. -/
theorem launch_of_gets {prog : List Micro} {s u : State} {o : Operation} (h : Gets prog (s.begin o) u)
    (h0 : s.seq.op = none) (hr : resetAsked s = false) (hprog : ∀ x : State, x.cfg = s.cfg → programOf x o = prog) :
    ∃ r n, launch o prog s = .next r ∧ State.stepsTo n r u.finish := by
  obtain ⟨r, n, e, hn⟩ := h.steps (o := o) rfl hr hprog
  exact ⟨r, n, by simp only [launch, h0, if_true]; exact e, hn⟩

/-! ## The device while its erase or program may complete at any time -/

/-- It is as it was, or what was pending has completed. -/
def Flash.Later (c : Config) (f g : Flash) : Prop := g = f ∨ ∃ k, f.complete c k = .ok g

/-- A pending program does not cross its page. -/
def Flash.Fits (f : Flash) : Prop := ∀ a d, f.pending = .program a d → a.toNat % pageLimit + d.length ≤ pageLimit

theorem Flash.Fits.completes {f : Flash} (h : f.Fits) (c : Config) (k : Nat) : ∃ g, f.complete c k = .ok g := by
  unfold Flash.complete
  cases hp : f.pending with
  | none => exact ⟨_, rfl⟩
  | erase b => exact ⟨_, rfl⟩
  | program a d =>
    have := h a d hp
    exact ⟨_, if_neg (by omega)⟩

theorem Flash.Fits.of_pending {f g : Flash} (h : f.Fits) (e : g.pending = f.pending) : g.Fits := by
  unfold Flash.Fits; rw [e]; exact h

/-- Whether a completion is defined does not depend on the free values. -/
theorem Flash.fits_of_complete {c : Config} {k : Nat} {f g : Flash} (h : f.complete c k = .ok g) : f.Fits := by
  intro a d hp
  rw [Flash.complete, hp] at h
  dsimp only at h
  split at h
  · cases h
  · omega

/-- A completion touches the content, the latches and what is pending only; after it nothing is pending. -/
structure Flash.SameFrame (f g : Flash) : Prop where
  phase   : g.phase = f.phase
  cmd     : g.cmd = f.cmd
  sentWip : g.sentWip = f.sentWip

theorem Flash.complete_cases {c : Config} {k : Nat} {f g : Flash} (h : f.complete c k = .ok g) :
    f.SameFrame g ∧ g.pending = .none ∧ (f.pending = .none → g = f) ∧ (f.pending ≠ .none → g.wip = false) := by
  unfold Flash.complete at h
  cases hp : f.pending with
  | none => rw [hp] at h; cases h; exact ⟨⟨rfl, rfl, rfl⟩, hp, fun _ => rfl, fun e => absurd rfl e⟩
  | erase b => rw [hp] at h; cases h; exact ⟨⟨rfl, rfl, rfl⟩, rfl, nofun, fun _ => rfl⟩
  | program a d =>
    rw [hp] at h
    dsimp only at h
    split at h
    · cases h
    · cases h; exact ⟨⟨rfl, rfl, rfl⟩, rfl, nofun, fun _ => rfl⟩

theorem Flash.Later.frame {c : Config} {f g : Flash} (h : f.Later c g) : f.SameFrame g := by
  rcases h with rfl | ⟨k, h⟩
  · exact ⟨rfl, rfl, rfl⟩
  · exact (Flash.complete_cases h).1

/-- With nothing pending there is nothing to complete. -/
theorem Flash.Later.eq_of_none {c : Config} {f g : Flash} (h : f.Later c g) (hp : f.pending = .none) : g = f := by
  rcases h with rfl | ⟨k, h⟩
  · rfl
  · exact (Flash.complete_cases h).2.2.1 hp

/-- The content, the latches and what is pending agree. -/
structure Flash.SameArray (f g : Flash) : Prop where
  mem     : g.mem = f.mem
  wip     : g.wip = f.wip
  wel     : g.wel = f.wel
  pending : g.pending = f.pending

/-- The array is as it was in `f0`, or what was pending then has completed. -/
def Flash.Under (c : Config) (f0 f : Flash) : Prop := ∃ g, f0.Later c g ∧ g.SameArray f

theorem Flash.SameArray.complete {c : Config} {k : Nat} {f g f' : Flash} (h : f.SameArray g)
    (hc : g.complete c k = .ok f') : ∃ g', f.complete c k = .ok g' ∧ g'.SameArray f' := by
  unfold Flash.complete at hc ⊢
  rw [h.pending] at hc
  cases hp : f.pending with
  | none => rw [hp] at hc; cases hc; exact ⟨_, rfl, h⟩
  | erase b => rw [hp] at hc; cases hc; exact ⟨_, rfl, by rw [h.mem]; exact ⟨rfl, rfl, rfl, rfl⟩⟩
  | program a d =>
    rw [hp] at hc
    dsimp only at hc ⊢
    split at hc
    · cases hc
    · rename_i hf
      cases hc
      exact ⟨_, if_neg hf, by rw [h.mem]; exact ⟨rfl, rfl, rfl, rfl⟩⟩

theorem Flash.Under.refl (c : Config) (f : Flash) : Flash.Under c f f := ⟨f, .inl rfl, ⟨rfl, rfl, rfl, rfl⟩⟩

theorem Flash.Under.same {c : Config} {f0 f g : Flash} (h : Flash.Under c f0 f) (k : f.SameArray g) :
    Flash.Under c f0 g := by
  obtain ⟨x, hx, hs⟩ := h
  exact ⟨x, hx, ⟨k.mem.trans hs.mem, k.wip.trans hs.wip, k.wel.trans hs.wel, k.pending.trans hs.pending⟩⟩

theorem Flash.Under.later {c : Config} {f0 f g : Flash} (h : Flash.Under c f0 f) (k : f.Later c g) :
    Flash.Under c f0 g := by
  obtain ⟨x, hx, hs⟩ := h
  rcases k with rfl | ⟨n, k⟩
  · exact ⟨x, hx, hs⟩
  · obtain ⟨g', hg, hs'⟩ := hs.complete k
    refine ⟨g', ?_, hs'⟩
    rcases hx with rfl | ⟨j, hj⟩
    · exact .inr ⟨n, hg⟩
    · rw [(Flash.complete_cases hg).2.2.1 (Flash.complete_cases hj).2.1]
      exact .inr ⟨j, hj⟩

theorem Flash.Under.fits {c : Config} {f0 f : Flash} (h : Flash.Under c f0 f) (k : f0.Fits) : f.Fits := by
  obtain ⟨x, hx, hs⟩ := h
  refine Flash.Fits.of_pending ?_ hs.pending
  rcases hx with rfl | ⟨j, hj⟩
  · exact k
  · intro a d e
    rw [(Flash.complete_cases hj).2.1] at e
    cases e

theorem Flash.Under.pendingWip {c : Config} {f0 f : Flash} (h : Flash.Under c f0 f) (k : f0.wip = true ↔ f0.pending ≠ .none) :
    f.wip = true ↔ f.pending ≠ .none := by
  obtain ⟨x, hx, hs⟩ := h
  rw [hs.wip, hs.pending]
  rcases hx with rfl | ⟨j, hj⟩
  · exact k
  · obtain ⟨_, c2, c3, c4⟩ := Flash.complete_cases hj
    by_cases hp : f0.pending = .none
    · rw [c3 hp]; exact k
    · simp [c2, c4 hp]

/-- Once WIP = 0, what was pending has completed. -/
theorem Flash.Under.completed {c : Config} {f0 f : Flash} (h : Flash.Under c f0 f)
    (k : f0.wip = true ↔ f0.pending ≠ .none) (hw : f.wip = false) :
    ∃ n g, f0.complete c n = .ok g ∧ g.SameArray f ∧ f.pending = .none := by
  have hp : f.pending = .none := by
    have := h.pendingWip k
    simpa [hw] using this
  obtain ⟨x, hx, hs⟩ := h
  rcases hx with rfl | ⟨j, hj⟩
  · refine ⟨0, x, ?_, hs, hp⟩
    have : x.pending = .none := by rw [← hs.pending]; exact hp
    simp [Flash.complete, this]
  · exact ⟨j, x, hj, hs, hp⟩

/-! ## A turn -/

/-- A turn that SHIFT's steps allow, where what is pending can complete. -/
theorem takeTurn_ok {s u : State}
    (hu : shiftRun (s.env.turns.headD s.env.after).shiftSteps (s.withEnv { s.env with turns := s.env.turns.tail }) = .ok u)
    (hf : u.fl.Fits) : ∃ t, takeTurn s = .ok t ∧ t.sh = u.sh ∧ t.wire = u.wire ∧ u.fl.Later s.cfg t.fl
      ∧ ((s.env.turns.headD s.env.after).flashInt = true → t.fl.pending = .none) := by
  have hc : u.cfg = s.cfg := (shiftRun_frame hu).frame.cfg
  unfold takeTurn
  rw [hu]
  dsimp only
  split
  · obtain ⟨g, hg⟩ := hf.completes s.cfg u.draws
    refine ⟨(u.drew u.fl.completionDraws).withFl g, ?_, rfl, rfl, .inr ⟨_, hg⟩, fun _ => (Flash.complete_cases hg).2.1⟩
    rw [← hc] at hg
    simp only [flashInt, hg, State.withDevice]
  · rename_i h
    exact ⟨u, rfl, rfl, rfl, .inl rfl, fun e => absurd e h⟩

/-- A turn while no byte is being shifted. -/
theorem takeTurn_idle {s : State} (hb : s.sh.busy = false) (hf : s.fl.Fits) :
    ∃ t, takeTurn s = .ok t ∧ t.sh = s.sh ∧ t.wire = s.wire ∧ s.fl.Later s.cfg t.fl
      ∧ ((s.env.turns.headD s.env.after).flashInt = true → t.fl.pending = .none) :=
  takeTurn_ok (u := s.withEnv { s.env with turns := s.env.turns.tail }) (shiftRun_of_idle _ hb) hf

/-! ## A byte on its way to the device -/

/-- The steps SHIFT has left for the byte in hand. -/
def ShiftEngine.left (h : ShiftEngine) : Nat := 3 * h.bitcnt - h.sub

/-- Byte `b` is on its way to the device. -/
structure Transmitting (b : Byte) (s : State) : Prop where
  busy   : s.sh.busy = true
  txDone : s.sh.txDone = false
  dir    : s.sh.dir = .transmit
  byte   : s.sh.mosiByte = b
  bits   : 1 ≤ s.sh.bitcnt ∧ s.sh.bitcnt ≤ 8
  sub    : s.sh.sub ≤ 2
  sample : s.sh.sample = if s.sh.sub = 2 then b >>> (s.sh.bitcnt - 1) else b >>> s.sh.bitcnt
  mosi   : s.sh.sub ≠ 0 → s.wire.mosi = b.getLsbD (s.sh.bitcnt - 1)

/-- What sending a byte does not touch of the shift engine and the lines. -/
def SameButSend (s t : State) : Prop :=
  t.sh = { s.sh with
    bitcnt := t.sh.bitcnt, sub := t.sh.sub, sample := t.sh.sample, misoFree := t.sh.misoFree, busy := t.sh.busy
    txDone := t.sh.txDone }
    ∧ t.wire.csn = s.wire.csn

theorem SameButSend.trans {s t u : State} (h : SameButSend s t) (k : SameButSend t u) : SameButSend s u := by
  obtain ⟨h1, h2⟩ := h
  obtain ⟨k1, k2⟩ := k
  refine ⟨?_, k2.trans h2⟩
  rw [k1, h1]

/-- The byte is out, the device is `g`. -/
structure SentTo (b : Byte) (g : Flash) (t : State) : Prop where
  busy   : t.sh.busy = false
  txDone : t.sh.txDone = true
  bitcnt : t.sh.bitcnt = 0
  sck    : t.wire.sck = false
  mosi   : t.wire.mosi = b.getLsbD 0
  fl     : t.fl = g

theorem shift_in (b : Byte) (n : Nat) (h : 1 ≤ n ∧ n ≤ 8) :
    (b >>> n) <<< 1 ||| (BitVec.ofBool (b.getLsbD (n - 1))).setWidth 8 = b >>> (n - 1) := by
  obtain ⟨h1, h2⟩ := h
  have key : ∀ (m : Fin 8) (b : Byte),
      (b >>> (m.val + 1)) <<< 1 ||| (BitVec.ofBool (b.getLsbD m.val)).setWidth 8 = b >>> m.val := by decide +kernel
  have := key ⟨n - 1, by omega⟩ b
  rwa [show n - 1 + 1 = n by omega] at this

theorem shiftStep_sending {b : Byte} {g : Flash} {s : State} (h : Transmitting b s) (hg : s.fl.receive s.cfg b = .ok g) :
    ∃ t, shiftStep s = .ok t ∧ SameButSend s t ∧
      ((s.sh.left = 1 ∧ SentTo b g t) ∨ (s.sh.left ≠ 1 ∧ Transmitting b t ∧ t.sh.left + 1 = s.sh.left ∧ t.fl = s.fl)) := by
  obtain ⟨hbusy, htx, hdir, hbyte, hbits, hsub, hsample, hmosi⟩ := h
  unfold shiftStep
  by_cases h0 : s.sh.sub = 0
  · have e : takeDeviceByte s = s := by simp [takeDeviceByte, hdir]
    rw [if_pos h0, e]
    refine ⟨putBit s, rfl, ⟨rfl, rfl⟩, .inr ⟨?_, ⟨hbusy, htx, hdir, hbyte, hbits, ?_, ?_, fun _ => ?_⟩, ?_, rfl⟩⟩
    · unfold ShiftEngine.left; omega
    · show 1 ≤ 2; omega
    · have := hsample
      rw [h0] at this
      exact this
    · show s.sh.mosiByte.getLsbD (s.sh.bitcnt - 1) = _
      rw [hbyte]; rfl
    · show 3 * s.sh.bitcnt - 1 + 1 = 3 * s.sh.bitcnt - s.sh.sub
      omega
  rw [if_neg h0]
  by_cases h1 : s.sh.sub = 1
  · rw [if_pos h1]
    refine ⟨clockHigh s, rfl, ⟨rfl, rfl⟩, .inr ⟨?_, ⟨hbusy, htx, hdir, hbyte, hbits, ?_, ?_, fun _ => ?_⟩, ?_, rfl⟩⟩
    · unfold ShiftEngine.left; omega
    · show 2 ≤ 2; omega
    · show s.sh.sample <<< 1 ||| (BitVec.ofBool s.sampledLevel).setWidth 8 = b >>> (s.sh.bitcnt - 1)
      have e : s.sampledLevel = b.getLsbD (s.sh.bitcnt - 1) := by
        simp only [State.sampledLevel, hdir]; exact hmosi (by omega)
      rw [e, hsample, if_neg (by omega)]
      exact shift_in b s.sh.bitcnt hbits
    · exact hmosi (by omega)
    · show 3 * s.sh.bitcnt - 2 + 1 = 3 * s.sh.bitcnt - s.sh.sub
      omega
  rw [if_neg h1]
  have h2 : s.sh.sub = 2 := by omega
  rw [if_pos h2] at hsample
  by_cases hl : s.sh.bitcnt = 1
  · have hs : s.sh.sample = b := by rw [hsample, hl]; simp
    have e1 : (clockLow s).sh.bitcnt = 0 := by show s.sh.bitcnt - 1 = 0; omega
    have e2 : (clockLow s).fl.receive (clockLow s).cfg (clockLow s).sh.sample = .ok g := by
      show s.fl.receive s.cfg s.sh.sample = _
      rw [hs]; exact hg
    have e3 : (clockLow s).sh.dir = .transmit := hdir
    rw [if_pos e1]
    unfold byteDone
    rw [e3]
    dsimp only
    rw [e2]
    refine ⟨_, rfl, ⟨?_, rfl⟩, .inl ⟨by unfold ShiftEngine.left; omega, rfl, rfl, e1, rfl, ?_, rfl⟩⟩
    · rfl
    · have := hmosi (by omega)
      rw [hl] at this
      exact this
  · have e1 : (clockLow s).sh.bitcnt ≠ 0 := by show s.sh.bitcnt - 1 ≠ 0; omega
    rw [if_neg e1]
    refine ⟨nextMiso (clockLow s), rfl, ⟨rfl, rfl⟩, .inr ⟨?_, ⟨hbusy, htx, hdir, hbyte, ?_, ?_, ?_, fun e => absurd rfl e⟩, ?_, rfl⟩⟩
    · unfold ShiftEngine.left; omega
    · show 1 ≤ s.sh.bitcnt - 1 ∧ s.sh.bitcnt - 1 ≤ 8; omega
    · show 0 ≤ 2; omega
    · exact hsample
    · show 3 * (s.sh.bitcnt - 1) - 0 + 1 = 3 * s.sh.bitcnt - s.sh.sub
      omega

theorem Transmitting.left_pos {b : Byte} {s : State} (h : Transmitting b s) : 1 ≤ s.sh.left ∧ s.sh.left ≤ 24 := by
  have := h.bits
  have := h.sub
  unfold ShiftEngine.left
  omega

/-- Any number of SHIFT steps while a byte is on its way to the device (rules R124, R128). -/
theorem shiftRun_sending {b : Byte} {g : Flash} {n : Nat} {s : State} (h : Transmitting b s)
    (hg : s.fl.receive s.cfg b = .ok g) :
    ∃ t, shiftRun n s = .ok t ∧ SameButSend s t ∧
      (SentTo b g t ∨ (Transmitting b t ∧ t.sh.left + n = s.sh.left ∧ t.fl = s.fl)) := by
  induction n generalizing s with
  | zero => exact ⟨s, rfl, ⟨rfl, rfl⟩, .inr ⟨h, rfl, rfl⟩⟩
  | succ n ih =>
    obtain ⟨t, ht, hk, hcase⟩ := shiftStep_sending h hg
    rw [shiftRun, if_pos h.busy, ht]
    dsimp only
    rcases hcase with ⟨_, hd⟩ | ⟨_, hs, hl, hf⟩
    · exact ⟨t, shiftRun_of_idle n hd.busy, hk, .inl hd⟩
    · have hc : t.cfg = s.cfg := (shiftStep_frame ht).frame.cfg
      obtain ⟨u, hu, ku, hcu⟩ := ih hs (by rw [hf, hc]; exact hg)
      refine ⟨u, hu, hk.trans ku, ?_⟩
      rcases hcu with hd | ⟨hs', hl', hf'⟩
      · exact .inl hd
      · exact .inr ⟨hs', by omega, hf'.trans hf⟩

/-! ## A byte on its way from the device -/

/-- A byte is on its way from the device. -/
structure Receiving (s : State) : Prop where
  busy : s.sh.busy = true
  rxReady : s.sh.rxReady = false
  dir  : s.sh.dir = .receive
  bits : 1 ≤ s.sh.bitcnt ∧ s.sh.bitcnt ≤ 8
  sub  : s.sh.sub ≤ 2

/-- The device has not been asked for it yet (rule R126). -/
def ShiftEngine.fresh (h : ShiftEngine) : Bool := h.bitcnt == 8 && h.sub == 0

/-- What receiving a byte does not touch of the shift engine and the lines. -/
def SameButReceive (s t : State) : Prop :=
  t.sh = { s.sh with
    bitcnt := t.sh.bitcnt, sub := t.sh.sub, sample := t.sh.sample, busy := t.sh.busy, rxReady := t.sh.rxReady
    misoByte := t.sh.misoByte, misoFree := t.sh.misoFree, shift := t.sh.shift, rxd := t.sh.rxd, rxdHeld := t.sh.rxdHeld }
    ∧ t.wire.csn = s.wire.csn

theorem SameButReceive.trans {s t u : State} (h : SameButReceive s t) (k : SameButReceive t u) : SameButReceive s u := by
  obtain ⟨h1, h2⟩ := h
  obtain ⟨k1, k2⟩ := k
  refine ⟨?_, k2.trans h2⟩
  rw [k1, h1]

/-- The device after `n` SHIFT steps. -/
def State.flAfter (s : State) (n : Nat) : Flash := if s.sh.fresh = true ∧ n ≠ 0 then s.fl.afterByteOut s.cfg else s.fl

theorem shiftStep_receiving {s : State} (h : Receiving s) :
    ∃ t, shiftStep s = .ok t ∧ SameButReceive s t ∧ t.fl = s.flAfter 1 ∧ t.sh.fresh = false ∧
      ((s.sh.left = 1 ∧ t.sh.busy = false ∧ t.sh.rxReady = true) ∨ (Receiving t ∧ t.sh.left + 1 = s.sh.left)) := by
  obtain ⟨hbusy, hrx, hdir, hbits, hsub⟩ := h
  unfold shiftStep
  by_cases h0 : s.sh.sub = 0
  · rw [if_pos h0]
    refine ⟨_, rfl, ?_⟩
    by_cases h8 : s.sh.bitcnt = 8
    · have e : takeDeviceByte s = deviceTaken s := by simp [takeDeviceByte, hdir, h8, deviceTaken]
      have hf : s.sh.fresh = true := by simp [ShiftEngine.fresh, h0, h8]
      rw [e]
      refine ⟨⟨rfl, rfl⟩, by simp [State.flAfter, hf]; rfl, by simp [ShiftEngine.fresh, putBit, State.withSh],
        .inr ⟨⟨hbusy, hrx, hdir, hbits, ?_⟩, ?_⟩⟩
      · show 1 ≤ 2; omega
      · show 3 * s.sh.bitcnt - 1 + 1 = 3 * s.sh.bitcnt - s.sh.sub
        omega
    · have e : takeDeviceByte s = s := by simp [takeDeviceByte, h8]
      have hf : s.sh.fresh = false := by simp [ShiftEngine.fresh, h8]
      rw [e]
      refine ⟨⟨rfl, rfl⟩, by simp [State.flAfter, hf]; rfl, by simp [ShiftEngine.fresh, putBit, State.withSh],
        .inr ⟨⟨hbusy, hrx, hdir, hbits, ?_⟩, ?_⟩⟩
      · show 1 ≤ 2; omega
      · show 3 * s.sh.bitcnt - 1 + 1 = 3 * s.sh.bitcnt - s.sh.sub
        omega
  rw [if_neg h0]
  have hf : s.sh.fresh = false := by simp [ShiftEngine.fresh, h0]
  have hfl : s.flAfter 1 = s.fl := by simp [State.flAfter, hf]
  rw [hfl]
  by_cases h1 : s.sh.sub = 1
  · rw [if_pos h1]
    refine ⟨clockHigh s, rfl, ⟨rfl, rfl⟩, rfl, by simp [ShiftEngine.fresh, clockHigh, State.withSh],
      .inr ⟨⟨hbusy, hrx, hdir, hbits, ?_⟩, ?_⟩⟩
    · show 2 ≤ 2; omega
    · show 3 * s.sh.bitcnt - 2 + 1 = 3 * s.sh.bitcnt - s.sh.sub
      omega
  rw [if_neg h1]
  have h7 : s.sh.bitcnt - 1 ≠ 8 := by omega
  by_cases hl : s.sh.bitcnt = 1
  · have e1 : (clockLow s).sh.bitcnt = 0 := by show s.sh.bitcnt - 1 = 0; omega
    have e3 : (clockLow s).sh.dir = .receive := hdir
    rw [if_pos e1]
    unfold byteDone
    rw [e3]
    refine ⟨_, rfl, ⟨rfl, rfl⟩, rfl, ?_, .inl ⟨by unfold ShiftEngine.left; omega, rfl, rfl⟩⟩
    simp [ShiftEngine.fresh, clockLow, lastEdge, State.withSh, State.drew, hl]
  · have e1 : (clockLow s).sh.bitcnt ≠ 0 := by show s.sh.bitcnt - 1 ≠ 0; omega
    rw [if_neg e1]
    refine ⟨nextMiso (clockLow s), rfl, ⟨rfl, rfl⟩, rfl, ?_, .inr ⟨⟨hbusy, hrx, hdir, ?_, ?_⟩, ?_⟩⟩
    · simp [ShiftEngine.fresh, clockLow, nextMiso, State.withSh, h7]
    · show 1 ≤ s.sh.bitcnt - 1 ∧ s.sh.bitcnt - 1 ≤ 8; omega
    · show 0 ≤ 2; omega
    · show 3 * (s.sh.bitcnt - 1) - 0 + 1 = 3 * s.sh.bitcnt - s.sh.sub
      omega

/-- Any number of SHIFT steps while a byte is on its way from the device (rules R126, R128). -/
theorem shiftRun_receiving {n : Nat} {s : State} (h : Receiving s) :
    ∃ t, shiftRun n s = .ok t ∧ SameButReceive s t ∧ t.fl = s.flAfter n ∧ (n ≠ 0 → t.sh.fresh = false) ∧ (n = 0 → t = s) ∧
      ((t.sh.busy = false ∧ t.sh.rxReady = true) ∨ (Receiving t ∧ t.sh.left + n = s.sh.left)) := by
  induction n generalizing s with
  | zero => exact ⟨s, rfl, ⟨rfl, rfl⟩, by simp [State.flAfter], fun e => absurd rfl e, fun _ => rfl, .inr ⟨h, rfl⟩⟩
  | succ n ih =>
    obtain ⟨t, ht, hk, hf, hfr, hcase⟩ := shiftStep_receiving h
    have hf1 : s.flAfter (n + 1) = s.flAfter 1 := by simp [State.flAfter]
    rw [shiftRun, if_pos h.busy, ht, hf1]
    dsimp only
    rcases hcase with ⟨_, hd, hr⟩ | ⟨hs, hl⟩
    · exact ⟨t, shiftRun_of_idle n hd, hk, hf, fun _ => hfr, nofun, .inl ⟨hd, hr⟩⟩
    · obtain ⟨u, hu, ku, hfu, hfru, h0, hcu⟩ := ih hs
      have e : t.flAfter n = t.fl := by simp [State.flAfter, hfr]
      refine ⟨u, hu, hk.trans ku, by rw [hfu, e, hf], fun _ => ?_, nofun, ?_⟩
      · by_cases hn : n = 0
        · rw [h0 hn]; exact hfr
        · exact hfru hn
      · rcases hcu with hd | ⟨hs', hl'⟩
        · exact .inl hd
        · exact .inr ⟨hs', by omega⟩

end Sys2Proof.Machine
end

