-- ==== Sys2Proof/Laws/Invariant.lean ====
section
/-! SUPPORT. The invariant of Safety.lean, piece by piece: it looks at the shift engine, the wires, the device, host
memory and the chipset registers only, and each thing that happens between two actions of SEQ, and each action, keeps it. -/

namespace Sys2Proof.Machine

/-- The invariant, of the fields it is about. -/
structure Sound (sh : ShiftEngine) (w : Wires) (f : Flash) (h : Memory) (r : ChipRegs) (c : Config) : Prop where
  flashForm : f.mem.wf = true
  hostForm  : h.wf = true
  pendingWip : f.wip = true ↔ f.pending ≠ .none
  programSize : ∀ a d, f.pending = .program a d → 1 ≤ d.length ∧ d.length ≤ 256
  pageSize : f.page.length = f.pageN ∧ f.pageN ≤ 256
  selectLine : w.csn = !sh.cs
  frameOpen : f.phase ≠ .idle ↔ sh.cs = true
  busySelected : sh.busy = true → sh.cs = true
  bitCount : sh.bitcnt ≤ 8 ∧ (sh.busy = true ↔ sh.bitcnt ≠ 0)
  clockRests : sh.busy = false → w.sck = false
  chipWidths : clip c.spiBaseReg.width r.spiBase = r.spiBase ∧ clip c.wpReg.width r.wp = r.wp

theorem inv_iff {s : State} : Invariant s ↔ Sound s.sh s.wire s.fl s.host s.chip s.cfg :=
  ⟨fun h => ⟨h.1, h.2, h.3, h.4, h.5, h.6, h.7, h.8, h.9, h.10, h.11⟩,
    fun h => ⟨h.1, h.2, h.3, h.4, h.5, h.6, h.7, h.8, h.9, h.10, h.11⟩⟩

/-- What does not touch those fields keeps it. -/
theorem Invariant.of_same {s t : State} (h : Invariant s) (h1 : t.sh = s.sh) (h2 : t.wire = s.wire) (h3 : t.fl = s.fl)
    (h4 : t.host = s.host) (h5 : t.chip = s.chip) (h6 : t.cfg = s.cfg) : Invariant t := by
  rw [inv_iff, h1, h2, h3, h4, h5, h6]; exact inv_iff.1 h

/-- A device that goes on in its frame. -/
structure Flash.GoesOn (f g : Flash) : Prop where
  mem : g.mem = f.mem
  wip : g.wip = f.wip
  pending : g.pending = f.pending
  phase : g.phase ≠ .idle ↔ f.phase ≠ .idle
  page : f.page.length = f.pageN ∧ f.pageN ≤ 256 → g.page.length = g.pageN ∧ g.pageN ≤ 256

theorem phaseAfterCommand_ne_idle (c : Config) (b : Byte) : phaseAfterCommand c b ≠ .idle := by
  unfold phaseAfterCommand; repeat' split
  all_goals simp

theorem phaseAfterAddress_ne_idle (c : Config) (b : Byte) : phaseAfterAddress c b ≠ .idle := by
  unfold phaseAfterAddress; repeat' split
  all_goals simp

theorem Flash.receive_goesOn {c : Config} {b : Byte} {f g : Flash} (h : f.receive c b = .ok g) : f.GoesOn g := by
  have hk := Flash.receive_keeps h
  refine ⟨hk.1, hk.2.2.1, hk.2.1, ?_, ?_⟩
  · revert h
    cases hp : f.phase <;> simp only [Flash.receive, hp, Flash.commandByte, Flash.lastAddressByte, Flash.dataByte] <;>
      intro h <;> first
        | (cases h; done)
        | (split at h <;> cases h <;> simp [phaseAfterCommand_ne_idle, phaseAfterAddress_ne_idle])
        | (cases h; simp [hp])
  · revert h
    cases hp : f.phase <;> simp only [Flash.receive, hp, Flash.commandByte, Flash.lastAddressByte, Flash.dataByte] <;>
      intro h <;> first
        | (cases h; done)
        | (split at h <;> cases h <;> simp_all [pageLimit])
        | (cases h; simp)

theorem Flash.afterByteOut_goesOn (c : Config) (f : Flash) : f.GoesOn (f.afterByteOut c) := by
  obtain ⟨h1, h2, h3, _, h5, _⟩ := Flash.afterByteOut_keeps c f
  refine ⟨h1, h3, h2, by rw [h5], fun h => ?_⟩
  unfold Flash.afterByteOut
  split
  · exact h
  · split <;> exact h

/-- The device goes on, the shift engine and the lines move as they may. -/
theorem Invariant.device {s t : State} {g : Flash} (h : Invariant s) (hg : s.fl.GoesOn g) (hfl : t.fl = g) (hh : t.host = s.host)
    (hcs : t.sh.cs = s.sh.cs) (hcsn : t.wire.csn = s.wire.csn) (hbusy : t.sh.busy = true → s.sh.cs = true)
    (hbits : t.sh.bitcnt ≤ 8 ∧ (t.sh.busy = true ↔ t.sh.bitcnt ≠ 0)) (hsck : t.sh.busy = false → t.wire.sck = false)
    (hchip : t.chip = s.chip) (hcfg : t.cfg = s.cfg) : Invariant t := by
  subst hfl
  refine ⟨by rw [hg.mem]; exact h.flashForm, by rw [hh]; exact h.hostForm, ?_, ?_, hg.page h.pageSize, ?_, ?_, ?_, hbits,
    hsck, by rw [hchip, hcfg]; exact h.chipWidths⟩
  · rw [hg.wip, hg.pending]; exact h.pendingWip
  · rw [hg.pending]; exact h.programSize
  · rw [hcsn, hcs]; exact h.selectLine
  · rw [hg.phase, hcs]; exact h.frameOpen
  · intro hb; rw [hcs]; exact hbusy hb

theorem Flash.GoesOn.refl (f : Flash) : f.GoesOn f := ⟨rfl, rfl, rfl, Iff.rfl, id⟩

/-! ## SHIFT -/

theorem takeDeviceByte_inv {s : State} (h : Invariant s) : Invariant (takeDeviceByte s) := by
  unfold takeDeviceByte
  split
  · exact h.device (Flash.afterByteOut_goesOn s.cfg s.fl) rfl rfl rfl rfl h.busySelected h.bitCount h.clockRests rfl rfl
  · exact h

theorem takeDeviceByte_busy (s : State) : (takeDeviceByte s).sh.busy = s.sh.busy := by
  unfold takeDeviceByte; split <;> rfl

theorem shiftStep_inv {s t : State} (h : Invariant s) (hb : s.sh.busy = true) (ht : shiftStep s = .ok t) : Invariant t := by
  have hcs := h.busySelected hb
  unfold shiftStep at ht
  split at ht
  · cases ht
    have h' := takeDeviceByte_inv h
    have hb' : (takeDeviceByte s).sh.busy = true := (takeDeviceByte_busy s).trans hb
    exact h'.device (.refl _) rfl rfl rfl rfl h'.busySelected h'.bitCount (fun e => absurd (hb'.symm.trans e) (by simp)) rfl rfl
  · split at ht
    · cases ht
      exact h.device (.refl _) rfl rfl rfl rfl h.busySelected h.bitCount (fun e => absurd (hb.symm.trans e) (by simp)) rfl rfl
    · split at ht
      · rename_i h0
        unfold byteDone at ht
        split at ht
        · have e : (clockLow s).fl.receive (clockLow s).cfg (clockLow s).sh.sample
              = s.fl.receive s.cfg s.sh.sample := rfl
          rw [e] at ht
          cases hr : s.fl.receive s.cfg s.sh.sample with
          | error r => rw [hr] at ht; cases ht
          | ok g =>
            rw [hr] at ht
            cases ht
            refine h.device (Flash.receive_goesOn hr) rfl rfl rfl rfl (fun e => by cases e) ⟨?_, ?_⟩ (fun _ => rfl) rfl rfl
            · show (clockLow s).sh.bitcnt ≤ 8; rw [h0]; omega
            · show (false = true) ↔ (clockLow s).sh.bitcnt ≠ 0; rw [h0]; simp
        · cases ht
          refine h.device (.refl _) rfl rfl rfl rfl (fun e => by cases e) ⟨?_, ?_⟩ (fun _ => rfl) rfl rfl
          · show (clockLow s).sh.bitcnt ≤ 8; rw [h0]; omega
          · show (false = true) ↔ (clockLow s).sh.bitcnt ≠ 0; rw [h0]; simp
      · rename_i h0
        cases ht
        have h8 := h.bitCount.1
        refine h.device (.refl _) rfl rfl rfl rfl (fun _ => hcs) ⟨?_, ?_⟩ (fun _ => rfl) rfl rfl
        · show s.sh.bitcnt - 1 ≤ 8; omega
        · exact ⟨fun _ => h0, fun _ => hb⟩

theorem shiftRun_inv {n : Nat} {s t : State} (h : Invariant s) (ht : shiftRun n s = .ok t) : Invariant t := by
  induction n generalizing s with
  | zero => cases ht; exact h
  | succ n ih =>
    unfold shiftRun at ht
    split at ht
    · rename_i hb
      cases hs : shiftStep s with
      | error r => rw [hs] at ht; cases ht
      | ok u => rw [hs] at ht; exact ih (shiftStep_inv h hb hs) ht
    · cases ht; exact h

/-! ## FLASH_INT -/

theorem flashInt_inv {s t : State} (h : Invariant s) (ht : flashInt s = .ok t) : Invariant t := by
  unfold flashInt Flash.complete at ht
  have key : ∀ (m : Memory) (n : Nat), m.wf = true → Invariant ((s.drew n).withFl (s.fl.completed m)) := fun m n hm =>
    ⟨hm, h.hostForm, by simp [Flash.completed], by simp [Flash.completed], h.pageSize, h.selectLine, h.frameOpen,
      h.busySelected, h.bitCount, h.clockRests, h.chipWidths⟩
  split at ht
  · cases ht; exact h.of_same rfl rfl rfl rfl rfl rfl
  · cases ht; exact key _ _ (Memory.wf_splice h.flashForm _ _)
  · split at ht
    · cases ht
    · cases ht; exact key _ _ (Memory.wf_splice h.flashForm _ _)

/-- A turn of the other agents keeps the invariant. -/
theorem takeTurn_inv {s t : State} (h : Invariant s) (ht : takeTurn s = .ok t) : Invariant t := by
  unfold takeTurn at ht
  split at ht
  · rename_i u hu
    have hu' : Invariant u := shiftRun_inv
      (Invariant.of_same (t := s.withEnv { s.env with turns := s.env.turns.tail }) h rfl rfl rfl rfl rfl rfl) hu
    split at ht
    · exact flashInt_inv hu' ht
    · cases ht; exact hu'
  · cases ht

/-! ## The actions of SEQ -/

/-- An outcome all of whose states satisfy the invariant. -/
def Res.Keeps : Res → Prop
  | .go t => Invariant t
  | .hold t => Invariant t
  | .stop t => Invariant t
  | .refuse _ => True

theorem guardBy_keeps {w : Option Refusal} {r : Res} (h : w = none → r.Keeps) : (guardBy w r).Keeps := by
  cases w with
  | none => exact h rfl
  | some x => trivial

theorem busRefusal_cs {s : State} {sel : Bool} {l : List Byte} (h : busRefusal s sel l = none) :
    s.sh.cs = sel ∧ s.sh.busy = false := by
  unfold busRefusal at h
  cases sel <;> cases hc : s.sh.cs <;> cases hb : s.sh.busy <;> simp [hc, hb] at h ⊢ <;>
    (split at h <;> first | cases h | (split at h <;> cases h))

theorem sendRefusal_bus {b : Byte} {s : State} (h : sendRefusal b s = none) :
    busRefusal s true [s.cfg.regOut, s.cfg.regStat] = none := by
  unfold sendRefusal at h
  cases hb : busRefusal s true [s.cfg.regOut, s.cfg.regStat] with
  | none => rfl
  | some r => rw [hb] at h; cases h

theorem takeRefusal_bus {s : State} (h : takeRefusal s = none) :
    busRefusal s true [s.cfg.regIn, s.cfg.regStat] = none := by
  unfold takeRefusal at h
  cases hb : busRefusal s true [s.cfg.regIn, s.cfg.regStat] with
  | none => rfl
  | some r => rw [hb] at h; cases h

theorem Invariant.store {s : State} (h : Invariant s) (a : Nat) (d : List Byte) : Invariant (hostStore s a d) :=
  ⟨h.flashForm, Memory.wf_splice h.hostForm _ _, h.pendingWip, h.programSize, h.pageSize, h.selectLine, h.frameOpen,
    h.busySelected, h.bitCount, h.clockRests, h.chipWidths⟩

theorem extCopy_keeps {s : State} (h : Invariant s) (dst src n : Nat) : (extCopy dst src n s).Keeps := by
  unfold extCopy
  dsimp only
  refine guardBy_keeps fun _ => ?_
  split
  · exact Invariant.store (s := (s.withEnv { s.env with copies := s.env.copies.tail }).saw _)
      (h.of_same rfl rfl rfl rfl rfl rfl) _ _
  · exact (Invariant.store (s := (s.withEnv { s.env with copies := s.env.copies.tail }).saw _)
      (h.of_same rfl rfl rfl rfl rfl rfl) _ _).of_same rfl rfl rfl rfl rfl rfl

theorem Flash.frameEffect_page (c : Config) (f : Flash) :
    (f.frameEffect c).page = f.page ∧ (f.frameEffect c).pageN = f.pageN ∧ (f.frameEffect c).mem = f.mem := by
  unfold Flash.frameEffect
  split
  · split
    · simp
    · split
      · simp
      · split <;> simp
  · split <;> simp
  · simp

/-- Deselecting keeps what the invariant says of the device. -/
theorem Flash.deselect_sound (c : Config) {f : Flash} (h1 : f.wip = true ↔ f.pending ≠ .none)
    (h2 : ∀ a d, f.pending = .program a d → 1 ≤ d.length ∧ d.length ≤ 256)
    (h3 : f.page.length = f.pageN ∧ f.pageN ≤ 256) :
    ((f.deselect c).wip = true ↔ (f.deselect c).pending ≠ .none)
      ∧ ∀ a d, (f.deselect c).pending = .program a d → 1 ≤ d.length ∧ d.length ≤ 256 := by
  unfold Flash.deselect Flash.frameEffect
  split
  · split
    · exact ⟨h1, h2⟩
    · split
      · exact ⟨h1, h2⟩
      · split
        · simp
        · exact ⟨h1, h2⟩
  · split
    · rename_i hk
      refine ⟨by simp, fun a d e => ?_⟩
      simp only [Pending.program.injEq] at e
      rw [← e.2]
      omega
    · exact ⟨h1, h2⟩
  · exact ⟨h1, h2⟩

/-- Every action keeps the invariant. -/
theorem act_keeps (m : Micro) {s : State} (h : Invariant s) : (act m s).Keeps := by
  cases m with
  | need n => exact guardBy_keeps fun _ => h
  | check b r =>
    unfold act; dsimp only
    split
    · exact h
    · trivial
  | csEn =>
    refine guardBy_keeps fun hb => ?_
    obtain ⟨hcs, hbusy⟩ := busRefusal_cs hb
    by_cases hph : s.fl.phase = .idle
    · simp only [Flash.select, hph, if_true, State.withDevice, Res.Keeps]
      exact ⟨h.flashForm, h.hostForm, h.pendingWip, h.programSize, by simp, rfl, by simp [State.saw],
        fun _ => rfl, h.bitCount, h.clockRests, h.chipWidths⟩
    · simp only [Flash.select, hph, if_false, State.withDevice, Res.Keeps]
  | csDis =>
    refine guardBy_keeps fun hb => ?_
    obtain ⟨hcs, hbusy⟩ := busRefusal_cs hb
    obtain ⟨d1, d2⟩ := Flash.deselect_sound s.cfg h.pendingWip h.programSize h.pageSize
    obtain ⟨p1, p2, p3⟩ := Flash.frameEffect_page s.cfg s.fl
    refine ⟨?_, h.hostForm, d1, d2, ?_, rfl, by simp [Flash.deselect, State.saw], ?_, h.bitCount, h.clockRests, h.chipWidths⟩
    · show (s.fl.frameEffect s.cfg).mem.wf = true; rw [p3]; exact h.flashForm
    · show (s.fl.frameEffect s.cfg).page.length = (s.fl.frameEffect s.cfg).pageN ∧ (s.fl.frameEffect s.cfg).pageN ≤ 256
      rw [p1, p2]; exact h.pageSize
    · intro e
      exact absurd (hbusy.symm.trans e) (by simp)
  | out b =>
    unfold act actOut; dsimp only
    split
    · refine guardBy_keeps fun hr => ?_
      obtain ⟨hcs, hbusy⟩ := busRefusal_cs (sendRefusal_bus hr)
      refine h.device (.refl _) rfl rfl rfl rfl (fun _ => hcs) ?_ (fun e => by cases e) rfl rfl
      exact ⟨show 8 ≤ 8 by decide, show (true = true) ↔ (8 : Nat) ≠ 0 by decide⟩
    · trivial
  | pollTx =>
    unfold act actPollTx; dsimp only
    split <;> exact h.of_same rfl rfl rfl rfl rfl rfl
  | strobe =>
    refine guardBy_keeps fun hr => ?_
    obtain ⟨hcs, hbusy⟩ := busRefusal_cs (takeRefusal_bus hr)
    refine h.device (.refl _) rfl rfl rfl rfl (fun _ => hcs) ?_ (fun e => by cases e) rfl rfl
    exact ⟨show 8 ≤ 8 by decide, show (true = true) ↔ (8 : Nat) ≠ 0 by decide⟩
  | pollRx =>
    unfold act actPollRx; dsimp only
    split <;> exact h.of_same rfl rfl rfl rfl rfl rfl
  | inp d =>
    unfold act actIn
    cases d with
    | caller => exact h.of_same rfl rfl rfl rfl rfl rfl
    | status => exact h.of_same rfl rfl rfl rfl rfl rfl
    | stage i =>
      dsimp only
      refine guardBy_keeps fun _ => ?_
      exact Invariant.store (s := s.portIn s.cfg.regIn s.sh.rxd) (h.of_same rfl rfl rfl rfl rfl rfl) _ _
  | readPort p =>
    refine guardBy_keeps fun _ => ?_
    cases p <;> exact h.of_same rfl rfl rfl rfl rfl rfl
  | untilIdle =>
    unfold act actUntilIdle; dsimp only
    split
    · exact h.of_same rfl rfl rfl rfl rfl rfl
    · exact h
  | readWp => exact h.of_same rfl rfl rfl rfl rfl rfl
  | writeWp u =>
    have key : ∀ t : State, t.sh = s.sh → t.wire = s.wire → t.fl = s.fl → t.host = s.host → t.cfg = s.cfg →
        t.chip = { s.chip with wp := wpValue s.cfg s.seq.word u } → Invariant t := fun t h1 h2 h3 h4 h5 h6 => by
      rw [inv_iff, h1, h2, h3, h4, h5, h6]
      exact { inv_iff.1 h with chipWidths := ⟨h.chipWidths.1, clip_clip _ _⟩ }
    cases u <;> exact key _ rfl rfl rfl rfl rfl rfl
  | control x =>
    refine guardBy_keeps fun _ => ?_
    cases x <;> exact h.device (.refl _) rfl rfl rfl rfl h.busySelected h.bitCount h.clockRests rfl rfl
  | readBase => exact h.of_same rfl rfl rfl rfl rfl rfl
  | clearErr => exact guardBy_keeps fun _ => h.device (.refl _) rfl rfl rfl rfl h.busySelected h.bitCount h.clockRests rfl rfl
  | alloc =>
    unfold act actAlloc; dsimp only
    split <;> exact h.of_same rfl rfl rfl rfl rfl rfl
  | registerBoot => exact h.of_same rfl rfl rfl rfl rfl rfl
  | copy dst src n => exact extCopy_keeps h dst src n
  | report r => exact h.of_same rfl rfl rfl rfl rfl rfl
  | status st => exact h.of_same rfl rfl rfl rfl rfl rfl
  | push i => exact h.of_same rfl rfl rfl rfl rfl rfl
  | pop => exact h.of_same rfl rfl rfl rfl rfl rfl
  | openBlock b => exact h.of_same rfl rfl rfl rfl rfl rfl
  | closeBlock => exact h.of_same rfl rfl rfl rfl rfl rfl
  | filled b => cases b <;> exact h.of_same rfl rfl rfl rfl rfl rfl
  | paramError => exact h.of_same rfl rfl rfl rfl rfl rfl
  | rejectWrite => exact h.of_same rfl rfl rfl rfl rfl rfl

theorem tick_keeps (m : Micro) {s : State} (h : Invariant s) : (tick m s).Keeps := by
  unfold tick
  split
  · cases ht : takeTurn s with
    | ok t =>
      dsimp only
      split
      · exact takeTurn_inv h ht
      · exact act_keeps m (takeTurn_inv h ht)
    | error r => trivial
  · exact act_keeps m h

/-- A micro-program keeps the invariant, however it ends. -/
theorem runSeq_keeps (ms : List Micro) {s : State} (h : Invariant s) : (runSeq ms s).Keeps := by
  induction ms generalizing s with
  | nil => exact h
  | cons m ms ih =>
    have := tick_keeps m h
    unfold runSeq
    cases ht : tick m s with
    | go t => rw [ht] at this; exact ih (Invariant.of_same this rfl rfl rfl rfl rfl rfl)
    | hold t => rw [ht] at this; exact this
    | stop t => rw [ht] at this; exact this
    | refuse r => trivial

/-! ## Steps -/

theorem Invariant.drawErr {s : State} (h : Invariant s) : Invariant s.drawErr :=
  h.device (.refl _) rfl rfl rfl rfl h.busySelected h.bitCount h.clockRests rfl rfl

theorem Invariant.begin {s : State} (h : Invariant s) (o : Operation) : Invariant (s.begin o) :=
  (Invariant.of_same (t := ((s.withSeq { s.seq with op := some o, pc := 0, pos := 0, loops := [], openBlock := none }).withReport
    .none).withTrace []) h rfl rfl rfl rfl rfl rfl).drawErr

/-- What nobody knows to be under way is something a completion accepts (rules R37, R155, R287). -/
theorem anyPending_size {c : Config} {k : Nat} {a : FlashAddr} {d : List Byte} (h : anyPending c k = .program a d) :
    1 ≤ d.length ∧ d.length ≤ 256 := by
  unfold anyPending at h
  split at h
  · cases h
  · simp only [Pending.program.injEq] at h
    rw [← h.2, freeList_length]
    have : Config.freeNat (k + 2) % (pageLimit - Config.freeNat (k + 1) % c.flashSize % pageLimit)
        < pageLimit - Config.freeNat (k + 1) % c.flashSize % pageLimit :=
      Nat.mod_lt _ (Nat.sub_pos_of_lt (Nat.mod_lt _ (by decide)))
    simp only [pageLimit] at this ⊢
    omega

theorem anyPending_ne (c : Config) (k : Nat) : anyPending c k ≠ .none := by
  unfold anyPending; split <;> exact nofun

/-- What a device that was cut short still keeps of the invariant (rules R36, R37). -/
theorem Flash.cutShort_keeps (c : Config) (k b : Nat) (busy : Bool) (f : Flash) :
    (f.mem.wf = true → (f.cutShort c k b busy).mem.wf = true)
      ∧ ((f.cutShort c k b busy).wip = true ↔ (f.cutShort c k b busy).pending ≠ .none)
      ∧ (∀ a d, (f.cutShort c k b busy).pending = .program a d → 1 ≤ d.length ∧ d.length ≤ 256)
      ∧ (f.cutShort c k b busy).page = f.page ∧ (f.cutShort c k b busy).pageN = f.pageN
      ∧ (f.cutShort c k b busy).phase = f.phase := by
  refine ⟨fun h => Memory.wf_splice h _ _, ?_, fun a d e => ?_, rfl, rfl, rfl⟩ <;>
    cases busy <;> simp only [Flash.cutShort, if_true, if_false, Bool.false_eq_true] at *
  · simp
  · simpa using anyPending_ne _ _
  · cases e
  · exact anyPending_size e

/-- A block and the device's latches may be lost, FL.MEM keeps its form. -/
theorem Invariant.wait {s : State} (h : Invariant s) : Invariant s.wait := by
  unfold State.wait
  split
  · split
    · obtain ⟨k1, k2, k3, -, -, -⟩ := Flash.cutShort_keeps s.cfg s.draws ‹Nat›
        (!s.shiftStuck || (Config.freeByte (s.draws + blockSize)).getLsbD 1) s.fl
      exact ⟨k1 h.flashForm, h.hostForm, k2, k3, h.pageSize, h.selectLine,
        h.frameOpen, h.busySelected, h.bitCount, h.clockRests, h.chipWidths⟩
    · exact h
  · exact h

/-- What a machine step answers when the actions it ran keep the invariant. -/
theorem settle_inv {r : Res} {t : State} (h : r.Keeps) (ht : settle r = .next t) : Invariant t := by
  cases r with
  | go s => cases ht; exact Invariant.of_same (s := s) h rfl rfl rfl rfl rfl rfl
  | stop s => cases ht; exact Invariant.of_same (s := s) h rfl rfl rfl rfl rfl rfl
  | hold s => cases ht; exact Invariant.wait h
  | refuse r => cases ht

theorem launch_inv {o : Operation} {ms : List Micro} {s t : State} (h : Invariant s) (ht : launch o ms s = .next t) :
    Invariant t := by
  unfold launch at ht
  split at ht
  · exact settle_inv (runSeq_keeps ms (h.begin o)) ht
  · cases ht

theorem hostAfterReset_wf {s : State} (h : s.host.wf = true) : (hostAfterReset s).wf = true := by
  unfold hostAfterReset
  dsimp only
  split
  · exact Memory.wf_splice (Memory.wf_splice h _ _) _ _
  · exact Memory.wf_splice h _ _

/-- A hardware reset leaves a sound state (rules R43, R271, R287). -/
theorem hardReset_inv {s : State} (h : Invariant s) : Invariant (hardReset s) := by
  have hfl : (hardReset s).fl = deviceAfterReset s := rfl
  refine ⟨?_, hostAfterReset_wf h.hostForm, ?_, ?_, ?_, rfl, ?_, nofun, ⟨Nat.zero_le 8, by simp [hardReset]⟩,
    fun _ => rfl, h.chipWidths.1, clip_clip _ _⟩ <;> rw [hfl] <;> unfold deviceAfterReset <;>
    cases hi : interruptedBlock s with
  | none => first
    | exact h.flashForm
    | exact h.pageSize
    | simp [hardReset]
  | some b =>
    have k := Flash.cutShort_keeps s.cfg s.draws b ((s.drawn 4224).getLsbD 0) s.fl
    first
    | exact k.1 h.flashForm
    | exact k.2.1
    | exact k.2.2.1
    | exact h.pageSize
    | simp [hardReset]

end Sys2Proof.Machine
end

