-- ==== Sys2Proof/Laws/PerInstr.lean ====
section
/-! SUPPORT. The statement families made of one lemma per operation (LAWS.json). `Codec`: under parameters that meet item
U15, the request an operation is encoded as decodes to that operation, whatever its operands. -/

namespace Sys2Proof.Laws

/-- Three address bytes put together (rules R65, R95). -/
theorem addrOf_bytes (a : FlashAddr) : addrOf (addrHigh a) (addrMid a) (addrLow a) = a := by
  simp only [addrOf, addrHigh, addrMid, addrLow]
  ext i hi
  simp only [BitVec.getElem_append, BitVec.getElem_extractLsb']
  rcases Nat.lt_or_ge i 8 with h8 | h8
  · simp [h8, BitVec.getLsbD_eq_getElem, hi]
  · rcases Nat.lt_or_ge i 16 with h16 | h16
    · have e : 8 + (i - 8) = i := by omega
      simp [e, BitVec.getLsbD_eq_getElem, hi, show ¬ i < 8 by omega, show i - 8 < 8 by omega]
    · have e : 16 + (i - 16) = i := by omega
      simp [e, BitVec.getLsbD_eq_getElem, hi, show ¬ i < 8 by omega, show ¬ i - 8 < 8 by omega,
        show i - 8 - 8 = i - 16 by omega]

/-- The other way round. -/
theorem bytes_addrOf (a2 a1 a0 : Byte) :
    addrHigh (addrOf a2 a1 a0) = a2 ∧ addrMid (addrOf a2 a1 a0) = a1 ∧ addrLow (addrOf a2 a1 a0) = a0 := by
  unfold addrHigh addrMid addrLow addrOf
  refine ⟨?_, ?_, ?_⟩ <;> ext i hi <;>
    simp only [BitVec.getElem_extractLsb', BitVec.getLsbD_append]
  · simp [show ¬ 16 + i < 8 by omega, show ¬ 16 + i - 8 < 8 by omega, show 16 + i - 8 - 8 = i by omega,
      BitVec.getLsbD_eq_getElem hi]
  · simp [show ¬ 8 + i < 8 by omega, show 8 + i - 8 = i by omega, hi]
  · simp [hi]

/-- The parameters' codes are distinct where item U15 says so. -/
theorem ok_codes {c : Config} (h : c.ok = true) :
    [c.cmdRead, c.cmdPp, c.cmdSe, c.cmdWren, c.cmdWrdi, c.cmdRdsr].Nodup
      ∧ [c.hcReset, c.hcRead, c.hcWrite, c.hcVerify, c.hcFormat].Nodup
      ∧ c.csAssert ≠ c.csDeassert
      ∧ [c.regOut, c.regIn, c.regCtrl, c.regStat, c.regCs, c.regErr].Nodup := by
  simp only [Config.ok, Bool.and_eq_true, decide_eq_true_eq, bne_iff_ne, ne_eq] at h
  exact ⟨by tauto, by tauto, by tauto, by tauto⟩

namespace Codec

/-- An operation in the form the spec gives it survives being encoded and decoded. -/
def Statement (i : Instr) : Prop :=
  ∀ c : Config, c.ok = true → i.wellFormed c = true → decode c (encode c i) = .instr i

theorem csEn : Statement .csEn := fun c _ _ => by simp [decode, encode, decodeBus, decodeWrite]

theorem csDis : Statement .csDis := fun c h _ => by
  have := (ok_codes h).2.2.1
  simp [decode, encode, decodeBus, decodeWrite, this.symm]

theorem wrByte (b : Byte) : Statement (.wrByte b) := fun c h _ => by
  have := (ok_codes h).2.2.2
  simp only [List.nodup_cons, List.mem_cons, not_or] at this
  have h1 : c.regOut ≠ c.regCs := by tauto
  simp [decode, encode, decodeBus, decodeWrite, h1]

theorem rdByte : Statement .rdByte := fun c h _ => by
  have := (ok_codes h).2.2.2
  simp only [List.nodup_cons, List.mem_cons, not_or] at this
  have h1 : c.regIn ≠ c.regCs := by tauto
  have h2 : c.regIn ≠ c.regOut := fun e => by rw [e] at this; tauto
  simp [decode, encode, decodeBus, decodeWrite, h1, h2]

theorem wrAddr24 (a : FlashAddr) : Statement (.wrAddr24 a) := fun c _ _ => by
  simp [decode, encode, decodeBus, decodeThree, addrOf_bytes]

theorem cmd1 (k : Byte) : Statement (.cmd1 k) := fun c h _ => by
  have := (ok_codes h).2.2.2
  simp only [List.nodup_cons, List.mem_cons, not_or] at this
  have h1 : c.regCs ≠ c.regOut := fun e => by rw [e] at this; tauto
  simp [decode, encode, decodeBus, decodeThree, h1]

theorem wren : Statement .wren := fun c _ _ => by simp [decode, encode, decodeFrame, decodeBare]

theorem wrdi : Statement .wrdi := fun c h _ => by
  have := (ok_codes h).1
  simp only [List.nodup_cons, List.mem_cons, not_or] at this
  have h1 : c.cmdWrdi ≠ c.cmdWren := fun e => by rw [e] at this; tauto
  simp [decode, encode, decodeFrame, decodeBare, h1]

theorem read (a : FlashAddr) (m : BitVec 32) : Statement (.read a m) := fun c h _ => by
  have := (ok_codes h).1
  simp only [List.nodup_cons, List.mem_cons, not_or] at this
  have h1 : c.cmdRead ≠ c.cmdWren := by tauto
  have h2 : c.cmdRead ≠ c.cmdWrdi := by tauto
  simp [decode, encode, decodeFrame, decodeReadFrame, addrOf_bytes, h1, h2]

theorem rdsr (m : BitVec 32) : Statement (.rdsr m) := fun c h _ => by
  have := (ok_codes h).1
  simp only [List.nodup_cons, List.mem_cons, not_or] at this
  have h1 : c.cmdRdsr ≠ c.cmdWren := fun e => by rw [e] at this; tauto
  have h2 : c.cmdRdsr ≠ c.cmdWrdi := fun e => by rw [e] at this; tauto
  have h3 : c.cmdRdsr ≠ c.cmdRead := fun e => by rw [e] at this; tauto
  simp [decode, encode, decodeFrame, decodeStatusFrame, h1, h2, h3]

theorem se (a : FlashAddr) : Statement (.se a) := fun c h _ => by
  have := (ok_codes h).1
  simp only [List.nodup_cons, List.mem_cons, not_or] at this
  have h1 : c.cmdSe ≠ c.cmdWren := by tauto
  have h2 : c.cmdSe ≠ c.cmdWrdi := by tauto
  have h3 : c.cmdSe ≠ c.cmdRead := fun e => by rw [e] at this; tauto
  have h4 : c.cmdSe ≠ c.cmdRdsr := by tauto
  simp [decode, encode, decodeFrame, decodeEraseFrame, addrOf_bytes, h1, h2, h3, h4]

theorem pp (a : FlashAddr) (d : List Byte) : Statement (.pp a d) := fun c h hw => by
  have := (ok_codes h).1
  simp only [List.nodup_cons, List.mem_cons, not_or] at this
  have h1 : c.cmdPp ≠ c.cmdWren := by tauto
  have h2 : c.cmdPp ≠ c.cmdWrdi := by tauto
  have h3 : c.cmdPp ≠ c.cmdRead := fun e => by rw [e] at this; tauto
  have h4 : c.cmdPp ≠ c.cmdRdsr := by tauto
  have h5 : c.cmdPp ≠ c.cmdSe := by tauto
  have hd : d.length ≤ 256 := by simpa [Instr.wellFormed, Instr.pageFits, Instr.commandIsUnknown] using hw
  simp [decode, encode, decodeFrame, decodeProgramFrame, addrOf_bytes, h1, h2, h3, h4, h5, hd]

theorem writableEnter : Statement .writableEnter := fun c _ _ => by simp [decode, encode, decodeEngine]
theorem writableExit : Statement .writableExit := fun c _ _ => by simp [decode, encode, decodeEngine]
theorem waitWip : Statement .waitWip := fun c _ _ => by simp [decode, encode, decodeEngine]
theorem readByte (a : FlashAddr) : Statement (.readByte a) := fun c _ _ => by simp [decode, encode, decodeEngine]
theorem readBurst (a : FlashAddr) : Statement (.readBurst a) := fun c _ _ => by simp [decode, encode, decodeEngine]

theorem readSector (sector : FlashAddr) (dest : HostAddr) : Statement (.readSector sector dest) := fun c _ _ => by
  simp [decode, encode, decodeEngine]

theorem eraseBlock (a : FlashAddr) : Statement (.eraseBlock a) := fun c _ _ => by simp [decode, encode, decodeEngine]

theorem writeData (a : FlashAddr) (p : HostAddr) (n : BitVec 9) : Statement (.writeData a p n) := fun c _ _ => by
  simp [decode, encode, decodeEngine]

theorem writeSector (sector : FlashAddr) (src : HostAddr) : Statement (.writeSector sector src) := fun c _ _ => by
  simp [decode, encode, decodeEngine]

theorem diskReset (lba : Lba) (count : SectorCount) (buf : HostAddr) : Statement (.diskReset lba count buf) :=
  fun c h _ => by
    have := (ok_codes h).2.1
    simp only [List.nodup_cons, List.mem_cons, not_or] at this
    have h1 : c.hcReset ≠ c.hcRead := by tauto
    have h2 : c.hcReset ≠ c.hcWrite := by tauto
    have h3 : c.hcReset ≠ c.hcVerify := by tauto
    have h4 : c.hcReset ≠ c.hcFormat := by tauto
    simp [decode, encode, decodeDisk, h1, h2, h3, h4]

theorem diskRead (lba : Lba) (count : SectorCount) (buf : HostAddr) : Statement (.diskRead lba count buf) :=
  fun c _ _ => by simp [decode, encode, decodeDisk]

theorem diskWrite (lba : Lba) (count : SectorCount) (buf : HostAddr) : Statement (.diskWrite lba count buf) :=
  fun c h _ => by
    have := (ok_codes h).2.1
    simp only [List.nodup_cons, List.mem_cons, not_or] at this
    have h1 : c.hcWrite ≠ c.hcRead := fun e => by rw [e] at this; tauto
    simp [decode, encode, decodeDisk, h1]

theorem diskVerify (lba : Lba) (count : SectorCount) (buf : HostAddr) : Statement (.diskVerify lba count buf) :=
  fun c h _ => by
    have := (ok_codes h).2.1
    simp only [List.nodup_cons, List.mem_cons, not_or] at this
    have h1 : c.hcVerify ≠ c.hcRead := fun e => by rw [e] at this; tauto
    have h2 : c.hcVerify ≠ c.hcWrite := fun e => by rw [e] at this; tauto
    simp [decode, encode, decodeDisk, h1, h2]

theorem diskFormat (lba : Lba) (count : SectorCount) (buf : HostAddr) : Statement (.diskFormat lba count buf) :=
  fun c h _ => by
    have := (ok_codes h).2.1
    simp only [List.nodup_cons, List.mem_cons, not_or] at this
    have h1 : c.hcFormat ≠ c.hcRead := fun e => by rw [e] at this; tauto
    have h2 : c.hcFormat ≠ c.hcWrite := fun e => by rw [e] at this; tauto
    have h3 : c.hcFormat ≠ c.hcVerify := fun e => by rw [e] at this; tauto
    simp [decode, encode, decodeDisk, h1, h2, h3]

theorem diskUnknown (k : Byte) (lba : Lba) (count : SectorCount) (buf : HostAddr) :
    Statement (.diskUnknown k lba count buf) := fun c _ hw => by
  have hk : ¬ k = c.hcReset ∧ ¬ k = c.hcRead ∧ ¬ k = c.hcWrite ∧ ¬ k = c.hcVerify ∧ ¬ k = c.hcFormat := by
    simpa [Instr.wellFormed, Instr.pageFits, Instr.commandIsUnknown] using hw
  simp [decode, encode, decodeDisk, hk]

theorem setup : Statement .setup := fun _ _ _ => rfl

end Codec

end Sys2Proof.Laws
end

