-- ==== Sys2Proof/Laws/Requests.lean ====
section
/-! SUPPORT. What becomes of the L0 requests that are no write of a byte (rules R26, R62, R101, R126). -/

namespace Sys2Proof.Machine

/-- REG_OUT and REG_CS are write only (rules R21, R24, R101). -/
theorem decodePortRead_writeOnly {c : Config} {off : Byte} (h : off = c.regOut ∨ off = c.regCs) :
    decodePortRead c off = .reject .writeOnlyPort := if_pos h

/-- REG_ERR is read by no agent (rules R25, R42). -/
theorem decodePortRead_error {c : Config} (h : [c.regOut, c.regIn, c.regCtrl, c.regStat, c.regCs, c.regErr].Nodup) :
    decodePortRead c c.regErr = .reject .neverReadPort := by
  simp only [List.nodup_cons, List.mem_cons, List.not_mem_nil, or_false, not_or] at h
  obtain ⟨⟨-, -, -, -, h5⟩, ⟨-, -, -, h9⟩, ⟨-, -, h12⟩, ⟨-, h14⟩, h15, -⟩ := h
  simp [decodePortRead, Ne.symm h5, Ne.symm h9, Ne.symm h12, Ne.symm h14, Ne.symm h15]

/-- The offset of each of the other three ports reads that port (rules R21, R23, R26). -/
theorem decodePortRead_offset {c : Config} (h : [c.regOut, c.regIn, c.regCtrl, c.regStat, c.regCs, c.regErr].Nodup)
    (p : ReadablePort) : decodePortRead c (portOffset c p) = .portRead p := by
  simp only [List.nodup_cons, List.mem_cons, List.not_mem_nil, or_false, not_or] at h
  obtain ⟨⟨h1, h2, h3, -⟩, ⟨h6, h7, h8, -⟩, ⟨h10, h11, -⟩, ⟨h13, -⟩, -⟩ := h
  cases p <;> simp [decodePortRead, portOffset, *, Ne.symm h1, Ne.symm h2, Ne.symm h3, Ne.symm h6]

/-- A read of REG_OUT or REG_CS is refused in every state (rule R101). -/
theorem runRequest_busRead_writeOnly {s : State} {off : Byte} (h : off = s.cfg.regOut ∨ off = s.cfg.regCs) :
    runRequest (.busRead off) s = .refused (.undecodable .writeOnlyPort) := by
  simp only [runRequest, decode, decodePortRead_writeOnly h, runUndecoded]

/-- An access of two or four bytes is refused in every state (rules R62, R101). -/
theorem runRequest_busWide (s : State) (off : Byte) (access : WideAccess) :
    runRequest (.busWide off access) s = .refused (.undecodable .notByteWide) := rfl

end Sys2Proof.Machine
end

