-- ==== Sys2Proof/Laws/Waits.lean ====
section
/-! SUPPORT. WR_BYTE and WAIT_WIP under any schedule that is fair (rules R124, R132, R153, R173, R308): whatever turns
SHIFT and FLASH_INT get, and wherever SEQ is paused, they end. -/

namespace Sys2Proof.Machine

/-- What an operation on the bus leaves alone while it waits, the turns used up aside. -/
structure Waited (s t : State) : Prop where
  chip   : t.chip = s.chip
  ctx    : t.ctx = s.ctx
  host   : t.host = s.host
  filled : t.filled = s.filled
  op     : t.op = s.op
  drive  : t.drive = s.drive
  cfg    : t.cfg = s.cfg
  report : t.report = s.report
  seqOp  : t.seq.op = s.seq.op
  openBlock : t.seq.openBlock = s.seq.openBlock
  env    : ∃ k, t.env = { s.env with turns := s.env.turns.drop k }

theorem Waited.refl (s : State) : Waited s s :=
  ⟨rfl, rfl, rfl, rfl, rfl, rfl, rfl, rfl, rfl, rfl, 0, rfl⟩

theorem Waited.trans {s t u : State} (a : Waited s t) (b : Waited t u) : Waited s u := by
  obtain ⟨k, hk⟩ := a.env
  obtain ⟨j, hj⟩ := b.env
  refine ⟨b.chip.trans a.chip, b.ctx.trans a.ctx, b.host.trans a.host, b.filled.trans a.filled, b.op.trans a.op,
    b.drive.trans a.drive, b.cfg.trans a.cfg, b.report.trans a.report, b.seqOp.trans a.seqOp,
    b.openBlock.trans a.openBlock, k + j, ?_⟩
  rw [hj, hk]
  simp

theorem Waited.of_turn {s t : State} (h : takeTurn s = .ok t) : Waited s t := by
  have f := takeTurn_frame h
  exact ⟨f.chip, f.ctx, f.host, f.filled, f.op, f.drive, f.cfg, f.report, by rw [f.seq], by rw [f.seq], 1, by
    rw [takeTurn_env h]; simp⟩

theorem Waited.fair {s t : State} (h : Waited s t) (hf : s.fair) : t.fair := by
  obtain ⟨k, hk⟩ := h.env
  unfold State.fair at *
  rw [hk]; exact hf

theorem Waited.wait {s t : State} (h : Waited s t) (ho : s.seq.openBlock = none) : t.wait = t := by
  have := h.openBlock.trans ho
  simp [State.wait, this]

/-- A pause is one of the turns written down. -/
theorem turns_of_pauses {s : State} (h : s.pauses = true) : s.env.turns ≠ [] := by
  intro e; simp [State.pauses, e] at h

/-! ## WR_BYTE -/

theorem Transmitting.withEnv {b : Byte} {s : State} (h : Transmitting b s) (e : Env) : Transmitting b (s.withEnv e) :=
  ⟨h.busy, h.txDone, h.dir, h.byte, h.bits, h.sub, h.sample, h.mosi⟩

/-- The byte is out or on its way, and the device has what it has of it. -/
def OnWire (b : Byte) (g : Flash) (s : State) : Prop :=
  SentTo b g s ∨ (Transmitting b s ∧ s.fl.receive s.cfg b = .ok g)

/-- How long the poll of WR_BYTE may still take. -/
def State.patience (s : State) : Nat := 100 * s.env.turns.length + (if s.sh.busy then s.sh.left else 0)

theorem OnWire.turn {b : Byte} {g : Flash} {s : State} (h : OnWire b g s) (hg : g.pending = .none) (hf : s.fair) :
    ∃ t, takeTurn s = .ok t ∧ SameButSend s t ∧ OnWire b g t
      ∧ (t.sh.txDone = true → SentTo b g t) ∧ (s.env.turns ≠ [] ∨ t.sh.txDone = false → t.patience < s.patience) := by
  have drop : ∀ t : State, t.env = { s.env with turns := s.env.turns.tail } → s.env.turns ≠ [] →
      t.env.turns.length + 1 = s.env.turns.length := by
    intro t he hne
    rw [he]
    cases h : s.env.turns with
    | nil => exact absurd h hne
    | cons x l => simp
  rcases h with hs | ⟨ht, hr⟩
  · obtain ⟨t, ht, h1, h2, h3, _⟩ := takeTurn_idle hs.busy (by intro a d e; rw [hs.fl, hg] at e; cases e)
    have hfl : t.fl = g := by rw [← hs.fl]; exact h3.eq_of_none (by rw [hs.fl]; exact hg)
    have hd : SentTo b g t := ⟨by rw [h1]; exact hs.busy, by rw [h1]; exact hs.txDone, by rw [h1]; exact hs.bitcnt,
      by rw [h2]; exact hs.sck, by rw [h2]; exact hs.mosi, hfl⟩
    refine ⟨t, ht, ⟨by rw [h1], by rw [h2]⟩, .inl hd, fun _ => hd, fun hc => ?_⟩
    rcases hc with hc | hc
    · have := drop t (takeTurn_env ht) hc
      unfold State.patience
      rw [hd.busy, hs.busy]
      simp only [Bool.false_eq_true, if_false]
      omega
    · rw [hd.txDone] at hc; cases hc
  · have hk := Flash.receive_keeps hr
    have hpend : s.fl.pending = .none := hk.2.1.symm.trans hg
    obtain ⟨u, hu, k, hcase⟩ := shiftRun_sending (n := (s.env.turns.headD s.env.after).shiftSteps)
      (ht.withEnv { s.env with turns := s.env.turns.tail }) hr
    have hup : u.fl.pending = .none := (shiftRun_frame hu).pending.trans hpend
    obtain ⟨t, htt, h1, h2, h3, _⟩ := takeTurn_ok hu (by intro a d e; rw [hup] at e; cases e)
    have hfl : t.fl = u.fl := h3.eq_of_none hup
    have hsame : SameButSend s t := by
      unfold SameButSend at k ⊢
      rw [h1, h2]; exact k
    have hcfg : t.cfg = s.cfg := (takeTurn_frame htt).cfg
    rcases hcase with hd | ⟨hs, hl, hf'⟩
    · have hd : SentTo b g t := ⟨by rw [h1]; exact hd.busy, by rw [h1]; exact hd.txDone, by rw [h1]; exact hd.bitcnt,
        by rw [h2]; exact hd.sck, by rw [h2]; exact hd.mosi, hfl.trans hd.fl⟩
      refine ⟨t, htt, hsame, .inl hd, fun _ => hd, fun hc => ?_⟩
      rcases hc with hc | hc
      · have := drop t (takeTurn_env htt) hc
        have := ht.left_pos
        unfold State.patience
        rw [hd.busy, ht.busy]
        simp only [Bool.false_eq_true, if_false, if_true]
        omega
      · rw [hd.txDone] at hc; cases hc
    · have hs' : Transmitting b t := ⟨by rw [h1]; exact hs.busy, by rw [h1]; exact hs.txDone, by rw [h1]; exact hs.dir,
        by rw [h1]; exact hs.byte, by rw [h1]; exact hs.bits, by rw [h1]; exact hs.sub, by rw [h1]; exact hs.sample,
        by rw [h1, h2]; exact hs.mosi⟩
      refine ⟨t, htt, hsame, .inr ⟨hs', by rw [hfl, hf', hcfg]; exact hr⟩, fun e => ?_, fun _ => ?_⟩
      · rw [hs'.txDone] at e; cases e
      · have hl' : t.sh.left + (s.env.turns.headD s.env.after).shiftSteps = s.sh.left := by rw [h1]; exact hl
        unfold State.patience
        rw [hs'.busy, ht.busy, takeTurn_env htt]
        simp only [if_true]
        have := ht.left_pos
        cases hturn : s.env.turns with
        | nil =>
          rw [hturn] at hl'
          have := hf.1
          simp only [List.headD_nil] at hl'
          simp only [List.tail_nil, List.length_nil]
          omega
        | cons x l =>
          simp only [List.tail_cons, List.length_cons]
          omega

/-- The poll of WR_BYTE ends (rules R123, R132). -/
theorem gets_pollTx {b : Byte} {g : Flash} {prog : List Micro} {s : State} (hp : prog.drop s.seq.pos = [.pollTx])
    (hf : s.fair) (ho : s.seq.openBlock = none) (hg : g.pending = .none) (h : OnWire b g s) :
    ∃ u, Gets prog s u ∧ Waited s u ∧ SentTo b g u ∧ SameButSend s u := by
  generalize hn : s.patience = n
  induction n using Nat.strong_induction_on generalizing s with
  | _ n ih =>
    obtain ⟨t, ht, hsame, hw, hdone, hless⟩ := h.turn hg hf
    have w1 := Waited.of_turn ht
    have hseq : t.seq = s.seq := (takeTurn_frame ht).seq
    by_cases hpause : s.pauses = true
    · have htick : tick .pollTx s = .hold t := by simp [tick, Micro.isExternal, ht, hpause]
      obtain ⟨u, hu, w2, hd, k2⟩ := ih t.patience (by rw [← hn]; exact hless (.inl (turns_of_pauses hpause)))
        (by rw [hseq]; exact hp) (w1.fair hf) (w1.openBlock.trans ho) hw rfl
      refine ⟨u, .hold hp htick (by rw [w1.wait ho]; exact hu), w1.trans w2, hd, hsame.trans k2⟩
    · have hpause : s.pauses = false := by simpa using hpause
      have w2 : Waited t (pollStat t) := ⟨rfl, rfl, rfl, rfl, rfl, rfl, rfl, rfl, rfl, rfl, 0, rfl⟩
      cases htx : t.sh.txDone with
      | true =>
        have hd := hdone htx
        have htick : tick .pollTx s = .go (pollStat t) := by
          rw [tick_of_external rfl hpause ht]; simp [act, actPollTx, htx]
        refine ⟨(pollStat t).advance .pollTx, .go hp htick (.done ?_), w1.trans ⟨rfl, rfl, rfl, rfl, rfl, rfl, rfl, rfl, rfl, rfl, 0,
          rfl⟩, ⟨hd.busy, hd.txDone, hd.bitcnt, hd.sck, hd.mosi, hd.fl⟩, hsame⟩
        show prog.drop (t.seq.pos + 1) = []
        rw [hseq]; exact drop_succ_of hp
      | false =>
        have htick : tick .pollTx s = .hold (pollStat t) := by
          rw [tick_of_external rfl hpause ht]; simp [act, actPollTx, htx]
        obtain ⟨u, hu, w3, hd, k3⟩ := ih t.patience (by rw [← hn]; exact hless (.inr htx)) (s := pollStat t)
          (by show prog.drop t.seq.pos = _; rw [hseq]; exact hp) (w1.fair hf) (w1.openBlock.trans ho) (by
            rcases hw with hd | ⟨hs, hr⟩
            · exact .inl ⟨hd.busy, hd.txDone, hd.bitcnt, hd.sck, hd.mosi, hd.fl⟩
            · exact .inr ⟨⟨hs.busy, hs.txDone, hs.dir, hs.byte, hs.bits, hs.sub, hs.sample, hs.mosi⟩, hr⟩) rfl
        exact ⟨u, .hold hp htick (by rw [(w1.trans w2).wait ho]; exact hu), (w1.trans w2).trans w3, hd, hsame.trans k3⟩

/-- While nothing is being shifted and nothing is pending, pauses only use up turns. -/
theorem gets_pauses {m : Micro} {ms prog : List Micro} {s : State} (hp : prog.drop s.seq.pos = m :: ms)
    (he : m.isExternal = true) (ho : s.seq.openBlock = none) (hb : s.sh.busy = false) (hpend : s.fl.pending = .none) :
    ∃ s' t, (∀ u, Gets prog s' u → Gets prog s u) ∧ tick m s' = act m t ∧ s'.seq = s.seq ∧ Waited s t ∧ t.seq = s.seq
      ∧ t.sh = s.sh ∧ t.wire = s.wire ∧ t.fl = s.fl := by
  generalize hn : s.env.turns.length = n
  induction n generalizing s with
  | zero =>
    have hnil : s.env.turns = [] := List.eq_nil_of_length_eq_zero hn
    obtain ⟨t, ht, h1, h2, h3, _⟩ := takeTurn_idle hb (by intro a d e; rw [hpend] at e; cases e)
    exact ⟨s, t, fun _ h => h, tick_of_external he (by simp [State.pauses, hnil]) ht, rfl, Waited.of_turn ht,
      (takeTurn_frame ht).seq, h1, h2, h3.eq_of_none hpend⟩
  | succ n ih =>
    obtain ⟨t, ht, h1, h2, h3, _⟩ := takeTurn_idle hb (by intro a d e; rw [hpend] at e; cases e)
    have h3 := h3.eq_of_none hpend
    have w := Waited.of_turn ht
    have hseq := (takeTurn_frame ht).seq
    by_cases hpause : s.pauses = true
    · have htick : tick m s = .hold t := by simp [tick, he, ht, hpause]
      obtain ⟨s', u, g1, g2, g3, g4, g5, g6, g7, g8⟩ := ih (s := t) (by rw [hseq]; exact hp) (w.openBlock.trans ho)
        (by rw [h1]; exact hb) (by rw [h3]; exact hpend) (by
          rw [takeTurn_env ht]
          cases h : s.env.turns with
          | nil => rw [h] at hn; cases hn
          | cons x l => rw [h] at hn; simpa using hn)
      exact ⟨s', u, fun v hv => .hold hp htick (by rw [w.wait ho]; exact g1 v hv), g2, g3.trans hseq, w.trans g4,
        g5.trans hseq, g6.trans h1, g7.trans h2, g8.trans h3⟩
    · exact ⟨s, t, fun _ h => h, tick_of_external he (by simpa using hpause) ht, rfl, w, hseq, h1, h2, h3⟩

theorem sendRefusal_congr {b : Byte} {s t : State} (h1 : t.ctx = s.ctx) (h2 : t.cfg = s.cfg) (h3 : t.chip = s.chip)
    (h4 : t.sh = s.sh) (h5 : t.fl = s.fl) : sendRefusal b t = sendRefusal b s := by
  have e : t.portFits = s.portFits := by funext x; unfold State.portFits State.port; rw [h1]
  unfold sendRefusal busRefusal State.canTransfer State.unlocked State.statusByteNext
  rw [e, h1, h2, h3, h4, h5]

/-- WR_BYTE ends (rules R124, R132, R308): the byte is out and the device has taken it. -/
theorem gets_sendByte {b : Byte} {f : Flash} {prog : List Micro} {s : State}
    (hp : prog.drop s.seq.pos = [.out (.lit b), .pollTx]) (hf : s.fair) (ho : s.seq.openBlock = none)
    (hb : s.sh.busy = false) (hpend : s.fl.pending = .none) (hs : sendRefusal b s = none)
    (hr : s.fl.receive s.cfg b = .ok f) :
    ∃ u, Gets prog s u ∧ Waited s u ∧ SentTo b f u
      ∧ SameButSend (s.withSh { s.sh with
          txd := b, shift := b, dir := u.sh.dir, mosiByte := u.sh.mosiByte, misoByte := u.sh.misoByte }) u := by
  obtain ⟨s', t, g1, g2, g3, g4, g5, g6, g7, g8⟩ := gets_pauses hp rfl ho hb hpend
  have hst : sendRefusal b t = none := by rw [sendRefusal_congr g4.ctx g4.cfg g4.chip g6 g8]; exact hs
  let v : State := ((startTransmit b t).saw (.portOut (t.port t.cfg.regOut) b))
  have htick : tick (.out (.lit b)) s' = .go v := by
    rw [g2]; simp [act, actOut, guardBy, hst, sourceByte, v]
  have hsample : ∀ b : Byte, (0 : Byte) = b >>> 8 := by decide +kernel
  have hw : OnWire b f (v.advance (.out (.lit b))) := .inr ⟨⟨rfl, rfl, rfl, rfl, ⟨by show 1 ≤ 8; decide, by show 8 ≤ 8; decide⟩, by show 0 ≤ 2; decide,
    hsample b, fun e => absurd rfl e⟩, by show t.fl.receive t.cfg b = _; rw [g8, g4.cfg]; exact hr⟩
  have wv : Waited t (v.advance (.out (.lit b))) := ⟨rfl, rfl, rfl, rfl, rfl, rfl, rfl, rfl, rfl, rfl, 0, rfl⟩
  obtain ⟨u, hu, w, hd, k⟩ := gets_pollTx (prog := prog) (s := v.advance (.out (.lit b)))
    (by show prog.drop (t.seq.pos + 1) = _; rw [g5]; exact drop_succ_of hp) ((g4.trans wv).fair hf)
    ((g4.trans wv).openBlock.trans ho) ((Flash.receive_keeps hr).2.1.trans hpend) hw
  refine ⟨u, g1 u (.go (by rw [g3]; exact hp) htick hu), (g4.trans wv).trans w, hd, ?_, ?_⟩
  · have k1 := k.1
    have e : (v.advance (.out (.lit b))).sh = { s.sh with
        txd := b, txDone := false, shift := b, bitcnt := 8, busy := true
        dir := .transmit, sub := 0, mosiByte := b, misoByte := t.freeByte, sample := 0 } := by
      rw [← g6]; rfl
    rw [k1, e]
    rfl
  · rw [k.2]
    show t.wire.csn = _
    rw [g7]
    rfl

/-! ## WAIT_WIP -/

/-- A status byte that showed WIP = 0 did so because WIP is 0. -/
def Flash.Told (f : Flash) : Prop := f.sentWip = false → f.wip = false

theorem Flash.Later.wip {c : Config} {f g : Flash} (h : f.Later c g) (k : f.wip = false) : g.wip = false := by
  rcases h with rfl | ⟨n, h⟩
  · exact k
  · by_cases hp : f.pending = .none
    · rw [(Flash.complete_cases h).2.2.1 hp]; exact k
    · exact (Flash.complete_cases h).2.2.2 hp

theorem Flash.Told.later {c : Config} {f g : Flash} (h : f.Told) (k : f.Later c g) : g.Told :=
  fun e => k.wip (h (k.frame.sentWip.symm.trans e))

/-- Where WAIT_WIP may stand, by the action that comes next: what the shift engine and the device are doing. -/
def Stands (c : Config) (s : State) : Nat → Prop
  | 0 => s.sh.cs = false ∧ s.fl.phase = .idle ∧ s.sh.busy = false
  | 1 => s.sh.cs = false ∧ s.fl.phase = .idle ∧ s.sh.busy = false
  | 2 => s.sh.cs = true ∧ s.fl.phase = .cmd ∧ s.sh.busy = false
  | 3 => s.sh.cs = true ∧ s.sh.txd = c.cmdRdsr ∧ ((Transmitting c.cmdRdsr s ∧ s.fl.phase = .cmd)
      ∨ (s.sh.busy = false ∧ s.sh.txDone = true ∧ s.fl.phase = .dataOut ∧ s.fl.cmd = c.cmdRdsr))
  | 4 => s.sh.cs = true ∧ s.sh.txd = c.cmdRdsr ∧ s.sh.busy = false ∧ s.fl.phase = .dataOut ∧ s.fl.cmd = c.cmdRdsr
  | 5 => s.sh.cs = true ∧ s.sh.txd = c.cmdRdsr ∧ s.fl.phase = .dataOut ∧ s.fl.cmd = c.cmdRdsr
      ∧ ((Receiving s ∧ (s.sh.fresh = true ∨ s.fl.Told)) ∨ (s.sh.busy = false ∧ s.sh.rxReady = true ∧ s.sh.fresh = false ∧ s.fl.Told))
  | 6 => s.sh.cs = true ∧ s.sh.txd = c.cmdRdsr ∧ s.sh.busy = false ∧ s.fl.phase = .dataOut ∧ s.fl.cmd = c.cmdRdsr ∧ s.fl.Told
  | 7 => s.sh.cs = true ∧ s.sh.txd = c.cmdRdsr ∧ s.sh.busy = false ∧ s.fl.phase = .dataOut ∧ s.fl.cmd = c.cmdRdsr
      ∧ (s.seq.wipSeen = false → s.fl.wip = false)
  | _ => s.sh.cs = false ∧ s.sh.txd = c.cmdRdsr ∧ s.sh.busy = false ∧ s.fl.phase = .idle
      ∧ (s.seq.wipSeen = false → s.fl.wip = false)

/-- WAIT_WIP, begun in `s`, is in progress in `t`. -/
structure InPoll (s t : State) : Prop where
  waited : Waited s t
  ctrl   : t.sh.ctrl = s.sh.ctrl
  line   : t.wire.csn = !t.sh.cs
  under  : Flash.Under s.cfg s.fl t.fl
  stands : Stands s.cfg t t.seq.pos

/-- The poll still to come: whether the loop may have to go round again, and how often. -/
def State.rounds (s : State) : Nat :=
  if s.fl.wip then (if s.seq.pos = 8 then 3 else 2)
  else if (s.seq.pos = 5 ∧ s.sh.fresh = false ∧ s.fl.sentWip = true) ∨ (s.seq.pos = 6 ∧ s.fl.sentWip = true)
    ∨ (7 ≤ s.seq.pos ∧ s.seq.wipSeen = true) then 1 else 0

/-- After RD_BYTE the rounds left are as few as before it: the bit that was read stands already. -/
theorem State.rounds_le {u t : State} (hu : u.fl.wip = false) (ht : t.fl.wip = false) (hpc : 7 ≤ u.seq.pos)
    (h : u.seq.wipSeen = true → (t.seq.pos = 6 ∧ t.fl.sentWip = true) ∨ (7 ≤ t.seq.pos ∧ t.seq.wipSeen = true)) :
    u.rounds ≤ t.rounds := by
  unfold State.rounds
  simp only [hu, ht, Bool.false_eq_true, if_false]
  by_cases hs : u.seq.wipSeen = true
  · have h' := h hs
    rw [if_pos (c := _ ∨ _ ∨ (7 ≤ t.seq.pos ∧ _)) (.inr h')]
    split <;> omega
  · rw [if_neg]
    · exact Nat.zero_le _
    · intro e
      rcases e with e | e | e
      · omega
      · omega
      · exact hs e.2

/-- How far it is to the end of the round. -/
def State.distance (s : State) : Nat := 30 * (9 - s.seq.pos) + (if s.sh.busy then s.sh.left else 0)

/-- How long WAIT_WIP may still take. -/
def State.pollPatience (s : State) : Nat := 10000 * s.env.turns.length + 1000 * s.rounds + s.distance

/-- Every action of WAIT_WIP before which there is a turn makes it shorter. -/
theorem pollPatience_turn {s t : State} (hf : s.fair) (hpc : s.seq.pos ≤ 7) (henv : t.env = { s.env with turns := s.env.turns.tail })
    (hl : s.sh.busy = true → s.sh.left ≤ 24) (hl' : t.sh.busy = true → t.sh.left ≤ 24)
    (hint : (s.env.turns.headD s.env.after).flashInt = true → t.fl.wip = false)
    (hseen : s.fl.wip = false → t.rounds ≤ s.rounds) (hdist : s.env.turns = [] → t.distance < s.distance) :
    t.pollPatience < s.pollPatience := by
  have hr : t.rounds ≤ 3 := by unfold State.rounds; repeat' split
                               all_goals omega
  have hd : t.distance ≤ 294 := by
    unfold State.distance
    split
    · rename_i h; have := hl' h; omega
    · omega
  unfold State.pollPatience
  rw [henv]
  cases h : s.env.turns with
  | cons x l =>
    simp only [List.tail_cons, List.length_cons]
    omega
  | nil =>
    have h1 := hdist h
    rw [h, List.headD_nil] at hint
    have ht := hint hf.2
    have hd' : s.distance ≤ 294 := by
      unfold State.distance
      split
      · rename_i h; have := hl h; omega
      · omega
    simp only [List.tail_nil, List.length_nil]
    cases hw : s.fl.wip with
    | false =>
      have := hseen hw
      omega
    | true =>
      have h2 : s.rounds = 2 := by unfold State.rounds; rw [hw]; simp only [if_true]; rw [if_neg (by omega)]
      have h3 : t.rounds ≤ 1 := by
        unfold State.rounds; rw [ht]; simp only [Bool.false_eq_true, if_false]
        split <;> omega
      omega

/-- A turn while no byte is being shifted leaves WAIT_WIP where it stands. -/
theorem Stands.idle {c c' : Config} {s t : State} {n : Nat} (h : Stands c s n) (hb : s.sh.busy = false) (h1 : t.sh = s.sh)
    (h2 : t.seq = s.seq) (h3 : s.fl.Later c' t.fl) : Stands c t n := by
  have f := h3.frame
  match n, h with
  | 0, h => exact ⟨by rw [h1]; exact h.1, f.phase.trans h.2.1, by rw [h1]; exact hb⟩
  | 1, h => exact ⟨by rw [h1]; exact h.1, f.phase.trans h.2.1, by rw [h1]; exact hb⟩
  | 2, h => exact ⟨by rw [h1]; exact h.1, f.phase.trans h.2.1, by rw [h1]; exact hb⟩
  | 3, ⟨a1, a2, h⟩ =>
    rcases h with ⟨h, _⟩ | ⟨_, a3, a4, a5⟩
    · exact absurd (hb.symm.trans h.busy) (by simp)
    · exact ⟨by rw [h1]; exact a1, by rw [h1]; exact a2,
        .inr ⟨by rw [h1]; exact hb, by rw [h1]; exact a3, f.phase.trans a4, f.cmd.trans a5⟩⟩
  | 4, ⟨a1, a2, _, a4, a5⟩ =>
    exact ⟨by rw [h1]; exact a1, by rw [h1]; exact a2, by rw [h1]; exact hb, f.phase.trans a4, f.cmd.trans a5⟩
  | 5, ⟨a1, a2, a4, a5, h⟩ =>
    rcases h with ⟨h, _⟩ | ⟨_, a6, a7, a8⟩
    · exact absurd (hb.symm.trans h.busy) (by simp)
    · exact ⟨by rw [h1]; exact a1, by rw [h1]; exact a2, f.phase.trans a4, f.cmd.trans a5,
        .inr ⟨by rw [h1]; exact hb, by rw [h1]; exact a6, by rw [h1]; exact a7, a8.later h3⟩⟩
  | 6, ⟨a1, a2, _, a4, a5, a6⟩ =>
    exact ⟨by rw [h1]; exact a1, by rw [h1]; exact a2, by rw [h1]; exact hb, f.phase.trans a4, f.cmd.trans a5, a6.later h3⟩
  | 7, ⟨a1, a2, _, a4, a5, a6⟩ =>
    exact ⟨by rw [h1]; exact a1, by rw [h1]; exact a2, by rw [h1]; exact hb, f.phase.trans a4, f.cmd.trans a5,
      fun e => h3.wip (a6 (by rw [← h2]; exact e))⟩
  | n + 8, ⟨a1, a2, _, a4, a6⟩ =>
    exact ⟨by rw [h1]; exact a1, by rw [h1]; exact a2, by rw [h1]; exact hb, f.phase.trans a4,
      fun e => h3.wip (a6 (by rw [← h2]; exact e))⟩

/-- What a turn does to WAIT_WIP in progress. -/
structure PollTurn (s0 s t : State) : Prop where
  turn  : takeTurn s = .ok t
  poll  : InPoll s0 t
  seq   : t.seq = s.seq
  seen  : s.fl.wip = false → t.fl.wip = false ∧ t.rounds ≤ s.rounds
  int   : (s.env.turns.headD s.env.after).flashInt = true → t.fl.wip = false
  left  : t.sh.busy = true → t.sh.left ≤ 24 ∧ s.sh.busy = true ∧ (s.env.turns = [] → t.sh.left < s.sh.left)
  left' : s.sh.busy = true → 1 ≤ s.sh.left ∧ s.sh.left ≤ 24

theorem InPoll.rounds_of_seen {s t : State} (h1 : t.seq = s.seq) (hw : s.fl.wip = false) (hw' : t.fl.wip = false)
    (h2 : s.seq.pos = 5 → t.sh.fresh = false → t.fl.sentWip = true → s.sh.fresh = false ∧ s.fl.sentWip = true)
    (h3 : s.seq.pos = 6 → t.fl.sentWip = s.fl.sentWip) : t.rounds ≤ s.rounds := by
  unfold State.rounds
  rw [hw, hw', h1]
  simp only [Bool.false_eq_true, if_false]
  split
  · rename_i h
    rw [if_pos]
    rcases h with ⟨a, b, c⟩ | ⟨a, b⟩ | h
    · exact .inl ⟨a, h2 a b c⟩
    · exact .inr (.inl ⟨a, by rw [← h3 a]; exact b⟩)
    · exact .inr (.inr h)
  · omega

theorem poll_turn {s0 s : State} (hok : s0.cfg.ok = true) (hf : s0.fair) (hfits : s0.fl.Fits)
    (hpw : s0.fl.wip = true ↔ s0.fl.pending ≠ .none) (h : InPoll s0 s) (hpc : s.seq.pos ≤ 7) : ∃ t, PollTurn s0 s t := by
  have hcm := Config.ok_commands hok
  have fair := h.waited.fair hf
  have key : ∀ {t : State}, InPoll s0 t → t.fl.pending = .none → t.fl.wip = false := fun {t} ht hp => by
    have := ht.under.pendingWip hpw
    cases hw : t.fl.wip with
    | false => rfl
    | true => exact absurd hp (this.1 hw)
  by_cases hb : s.sh.busy = false
  · obtain ⟨t, ht, h1, h2, h3, h4⟩ := takeTurn_idle hb (h.under.fits hfits)
    have hseq := (takeTurn_frame ht).seq
    have hc : s.cfg = s0.cfg := h.waited.cfg
    rw [hc] at h3
    have hin : InPoll s0 t := ⟨h.waited.trans (.of_turn ht), by rw [h1]; exact h.ctrl, by rw [h2, h1]; exact h.line,
      h.under.later h3, by rw [hseq]; exact h.stands.idle hb h1 hseq h3⟩
    refine ⟨t, ht, hin, hseq, fun hw => ⟨h3.wip hw, InPoll.rounds_of_seen hseq hw (h3.wip hw) (fun _ a b => ?_)
      (fun _ => h3.frame.sentWip)⟩, fun e => key hin (h4 e), fun e => ?_, fun e => ?_⟩
    · rw [h1] at a; exact ⟨a, by rw [← h3.frame.sentWip]; exact b⟩
    · rw [h1, hb] at e; cases e
    · rw [hb] at e; cases e
  · have hst := h.stands
    have hc : s.cfg = s0.cfg := h.waited.cfg
    have cases35 : s.seq.pos = 3 ∨ s.seq.pos = 5 := by
      generalize hn : s.seq.pos = n at hst hpc
      match n, hst with
      | 0, a => exact absurd a.2.2 hb
      | 1, a => exact absurd a.2.2 hb
      | 2, a => exact absurd a.2.2 hb
      | 3, _ => exact .inl rfl
      | 4, a => exact absurd a.2.2.1 hb
      | 5, _ => exact .inr rfl
      | 6, a => exact absurd a.2.2.1 hb
      | 7, a => exact absurd a.2.2.1 hb
      | n + 8, _ => omega
    rcases cases35 with h3 | h5
    · rw [h3] at hst
      obtain ⟨a1, a2, ⟨htx, hph⟩ | ⟨a3, _⟩⟩ := hst
      swap
      · exact absurd a3 hb
      have hrec : s.fl.receive s0.cfg s0.cfg.cmdRdsr = .ok { s.fl with cmd := s0.cfg.cmdRdsr, phase := .dataOut } := by
        have p : phaseAfterCommand s0.cfg s0.cfg.cmdRdsr = .dataOut := by
          unfold phaseAfterCommand
          rw [if_neg (by rintro (e | e) <;> simp [e] at hcm), if_pos rfl]
        simp [Flash.receive, hph, Flash.commandByte, p]
      obtain ⟨u, hu, k, hcase⟩ := shiftRun_sending (n := (s.env.turns.headD s.env.after).shiftSteps)
        (htx.withEnv { s.env with turns := s.env.turns.tail }) (by rw [← hc] at hrec; rw [← hc]; exact hrec)
      have hk : s.fl.SameArray u.fl ∧ u.fl.sentWip = s.fl.sentWip := by
        rcases hcase with hd | ⟨_, _, hf'⟩
        · rw [hd.fl]; exact ⟨⟨rfl, rfl, rfl, rfl⟩, rfl⟩
        · rw [hf']; exact ⟨⟨rfl, rfl, rfl, rfl⟩, rfl⟩
      obtain ⟨t, ht, h1, h2, hl, h4⟩ := takeTurn_ok hu ((h.under.same hk.1).fits hfits)
      have hseq := (takeTurn_frame ht).seq
      rw [hc] at hl
      have hcs : t.sh.cs = s.sh.cs := by rw [h1, k.1]; rfl
      have hin : InPoll s0 t := by
        refine ⟨h.waited.trans (.of_turn ht), ?_, ?_, (h.under.same hk.1).later hl, ?_⟩
        · rw [h1, k.1]; exact h.ctrl
        · rw [hcs, h2, k.2]; exact h.line
        · rw [hseq, h3]
          refine ⟨hcs.trans a1, by rw [h1, k.1]; exact a2, ?_⟩
          rcases hcase with hd | ⟨hs, _, hf'⟩
          · exact .inr ⟨by rw [h1]; exact hd.busy, by rw [h1]; exact hd.txDone, by rw [hl.frame.phase, hd.fl],
              by rw [hl.frame.cmd, hd.fl]; exact congrArg Config.cmdRdsr hc⟩
          · exact .inl ⟨⟨by rw [h1]; exact hs.busy, by rw [h1]; exact hs.txDone, by rw [h1]; exact hs.dir,
              by rw [h1]; exact hs.byte, by rw [h1]; exact hs.bits, by rw [h1]; exact hs.sub, by rw [h1]; exact hs.sample,
              by rw [h1, h2]; exact hs.mosi⟩, by rw [hl.frame.phase, hf']; exact hph⟩
      refine ⟨t, ht, hin, hseq, fun hw => ?_, fun e => key hin (h4 e), fun e => ?_, fun _ => htx.left_pos⟩
      · have hw' : t.fl.wip = false := hl.wip (hk.1.wip.trans hw)
        exact ⟨hw', InPoll.rounds_of_seen hseq hw hw' (fun e => by omega) (fun e => by omega)⟩
      · rw [h1] at e ⊢
        rcases hcase with hd | ⟨hs, hlen, _⟩
        · rw [hd.busy] at e; cases e
        · refine ⟨hs.left_pos.2, htx.busy, fun hnil => ?_⟩
          have hlen : u.sh.left + (s.env.turns.headD s.env.after).shiftSteps = s.sh.left := hlen
          rw [hnil, List.headD_nil] at hlen
          have := fair.1
          omega
    · rw [h5] at hst
      obtain ⟨a1, a2, a4, a5, ⟨hrx, hfr⟩ | ⟨a3, _⟩⟩ := hst
      swap
      · exact absurd a3 hb
      have hne : s0.cfg.cmdRdsr ≠ s0.cfg.cmdRead := fun e => hcm.2.2.2.2.1 e.symm
      obtain ⟨u, hu, k, hfl, hfresh, h0, hcase⟩ := shiftRun_receiving (n := (s.env.turns.headD s.env.after).shiftSteps)
        (s := s.withEnv { s.env with turns := s.env.turns.tail }) ⟨hrx.busy, hrx.rxReady, hrx.dir, hrx.bits, hrx.sub⟩
      have hab : s.fl.afterByteOut s.cfg = { s.fl with sentWip := s.fl.wip } := by
        simp [Flash.afterByteOut, a5, hc, hne]
      have hufl : (u.fl = s.fl ∧ (s.sh.fresh = true → u.sh.fresh = true ∧ u.sh.busy = true))
          ∨ (s.sh.fresh = true ∧ u.fl = { s.fl with sentWip := s.fl.wip }) := by
        rw [hfl]
        unfold State.flAfter
        by_cases hn : (s.env.turns.headD s.env.after).shiftSteps = 0
        · rw [if_neg (fun e => e.2 hn)]
          refine .inl ⟨rfl, fun e => ?_⟩
          rw [h0 hn]
          exact ⟨e, hrx.busy⟩
        · by_cases hfs : s.sh.fresh = true
          · rw [if_pos ⟨hfs, hn⟩]
            exact .inr ⟨hfs, hab⟩
          · rw [if_neg (fun e => hfs e.1)]
            exact .inl ⟨rfl, fun e => absurd e hfs⟩
      have hk : s.fl.SameArray u.fl ∧ u.fl.phase = s.fl.phase ∧ u.fl.cmd = s.fl.cmd := by
        rcases hufl with ⟨e, _⟩ | ⟨_, e⟩ <;> rw [e] <;> exact ⟨⟨rfl, rfl, rfl, rfl⟩, rfl, rfl⟩
      have htold : u.sh.fresh = true ∨ u.fl.Told := by
        rcases hufl with ⟨e, e'⟩ | ⟨_, e⟩
        · rcases hfr with hfr | hfr
          · exact .inl (e' hfr).1
          · rw [e]; exact .inr hfr
        · rw [e]; exact .inr fun x => x
      obtain ⟨t, ht, h1, h2, hl, h4⟩ := takeTurn_ok hu ((h.under.same hk.1).fits hfits)
      have hseq := (takeTurn_frame ht).seq
      rw [hc] at hl
      have hcs : t.sh.cs = s.sh.cs := by rw [h1, k.1]; rfl
      have hin : InPoll s0 t := by
        refine ⟨h.waited.trans (.of_turn ht), ?_, ?_, (h.under.same hk.1).later hl, ?_⟩
        · rw [h1, k.1]; exact h.ctrl
        · rw [hcs, h2, k.2]; exact h.line
        · rw [hseq, h5]
          refine ⟨hcs.trans a1, by rw [h1, k.1]; exact a2, by rw [hl.frame.phase, hk.2.1]; exact a4,
            by rw [hl.frame.cmd, hk.2.2]; exact a5, ?_⟩
          rcases hcase with ⟨hd, hr⟩ | ⟨hs, _⟩
          · have hnf : u.sh.fresh = false := by
              by_cases hn : (s.env.turns.headD s.env.after).shiftSteps = 0
              · rw [h0 hn] at hd; exact absurd (hrx.busy.symm.trans hd) (by simp)
              · exact hfresh hn
            refine .inr ⟨by rw [h1]; exact hd, by rw [h1]; exact hr, by rw [h1]; exact hnf, ?_⟩
            rcases htold with e | e
            · rw [hnf] at e; cases e
            · exact e.later hl
          · refine .inl ⟨⟨by rw [h1]; exact hs.busy, by rw [h1]; exact hs.rxReady, by rw [h1]; exact hs.dir,
              by rw [h1]; exact hs.bits, by rw [h1]; exact hs.sub⟩, ?_⟩
            rcases htold with e | e
            · exact .inl (by rw [h1]; exact e)
            · exact .inr (e.later hl)
      have hleft : ∀ {x : State}, Receiving x → 1 ≤ x.sh.left ∧ x.sh.left ≤ 24 := fun {x} hx => by
        have := hx.bits; have := hx.sub
        unfold ShiftEngine.left; omega
      refine ⟨t, ht, hin, hseq, fun hw => ?_, fun e => key hin (h4 e), fun e => ?_, fun _ => hleft hrx⟩
      · have hw' : t.fl.wip = false := hl.wip (hk.1.wip.trans hw)
        refine ⟨hw', InPoll.rounds_of_seen hseq hw hw' (fun _ a b => ?_) (fun e => by omega)⟩
        rw [h1] at a
        rw [hl.frame.sentWip] at b
        rcases hufl with ⟨e, e'⟩ | ⟨_, e⟩
        · rw [e] at b
          refine ⟨?_, b⟩
          cases hfs : s.sh.fresh with
          | false => rfl
          | true => exact absurd ((e' hfs).1.symm.trans a) (by simp)
        · rw [e] at b
          exact absurd (hw.symm.trans b) (by simp)
      · rw [h1] at e ⊢
        rcases hcase with ⟨hd, _⟩ | ⟨hs, hlen⟩
        · rw [hd] at e; cases e
        · refine ⟨(hleft hs).2, hrx.busy, fun hnil => ?_⟩
          have hlen : u.sh.left + (s.env.turns.headD s.env.after).shiftSteps = s.sh.left := hlen
          rw [hnil, List.headD_nil] at hlen
          have := fair.1
          omega

/-- One action of WAIT_WIP under way: done or held, it is still WAIT_WIP, with less patience asked. -/
def PollStep (m : Micro) (s0 s : State) : Prop :=
  ∃ t, (tick m s = .go t ∧ InPoll s0 (t.advance m) ∧ (t.advance m).pollPatience < s.pollPatience)
    ∨ (tick m s = .hold t ∧ InPoll s0 t ∧ t.pollPatience < s.pollPatience)

/-- What an action does after its turn decides it; a pause costs a turn. -/
theorem PollTurn.step {m : Micro} {s0 s t : State} (p : PollTurn s0 s t) (hf : s.fair) (hpc : s.seq.pos ≤ 7)
    (he : m.isExternal = true)
    (h : (∃ u, act m t = .go u ∧ InPoll s0 (u.advance m) ∧ u.env = t.env ∧ u.fl.wip = t.fl.wip
          ∧ (t.fl.wip = false → (u.advance m).rounds ≤ t.rounds) ∧ u.seq.pos = t.seq.pos
          ∧ (u.sh.busy = true → u.sh.left ≤ 24 ∧ t.seq.pos < 7 ∧ t.sh.busy = false))
      ∨ ∃ u, act m t = .hold u ∧ InPoll s0 u ∧ u.env = t.env ∧ u.fl = t.fl ∧ u.sh = t.sh ∧ u.seq.pos = t.seq.pos
          ∧ u.rounds = t.rounds ∧ t.sh.busy = true) : PollStep m s0 s := by
  have henv := takeTurn_env p.turn
  have hpc' : t.seq.pos = s.seq.pos := by rw [p.seq]
  by_cases hpause : s.pauses = true
  · refine ⟨t, .inr ⟨by simp [tick, he, p.turn, hpause], p.poll, ?_⟩⟩
    exact pollPatience_turn hf hpc henv (fun e => (p.left' e).2) (fun e => (p.left e).1) p.int (fun e => (p.seen e).2)
      fun e => absurd e (turns_of_pauses hpause)
  · have htick : tick m s = act m t := tick_of_external he (by simpa using hpause) p.turn
    rcases h with ⟨u, hu, hin, he1, hw, hr, hp, hb⟩ | ⟨u, hu, hin, he1, hfl, hsh, hp, hr, hb⟩
    · refine ⟨u, .inl ⟨htick.trans hu, hin, ?_⟩⟩
      refine pollPatience_turn (t := u.advance m) hf hpc (he1.trans henv) (fun e => (p.left' e).2) (fun e => (hb e).1)
        (fun e => hw.trans (p.int e)) (fun e => ?_) fun _ => ?_
      · obtain ⟨h1, h2⟩ := p.seen e
        exact Nat.le_trans (hr h1) h2
      · show 30 * (9 - (u.seq.pos + 1)) + (if u.sh.busy = true then u.sh.left else 0) < s.distance
        unfold State.distance
        rw [hp, hpc']
        by_cases hub : u.sh.busy = true
        · obtain ⟨h1, h2, _⟩ := hb hub
          rw [if_pos hub]
          omega
        · rw [if_neg hub]
          omega
    · refine ⟨u, .inr ⟨htick.trans hu, hin, ?_⟩⟩
      refine pollPatience_turn hf hpc (he1.trans henv) (fun e => (p.left' e).2)
        (fun e => by rw [hsh] at e ⊢; exact (p.left e).1) (fun e => by rw [hfl]; exact p.int e)
        (fun e => by rw [hr]; exact (p.seen e).2) fun hnil => ?_
      obtain ⟨_, h2, h3⟩ := p.left hb
      have := h3 hnil
      unfold State.distance
      rw [hp, hpc', hsh, if_pos hb, if_pos h2]
      omega

/-- What every action of WAIT_WIP needs of the platform. -/
structure PollPlatform (s : State) : Prop where
  ready    : s.ctx.ready = true
  transfer : s.canTransfer = true
  ports    : s.portsFit = true
  ok       : s.cfg.ok = true

theorem InPoll.base {s0 s : State} (h : InPoll s0 s) (p : PollPlatform s0) : PollPlatform s := by
  refine ⟨by rw [h.waited.ctx]; exact p.ready, ?_, ?_, by rw [h.waited.cfg]; exact p.ok⟩
  · have := p.transfer
    unfold State.canTransfer State.unlocked at *
    rw [h.waited.chip, h.waited.ctx, h.waited.cfg, h.ctrl]
    exact this
  · rw [portsFit_of (s := s0) (m := s0.ctx.mode) h.waited.ctx h.waited.cfg]; exact p.ports

theorem PollPlatform.bus {s : State} (p : PollPlatform s) {sel : Bool} {l : List Byte} (hb : s.sh.busy = false)
    (hc : s.sh.cs = sel) (hl : l.all s.portFits = true) : busRefusal s sel l = none := by
  cases sel <;> simp [busRefusal, p.ready, p.transfer, hb, hc, hl, portRefusal]

theorem InPoll.go {s0 t u : State} (h : InPoll s0 t) (w : Waited t u) (hctrl : u.sh.ctrl = t.sh.ctrl)
    (hline : u.wire.csn = !u.sh.cs) (ha : t.fl.SameArray u.fl) (hs : Stands s0.cfg u u.seq.pos) : InPoll s0 u :=
  ⟨h.waited.trans w, hctrl.trans h.ctrl, hline, h.under.same ha, hs⟩

/-- WAIT_WIP's actions, one by one (rules R121, R122, R123, R124, R126, R173). -/
theorem poll_step {s0 s : State} (p : PollPlatform s0) (hf : s0.fair) (hfits : s0.fl.Fits)
    (hpw : s0.fl.wip = true ↔ s0.fl.pending ≠ .none) (h : InPoll s0 s) (hpc : s.seq.pos ≤ 7) (h0 : s.seq.pos ≠ 0) :
    ∃ m ms, (seqWaitWip s0.cfg).drop s.seq.pos = m :: ms ∧ PollStep m s0 s := by
  obtain ⟨t, pt⟩ := poll_turn p.ok hf hfits hpw h hpc
  have hin := pt.poll
  have pb := hin.base p
  obtain ⟨p1, p2, _, p4, p5⟩ := portsFit_all pb.ports
  have hst := hin.stands
  have hc : t.cfg = s0.cfg := hin.waited.cfg
  have fair := h.waited.fair hf
  have w : ∀ x : State, x.chip = t.chip → x.ctx = t.ctx → x.host = t.host → x.filled = t.filled → x.op = t.op →
      x.drive = t.drive → x.cfg = t.cfg → x.report = t.report → x.seq.op = t.seq.op →
      x.seq.openBlock = t.seq.openBlock → x.env = t.env → Waited t x :=
    fun x a1 a2 a3 a4 a5 a6 a7 a8 a9 a10 a11 => ⟨a1, a2, a3, a4, a5, a6, a7, a8, a9, a10, 0, by rw [a11]; simp⟩
  have hpct : t.seq.pos = s.seq.pos := by rw [pt.seq]
  have zero : ∀ {x : State}, x.fl.wip = false → x.seq.pos ≤ 4 → x.rounds = 0 := fun {x} a b => by
    unfold State.rounds
    rw [a]
    simp only [Bool.false_eq_true, if_false]
    rw [if_neg (by omega)]
  generalize hn : s.seq.pos = n at hpc h0
  rw [hn] at hpct
  rw [hpct] at hst
  match n, hpct, hst with
  | 0, _, _ => exact absurd rfl h0
  | 1, hpct, ⟨a1, a2, a3⟩ =>
    refine ⟨_, _, rfl, pt.step fair (by omega) rfl (.inl ?_)⟩
    have hsel : t.fl.select = .ok t.fl.opened := by simp [Flash.select, a2, Flash.opened]
    refine ⟨(((t.withSh { t.sh with cs := true }).withWire { t.wire with csn := false }).saw
      (.portOut (t.port t.cfg.regCs) t.cfg.csAssert)).withFl t.fl.opened, ?_, ?_, rfl, rfl, fun e => ?_, rfl,
      fun e => absurd (a3.symm.trans e) (by simp)⟩
    · simp [act, actCsEn, guardBy, pb.bus a3 a1 (l := [t.cfg.regCs]) (by simp [p5]), hsel, State.withDevice]
    · refine hin.go (w _ rfl rfl rfl rfl rfl rfl rfl rfl rfl rfl rfl) rfl rfl ⟨rfl, rfl, rfl, rfl⟩ ?_
      show Stands s0.cfg _ (t.seq.pos + 1)
      rw [hpct]
      exact ⟨rfl, rfl, a3⟩
    · exact (zero (x := State.advance .csEn _) e (by show t.seq.pos + 1 ≤ 4; omega)).le.trans (Nat.zero_le _)
  | 2, hpct, ⟨a1, a2, a3⟩ =>
    refine ⟨_, _, rfl, pt.step fair (by omega) rfl (.inl ?_)⟩
    have hs : sendRefusal s0.cfg.cmdRdsr t = none := by
      unfold sendRefusal
      rw [pb.bus a3 a1 (l := [t.cfg.regOut, t.cfg.regStat]) (by simp [p1, p4])]
      simp [a2, State.statusByteNext, hc]
    have hsample : ∀ b : Byte, (0 : Byte) = b >>> 8 := by decide +kernel
    refine ⟨(startTransmit s0.cfg.cmdRdsr t).saw (.portOut (t.port t.cfg.regOut) s0.cfg.cmdRdsr), ?_, ?_, rfl, rfl,
      fun e => ?_, rfl, fun _ => ⟨?_, by omega, a3⟩⟩
    · simp [act, actOut, guardBy, hs, sourceByte]
    · refine hin.go (w _ rfl rfl rfl rfl rfl rfl rfl rfl rfl rfl rfl) rfl hin.line ⟨rfl, rfl, rfl, rfl⟩ ?_
      show Stands s0.cfg _ (t.seq.pos + 1)
      rw [hpct]
      exact ⟨a1, rfl, .inl ⟨⟨rfl, rfl, rfl, rfl, ⟨by show 1 ≤ 8; decide, by show 8 ≤ 8; decide⟩, by show 0 ≤ 2; decide,
        hsample _, fun e => absurd rfl e⟩, a2⟩⟩
    · exact (zero (x := State.advance (.out (.lit s0.cfg.cmdRdsr)) ((startTransmit s0.cfg.cmdRdsr t).saw
        (.portOut (t.port t.cfg.regOut) s0.cfg.cmdRdsr))) e (by show t.seq.pos + 1 ≤ 4; omega)).le.trans (Nat.zero_le _)
    · show 3 * 8 - 0 ≤ 24; decide
  | 3, hpct, ⟨a1, a2, hcase⟩ =>
    refine ⟨_, _, rfl, pt.step fair (by omega) rfl ?_⟩
    rcases hcase with ⟨htx, hph⟩ | ⟨b1, b2, b3, b4⟩
    · refine .inr ⟨pollStat t, by simp [act, actPollTx, htx.txDone], ?_, rfl, rfl, rfl, rfl, rfl, htx.busy⟩
      refine hin.go (w _ rfl rfl rfl rfl rfl rfl rfl rfl rfl rfl rfl) rfl hin.line ⟨rfl, rfl, rfl, rfl⟩ ?_
      show Stands s0.cfg _ t.seq.pos
      rw [hpct]
      exact ⟨a1, a2, .inl ⟨⟨htx.busy, htx.txDone, htx.dir, htx.byte, htx.bits, htx.sub, htx.sample, htx.mosi⟩, hph⟩⟩
    · refine .inl ⟨pollStat t, by simp [act, actPollTx, b2], ?_, rfl, rfl, fun e => ?_, rfl,
        fun e => absurd (b1.symm.trans e) (by simp)⟩
      · refine hin.go (w _ rfl rfl rfl rfl rfl rfl rfl rfl rfl rfl rfl) rfl hin.line ⟨rfl, rfl, rfl, rfl⟩ ?_
        show Stands s0.cfg _ (t.seq.pos + 1)
        rw [hpct]
        exact ⟨a1, a2, b1, b3, b4⟩
      · exact (zero (x := State.advance .pollTx t) e (by show t.seq.pos + 1 ≤ 4; omega)).le.trans (Nat.zero_le _)
  | 4, hpct, ⟨a1, a2, a3, a4, a5⟩ =>
    refine ⟨_, _, rfl, pt.step fair (by omega) rfl (.inl ?_)⟩
    have hs : takeRefusal t = none := by
      unfold takeRefusal
      rw [pb.bus a3 a1 (l := [t.cfg.regIn, t.cfg.regStat]) (by simp [p2, p4])]
      simp [a4, State.statusFrame, a5, hc]
    refine ⟨(startReceive t).saw (.portOut (t.port t.cfg.regIn) 0), ?_, ?_, rfl, rfl, fun e => ?_, rfl,
      fun _ => ⟨?_, by omega, a3⟩⟩
    · simp [act, actStrobe, guardBy, hs]
    · refine hin.go (w _ rfl rfl rfl rfl rfl rfl rfl rfl rfl rfl rfl) rfl hin.line ⟨rfl, rfl, rfl, rfl⟩ ?_
      show Stands s0.cfg _ (t.seq.pos + 1)
      rw [hpct]
      exact ⟨a1, a2, a4, a5, .inl ⟨⟨rfl, rfl, rfl, ⟨by show 1 ≤ 8; decide, by show 8 ≤ 8; decide⟩, by show 0 ≤ 2; decide⟩,
        .inl rfl⟩⟩
    · have : State.rounds (((startReceive t).saw (.portOut (t.port t.cfg.regIn) 0)).advance .strobe) = 0 := by
        unfold State.rounds
        have e1 : (((startReceive t).saw (.portOut (t.port t.cfg.regIn) 0)).advance .strobe).fl.wip = false := e
        have e2 : (((startReceive t).saw (.portOut (t.port t.cfg.regIn) 0)).advance .strobe).seq.pos = 5 := by
          show t.seq.pos + 1 = 5; omega
        have e3 : (((startReceive t).saw (.portOut (t.port t.cfg.regIn) 0)).advance .strobe).sh.fresh = true := rfl
        rw [e1, e2, e3]
        simp
      rw [this]; exact Nat.zero_le _
    · show 3 * 8 - 0 ≤ 24; decide
  | 5, hpct, ⟨a1, a2, a4, a5, hcase⟩ =>
    refine ⟨_, _, rfl, pt.step fair (by omega) rfl ?_⟩
    rcases hcase with ⟨hrx, hfr⟩ | ⟨b1, b2, b3, b4⟩
    · refine .inr ⟨pollStat t, by simp [act, actPollRx, hrx.rxReady], ?_, rfl, rfl, rfl, rfl, rfl, hrx.busy⟩
      refine hin.go (w _ rfl rfl rfl rfl rfl rfl rfl rfl rfl rfl rfl) rfl hin.line ⟨rfl, rfl, rfl, rfl⟩ ?_
      show Stands s0.cfg _ t.seq.pos
      rw [hpct]
      exact ⟨a1, a2, a4, a5, .inl ⟨⟨hrx.busy, hrx.rxReady, hrx.dir, hrx.bits, hrx.sub⟩, hfr⟩⟩
    · refine .inl ⟨pollStat t, by simp [act, actPollRx, b2], ?_, rfl, rfl, fun e => ?_, rfl,
        fun e => absurd (b1.symm.trans e) (by simp)⟩
      · refine hin.go (w _ rfl rfl rfl rfl rfl rfl rfl rfl rfl rfl rfl) rfl hin.line ⟨rfl, rfl, rfl, rfl⟩ ?_
        show Stands s0.cfg _ (t.seq.pos + 1)
        rw [hpct]
        exact ⟨a1, a2, b1, a4, a5, b4⟩
      · have e1 : ((pollStat t).advance .pollRx).fl = t.fl := rfl
        have e2 : ((pollStat t).advance .pollRx).seq.pos = 6 := by show t.seq.pos + 1 = 6; omega
        have e3 : ((pollStat t).advance .pollRx).seq.wipSeen = t.seq.wipSeen := rfl
        unfold State.rounds
        rw [e1, e2, e3, e, hpct, b3]
        simp
  | 6, hpct, ⟨a1, a2, a3, a4, a5, a6⟩ =>
    refine ⟨_, _, rfl, pt.step fair (by omega) rfl (.inl ⟨_, rfl, ?_, rfl, rfl, fun e => ?_, rfl,
      fun e => absurd (a3.symm.trans e) (by simp)⟩)⟩
    · refine hin.go (w _ rfl rfl rfl rfl rfl rfl rfl rfl rfl rfl rfl) rfl hin.line ⟨rfl, rfl, rfl, rfl⟩ ?_
      show Stands s0.cfg _ (t.seq.pos + 1)
      rw [hpct]
      exact ⟨a1, a2, a3, a4, a5, a6⟩
    · exact State.rounds_le e e (by show 7 ≤ t.seq.pos + 1; omega) (fun e' => .inl ⟨hpct, e'⟩)
  | 7, hpct, ⟨a1, a2, a3, a4, a5, a6⟩ =>
    have hdes : t.fl.deselect t.cfg = { t.fl with phase := .idle } := Flash.deselect_of_dataOut a4
    refine ⟨_, _, rfl, pt.step fair (by omega) rfl (.inl ⟨((((t.withSh { t.sh with cs := false }).withWire
      { t.wire with csn := true }).saw (.portOut (t.port t.cfg.regCs) t.cfg.csDeassert)).withFl
      (t.fl.deselect t.cfg)), ?_, ?_, rfl, by rw [hdes]; rfl, fun e => ?_, rfl,
      fun e => absurd (a3.symm.trans e) (by simp)⟩)⟩
    · simp [act, actCsDis, guardBy, pb.bus a3 a1 (l := [t.cfg.regCs]) (by simp [p5])]
    · rw [hdes]
      refine hin.go (w _ rfl rfl rfl rfl rfl rfl rfl rfl rfl rfl rfl) rfl rfl ⟨rfl, rfl, rfl, rfl⟩ ?_
      show Stands s0.cfg _ (t.seq.pos + 1)
      rw [hpct]
      exact ⟨rfl, a2, a3, rfl, a6⟩
    · exact State.rounds_le (t := t) (by rw [hdes]; exact e) e (by rw [hdes]; show 7 ≤ t.seq.pos + 1; omega)
        (fun e' => .inr ⟨by omega, by rw [hdes] at e'; exact e'⟩)
  | n + 8, _, _ => omega

/-- WAIT_WIP ends (rules R153, R173, R308): what was pending has completed. -/
theorem gets_waitWip {s0 s : State} (p : PollPlatform s0) (hf : s0.fair) (hfits : s0.fl.Fits)
    (hpw : s0.fl.wip = true ↔ s0.fl.pending ≠ .none) (ho : s0.seq.openBlock = none) (h : InPoll s0 s) (hpc : s.seq.pos ≤ 8)
    (h0 : s.seq.pos ≠ 0) :
    ∃ u, Gets (seqWaitWip s0.cfg) s u ∧ InPoll s0 u ∧ u.seq.pos = 9 ∧ u.fl.wip = false := by
  generalize hn : s.pollPatience = n
  induction n using Nat.strong_induction_on generalizing s with
  | _ n ih =>
    by_cases h8 : s.seq.pos = 8
    · have hdrop : (seqWaitWip s0.cfg).drop s.seq.pos = [.untilIdle] := by rw [h8]; rfl
      have hst := h.stands
      rw [h8] at hst
      obtain ⟨a1, a2, a3, a4, a5⟩ := hst
      cases hseen : s.seq.wipSeen with
      | false =>
        have htick : tick .untilIdle s = .go s := by rw [tick_of_internal rfl]; simp [act, actUntilIdle, hseen]
        have hpc9 : (s.advance .untilIdle).seq.pos = 9 := by show s.seq.pos + 1 = 9; omega
        refine ⟨s.advance .untilIdle, .go hdrop htick (.done (by rw [hpc9]; rfl)), ?_, hpc9, a5 hseen⟩
        refine h.go ⟨rfl, rfl, rfl, rfl, rfl, rfl, rfl, rfl, rfl, rfl, 0, rfl⟩ rfl h.line ⟨rfl, rfl, rfl, rfl⟩ ?_
        rw [hpc9]
        exact ⟨a1, a2, a3, a4, a5⟩
      | true =>
        let t : State := s.withSeq { s.seq with
          pc := s.seq.pc - pollFrameLength, pos := s.seq.pos - pollFrameLength }
        have htick : tick .untilIdle s = .hold t := by rw [tick_of_internal rfl]; simp [act, actUntilIdle, hseen, t]
        have hpc1 : t.seq.pos = 1 := by show s.seq.pos - 7 = 1; omega
        have hin : InPoll s0 t := by
          refine h.go ⟨rfl, rfl, rfl, rfl, rfl, rfl, rfl, rfl, rfl, rfl, 0, rfl⟩ rfl h.line ⟨rfl, rfl, rfl, rfl⟩ ?_
          rw [hpc1]
          exact ⟨a1, a4, a3⟩
        have hless : t.pollPatience < s.pollPatience := by
          have e1 : t.fl = s.fl := rfl
          have e2 : t.sh = s.sh := rfl
          have e3 : t.env = s.env := rfl
          unfold State.pollPatience State.rounds State.distance
          rw [e1, e2, e3, hpc1, h8, a3, hseen]
          cases s.fl.wip <;> simp
        obtain ⟨u, hu, r⟩ := ih t.pollPatience (by omega) hin (by omega) (by omega) rfl
        exact ⟨u, .hold hdrop htick (by rw [hin.waited.wait ho]; exact hu), r⟩
    · obtain ⟨m, ms, hdrop, t, hcase⟩ := poll_step p hf hfits hpw h (by omega) h0
      rcases hcase with ⟨ht, hin, hless⟩ | ⟨ht, hin, hless⟩
      · have hpct : (t.advance m).seq.pos = s.seq.pos + 1 := by show t.seq.pos + 1 = _; rw [tick_pos ht]
        obtain ⟨u, hu, r⟩ := ih (t.advance m).pollPatience (by omega) hin (by omega) (by omega) rfl
        exact ⟨u, .go hdrop ht hu, r⟩
      · have hpct : t.seq.pos ≤ 8 ∧ t.seq.pos ≠ 0 := by
          have hne : m ≠ .untilIdle := by
            rintro rfl
            have h9 : s.seq.pos ≤ 7 := by omega
            generalize s.seq.pos = n at hdrop h9 h0
            match n, h9, hdrop with
            | 0, _, _ => exact absurd rfl h0
            | 1, _, e => cases e
            | 2, _, e => cases e
            | 3, _, e => cases e
            | 4, _, e => cases e
            | 5, _, e => cases e
            | 6, _, e => cases e
            | 7, _, e => cases e
            | n + 8, h, _ => omega
          have : t.seq.pos = s.seq.pos := by
            unfold tick at ht
            split at ht
            · split at ht
              · rename_i x hx
                split at ht
                · cases ht; rw [(takeTurn_frame hx).seq]
                · rw [act_pos (.inr ⟨hne, ht⟩), (takeTurn_frame hx).seq]
              · cases ht
            · exact act_pos (.inr ⟨hne, ht⟩)
          omega
        obtain ⟨u, hu, r⟩ := ih t.pollPatience (by omega) hin hpct.1 hpct.2 rfl
        exact ⟨u, .hold hdrop ht (by rw [hin.waited.wait ho]; exact hu), r⟩

end Sys2Proof.Machine
end

