-- ==== Sys2Proof/Tests/Slice0.lean ====
section
/-! SUPPORT. The model's own tests. The expected values are those of spec/95_test_vectors.md (the vector is named at each
test) or written out from the rule named; the parameters are the defaults of rule R8 (log 2). -/

namespace Sys2Proof.Tests

open Sys2Proof.Machine

-- One theorem after the other: the checker gives the compiler too little memory for one thread a theorem.
set_option Elab.async false

/-! ## Reading an outcome -/

/-- The outcome is a next state with this. -/
def holds (o : Host.Outcome State Fault Refusal) (p : State → Bool) : Bool :=
  match o with
  | .next s => p s
  | .fault _ => false
  | .refused _ => false

/-- The outcome is this refusal. -/
def refusesWith (o : Host.Outcome State Fault Refusal) (r : Refusal) : Bool :=
  match o with
  | .next _ => false
  | .fault _ => false
  | .refused q => q == r

/-- The outcome is a next state. -/
def goes (o : Host.Outcome State Fault Refusal) : Bool := holds o fun _ => true

theorem next_of_goes {o : Host.Outcome State Fault Refusal} (h : goes o = true) : ∃ t, o = .next t := by
  cases o with
  | next t => exact ⟨t, rfl⟩
  | fault e => cases h
  | refused e => cases h

/-! ## Small states -/

/-- After SETUP: CTX.base = 0xFC00, PROTECTED, SCRATCH at 0x00080000. -/
def started : State :=
  { State.reset with
    ctx := { base := 0xFC00, ready := true, mode := .isProtected, scratch := some 0x00080000,
             aborted := false } }

/-- After a WRITABLE_ENTER. -/
def writable : State :=
  { started with
    ctx := { started.ctx with mode := .isWritable }
    chip := { started.chip with wp := 0xA5 }
    sh := { started.sh with ctrl := 0x01 } }

/-- The device as it is, with something else in it. -/
def State.withFlash (s : State) (f : Flash → Flash) : State := { s with fl := f s.fl }

/-- Selected, the device's frame decoder in phase `p` of a frame of command `k`. -/
def inFrame (p : Phase) (k : Byte) : State :=
  { writable with
    sh := { writable.sh with cs := true }
    wire := { writable.wire with csn := false }
    fl := { writable.fl with phase := p, cmd := k } }

/-- A read transfer has left 0xA5 in RXD. -/
def holding (s : State) : State := { s with sh := { s.sh with rxd := 0xA5, rxdHeld := true } }

/-- Three bytes in the flash (vectors V23, V7). -/
def threeBytes (s : State) : State := { s with fl := { s.fl with mem := [(0x1200, 0x11), (0x1201, 0x22), (0x1202, 0x33)] } }

/-- The write-enable latch set. -/
def latched (s : State) : State := { s with fl := { s.fl with wel := true } }

/-- An erase of block 1 under way. -/
def erasing (s : State) : State := { s with fl := { s.fl with wel := true, wip := true, pending := .erase 1 } }

/-- A program under way, into a byte that is erased. -/
def programming (s : State) : State :=
  { s with fl := { s.fl with wel := true, wip := true, pending := .program 0x1080 [0xAA, 0x55] } }

/-- FLASH_INT does nothing. -/
def stalled (s : State) : State := { s with env := { s.env with after := { shiftSteps := 24, flashInt := false, pause := false } } }

/-- HOST asks for this next. -/
def asking (x : Input) (s : State) : State := { s with env := { s.env with inputs := [x] } }

/-- A platform with 512 MiB of memory, of which direct accesses reach the first 2 MiB. -/
def narrow : State :=
  { started with cfg := { Config.default with ram := [(0, 0x20000000)], window := [(0, 0x200000)] } }

/-- STAGE and SCRATCH have been filled by their owners. -/
def usedBuffers : State := { started with filled := { stage := true, scratch := true } }

/-- A base at the top of the port space: REG_OUT fits 16 bits, no other register does. -/
def topBase (s : State) : State := { s with ctx := { s.ctx with base := 0xFFFF } }

/-- A smaller array, so that operands can lie outside it. -/
def half : State := { started with cfg := { Config.default with flashSize := 0x800000 } }

/-- The copies of the outside, as they come: the third fails, the rest succeed. -/
def thirdCopyFails (s : State) : State := { s with env := { s.env with copies := [true, true, false] } }

/-! ## Well-formedness refuses what it should -/

theorem test_pp_of_257_bytes_is_ill_formed :
    (Instr.pp 0 (List.replicate 257 0xFF)).wellFormed Config.default = false := by decide +kernel

theorem test_pp_of_256_bytes_is_well_formed :
    (Instr.pp 0 (List.replicate 256 0xFF)).wellFormed Config.default = true := by decide +kernel

theorem test_unknown_command_with_a_known_code_is_ill_formed :
    (Instr.diskUnknown 0x02 0 1 0).wellFormed Config.default = false := by decide

theorem test_unknown_command_is_well_formed : (Instr.diskUnknown 0x08 0 1 0).wellFormed Config.default = true := by decide

theorem test_default_parameters_meet_the_constraints : Config.default.ok = true := by decide +kernel

/-! ## Decoding words written out from the spec's encodings

L0 from rules R92 and R107 (offsets of D2), L1 from rules R94 to R96, L2 from rule R98, L3 from rule R100. -/

/-- What a request decodes to under the default parameters. -/
def reads (r : Request) (i : Instr) : Prop := decode Config.default r = .instr i

theorem test_decode_csEn : reads (.bus [(0x04, 0x00)]) .csEn := by unfold reads; decide
theorem test_decode_csDis : reads (.bus [(0x04, 0x01)]) .csDis := by unfold reads; decide
theorem test_decode_wrByte : reads (.bus [(0x00, 0xA5)]) (.wrByte 0xA5) := by unfold reads; decide
theorem test_decode_rdByte : reads (.bus [(0x01, 0x00)]) .rdByte := by unfold reads; decide
theorem test_decode_wrAddr24 : reads (.bus [(0x00, 0x12), (0x00, 0x34), (0x00, 0x56)]) (.wrAddr24 0x123456) := by
  unfold reads; decide
theorem test_decode_cmd1 : reads (.bus [(0x04, 0x00), (0x00, 0x06), (0x04, 0x01)]) (.cmd1 0x06) := by unfold reads; decide
theorem test_decode_wren : reads (.frame [0x06] 0) .wren := by unfold reads; decide
theorem test_decode_wrdi : reads (.frame [0x04] 0) .wrdi := by unfold reads; decide
theorem test_decode_read : reads (.frame [0x03, 0x86, 0xDA, 0x00] 3) (.read 0x86DA00 3) := by unfold reads; decide
theorem test_decode_rdsr : reads (.frame [0x05] 1) (.rdsr 1) := by unfold reads; decide
theorem test_decode_se : reads (.frame [0x20, 0x00, 0x12, 0x34] 0) (.se 0x001234) := by unfold reads; decide
theorem test_decode_pp : reads (.frame [0x02, 0x00, 0x10, 0x80, 0xAA, 0x55] 0) (.pp 0x001080 [0xAA, 0x55]) := by
  unfold reads; decide
theorem test_decode_writableEnter : reads (.engine 0x0 0 0 0) .writableEnter := by unfold reads; decide
theorem test_decode_writableExit : reads (.engine 0x1 0 0 0) .writableExit := by unfold reads; decide
theorem test_decode_waitWip : reads (.engine 0x2 0 0 0) .waitWip := by unfold reads; decide
theorem test_decode_readByte : reads (.engine 0x3 0x123456 0 0) (.readByte 0x123456) := by unfold reads; decide
theorem test_decode_readBurst : reads (.engine 0x4 0x001280 0 0) (.readBurst 0x001280) := by unfold reads; decide
theorem test_decode_readSector : reads (.engine 0x5 9 0x100000 0) (.readSector 9 0x100000) := by unfold reads; decide
theorem test_decode_eraseBlock : reads (.engine 0x6 0x001000 0 0) (.eraseBlock 0x001000) := by unfold reads; decide
theorem test_decode_writeData : reads (.engine 0x7 0x001080 0x100000 511) (.writeData 0x001080 0x100000 511) := by
  unfold reads; decide
theorem test_decode_writeSector : reads (.engine 0x8 9 0x100000 0) (.writeSector 9 0x100000) := by unfold reads; decide
theorem test_decode_diskReset : reads (.disk 0x00 7 1 0x100000) (.diskReset 7 1 0x100000) := by unfold reads; decide
theorem test_decode_diskRead : reads (.disk 0x02 7 1 0x100000) (.diskRead 7 1 0x100000) := by unfold reads; decide
theorem test_decode_diskWrite : reads (.disk 0x03 7 1 0x100000) (.diskWrite 7 1 0x100000) := by unfold reads; decide
theorem test_decode_diskVerify : reads (.disk 0x04 7 1 0x100000) (.diskVerify 7 1 0x100000) := by unfold reads; decide
theorem test_decode_diskFormat : reads (.disk 0x05 7 1 0x100000) (.diskFormat 7 1 0x100000) := by unfold reads; decide
theorem test_decode_diskUnknown : reads (.disk 0x06 7 4 0x100000) (.diskUnknown 0x06 7 4 0x100000) := by
  unfold reads; decide
theorem test_decode_setup : reads .entry .setup := by unfold reads; decide

/-- What is refused, each by its name (rules R101 to R103). -/
theorem test_decode_rejects :
    decode Config.default (.bus [(0x04, 0x02)]) = .reject .badChipSelectValue
      ∧ decode Config.default (.bus [(0x03, 0x00)]) = .reject .statusIsReadOnly
      ∧ decode Config.default (.bus [(0x02, 0x00)]) = .reject .notABusPrimitive
      ∧ decode Config.default (.bus [(0x06, 0x00)]) = .reject .noSuchBusOperation
      ∧ decode Config.default (.frame [0x9F] 0) = .reject .unknownWireCommand
      ∧ decode Config.default (.frame [0x06, 0x00] 0) = .reject .malformedFrame
      ∧ decode Config.default (.engine 0x9 0 0 0) = .reject .badSelector := by decide

/-- Rules R62 and R101: reads of REG_OUT and REG_CS, accesses of two or four bytes. Rule R42: a read of REG_ERR. The
other three ports can be read. -/
theorem test_port_accesses :
    decode Config.default (.busRead 0x00) = .reject .writeOnlyPort
      ∧ decode Config.default (.busRead 0x04) = .reject .writeOnlyPort
      ∧ decode Config.default (.busRead 0x03) = .portRead .stat
      ∧ decode Config.default (.busRead 0x01) = .portRead .input
      ∧ decode Config.default (.busRead 0x02) = .portRead .control
      ∧ decode Config.default (.busRead 0x05) = .reject .neverReadPort
      ∧ decode Config.default (.busRead 0x06) = .reject .noSuchBusOperation
      ∧ decode Config.default (.busWide 0x00 (.writeWord 0x0006)) = .reject .notByteWide
      ∧ decode Config.default (.busWide 0x03 .readDword) = .reject .notByteWide := by decide

/-- Opcode-table numbers: the first row in the table's order that a number fits (log 16). -/
theorem test_decode_table_words :
    decodeTableWord 8 0x00 = some .csEn ∧ decodeTableWord 8 0x01 = some .csDis ∧ decodeTableWord 8 0x06 = some .wren
      ∧ decodeTableWord 8 0x03 = some (.read 0 0) ∧ decodeTableWord 8 0x20 = some (.se 0)
      ∧ decodeTableWord 8 0x07 = some (.writeData 0 0 0) ∧ decodeTableWord 16 0x06 = none := by decide

/-! ## L0 (vectors V1 to V11) -/

theorem test_csEn_V1 : holds (exec .csEn writable) (fun t =>
    t.trace == [.portOut 0xFC04 0x00] && t.sh.cs && !t.wire.csn && t.fl.phase == .cmd && t.fl.pageN == 0) = true := by
  decide +kernel

theorem test_csEn_twice_V3 : refusesWith (exec .csEn (inFrame .cmd 0)) .chipSelected = true := by decide +kernel

theorem test_csDis_V2 : holds (exec .csDis (inFrame .cmd 0)) (fun t =>
    t.trace == [.portOut 0xFC04 0x01] && !t.sh.cs && t.wire.csn && t.fl.phase == .idle) = true := by decide +kernel

theorem test_wrByte_V4 : holds (exec (.wrByte 0x06) (inFrame .cmd 0)) (fun t =>
    t.sh.txd == 0x06 && t.sh.txDone && !t.sh.busy && t.fl.cmd == 0x06 && t.fl.phase == .done) = true := by decide +kernel

/-- MOSI at the rising edges: after the second step of each bit (V5, byte 0x20). -/
theorem test_mosi_V5 : ((List.range 8).map fun j =>
    match shiftRun (3 * j + 2) (startTransmit 0x20 (inFrame .cmd 0)) with
    | .ok t => t.wire.sck && t.wire.mosi
    | .error _ => false) = [false, false, true, false, false, false, false, false] := by decide +kernel

theorem test_rdByte_V7 : holds (exec .rdByte (State.withFlash (inFrame .dataOut 0x03)
      fun f => { f with addr := 0x001200, mem := [(0x1200, 0xA5)] })) (fun t =>
    t.sh.rxd == 0xA5 && t.sh.rxReady && t.report == .bytes [0xA5] && t.fl.addr == 0x001201) = true := by decide +kernel

/-- A second read of REG_IN returns RXD again and clocks nothing. -/
theorem test_input_read_again_V7 : holds (runRequest (.busRead 0x01) (holding (inFrame .dataOut 0x03))) (fun t =>
    t.report == .bytes [0xA5] && t.trace == [.portIn 0xFC01 0xA5] && t.fl == (inFrame .dataOut 0x03).fl && !t.sh.busy)
    = true := by decide +kernel

/-- TX_DONE alone, under the default masks and under two that share a bit (rule R26). -/
theorem test_stat_read_V11 : twoFlagByte 0x10 0x20 true false 0xDF = 0xDF ∧ twoFlagByte 0x10 0x20 true false 0x00 = 0x10
    ∧ (∀ free, twoFlagByte 0x10 0x20 true false free &&& 0x30 = 0x10)
    ∧ (∀ free, twoFlagByte 0x03 0x06 true false free &&& 0x07 = 0x01) := by decide +kernel

/-- REG_IN before any read transfer answers a byte that no rule gives (log 3), and REG_STAT one too: each is the next free
value. -/
theorem test_port_reads_V73 : (∃ t, runRequest (.busRead 0x01) started = .next t
      ∧ t.report = .bytes [Config.freeByte (started.draws + 1)] ∧ t.draws = started.draws + 2 ∧ t.sh.rxd = started.sh.rxd)
    ∧ goes (runRequest (.busRead 0x03) started) = true := ⟨⟨_, rfl, rfl, rfl, rfl⟩, by decide +kernel⟩

theorem test_rdByte_V8 : refusesWith (exec .rdByte (inFrame .cmd 0)) .deviceNotSending = true := by decide +kernel

theorem test_wrByte_V8 : refusesWith (exec (.wrByte 0) (inFrame .dataOut 0x03)) .deviceSending = true := by decide +kernel

theorem test_wrAddr24_V9 : holds (exec (.wrAddr24 0x86DA00) (inFrame .addr0 0x03)) (fun t =>
    t.fl.addr == 0x86DA00 && t.fl.phase == .dataOut && t.sh.txd == 0x00) = true := by decide +kernel

theorem test_cmd1_V6 : holds (exec (.cmd1 0x06) writable) (fun t => t.fl.wel && t.wire.csn && !t.sh.cs) = true := by
  decide +kernel

/-- A dead SHIFT: REG_OUT is written, then the poll never ends (V10). -/
theorem test_hang_V10 : holds (exec (.wrByte 0x06)
      { inFrame .cmd 0 with env := { started.env with after := { shiftSteps := 0, flashInt := true, pause := false } } })
    (fun t => t.sh.busy && !t.sh.txDone && t.seq.op == some (.instr (.wrByte 0x06)) && t.seq.pc == 1) = true := by decide +kernel

/-! ## L1 (vectors V20 to V36) -/

theorem test_wren_V20 : holds (exec .wren writable) (fun t => t.fl.wel && t.fl.phase == .idle) = true := by decide +kernel

theorem test_wrdi_V21 : holds (exec .wrdi (latched writable)) (fun t => !t.fl.wel) = true := by decide +kernel

/-- A byte after a complete WREN frame voids it: phase DONE to IGNORE (V22). -/
theorem test_extra_byte_V22 : holds (exec (.wrByte 0x00) (inFrame .done 0x06)) (fun t =>
    t.fl.phase == .ignore && !(t.fl.deselect t.cfg).wel) = true := by decide +kernel

theorem test_read_V23 : holds (exec (.read 0x001200 3) (threeBytes writable)) (fun t =>
    t.report == .bytes [0x11, 0x22, 0x33] && t.fl.addr == 0x001203) = true := by decide +kernel

theorem test_rdsr_V34 : holds (exec (.rdsr 1) (stalled (erasing writable))) (fun t =>
    t.fl.wip && t.fl.sentWip && t.fl.phase == .idle) = true := by decide +kernel

theorem test_read_while_busy_V34 :
    refusesWith (exec (.read 0 1) (stalled (erasing writable))) .deviceBusy = true := by decide +kernel

theorem test_se_V26 : holds (exec (.se 0x001000) (latched writable)) (fun t =>
    t.fl.wip && t.fl.pending == .erase 1) = true := by decide +kernel

/-- And its completion. -/
theorem test_erase_completes_V26 :
    (match (State.withFlash (erasing writable) fun f => { f with mem := [(0x0FFF, 0x12), (0x1000, 0), (0x1FFF, 0), (0x2000, 0x34)] }).fl.complete
        Config.default 0 with
    | .ok g => g.mem == [(0x0FFF, 0x12), (0x2000, 0x34)] && !g.wip && !g.wel && g.pending == .none
    | .error _ => false) = true := by decide +kernel

theorem test_se_without_the_latch_V27 : holds (exec (.se 0x001000) writable) (fun t =>
    !t.fl.wip && t.fl.pending == .none) = true := by decide +kernel

theorem test_pp_V29 : holds (exec (.pp 0x001080 [0xAA, 0x55]) (latched writable)) (fun t =>
    t.fl.wip && t.fl.pending == .program 0x001080 [0xAA, 0x55]) = true := by decide +kernel

theorem test_program_completes_V29 :
    (match (programming writable).fl.complete Config.default 0 with
    | .ok g => g.mem == [(0x1080, 0xAA), (0x1081, 0x55)] && !g.wip && !g.wel
    | .error _ => false) = true := by decide +kernel

theorem test_program_across_a_page_V33 :
    (State.withFlash writable fun f => { f with pending := .program 0x0010FF [0xAA, 0x55] }).fl.complete Config.default 0
      = .error .pageCross := by rfl

/-- A frame with a command byte that is none of the six goes out and changes nothing (R102, V35). -/
theorem test_unknown_frame_is_ignored : holds (runRequest (.frame [0x9F, 0x00] 0) (latched writable)) (fun t =>
    t.fl.phase == .idle && t.fl.wel && t.fl.cmd == 0x9F && t.sh.txd == 0x00 && !t.sh.cs) = true := by decide +kernel

/-- A READ frame cut off after one address byte (R102): phase ADDR to IDLE. -/
theorem test_short_frame_is_ignored : holds (runRequest (.frame [0x03, 0x00] 0) (threeBytes writable)) (fun t =>
    t.fl.phase == .idle && t.report == .bytes [] && t.fl.mem.read 0x1200 == 0x11) = true := by decide +kernel

/-! ## L2 (vectors V37 to V51) -/

theorem test_enter_V37 : holds (exec .writableEnter { started with chip := { started.chip with wp := 0xA7 } }) (fun t =>
    t.chip.wp == 0xA5 && t.ctx.mode == .isWritable && t.sh.ctrl == 0x01) = true := by decide +kernel

theorem test_exit_V38 : holds (exec .writableExit writable) (fun t =>
    t.chip.wp == 0xA6 && t.ctx.mode == .isProtected && t.sh.ctrl == 0x00) = true := by decide +kernel

/-- The frames sent, as the literal bytes the micro-program sends. -/
def literals (ms : List Micro) : List Byte :=
  ms.filterMap fun m => match m with
    | .out (.lit b) => some b
    | _ => none

theorem test_waitWip_V39 : holds (exec .waitWip (erasing writable)) (fun t =>
    t.seq.op == none && !t.fl.wip && t.fl.mem == []) = true := by decide +kernel

/-- Not complete at the first poll: the loop starts again (V39 (d)). -/
theorem test_waitWip_busy_V39 : holds (exec .waitWip (stalled (erasing writable))) (fun t =>
    t.seq.op == some (.instr .waitWip) && t.seq.pc == 0 && t.seq.pos == 1 && t.fl.wip) = true := by decide +kernel

theorem test_readByte_V41 : holds (exec (.readByte 0x001201) (threeBytes started)) (fun t =>
    t.report == .bytes [0x22] && t.quiescent) = true := by decide +kernel

theorem test_readByte_range_V41 : refusesWith (exec (.readByte 0xFFFFFF)
    { started with cfg := { Config.default with flashSize := 0x800000 } }) .flashRange = true := by decide +kernel

theorem test_readBurst_frame : literals (seqReadBurst Config.default 0x001280) = [0x03, 0x00, 0x12, 0x80] := by
  decide +kernel

theorem test_readSector_frames_V40 : literals (seqReadSector Config.default 9 0x100000)
    = [0x03, 0x00, 0x12, 0x00, 0x03, 0x00, 0x12, 0x80, 0x03, 0x00, 0x13, 0x00, 0x03, 0x00, 0x13, 0x80] := by decide +kernel

theorem test_eraseBlock_V43 : literals (seqEraseBlock Config.default 0x001234)
    = [0x06, 0x20, 0x00, 0x12, 0x34, 0x05, 0x04] := by decide +kernel

theorem test_eraseBlock_V42 : holds (exec (.eraseBlock 0x001000) (threeBytes started)) (fun t =>
    t.fl.mem == [] && t.quiescent) = true := by decide +kernel

theorem test_writeData_V44 : holds (exec (.writeData 0x001080 0x100000 2)
      { started with host := [(0x100000, 0xAA), (0x100001, 0x55)] }) (fun t =>
    t.fl.mem == [(0x1080, 0xAA), (0x1081, 0x55)] && t.report == .ok && t.quiescent) = true := by decide +kernel

theorem test_writeData_V46 : holds (exec (.writeData 0x001000 0x100000 257) started) (fun t =>
    t.report == .fail && t.trace == []) = true := by decide +kernel

theorem test_writeData_V47 : refusesWith (exec (.writeData 0x0010FF 0x100000 2) started) .pageCross
    && refusesWith (exec (.writeData 0x001000 0x100000 0) started) .emptyWrite
    && holds (exec (.writeData 0x001001 0x100000 300) started) (fun t => t.report == .fail) = true := by decide +kernel

theorem test_blocks_and_offsets_V49 : blockBase 7 = 0 ∧ sectorOffset 7 = 0xE00 ∧ blockBase 8 = 0x1000
    ∧ sectorOffset 8 = 0 ∧ blockBase 17261 = 0x86D000 ∧ sectorOffset 17261 = 0xA00 := by decide

/-- The last chunk of the restore: 128 bytes at 0x001F80 (V50). -/
theorem test_restore_chunk_V50 : literals (seqWriteData Config.default (0x001000 + 128 * 31) 0x80F80 128)
    = [0x06, 0x02, 0x00, 0x1F, 0x80, 0x05, 0x04] := by decide +kernel

theorem test_writeSector_before_setup : refusesWith (exec (.writeSector 9 0x100000) State.reset) .notReady = true := by
  decide +kernel

/-- A source outside the window, one the platform has no memory at, one past the end of the host's space, and STAGE
before anything has filled it (rules R32, R33, R38, R44, R178, R310). -/
theorem test_writeData_sources :
    refusesWith (exec (.writeData 0x001000 0x200000 1) narrow) .outsideWindow
      && refusesWith (exec (.writeData 0x001000 0xF0000000 1) narrow) .hostUnmapped
      && refusesWith (exec (.writeData 0x001000 0xFFFFFFFF 2) narrow) .bufferRange
      && refusesWith (exec (.writeData 0x001000 0x00070000 1) started) .bufferOverlap = true := by decide +kernel

/-- STAGE and SCRATCH are no caller's source even where their owners have filled them (rules R32, R33, D37). -/
theorem test_writeData_from_the_buffers :
    refusesWith (exec (.writeData 0x001000 0x0007007F 1) usedBuffers) .bufferOverlap
      && refusesWith (exec (.writeData 0x001000 0x00080000 1) usedBuffers) .bufferOverlap = true := by decide +kernel

/-- More than 256 bytes are rejected before any port is asked for (rules R178, R247); 256 bytes need the ports. -/
theorem test_writeData_rejects_first :
    holds (exec (.writeData 0x001000 0x100000 300) (topBase started)) (fun t => t.report == .fail && t.trace == [])
      && refusesWith (exec (.writeData 0x001000 0x100000 256) (topBase started)) .portRange = true := by decide +kernel

/-- WREN is a CMD1, which asks for WIP = 0 first: refused before any port is touched, even where the erase would complete
at the next turn; a WR_BYTE of a command likewise (rules R127, R312). -/
theorem test_busy_device_is_asked_first : refusesWith (exec .wren (erasing writable)) .deviceBusy
      && refusesWith (exec (.wrByte 0x06) (stalled (erasing (inFrame .cmd 0)))) .deviceBusy
      && goes (exec (.wrByte 0x05) (stalled (erasing (inFrame .cmd 0)))) = true := by decide +kernel

/-- A buffer that overlaps STAGE by its last byte, and one that overlaps SCRATCH (rules R64, R176, R202). -/
theorem test_buffer_overlaps :
    refusesWith (exec (.readSector 9 0x0006FE01) started) .bufferOverlap
      && refusesWith (exec (.writeSector 9 0x00080FFF) started) .bufferOverlap = true := by decide +kernel

/-- An erase that never completes, waited for for good: the block in hand stays marked, WIP stays 1 (rules R208, R245, R287). -/
theorem test_eraseBlock_hangs : holds (exec (.eraseBlock 0x001000) (stalled started)) (fun t =>
    t.seq.op == some (.instr (.eraseBlock 0x001000)) && t.seq.openBlock == some 1 && t.fl.wip
      && interruptedBlock t == some 1) = true := by decide +kernel

/-! ## L3 (vectors V60 to V72) -/

theorem test_sector_map_V60 : [0, 6, 7, 13, 14, 20, 21, 699, 700, 15098, 15099, 15103].map (lba2slba Config.default)
    = [1, 7, 9, 15, 17, 23, 25, 799, 801, 17255, 17257, 17261] := by decide

theorem test_diskRead_V61 : holds (exec (.diskRead 15104 0 0x100000) started) (fun t =>
    t.op.status == 0x00 && t.op.count == 0) && refusesWith (exec (.diskRead 15103 2 0x100000) started) .diskRange = true := by
  decide +kernel

theorem test_diskRead_frames_V62 : literals (progDiskRead started 7 1 0x100000)
    = [0x03, 0x00, 0x12, 0x00, 0x03, 0x00, 0x12, 0x80, 0x03, 0x00, 0x13, 0x00, 0x03, 0x00, 0x13, 0x80] := by decide +kernel

/-- Three sectors of block 0, merged at SCRATCH + 0x200, + 0x400, + 0x600 (V63). -/
theorem test_diskWrite_V63 : [0, 1, 2].map (fun a => (blockBase (lba2slba Config.default a), sectorOffset (lba2slba Config.default a)))
    = [(0, 0x200), (0, 0x400), (0, 0x600)] := by decide

theorem test_diskVerify_V64 : holds (exec (.diskVerify 99999 5 0) started) (fun t =>
    t.op.status == 0x00 && t.op.count == 5 && t.trace == []) = true := by decide +kernel

theorem test_diskFormat_V64 : holds (exec (.diskFormat 99999 5 0) (threeBytes started)) (fun t =>
    t.op.status == 0x00 && t.fl.mem.read 0x1200 == 0x11) = true := by decide +kernel

theorem test_diskReset_V64 : holds (exec (.diskReset 99999 5 0) started) (fun t =>
    t.op.status == 0x00 && t.ctx == started.ctx) = true := by decide +kernel

theorem test_diskUnknown_V65 : holds (exec (.diskUnknown 0x08 99999 4 0) started) (fun t =>
    t.op.status == 0x01 && t.op.count == 0 && t.trace == []) = true := by decide +kernel

theorem test_setup_V70 : holds (exec .setup State.reset) (fun t =>
    t.ctx.base == 0xFC00 && t.ctx.scratch == some 0x00080000 && t.ctx.ready && t.ctx.mode == .isProtected
      && t.drive == { cylinders := 236, heads := 2, spt := 32, sectorSize := 512, sectors := 15104, registered := true })
    = true := by decide +kernel

theorem test_setup_null_V71 : holds (exec .setup { State.reset with env := { State.reset.env with allocs := [none] } })
    (fun t => t.ctx.base == 0xFC00 && t.ctx.scratch == none && !t.ctx.ready && !t.drive.registered) = true := by
  decide +kernel

/-- After a SETUP that found no buffer there is no second one (rules R235, R248), and no host command (V72). -/
theorem test_setup_after_an_abort :
    refusesWith (exec .setup { State.reset with ctx := { State.reset.ctx with aborted := true } }) .setupFailed
      && refusesWith (exec (.diskRead 0 1 0) { State.reset with ctx := { State.reset.ctx with aborted := true } }) .notReady
      = true := by decide +kernel

/-- A base whose REG_ERR does not fit 16 bits (rule R300): 0xFFFC + 5. -/
theorem test_port_range : refusesWith (exec .setup { State.reset with
      chip := { State.reset.chip with spiBase := 0xFFFF }
      cfg := { Config.default with spiBaseMask := 0x0000FFFC } }) .portRange = true := by decide +kernel

/-! ## Running -/

/-- A pause between two actions of SEQ: CFG_WP is written, CTRL is not; the next step goes on from there (rule R28). -/
theorem test_pause : holds (exec .writableEnter { started with env := { started.env with
      turns := [⟨24, true, false⟩, ⟨24, true, false⟩, ⟨24, true, true⟩] } }) (fun t =>
    t.seq.op == some (.instr .writableEnter) && t.seq.pc == 2 && t.seq.pos == 3 && t.chip.wp == 0xA5 && t.ctx.mode == .isProtected
      && holds (step t) fun u => u.seq.op == none && u.ctx.mode == .isWritable && u.sh.ctrl == 0x01) = true := by
  decide +kernel

/-- HOST stores where it may, and not into SCRATCH or STAGE (rules R32, R42). -/
theorem test_host_store : holds (step (asking (.store 0x100000 [0x12]) started)) (fun t => t.host == [(0x100000, 0x12)])
      && refusesWith (step (asking (.store 0x00080FFF [0x12]) started)) .hostNoAccess
      && refusesWith (step (asking (.store 0x0006FFFF [0x12, 0x34]) started)) .hostNoAccess
      && holds (step (asking (.store 0x0006FFFF [0x12]) started)) (fun t => t.host.read 0x6FFFF == 0x12) = true := by
  decide +kernel


/-- SEQ.pc returns to the loop head, the position does not (rule R28): two iterations of one action each. -/
theorem test_loop_head : (match runSeq (forEach 2 fun _ => [.readWp]) (started.begin (.instr .waitWip)) with
    | .go t => t.seq.pc == 1 && t.seq.pos == 6 && t.seq.loops == []
    | _ => false) = true := by decide +kernel

/-- After a reset CTRL is CTRL_IDLE, and a SETUP leaves the quiescent state (rules R45, R272, R275). -/
theorem test_reset_then_setup : holds (step (asking .reset writable)) (fun t =>
    t.sh.ctrl == 0x00 && holds (exec .setup t) fun u => u.quiescent || u.ctx.scratch == none) = true := by
  decide +kernel

/-- HOST asks for SETUP, and the next step runs it. -/
theorem test_step_runs_setup : holds (step (asking (.request .entry) State.reset)) (fun t => t.ctx.ready) = true := by
  decide +kernel

/-- An opcode-table number placed after reset is what the next step takes up; before SETUP it is refused (R134, V66). -/
theorem test_fetch_word : (decodeTableWord 8 0x06 = some .wren)
    ∧ refusesWith (step (State.reset.withFetchWord 8 0x06)) .notReady = true
    ∧ goes (step (writable.withFetchWord 8 0x06)) = true := by decide +kernel

/-- An operation that waits at a poll goes on at the next step: SHIFT needs two turns. -/
theorem test_waiting_operation_goes_on :
    holds (exec (.wrByte 0x06)
        { inFrame .cmd 0 with env := { started.env with turns := [⟨0, false, false⟩, ⟨10, false, false⟩] } }) (fun t =>
      t.seq.op == some (.instr (.wrByte 0x06)) && holds (step t) (fun u => u.seq.op == none && u.fl.cmd == 0x06)) = true := by
  decide +kernel

/-! ## The statements' premises can be met

One theorem for each statement of Certificates/Slice0/Obligations.lean that has premises, at boundary values of its
clauses. -/

/-- Stage and the scratch buffer of `started` are there. -/
theorem buffers_started : Buffers 0x00080000 started :=
  ⟨by decide, by decide +kernel, by decide +kernel, by decide +kernel⟩

/-- A caller's buffer at 1 MiB. -/
theorem callerBuffer_started (n : Nat) (h : hostCovers started 0x100000 n = true ∧ pastHostEnd 0x100000 n = false
      ∧ hitsStage started 0x100000 n = false ∧ hitsScratch started 0x100000 n = false) :
    CallerBuffer started 0x100000 n := ⟨h.1, h.2.1, h.2.2.1, h.2.2.2⟩

theorem started_may_run : started.atEngine ∧ started.atCommand ∧ started.calm ∧ started.prompt ∧ started.copiesSucceed := by
  refine ⟨by decide +kernel, by decide, by decide, by decide, ?_⟩
  intro b hb
  cases hb

theorem writable_may_run : writable.onBus ∧ writable.calm ∧ writable.prompt ∧ writable.sh.cs = false
    ∧ writable.fl.phase = .idle ∧ writable.fl.wip = false ∧ writable.cfg.ok = true := by decide +kernel

theorem witness_EncodedOperationsDecode : Config.default.ok = true
    ∧ (Instr.pp 0xFFFFFF (List.replicate 256 0)).wellFormed Config.default = true
    ∧ (Instr.diskUnknown 0x06 0 0 0).wellFormed Config.default = true := by decide +kernel

theorem witness_FramesDecodeToTheirEncoding : decode Config.default (.frame [0x03, 0, 0, 0] 1) = .instr (.read 0 1)
    ∧ Config.default.ok = true ∧ decode Config.default (.disk 0x06 0 0 0) = .instr (.diskUnknown 0x06 0 0 0) := by
  decide +kernel

theorem witness_RequestsThatNameNothing : started.cfg.ok = true ∧ (0x02 : Byte) ≠ started.cfg.csAssert
    ∧ (0x02 : Byte) ≠ started.cfg.csDeassert ∧ 9 ≤ (9 : BitVec 4).toNat ∧ 9 ≤ (15 : BitVec 4).toNat
    ∧ started.atEngine ∧ 256 < (257 : BitVec 9).toNat ∧ 256 < (511 : BitVec 9).toNat := by decide +kernel

theorem witness_HostCommandDispatch : Config.default.ok = true ∧ (0x02 : Byte) = Config.default.hcRead
    ∧ (0x03 : Byte) = Config.default.hcWrite ∧ (0x04 : Byte) = Config.default.hcVerify
    ∧ (0x05 : Byte) = Config.default.hcFormat ∧ (0x00 : Byte) = Config.default.hcReset
    ∧ (0x01 : Byte) ∉ [Config.default.hcRead, Config.default.hcWrite, Config.default.hcVerify, Config.default.hcFormat,
        Config.default.hcReset] := by decide +kernel

theorem witness_StepRunsTheDecodedOperation : ∃ t, (asking (.request .entry) State.reset).seq.op = none
    ∧ (asking (.request .entry) State.reset).env.inputs = .request .entry :: []
    ∧ decode (asking (.request .entry) State.reset).cfg .entry = .instr .setup
    ∧ takeTurn ((asking (.request .entry) State.reset).withEnv
        { (asking (.request .entry) State.reset).env with inputs := [] }) = .ok t
    ∧ (asking (.request .entry) State.reset).calm ∧ (asking (.request .entry) State.reset).sh.busy = false :=
  ⟨_, rfl, rfl, rfl, rfl, by decide, rfl⟩

/-- The machine after reset is sound. -/
theorem reset_is_sound : Invariant State.reset :=
  ⟨rfl, rfl, by decide, nofun, by decide, rfl, by decide, by decide, by decide, by decide, by decide⟩

/-- And in the middle of a program of 256 bytes, with a status frame open. -/
theorem witness_StepKeepsInvariant : ∃ t,
    Invariant { inFrame .dataOut 0x05 with
        fl := { (inFrame .dataOut 0x05).fl with wip := true, pending := .program 0 (List.replicate 256 0) } }
      ∧ step { inFrame .dataOut 0x05 with
        fl := { (inFrame .dataOut 0x05).fl with wip := true, pending := .program 0 (List.replicate 256 0) } } = .next t := by
  have h : goes (step { inFrame .dataOut 0x05 with
      fl := { (inFrame .dataOut 0x05).fl with wip := true, pending := .program 0 (List.replicate 256 0) } }) = true := by
    decide +kernel
  obtain ⟨t, ht⟩ := next_of_goes h
  refine ⟨t, ⟨rfl, rfl, by decide, ?_, by decide, rfl, by decide, by decide, by decide, by decide, by decide⟩, ht⟩
  intro a d e
  cases e
  decide +kernel

theorem witness_StepKeepsParameters : ∃ t, step (asking (.request .entry) State.reset) = .next t :=
  next_of_goes (by decide +kernel)

theorem witness_DeviceContextIsSetOnce : ∃ t, started.ctx.ready = true ∧ started.seq.op ≠ some (.instr .setup)
    ∧ resetAsked (asking (.request (.engine 0x0 0 0 0)) started) = false
    ∧ step (asking (.request (.engine 0x0 0 0 0)) started) = .next t := by
  obtain ⟨t, ht⟩ := next_of_goes (o := step (asking (.request (.engine 0x0 0 0 0)) started)) (by decide +kernel)
  exact ⟨t, by decide, by decide, by decide, ht⟩

theorem witness_ModeChangesOnlyByEnterAndExit : (∃ t u,
    tick (.control true) started = .go t ∧ t.ctx.mode ≠ started.ctx.mode
      ∧ tick (.writeWp false) writable = .go u ∧ u.ctx.mode ≠ writable.ctx.mode)
    ∧ programOf started (.instr .writableEnter) = [.need .enter, .readWp, .writeWp true] ++ .control true :: []
    ∧ programOf started (.instr .writableExit) = [.need .writable, .control false, .readWp] ++ .writeWp false :: [] :=
  ⟨⟨_, _, rfl, by decide, rfl, by decide⟩, rfl, rfl⟩

theorem witness_FlashContentChangesOnlyByCompletion : ∃ t u v w x, act .readWp started = .go t
    ∧ takeTurn started = .ok u ∧ started.fl.pending = .none
    ∧ takeTurn (erasing started) = .ok v ∧ (erasing started).fl.pending = .erase 1
    ∧ takeTurn (programming started) = .ok w ∧ (programming started).fl.pending = .program 0x1080 [0xAA, 0x55]
    ∧ takeTurn (stalled (erasing started)) = .ok x
    ∧ ((stalled (erasing started)).env.turns.headD (stalled (erasing started)).env.after).flashInt = false :=
  ⟨_, _, _, _, _, rfl, rfl, rfl, rfl, rfl, rfl, rfl, rfl, rfl⟩

theorem witness_HardwareReset : (asking .reset started).env.inputs = .reset :: [] ∧ (asking .reset started).cfg.ok = true
    ∧ interruptedBlock (asking .reset started) = none ∧ interruptedBlock (asking .reset (erasing started)) = some 1
    ∧ interruptedBlock (setOpenBlock (some 4095) (asking .reset started)) = some 4095 := by
  decide +kernel

/-- The micro-action marks block `b`. -/
def opens (b : Nat) : Micro → Bool
  | .openBlock k => k == b
  | _ => false

/-- The micro-action lets the block go. -/
def closes : Micro → Bool
  | .closeBlock => true
  | _ => false

/-- A WRITE_SECTOR has its block in hand from right after the CS_EN of the erase frame to the end of its last poll (rules
R205, R208, R287): the erase and each chunk that is not the last mark it and keep it, the last lets it go. -/
theorem test_block_in_hand_of_write_sector :
    let erase := seqEraseBlock Config.default 0x1000 (mark := [.openBlock 1]) (more := true)
    let chunk := fun more => seqWriteData Config.default 0x1080 0x80080 2 (more := more)
    erase.take 10 = seqEnter ++ [.csEn, .out (.lit 0x06), .pollTx, .csDis, .csEn, .openBlock 1]
      ∧ erase.countP (opens 1) = 2 ∧ erase.countP closes = 0
      ∧ (chunk true).countP (opens 1) = 1 ∧ (chunk true).countP closes = 0
      ∧ (chunk false).countP (opens 1) = 1 ∧ (chunk false).countP closes = 1 := by decide +kernel

theorem witness_CsEnSelects : writable.onBus ∧ writable.calm ∧ writable.sh.cs = false ∧ writable.fl.phase = .idle := by
  decide

theorem witness_CsDisDeselects : (inFrame .cmd 0).onBus ∧ (inFrame .cmd 0).calm ∧ (inFrame .cmd 0).sh.cs = true := by
  decide

/-- SHIFT needs a pause and two turns. -/
def slow (s : State) : State := { s with env := { s.env with turns := [⟨0, false, true⟩, ⟨0, false, false⟩, ⟨10, false, false⟩] } }

theorem witness_WrByteSends : (inFrame .cmd 0).onBus ∧ (inFrame .cmd 0).calm ∧ (inFrame .cmd 0).sh.cs = true
    ∧ (inFrame .cmd 0).fl.phase ≠ .dataOut ∧ (inFrame .cmd 0).fl.wip = false
    ∧ (inFrame .cmd 0).fl.receive (inFrame .cmd 0).cfg 0x06
        = .ok { (inFrame .cmd 0).fl with cmd := 0x06, phase := .done } :=
  ⟨by decide, by decide, rfl, by decide, rfl, rfl⟩

theorem witness_WrByteSends_fair : (slow (inFrame .cmd 0)).onBus ∧ (slow (inFrame .cmd 0)).sh.cs = true
    ∧ (slow (inFrame .cmd 0)).fl.phase ≠ .dataOut ∧ (slow (inFrame .cmd 0)).fl.wip = false
    ∧ (slow (inFrame .cmd 0)).fl.receive (slow (inFrame .cmd 0)).cfg 0x06
        = .ok { (slow (inFrame .cmd 0)).fl with cmd := 0x06, phase := .done }
    ∧ (slow (inFrame .cmd 0)).fair ∧ (slow (inFrame .cmd 0)).fl.pending = .none
    ∧ resetAsked (slow (inFrame .cmd 0)) = false ∧ ¬ (slow (inFrame .cmd 0)).calm :=
  ⟨by decide, rfl, by decide, rfl, rfl, by decide, rfl, by decide, by decide⟩

theorem witness_RdByteTakes : (inFrame .dataOut 0x03).onBus ∧ (inFrame .dataOut 0x03).calm
    ∧ (inFrame .dataOut 0x03).cfg.ok = true ∧ (inFrame .dataOut 0x03).sh.cs = true
    ∧ (inFrame .dataOut 0x03).fl.phase = .dataOut ∧ (inFrame .dataOut 0x03).fl.wip = false
    ∧ (inFrame .dataOut 0x03).fl.cmd = (inFrame .dataOut 0x03).cfg.cmdRead := by decide +kernel

theorem witness_RdByteTakes_status : (stalled (erasing (inFrame .dataOut 0x05))).onBus
    ∧ (stalled (erasing (inFrame .dataOut 0x05))).calm ∧ (stalled (erasing (inFrame .dataOut 0x05))).cfg.ok = true
    ∧ (stalled (erasing (inFrame .dataOut 0x05))).sh.cs = true
    ∧ (stalled (erasing (inFrame .dataOut 0x05))).fl.phase = .dataOut
    ∧ (stalled (erasing (inFrame .dataOut 0x05))).statusFrame = true
    ∧ (stalled (erasing (inFrame .dataOut 0x05))).fl.cmd = (stalled (erasing (inFrame .dataOut 0x05))).cfg.cmdRdsr := by
  decide +kernel

theorem witness_WrAddr24Sends : (inFrame .addr0 0x20).onBus ∧ (inFrame .addr0 0x20).calm
    ∧ (inFrame .addr0 0x20).sh.cs = true ∧ (inFrame .addr0 0x20).fl.phase = .addr0
    ∧ (inFrame .addr0 0x20).fl.wip = false
    ∧ (0xFFFFFF : FlashAddr).toNat < (inFrame .addr0 0x20).cfg.flashSize := by decide

theorem witness_Cmd1Frames : writable.onBus ∧ writable.calm ∧ writable.cfg.ok = true ∧ writable.sh.cs = false
    ∧ writable.fl.phase = .idle ∧ writable.fl.wip = false := by decide +kernel

theorem witness_WrenAndWrdiFrames : writable.onBus ∧ writable.calm ∧ writable.cfg.ok = true ∧ writable.sh.cs = false
    ∧ writable.fl.phase = .idle ∧ writable.fl.wip = false := by decide +kernel

theorem witness_ReadFrame : writable.onBus ∧ writable.calm ∧ writable.cfg.ok = true ∧ writable.sh.cs = false
    ∧ writable.fl.phase = .idle ∧ writable.fl.wip = false ∧ (0xFFFFFF : FlashAddr).toNat < writable.cfg.flashSize
    ∧ (2 : BitVec 32) ≠ 0 := by decide +kernel

theorem witness_StatusFrame : (stalled (erasing writable)).onBus ∧ (stalled (erasing writable)).calm
    ∧ (stalled (erasing writable)).cfg.ok = true ∧ (stalled (erasing writable)).sh.cs = false
    ∧ (stalled (erasing writable)).fl.phase = .idle := by decide +kernel

theorem witness_EraseFrame : (latched writable).onBus ∧ (latched writable).calm ∧ (latched writable).cfg.ok = true
    ∧ (latched writable).sh.cs = false ∧ (latched writable).fl.phase = .idle ∧ (latched writable).fl.wip = false
    ∧ (0xFFFFFF : FlashAddr).toNat < (latched writable).cfg.flashSize ∧ (latched writable).fl.wel = true
    ∧ writable.fl.wel = false := by decide +kernel

theorem witness_ProgramFrame : (latched writable).onBus ∧ (latched writable).calm ∧ (latched writable).cfg.ok = true
    ∧ (latched writable).sh.cs = false ∧ (latched writable).fl.phase = .idle ∧ (latched writable).fl.wip = false
    ∧ (0xFFFFFF : FlashAddr).toNat < (latched writable).cfg.flashSize
    ∧ (List.replicate 256 (0xAA : Byte)).length ≤ 256
    ∧ ((latched writable).fl.wel = true ∧ List.replicate 256 (0xAA : Byte) ≠ []) ∧ writable.fl.wel = false := by
  decide +kernel

theorem witness_WritableEnterOpens : started.seq.op = none ∧ started.calm ∧ started.ctx.ready = true
    ∧ started.ctx.mode = .isProtected ∧ started.sh.cs = false ∧ started.fl.wip = false ∧ started.sh.busy = false
    ∧ started.portFits started.cfg.regCtrl = true := by
  decide

theorem witness_WritableExitCloses : writable.seq.op = none ∧ writable.calm ∧ writable.ctx.ready = true
    ∧ writable.ctx.mode = .isWritable ∧ writable.sh.cs = false ∧ writable.fl.wip = false ∧ writable.sh.busy = false
    ∧ writable.portFits writable.cfg.regCtrl = true := by
  decide

theorem witness_WaitWipReturns : ∃ g, (erasing writable).onBus ∧ (erasing writable).prompt
    ∧ (erasing writable).cfg.ok = true ∧ (erasing writable).sh.cs = false ∧ (erasing writable).fl.phase = .idle
    ∧ ((erasing writable).fl.wip = true ↔ (erasing writable).fl.pending ≠ .none)
    ∧ (erasing writable).fl.complete (erasing writable).cfg (erasing writable).draws = .ok g :=
  ⟨_, by decide, by decide, by decide +kernel, rfl, rfl, by decide, rfl⟩

/-- FLASH_INT completes only at the fourth turn, and SEQ pauses before. -/
theorem witness_WaitWipReturns_fair : ∃ g, (slow (erasing writable)).onBus ∧ (slow (erasing writable)).fair
    ∧ (slow (erasing writable)).cfg.ok = true ∧ (slow (erasing writable)).sh.cs = false
    ∧ (slow (erasing writable)).fl.phase = .idle
    ∧ ((slow (erasing writable)).fl.wip = true ↔ (slow (erasing writable)).fl.pending ≠ .none)
    ∧ (slow (erasing writable)).fl.complete (slow (erasing writable)).cfg (slow (erasing writable)).draws = .ok g
    ∧ (slow (erasing writable)).wire.csn = true ∧ resetAsked (slow (erasing writable)) = false :=
  ⟨_, by decide, by decide, by decide +kernel, rfl, rfl, by decide, rfl, rfl, by decide⟩

/-- WAIT_WIP in progress, an erase under way that never completes. -/
theorem witness_WaitWipHangs : Hung { stalled (erasing writable) with
    seq := { writable.seq with op := some (.instr .waitWip), pos := 1 } } :=
  ⟨rfl, rfl, rfl, by decide, rfl, rfl, rfl, by decide, rfl, rfl, rfl, rfl, by decide, by decide +kernel⟩

/-- A WR_BYTE past its first action, SHIFT dead. -/
def deadShift : State :=
  { inFrame .cmd 0 with
    seq := { writable.seq with op := some (.instr (.wrByte 0x06)), pc := 1, pos := 1 }
    sh := { (inFrame .cmd 0).sh with busy := true, bitcnt := 8 }
    env := { started.env with after := { shiftSteps := 0, flashInt := true, pause := false } } }

/-- A RD_BYTE past its first action, SHIFT dead. -/
def deadReceiver : State :=
  { inFrame .dataOut 0x03 with
    seq := { writable.seq with op := some (.instr .rdByte), pc := 1, pos := 1 }
    sh := { (inFrame .dataOut 0x03).sh with busy := true, bitcnt := 8, dir := .receive }
    env := { started.env with after := { shiftSteps := 0, flashInt := true, pause := false } } }

theorem witness_DeadShiftEngineHangs : (deadShift.seq.op = some (.instr (.wrByte 0x06)) ∧ deadShift.sh.txDone = false)
    ∧ deadShift.seq.pos = 1 ∧ deadShift.seq.openBlock = none
    ∧ deadShift.env.turns = [] ∧ deadShift.env.after.shiftSteps = 0 ∧ deadShift.fl.pending = .none
    ∧ resetAsked deadShift = false
    ∧ (deadReceiver.seq.op = some (.instr .rdByte) ∧ deadReceiver.sh.rxReady = false)
    ∧ deadReceiver.seq.pos = 1 ∧ deadReceiver.seq.openBlock = none
    ∧ deadReceiver.env.turns = [] ∧ deadReceiver.env.after.shiftSteps = 0 ∧ deadReceiver.fl.pending = .none
    ∧ resetAsked deadReceiver = false := by decide

theorem witness_ReadByteReturnsTheByte : started.atEngine ∧ started.calm
    ∧ (0xFFFFFF : FlashAddr).toNat < started.cfg.flashSize := ⟨started_may_run.1, by decide, by decide⟩

theorem witness_ReadBurstFillsStage : started.atEngine ∧ started.calm
    ∧ (0xFFFF80 : FlashAddr).toNat + 128 ≤ started.cfg.flashSize
    ∧ hostReaches started started.cfg.stage.toNat 128 = true :=
  ⟨started_may_run.1, by decide, by decide, by decide +kernel⟩

/-- The last sector of the array; the third copy fails. -/
theorem witness_ReadSectorRelays : (thirdCopyFails started).atEngine ∧ (thirdCopyFails started).calm
    ∧ 512 * (0x007FFF : FlashAddr).toNat + 512 ≤ (thirdCopyFails started).cfg.flashSize
    ∧ hostReaches (thirdCopyFails started) (thirdCopyFails started).cfg.stage.toNat 128 = true
    ∧ CallerBuffer (thirdCopyFails started) 0x100000 512
    ∧ (thirdCopyFails started).copyOk 1 = true ∧ (thirdCopyFails started).copyOk 2 = false
    ∧ (thirdCopyFails started).copyOk 3 = true :=
  ⟨by decide +kernel, by decide, by decide, by decide +kernel, ⟨by decide +kernel, by decide, by decide, by decide⟩,
    by decide, by decide, by decide⟩

theorem witness_EraseBlockErases : started.atEngine ∧ started.prompt
    ∧ (0xFFFFFF : FlashAddr).toNat < started.cfg.flashSize := ⟨started_may_run.1, by decide, by decide⟩

/-- A whole page, and the last byte of a page. -/
theorem witness_WriteDataPrograms : started.atEngine ∧ started.prompt ∧ 1 ≤ (256 : BitVec 9).toNat
    ∧ (0xFFFF00 : FlashAddr).toNat % 256 + (256 : BitVec 9).toNat ≤ 256
    ∧ (0xFFFF00 : FlashAddr).toNat + (256 : BitVec 9).toNat ≤ started.cfg.flashSize
    ∧ (0xFFFFFF00 : HostAddr).toNat + (256 : BitVec 9).toNat ≤ 2 ^ 32
    ∧ hostReaches started (0xFFFFFF00 : HostAddr).toNat (256 : BitVec 9).toNat = true
    ∧ hitsStage started (0xFFFFFF00 : HostAddr).toNat (256 : BitVec 9).toNat = false
    ∧ hitsScratch started (0xFFFFFF00 : HostAddr).toNat (256 : BitVec 9).toNat = false
    ∧ (0x0010FF : FlashAddr).toNat % 256 + (1 : BitVec 9).toNat ≤ 256 :=
  ⟨started_may_run.1, by decide, by decide, by decide, by decide, by decide, by decide +kernel, by decide, by decide, by decide⟩

/-- The second state's ports do not fit. -/
theorem witness_WriteDataRejectsLongRequests : (started.seq.op = none ∧ started.ctx.ready = true
      ∧ started.quiescent = true)
    ∧ ((topBase started).seq.op = none ∧ (topBase started).ctx.ready = true ∧ (topBase started).quiescent = true
      ∧ (topBase started).portsFit = false)
    ∧ 256 < (257 : BitVec 9).toNat ∧ 256 < (511 : BitVec 9).toNat := by decide +kernel

theorem witness_EngineOperandRefusals : half.atEngine
    ∧ ¬ (0x800000 : FlashAddr).toNat < half.cfg.flashSize
    ∧ ¬ (0x7FFF81 : FlashAddr).toNat + 128 ≤ half.cfg.flashSize
    ∧ ¬ 512 * (0x004000 : FlashAddr).toNat + 512 ≤ half.cfg.flashSize
    ∧ ((256 : BitVec 9).toNat ≤ 256 ∧ (256 : BitVec 9) ≠ 0
      ∧ 256 < (0x000001 : FlashAddr).toNat % 256 + (256 : BitVec 9).toNat)
    ∧ ((1 : BitVec 9) ≠ 0 ∧ (0x800000 : FlashAddr).toNat % 256 + (1 : BitVec 9).toNat ≤ 256
      ∧ ¬ (0x800000 : FlashAddr).toNat + (1 : BitVec 9).toNat ≤ half.cfg.flashSize)
    ∧ 0x7FFFFF < half.cfg.flashSize := by decide +kernel

/-- The clauses on sources and buffers: one byte past the end of the host's space, the last byte before it, no memory, no
window, and a buffer that touches STAGE or SCRATCH by one byte, before and after they have been filled. -/
theorem witness_EngineOperandRefusals_buffers : narrow.atEngine ∧ started.atEngine
    ∧ ((1 : BitVec 9) ≠ 0 ∧ (0x0010FF : FlashAddr).toNat % 256 + (1 : BitVec 9).toNat ≤ 256
      ∧ (0x0010FF : FlashAddr).toNat + (1 : BitVec 9).toNat ≤ narrow.cfg.flashSize)
    ∧ 2 ^ 32 < (0xFFFFFFFF : HostAddr).toNat + (2 : BitVec 9).toNat
    ∧ ((0xFFFFFFFF : HostAddr).toNat + (1 : BitVec 9).toNat ≤ 2 ^ 32
      ∧ hostCovers narrow (0xFFFFFFFF : HostAddr).toNat (1 : BitVec 9).toNat = false)
    ∧ (hostCovers narrow (0x1FFFFF : HostAddr).toNat (2 : BitVec 9).toNat = true
      ∧ hostReaches narrow (0x1FFFFF : HostAddr).toNat (2 : BitVec 9).toNat = false)
    ∧ (hostReaches started (0x0006FFFF : HostAddr).toNat (2 : BitVec 9).toNat = true
      ∧ hitsStage started (0x0006FFFF : HostAddr).toNat (2 : BitVec 9).toNat = true)
    ∧ usedBuffers.atEngine
    ∧ (hostReaches usedBuffers (0x0006FFFF : HostAddr).toNat (2 : BitVec 9).toNat = true
      ∧ hitsStage usedBuffers (0x0006FFFF : HostAddr).toNat (2 : BitVec 9).toNat = true)
    ∧ (hostReaches usedBuffers (0x00080FFF : HostAddr).toNat (2 : BitVec 9).toNat = true
      ∧ hitsScratch usedBuffers (0x00080FFF : HostAddr).toNat (2 : BitVec 9).toNat = true)
    ∧ started.ctx.scratch.isSome = true ∧ 2 ^ 32 < (0xFFFFFE01 : HostAddr).toNat + 512
    ∧ ((0x0006FE01 : HostAddr).toNat + 512 ≤ 2 ^ 32 ∧ hitsStage started (0x0006FE01 : HostAddr).toNat 512 = true)
    ∧ hitsScratch started (0x00080FFF : HostAddr).toNat 512 = true := by decide +kernel

/-- The last sector of the array; the third of the copies that back its block up fails. -/
theorem witness_WriteSectorRewritesOneSector : (thirdCopyFails started).atEngine ∧ (thirdCopyFails started).prompt
    ∧ Buffers 0x00080000 (thirdCopyFails started)
    ∧ 512 * (0x007FFF : FlashAddr).toNat + 512 ≤ (thirdCopyFails started).cfg.flashSize
    ∧ CallerBuffer (thirdCopyFails started) (0x100000 : HostAddr).toNat 512
    ∧ (thirdCopyFails started).copyOk 32 = true
    ∧ (0x7FFF * 512 - 1) / 4096 = (0x007FFF : FlashAddr).toNat / 8
    ∧ (thirdCopyFails started).copyOk ((0x7FFF * 512 - 1) % 4096 / 128) = true
    ∧ (thirdCopyFails started).copyOk (256 / 128) = false :=
  ⟨by decide +kernel, by decide, ⟨by decide, by decide +kernel, by decide +kernel, by decide +kernel⟩, by decide,
    ⟨by decide +kernel, by decide, by decide, by decide⟩, by decide, by decide, by decide, by decide⟩

theorem witness_WrittenSectorReadsBack : started.atEngine ∧ started.prompt ∧ started.copiesSucceed
    ∧ Buffers 0x00080000 started ∧ 512 * (9 : FlashAddr).toNat + 512 ≤ started.cfg.flashSize
    ∧ CallerBuffer started (0x100000 : HostAddr).toNat 512 :=
  ⟨started_may_run.1, by decide, started_may_run.2.2.2.2, buffers_started, by decide,
    callerBuffer_started 512 (by decide +kernel)⟩

theorem witness_WritingTwiceIsWritingOnce : started.atEngine ∧ started.prompt ∧ started.copiesSucceed
    ∧ Buffers 0x00080000 started ∧ 512 * (9 : FlashAddr).toNat + 512 ≤ started.cfg.flashSize
    ∧ CallerBuffer started (0x100000 : HostAddr).toNat 512 := witness_WrittenSectorReadsBack

theorem witness_NoOpCommandsSucceed : started.atCommand := by decide

theorem witness_UnknownCommandIsAParameterError : started.atCommand
    ∧ (0x08 : Byte) ∉ [started.cfg.hcReset, started.cfg.hcRead, started.cfg.hcWrite, started.cfg.hcVerify,
      started.cfg.hcFormat] := by decide

/-- The last two sectors of the drive; the third copy fails. -/
theorem witness_DiskReadReadsEverySector : (thirdCopyFails started).atEngine ∧ (thirdCopyFails started).calm
    ∧ 1 ≤ (2 : SectorCount).toNat ∧ (15102 : Lba).toNat + (2 : SectorCount).toNat ≤ 15104
    ∧ (∀ i, i < (2 : SectorCount).toNat → 512 * lba2slba (thirdCopyFails started).cfg ((15102 : Lba).toNat + i) + 512
        ≤ (thirdCopyFails started).cfg.flashSize)
    ∧ hostReaches (thirdCopyFails started) (thirdCopyFails started).cfg.stage.toNat 128 = true
    ∧ CallerBuffer (thirdCopyFails started) (0x100000 : HostAddr).toNat (512 * (2 : SectorCount).toNat)
    ∧ (thirdCopyFails started).copyOk (4 * 0 + 2) = false ∧ (thirdCopyFails started).copyOk (4 * 1 + 3) = true :=
  ⟨by decide +kernel, by decide, by decide, by decide, by decide, by decide +kernel,
    ⟨by decide +kernel, by decide, by decide, by decide⟩, by decide, by decide⟩

/-- Three sectors of one block (V63); the third copy, which backs up bytes 256 to 383 of block 0, fails, so that byte 255
is kept and byte 256 is not; byte 511 of the block, in its reserved sector, is. -/
theorem witness_DiskWriteWritesEverySector : (thirdCopyFails started).atEngine ∧ (thirdCopyFails started).prompt
    ∧ Buffers 0x00080000 (thirdCopyFails started)
    ∧ 1 ≤ (3 : SectorCount).toNat ∧ (0 : Lba).toNat + (3 : SectorCount).toNat ≤ 15104
    ∧ (∀ i, i < (3 : SectorCount).toNat → 512 * lba2slba (thirdCopyFails started).cfg ((0 : Lba).toNat + i) + 512
        ≤ (thirdCopyFails started).cfg.flashSize)
    ∧ CallerBuffer (thirdCopyFails started) (0x100000 : HostAddr).toNat (512 * (3 : SectorCount).toNat)
    ∧ (thirdCopyFails started).copyOk (33 * 2 + 32) = true
    ∧ (∀ k, k < 3 → (thirdCopyFails started).keeps k (lba2slba (thirdCopyFails started).cfg k) 255)
    ∧ ¬ (thirdCopyFails started).keeps 0 (lba2slba (thirdCopyFails started).cfg 0) 256
    ∧ (511 / 512 % 8 = (thirdCopyFails started).cfg.reservedSlot
      ∧ ∀ k, k < 3 → (thirdCopyFails started).keeps k (lba2slba (thirdCopyFails started).cfg k) 511) := by
  unfold State.keeps
  exact ⟨by decide +kernel, by decide, ⟨by decide, by decide +kernel, by decide +kernel, by decide +kernel⟩, by decide,
    by decide, by decide, ⟨by decide +kernel, by decide, by decide, by decide⟩, by decide, by decide, by decide, by decide,
    by decide⟩

theorem witness_EmptyDiskTransfer : started.atCommand ∧ (15104 : Lba).toNat ≤ 15104 := by decide

/-- Two sectors: past the drive; past the host's space; the first touching STAGE by one byte; the second touching SCRATCH,
the first in the clear. -/
theorem witness_DiskRange : started.atCommand ∧ 15104 < (15104 : Lba).toNat + (1 : SectorCount).toNat
    ∧ 15104 < (15103 : Lba).toNat + (2 : SectorCount).toNat
    ∧ ((15102 : Lba).toNat + (2 : SectorCount).toNat ≤ 15104
      ∧ 2 ^ 32 < (0xFFFFFC01 : HostAddr).toNat + 512 * (2 : SectorCount).toNat)
    ∧ (started.atEngine ∧ (∀ i, i < (2 : SectorCount).toNat →
        512 * lba2slba started.cfg ((15102 : Lba).toNat + i) + 512 ≤ started.cfg.flashSize)
      ∧ started.calm ∧ hostReaches started started.cfg.stage.toNat 128 = true ∧ started.prompt)
    ∧ ((0x0006FE01 : HostAddr).toNat + 512 * (2 : SectorCount).toNat ≤ 2 ^ 32
      ∧ hitsStage started ((0x0006FE01 : HostAddr).toNat + 512 * 0) 512 = true)
    ∧ (0x0007FC01 : HostAddr).toNat + 512 * (2 : SectorCount).toNat ≤ 2 ^ 32
    ∧ CallerBuffer started (0x0007FC01 : HostAddr).toNat (512 * 1)
    ∧ hitsScratch started ((0x0007FC01 : HostAddr).toNat + 512 * 1) 512 = true ∧ Buffers 0x00080000 started :=
  ⟨by decide, by decide, by decide, by decide,
    ⟨started_may_run.1, by decide, by decide, by decide +kernel, by decide⟩, by decide, by decide,
    ⟨by decide +kernel, by decide, by decide, by decide⟩, by decide, buffers_started⟩

theorem witness_SetupInitialises : State.reset.seq.op = none ∧ started.ctx.ready = true
    ∧ { State.reset.ctx with aborted := true }.ready = false
    ∧ (State.reset.ctx.ready = false ∧ State.reset.ctx.aborted = false ∧ State.reset.ctx.mode = .isProtected
      ∧ State.reset.sh.cs = false ∧ State.reset.calm ∧ State.reset.sh.busy = false)
    ∧ ((clip State.reset.cfg.spiBaseReg.width State.reset.chip.spiBase &&& State.reset.cfg.spiBaseMask).setWidth 16
        : BitVec 16).toNat + State.reset.cfg.regErr.toNat < 2 ^ 16
    ∧ ¬ ((clip 32 0x0000FFFF &&& 0x0000FFFC).setWidth 16 : BitVec 16).toNat + State.reset.cfg.regErr.toNat < 2 ^ 16
    ∧ State.reset.env.allocs = some 0x00080000 :: []
    ∧ State.reset.drive.registered = false
    ∧ { State.reset with env := { State.reset.env with allocs := [none] } }.env.allocs = none :: []
    ∧ { State.reset with env := { State.reset.env with allocs := [] } }.env.allocs = [] := by decide

theorem witness_NothingRunsBeforeSetup : State.reset.seq.op = none ∧ State.reset.ctx.ready = false
    ∧ State.reset.calm ∧ State.reset.sh.busy = false ∧ Instr.wren ≠ .setup := by decide

theorem witness_NoOperationBeginsWhileAnotherRuns : deadShift.seq.op ≠ none := by decide

theorem witness_BusAndModeRefusals : (started.seq.op = none ∧ started.ctx.ready = true ∧ started.calm ∧ started.sh.busy = false
      ∧ started.ctx.mode = .isProtected)
    ∧ writable.seq.op = none ∧ writable.ctx.ready = true ∧ writable.calm ∧ writable.sh.busy = false
    ∧ writable.ctx.mode = .isWritable := by decide

/-- The clauses on the bus: deselected; selected, with the device receiving and sending; a byte being shifted while SHIFT
is stopped. -/
theorem witness_BusAndModeRefusals_bus : (writable.seq.op = none ∧ writable.ctx.ready = true ∧ writable.canTransfer = true
      ∧ writable.atOnce ∧ writable.sh.busy = false ∧ writable.sh.cs = false)
    ∧ ((inFrame .cmd 0).seq.op = none ∧ (inFrame .cmd 0).ctx.ready = true ∧ (inFrame .cmd 0).canTransfer = true
      ∧ (inFrame .cmd 0).atOnce ∧ (inFrame .cmd 0).sh.busy = false ∧ (inFrame .cmd 0).sh.cs = true
      ∧ (inFrame .cmd 0).portsFit = true ∧ (inFrame .cmd 0).fl.phase ≠ .dataOut)
    ∧ ((inFrame .dataOut 0x03).canTransfer = true ∧ (inFrame .dataOut 0x03).atOnce
      ∧ (inFrame .dataOut 0x03).portsFit = true ∧ (inFrame .dataOut 0x03).fl.phase = .dataOut)
    ∧ { deadShift with seq := started.seq }.seq.op = none ∧ { deadShift with seq := started.seq }.ctx.ready = true
    ∧ { deadShift with seq := started.seq }.canTransfer = true ∧ { deadShift with seq := started.seq }.atOnce
    ∧ { deadShift with seq := started.seq }.sh.busy = true
    ∧ ({ deadShift with seq := started.seq }.env.turns.headD
        { deadShift with seq := started.seq }.env.after).shiftSteps = 0 := by decide +kernel

theorem witness_EngineNeedsTheQuiescentState : (latched started).seq.op = none ∧ (latched started).ctx.ready = true
    ∧ (latched started).quiescent = false := by decide

theorem witness_BusyDeviceAcceptsOnlyStatusReads : (stalled (erasing writable)).onBus
    ∧ (stalled (erasing writable)).calm ∧ (stalled (erasing writable)).cfg.ok = true
    ∧ (stalled (erasing writable)).sh.cs = false ∧ (stalled (erasing writable)).fl.phase = .idle
    ∧ (stalled (erasing writable)).fl.wip = true ∧ (0x9F : Byte) ≠ (stalled (erasing writable)).cfg.cmdRdsr := by
  decide +kernel

/-- Second clause: the command byte of an open frame. -/
theorem witness_BusyDeviceAcceptsOnlyStatusReads_byte : (stalled (erasing (inFrame .cmd 0))).onBus
    ∧ (stalled (erasing (inFrame .cmd 0))).sh.cs = true ∧ (stalled (erasing (inFrame .cmd 0))).fl.phase = .cmd
    ∧ (stalled (erasing (inFrame .cmd 0))).fl.wip = true
    ∧ (0x06 : Byte) ≠ (stalled (erasing (inFrame .cmd 0))).cfg.cmdRdsr
    ∧ (stalled (erasing (inFrame .cmd 0))).pauses = false
    ∧ ((stalled (erasing (inFrame .cmd 0))).env.turns.headD (stalled (erasing (inFrame .cmd 0))).env.after).flashInt
        = false := by decide

/-- Clauses with more than a phase: a device that is not busy, one that is, an address inside and outside the array, the
256th and the 257th byte. -/
theorem witness_DeviceTakesBytes : Config.default.ok = true ∧ (inFrame .cmd 0).fl.phase = .cmd
    ∧ (inFrame .cmd 0).fl.wip = false ∧ (erasing (inFrame .cmd 0)).fl.wip = true ∧ (0x06 : Byte) ≠ Config.default.cmdRdsr
    ∧ (0x9F : Byte) ∉ [Config.default.cmdWren, Config.default.cmdWrdi, Config.default.cmdRdsr, Config.default.cmdRead,
      Config.default.cmdSe, Config.default.cmdPp]
    ∧ half.cfg.flashSize ≤ ((0x800000 : FlashAddr).extractLsb' 8 16 ++ (0x00 : Byte) : BitVec 24).toNat
    ∧ ((0x7FFF00 : FlashAddr).extractLsb' 8 16 ++ (0xFF : Byte) : BitVec 24).toNat < half.cfg.flashSize
    ∧ (State.withFlash (inFrame .dataIn 0x02) fun f => { f with pageN := 255 }).fl.pageN < 256
    ∧ 256 ≤ (State.withFlash (inFrame .dataIn 0x02) fun f => { f with pageN := 256 }).fl.pageN := by decide +kernel

theorem witness_DeviceDeselect : Config.default.ok = true
    ∧ ((inFrame .done 0x06).fl.phase = .done ∧ (inFrame .done 0x06).fl.cmd = Config.default.cmdWren)
    ∧ (inFrame .done 0x04).fl.cmd = Config.default.cmdWrdi
    ∧ ((latched (inFrame .done 0x20)).fl.cmd = Config.default.cmdSe ∧ (latched (inFrame .done 0x20)).fl.wel = true)
    ∧ ((latched (inFrame .dataIn 0x02)).fl.phase = .dataIn ∧ (latched (inFrame .dataIn 0x02)).fl.cmd = Config.default.cmdPp
      ∧ 1 ≤ (State.withFlash (latched (inFrame .dataIn 0x02)) fun f => { f with pageN := 1, page := [0xAA] }).fl.pageN)
    ∧ (inFrame .ignore 0x06).fl.phase ≠ .done ∧ (inFrame .ignore 0x06).fl.phase ≠ .dataIn := by decide +kernel

theorem witness_EraseEffect : (erasing started).fl.pending = .erase 1 := rfl

/-- A program that ends at the end of its page, and one that crosses it. -/
theorem witness_ProgramEffect : (programming started).fl.pending = .program 0x1080 [0xAA, 0x55]
    ∧ (0x0010FE : FlashAddr).toNat % 256 + [(0xAA : Byte), 0x55].length ≤ 256
    ∧ 256 < (0x0010FF : FlashAddr).toNat % 256 + [(0xAA : Byte), 0x55].length
    ∧ started.fl.mem.read ((0x1080 : FlashAddr).toNat + 0) = Config.default.erasedByte := by decide

/-- A port that fits and RXD with and without a value; and SETUP still to come. -/
theorem witness_StatusBytesAndPortReads : started.cfg.ok = true ∧ Config.default.srWel ≠ 0
    ∧ started.seq.op = none ∧ started.ctx.ready = true ∧ started.calm ∧ started.sh.busy = false
    ∧ started.portFits started.cfg.regStat = true ∧ started.portFits started.cfg.regCtrl = true
    ∧ (holding started).portFits (holding started).cfg.regIn = true
    ∧ started.sh.rxdHeld = false ∧ (holding started).sh.rxdHeld = true
    ∧ State.reset.seq.op = none ∧ State.reset.ctx.ready = false ∧ State.reset.calm ∧ State.reset.sh.busy = false
    ∧ State.reset.cfg.ok = true := by decide +kernel

theorem witness_BitsCrossMostSignificantFirst : (inFrame .cmd 0).wire.sck = false ∧ 0 < 8 ∧ 7 < 8
    ∧ (inFrame .dataOut 0x03).wire.sck = false
    ∧ (inFrame .dataOut 0x03).fl.cmd = (inFrame .dataOut 0x03).cfg.cmdRead := by decide

/-- The formula alone, with the first and with the last slot reserved; and a table that swaps the first two sectors. -/
theorem witness_SectorMap : Config.default.mapTable = [] ∧ Config.default.reservedSlot < 8
    ∧ { Config.default with reservedSlot := 7 }.reservedSlot < 8 ∧ 17261 % 8 ≠ Config.default.reservedSlot
    ∧ { Config.default with mapTable := [(0, 2), (1, 1)] }.ok = true
    ∧ { Config.default with mapTable := [(0, 2)] }.ok = false ∧ { Config.default with mapTable := [(0, 8)] }.ok = false
    ∧ 0 < 15104 ∧ 15103 < 15104 ∧ 0 ≠ 15103 := by decide +kernel

/-- No byte at all, an unknown command, WREN with a byte too many, READ cut short, SE with a byte too many. -/
theorem witness_RawFramesAreIgnored : writable.onBus ∧ writable.calm ∧ writable.cfg.ok = true ∧ writable.sh.cs = false
    ∧ writable.fl.phase = .idle ∧ writable.fl.wip = false
    ∧ (0x9F : Byte) ∉ [writable.cfg.cmdWren, writable.cfg.cmdWrdi, writable.cfg.cmdRdsr, writable.cfg.cmdRead,
      writable.cfg.cmdSe, writable.cfg.cmdPp]
    ∧ ((0x06 : Byte) = writable.cfg.cmdWren ∧ [(0x00 : Byte)] ≠ [])
    ∧ ((0x03 : Byte) = writable.cfg.cmdRead ∧ [(0x00 : Byte), 0x12].length < 3)
    ∧ ((0x20 : Byte) = writable.cfg.cmdSe
      ∧ ((0xFF : Byte) ++ (0xFF : Byte) ++ (0xFF : Byte) : BitVec 24).toNat < writable.cfg.flashSize) := by decide +kernel

end Sys2Proof.Tests
end

section
/-! What one machine step is made of (rules R6, R28, R220, R271), said once: the equations of `step` by SEQ and HOST's
queue, and what each part of it can end in. Then the two statements of the scope. -/

namespace Sys2Proof.Machine

/-! ## A step, by SEQ and by HOST's queue -/

/-- The state with other inputs of HOST still to come. -/
abbrev State.withInputs (s : State) (rest : List Input) : State := s.withEnv { s.env with inputs := rest }

theorem step_of_reset {s : State} {rest : List Input} (h : s.env.inputs = .reset :: rest) :
    step s = .next (hardReset (s.withInputs rest)) := by
  simp [step, resetAsked, takeInput, nextInput, h]

theorem step_of_inProgress {s : State} {o : Operation} (hr : resetAsked s = false) (ho : s.seq.op = some o) :
    step s = goOn s o := by
  simp [step, hr, ho]

theorem step_of_request {s : State} {r : Request} {rest : List Input} (ho : s.seq.op = none)
    (h : s.env.inputs = .request r :: rest) : step s = takeRequest r (s.withInputs rest) := by
  simp [step, resetAsked, takeInput, nextInput, ho, h]

theorem step_of_store {s : State} {a : Nat} {d : List Byte} {rest : List Input} (ho : s.seq.op = none)
    (h : s.env.inputs = .store a d :: rest) : step s = hostInput a d (s.withInputs rest) := by
  simp [step, resetAsked, takeInput, nextInput, ho, h]

theorem step_of_noInput {s : State} (ho : s.seq.op = none) (h : s.env.inputs = []) : step s = idleTurn s := by
  simp [step, resetAsked, takeInput, nextInput, ho, h]

/-- The five things a machine step can be. -/
inductive StepKind (s t : State) : Prop where
  | reset (rest : List Input) (hin : s.env.inputs = .reset :: rest) (ht : t = hardReset (s.withInputs rest))
  | goesOn (o : Operation) (hr : resetAsked s = false) (ho : s.seq.op = some o) (ht : goOn s o = .next t)
  | request (r : Request) (rest : List Input) (ho : s.seq.op = none) (hin : s.env.inputs = .request r :: rest)
      (ht : takeRequest r (s.withInputs rest) = .next t)
  | store (a : Nat) (d : List Byte) (rest : List Input) (ho : s.seq.op = none) (hin : s.env.inputs = .store a d :: rest)
      (ht : hostInput a d (s.withInputs rest) = .next t)
  | idle (ho : s.seq.op = none) (hin : s.env.inputs = []) (ht : idleTurn s = .next t)

theorem step_cases {s t : State} (h : step s = .next t) : StepKind s t := by
  cases hr : resetAsked s with
  | true =>
    obtain ⟨rest, hin⟩ : ∃ rest, s.env.inputs = .reset :: rest := by
      simpa [resetAsked, List.head?_eq_some_iff] using hr
    rw [step_of_reset hin] at h
    cases h
    exact .reset rest hin rfl
  | false =>
    cases ho : s.seq.op with
    | some o => exact .goesOn o hr ho (step_of_inProgress hr ho ▸ h)
    | none =>
      cases hin : s.env.inputs with
      | nil => exact .idle ho hin (step_of_noInput ho hin ▸ h)
      | cons x rest =>
        cases x with
        | request r => exact .request r rest ho hin (step_of_request ho hin ▸ h)
        | store a d => exact .store a d rest ho hin (step_of_store ho hin ▸ h)
        | reset => simp [resetAsked, hin] at hr

/-! ## The parts of a step -/

/-- A request is looked at only after the turn of the other agents. -/
theorem takeRequest_of_turn {r : Request} {s t : State} (h : takeTurn s = .ok t) : takeRequest r s = runRequest r t := by
  simp [takeRequest, h]

theorem takeRequest_cases {r : Request} {s t : State} (h : takeRequest r s = .next t) :
    ∃ u, takeTurn s = .ok u ∧ runRequest r u = .next t := by
  unfold takeRequest at h
  split at h
  · exact ⟨_, ‹_›, h⟩
  · cases h

theorem runRequest_of_decode {r : Request} {s : State} {i : Instr} (h : decode s.cfg r = .instr i) :
    runRequest r s = exec i s := by
  simp [runRequest, h]

/-- Every operation is the launch of its own micro-program; the host commands put the OP record down first (rule R39). -/
theorem exec_launches (i : Instr) (s : State) :
    ∃ x : OpRecord, exec i s = launch (.instr i) (programOf s (.instr i)) (s.withOp x) := by
  cases i with
  | diskReset | diskRead | diskWrite | diskVerify | diskFormat | diskUnknown => exact ⟨_, rfl⟩
  | _ => exact ⟨s.op, rfl⟩

/-- A request that is not refused launches one micro-program: an operation's, a read of a port, or a raw frame. -/
theorem runRequest_launches {r : Request} {s t : State} (h : runRequest r s = .next t) :
    ∃ (o : Operation) (ms : List Micro) (x : OpRecord), launch o ms (s.withOp x) = .next t := by
  unfold runRequest at h
  split at h
  · next i _ =>
    obtain ⟨x, hx⟩ := exec_launches i s
    exact ⟨_, _, x, hx ▸ h⟩
  · exact ⟨_, _, s.op, h⟩
  · unfold runUndecoded at h
    split at h
    · exact ⟨_, _, s.op, h⟩
    · cases h

theorem launch_cases {o : Operation} {ms : List Micro} {s t : State} (h : launch o ms s = .next t) :
    s.seq.op = none ∧ settle (runSeq ms (s.begin o)) = .next t := by
  unfold launch at h
  split at h
  · exact ⟨‹_›, h⟩
  · cases h

/-- What a micro-program's end leaves: SEQ idle after one that is over, the operation in progress after one that waits. -/
theorem settle_cases {r : Res} {t : State} (h : settle r = .next t) :
    ∃ u, ((r = .go u ∨ r = .stop u) ∧ t = u.finish) ∨ (r = .hold u ∧ t = u.wait) := by
  cases r with
  | go u => cases h; exact ⟨u, .inl ⟨.inl rfl, rfl⟩⟩
  | stop u => cases h; exact ⟨u, .inl ⟨.inr rfl, rfl⟩⟩
  | hold u => cases h; exact ⟨u, .inr ⟨rfl, rfl⟩⟩
  | refuse => cases h

theorem hostInput_cases {a : Nat} {d : List Byte} {s t : State} (h : hostInput a d s = .next t) :
    t = hostStore s a d := by
  unfold hostInput at h
  split at h
  · cases h
  · split at h <;> cases h
    rfl

theorem idleTurn_cases {s t : State} (h : idleTurn s = .next t) : ∃ u, takeTurn s = .ok u ∧ t = u.drawErr := by
  unfold idleTurn at h
  split at h <;> cases h
  exact ⟨_, ‹_›, rfl⟩

/-- A property that every action keeps, and that does not look at SEQ's counters, holds however a micro-program ends. -/
theorem runSeq_all {P : State → Prop} {ms : List Micro} {s : State} (hs : P s)
    (hact : ∀ m ∈ ms, ∀ u, P u → (tick m u).All P) (hadv : ∀ m ∈ ms, ∀ u, P u → P (u.advance m)) :
    (runSeq ms s).All P := by
  induction ms generalizing s with
  | nil => exact Res.all_go hs
  | cons m ms ih =>
    rw [runSeq_cons]
    have hm := hact m List.mem_cons_self s hs
    cases e : tick m s with
    | go u =>
      exact ih (hadv m List.mem_cons_self u (hm u (.inl e)))
        (fun x hx => hact x (List.mem_cons_of_mem m hx)) fun x hx => hadv x (List.mem_cons_of_mem m hx)
    | hold u => exact Res.all_hold (hm u (.inr (.inl e)))
    | stop u => exact Res.all_stop (hm u (.inr (.inr e)))
    | refuse r => exact Res.all_refuse

/-! ## The parameters and CFG_SPIBASE -/

/-- The parameters of rule R8 and the register CFG_SPIBASE are as they were. -/
structure SameParameters (s t : State) : Prop where
  cfg     : t.cfg = s.cfg
  spiBase : t.chip.spiBase = s.chip.spiBase

theorem SameParameters.refl (s : State) : SameParameters s s := ⟨rfl, rfl⟩

theorem SameParameters.trans {s t u : State} (a : SameParameters s t) (b : SameParameters t u) : SameParameters s u :=
  ⟨b.cfg.trans a.cfg, b.spiBase.trans a.spiBase⟩

theorem TurnFrame.sameParameters {s t : State} (h : TurnFrame s t) : SameParameters s t := ⟨h.cfg, by rw [h.chip]⟩

theorem MicroFrame.sameParameters {m : Micro} {s t : State} (h : MicroFrame m s t) : SameParameters s t :=
  ⟨h.cfg, h.spiBase⟩

/-- Also where a wait is for good and the block in hand is lost (rules R208, R287). -/
theorem State.wait_sameParameters (s : State) : SameParameters s s.wait := by
  unfold State.wait
  split
  · split <;> exact ⟨rfl, rfl⟩
  · exact .refl s

theorem runSeq_sameParameters (ms : List Micro) (s : State) : (runSeq ms s).All (SameParameters s) :=
  runSeq_all (.refl s) (fun m _ u hu t ht => hu.trans (tick_frame m u t ht).sameParameters)
    fun _ _ _ hu => hu.trans ⟨rfl, rfl⟩

/-- Running a micro-program to wherever it stops, and leaving SEQ idle or waiting there. -/
theorem settle_runSeq_sameParameters {ms : List Micro} {s t : State} (h : settle (runSeq ms s) = .next t) :
    SameParameters s t := by
  have hrun := runSeq_sameParameters ms s
  obtain ⟨u, ⟨hu | hu, rfl⟩ | ⟨hu, rfl⟩⟩ := settle_cases h
  · exact (hrun u (.inl hu)).trans ⟨rfl, rfl⟩
  · exact (hrun u (.inr (.inr hu))).trans ⟨rfl, rfl⟩
  · exact (hrun u (.inr (.inl hu))).trans u.wait_sameParameters

theorem runRequest_sameParameters {r : Request} {s t : State} (h : runRequest r s = .next t) : SameParameters s t := by
  obtain ⟨o, ms, x, hl⟩ := runRequest_launches h
  have hbegin : SameParameters s ((s.withOp x).begin o) := ⟨rfl, rfl⟩
  exact hbegin.trans (settle_runSeq_sameParameters (launch_cases hl).2)

/-- Settles O10, by what a step can be: its only parts are turns, actions, a store of HOST and a reset. -/
theorem stepKeepsParameters : Obligations.StepKeepsParameters := by
  intro s t h
  suffices hst : SameParameters s t from ⟨hst.cfg, hst.spiBase⟩
  have input (rest : List Input) : SameParameters s (s.withInputs rest) := ⟨rfl, rfl⟩
  cases step_cases h with
  | reset rest _ ht => subst ht; exact (input rest).trans ⟨rfl, rfl⟩
  | goesOn o _ _ ht => exact settle_runSeq_sameParameters ht
  | request r rest _ _ ht =>
    obtain ⟨u, hu, hrun⟩ := takeRequest_cases ht
    exact ((input rest).trans (takeTurn_frame hu).sameParameters).trans (runRequest_sameParameters hrun)
  | store a d rest _ _ ht =>
    obtain rfl := hostInput_cases ht
    exact (input rest).trans ⟨rfl, rfl⟩
  | idle _ _ ht =>
    obtain ⟨u, hu, rfl⟩ := idleTurn_cases ht
    exact (takeTurn_frame hu).sameParameters.trans ⟨rfl, rfl⟩

/-! ## The step of a request -/

/-- Settles O6: the turn changes no parameter, so after it the request still decodes as it did; a calm turn changes
nothing at all. -/
theorem stepRunsTheDecodedOperation : Obligations.StepRunsTheDecodedOperation := by
  intro s r rest i ho hin hd
  have run : ∀ t, takeTurn (s.withInputs rest) = .ok t → step s = exec i t := by
    intro t ht
    have hcfg : t.cfg = s.cfg := (takeTurn_frame ht).cfg
    calc step s = takeRequest r (s.withInputs rest) := step_of_request ho hin
      _ = runRequest r t := takeRequest_of_turn ht
      _ = exec i t := runRequest_of_decode (by rw [hcfg, hd])
  exact ⟨run, fun hc hb => run _ (takeTurn_calm (s := s.withInputs rest) hc hb)⟩

end Sys2Proof.Machine
end

section
/-! What reset leaves and what every machine step keeps (rules R27, R36, R37, R43, R128, R131, R141 to R153): the invariant
of Safety.lean at reset and from one step to the next. -/

namespace Sys2Proof.Machine

/-- Settles O7: the rows of the table of rule R43, read off the state they are written in. -/
theorem resetState : Obligations.ResetState :=
  ⟨rfl, rfl, rfl, rfl, rfl, rfl, rfl, rfl, rfl, rfl, rfl, rfl, rfl, rfl, rfl, rfl, rfl⟩

/-- Settles O8, clause by clause: nothing is listed in either memory, nothing is pending, the device is deselected and no
byte is being shifted. -/
theorem resetInvariant : Obligations.ResetInvariant where
  flashForm := rfl
  hostForm := rfl
  pendingWip := by simp [State.reset]
  programSize := nofun
  pageSize := ⟨rfl, Nat.zero_le _⟩
  selectLine := rfl
  frameOpen := by simp [State.reset]
  busySelected := nofun
  bitCount := ⟨Nat.zero_le _, by simp [State.reset]⟩
  clockRests := fun _ => rfl
  chipWidths := by decide

/-- HOST's queue is no part of the invariant. -/
theorem Invariant.withInputs {s : State} (h : Invariant s) (rest : List Input) : Invariant (s.withInputs rest) :=
  h.of_same rfl rfl rfl rfl rfl rfl

/-- A request that is not refused keeps it, whichever micro-program it launches. -/
theorem runRequest_inv {r : Request} {s t : State} (h : Invariant s) (ht : runRequest r s = .next t) : Invariant t := by
  obtain ⟨o, ms, x, hl⟩ := runRequest_launches ht
  have hx : Invariant (s.withOp x) := h.of_same rfl rfl rfl rfl rfl rfl
  exact launch_inv hx hl

/-- Settles O9, by what a step can be: each of its parts (a turn, the actions of a micro-program, a wait for good, a store
of HOST, a reset) keeps the invariant by itself. -/
theorem stepKeepsInvariant : Obligations.StepKeepsInvariant := by
  intro s t h hst
  cases step_cases hst with
  | reset rest _ ht => subst ht; exact hardReset_inv (h.withInputs rest)
  | goesOn o _ _ ht => exact settle_inv (runSeq_keeps (remaining s o) h) ht
  | request r rest _ _ ht =>
    obtain ⟨u, hu, hrun⟩ := takeRequest_cases ht
    exact runRequest_inv (takeTurn_inv (h.withInputs rest) hu) hrun
  | store a d rest _ _ ht =>
    obtain rfl := hostInput_cases ht
    exact (h.withInputs rest).store a d
  | idle _ _ ht =>
    obtain ⟨u, hu, rfl⟩ := idleTurn_cases ht
    exact (takeTurn_inv h hu).drawErr

end Sys2Proof.Machine
end

section
/-! Who writes the device context and DRIVE (rules R31, R32, R42, R222, R275): three actions, which stand in SETUP's
micro-program only, and SETUP is refused once it has completed. -/

namespace Sys2Proof.Machine

/-! ## The programs without SETUP's actions -/

/-- None of these actions is one that only SETUP has. -/
def SetupFree (ms : List Micro) : Prop := ∀ m ∈ ms, m.ofSetup = false

@[simp] theorem setupFree_nil : SetupFree [] := nofun

@[simp] theorem setupFree_cons (m : Micro) (ms : List Micro) :
    SetupFree (m :: ms) ↔ m.ofSetup = false ∧ SetupFree ms := List.forall_mem_cons

@[simp] theorem setupFree_append (as bs : List Micro) : SetupFree (as ++ bs) ↔ SetupFree as ∧ SetupFree bs :=
  List.forall_mem_append

theorem SetupFree.drop {ms : List Micro} (h : SetupFree ms) (n : Nat) : SetupFree (ms.drop n) :=
  fun m hm => h m (List.mem_of_mem_drop hm)

/-- A loop adds only its marks to its body. -/
theorem SetupFree.forEach {n : Nat} {body : Nat → List Micro} (h : ∀ i, SetupFree (body i)) :
    SetupFree (forEach n body) := by
  intro m hm
  obtain ⟨i, -, hi⟩ := List.mem_flatMap.1 hm
  have hiter : SetupFree ([.push i] ++ body i ++ [.pop (decide (i + 1 < n))]) := by simp [h i, Micro.ofSetup]
  exact hiter m hi

@[simp] theorem setupFree_sendByte (b : ByteSource) : SetupFree (sendByte b) := by simp [sendByte, Micro.ofSetup]

@[simp] theorem setupFree_takeByte (d : ByteDest) : SetupFree (takeByte d) := by simp [takeByte, Micro.ofSetup]

@[simp] theorem setupFree_sendAddress (a : FlashAddr) : SetupFree (sendAddress a) := by simp [sendAddress]

@[simp] theorem setupFree_bareFrame (k : Byte) : SetupFree (bareFrame k) := by simp [bareFrame, Micro.ofSetup]

@[simp] theorem setupFree_sendFrom (i : Nat) (bs : List ByteSource) : SetupFree (sendFrom i bs) := by
  induction bs generalizing i with
  | nil => exact setupFree_nil
  | cons b bs ih => simp [sendFrom, ih, Micro.ofSetup]

@[simp] theorem setupFree_addressedFrame (k : Byte) (a : FlashAddr) (body mark : List Micro) :
    SetupFree (addressedFrame k a body mark) ↔ SetupFree mark ∧ SetupFree body := by
  simp [addressedFrame, Micro.ofSetup]

@[simp] theorem setupFree_takeForCaller (m : Nat) : SetupFree (takeForCaller m) := .forEach fun _ => setupFree_takeByte _

@[simp] theorem setupFree_seqEnter : SetupFree seqEnter := by simp [seqEnter, Micro.ofSetup]

@[simp] theorem setupFree_seqExit : SetupFree seqExit := by simp [seqExit, Micro.ofSetup]

@[simp] theorem setupFree_seqWaitWip (c : Config) : SetupFree (seqWaitWip c) := by
  simp [seqWaitWip, pollFrame, Micro.ofSetup]

@[simp] theorem setupFree_seqModify (c : Config) (b : Nat) (frame : List Micro) (more : Bool) :
    SetupFree (seqModify c b frame more) ↔ SetupFree frame := by
  cases more <;> simp [seqModify, Micro.ofSetup]

@[simp] theorem setupFree_seqEraseBlock (c : Config) (a : Nat) (mark : List Micro) (more : Bool) :
    SetupFree (seqEraseBlock c a mark more) ↔ SetupFree mark := by simp [seqEraseBlock]

@[simp] theorem setupFree_seqWriteData (c : Config) (a p n : Nat) (more : Bool) : SetupFree (seqWriteData c a p n more) := by
  simp [seqWriteData]

@[simp] theorem setupFree_seqReadBurst (c : Config) (a : Nat) : SetupFree (seqReadBurst c a) := by
  have hloop : SetupFree (forEach burstSize fun i => takeByte (.stage i)) := .forEach fun i => setupFree_takeByte (.stage i)
  simp [seqReadBurst, hloop, Micro.ofSetup]

@[simp] theorem setupFree_seqReadSector (c : Config) (sector dest : Nat) : SetupFree (seqReadSector c sector dest) :=
  .forEach fun j => by simp [Micro.ofSetup]

@[simp] theorem setupFree_seqWriteSector (c : Config) (q sector src : Nat) : SetupFree (seqWriteSector c q sector src) := by
  have backup : SetupFree (seqBackup c (blockOf sector) q) := by
    have hloop : SetupFree (forEach sectorsPerBlock fun i =>
        seqReadSector c (sectorsPerBlock * blockOf sector + i) (q + sectorSize * i)) :=
      .forEach fun i => setupFree_seqReadSector _ _ _
    simp [seqBackup, hloop, Micro.ofSetup]
  have restore : SetupFree (seqRestore c (blockBase sector) q) := .forEach fun k => setupFree_seqWriteData _ _ _ _ _
  simp [seqWriteSector, backup, restore, Micro.ofSetup]

@[simp] theorem setupFree_checkedReadSector (s : State) (sector dest : Nat) :
    SetupFree (checkedReadSector s sector dest) := by
  simp [checkedReadSector, bufferChecks, Micro.ofSetup]

@[simp] theorem setupFree_checkedWriteSector (s : State) (sector src : Nat) :
    SetupFree (checkedWriteSector s sector src) := by
  simp [checkedWriteSector, bufferChecks, Micro.ofSetup]

theorem setupFree_progWriteData (s : State) (a : FlashAddr) (p : HostAddr) (n : BitVec 9) :
    SetupFree (progWriteData s a p n) := by
  unfold progWriteData
  split
  · simp [Micro.ofSetup]
  · simp [sourceChecks, Micro.ofSetup]

theorem setupFree_progDiskRead (s : State) (lba : Lba) (count : SectorCount) (buf : HostAddr) :
    SetupFree (progDiskRead s lba count buf) := by
  have hloop : SetupFree (forEach count.toNat fun i =>
      readOne s (lba2slba s.cfg (lba.toNat + i)) (buf.toNat + sectorSize * i)) :=
    .forEach fun i => by simp [readOne, Micro.ofSetup]
  simp [progDiskRead, transferChecks, hloop, Micro.ofSetup]

theorem setupFree_progDiskWrite (s : State) (lba : Lba) (count : SectorCount) (buf : HostAddr) :
    SetupFree (progDiskWrite s lba count buf) := by
  have hloop : SetupFree (forEach count.toNat fun i =>
      writeOne s (lba2slba s.cfg (lba.toNat + i)) (buf.toNat + sectorSize * i)) :=
    .forEach fun i => by simp [writeOne, Micro.ofSetup]
  simp [progDiskWrite, transferChecks, hloop, Micro.ofSetup]

/-- No operation but SETUP has one of SETUP's actions. -/
theorem setupFree_programOf (s : State) {o : Operation} (h : o ≠ .instr .setup) : SetupFree (programOf s o) := by
  cases o with
  | portRead p => simp [programOf, progPortRead, Micro.ofSetup]
  | rawFrame host reads => simp [programOf, progRawFrame, openReport, sendAll, Micro.ofSetup]
  | instr i =>
    cases i with
    | csEn => simp [programOf, progCsEn, Micro.ofSetup]
    | csDis => simp [programOf, progCsDis, Micro.ofSetup]
    | wrByte b => exact setupFree_sendByte _
    | rdByte => exact setupFree_takeByte _
    | wrAddr24 a => exact setupFree_sendAddress a
    | cmd1 k => simp [programOf, progCmd1, Micro.ofSetup]
    | wren => simp [programOf, progWren, progCmd1, Micro.ofSetup]
    | wrdi => simp [programOf, progWrdi, progCmd1, Micro.ofSetup]
    | read a m => simp [programOf, progRead, openReport, Micro.ofSetup]
    | rdsr m => simp [programOf, progRdsr, openReport, Micro.ofSetup]
    | se a => simp [programOf, progSe]
    | pp a d => simp [programOf, progPp, sendAll]
    | writableEnter => exact setupFree_seqEnter
    | writableExit => exact setupFree_seqExit
    | waitWip => exact setupFree_seqWaitWip s.cfg
    | readByte a => simp [programOf, progReadByte, Micro.ofSetup]
    | readBurst a => simp [programOf, progReadBurst, Micro.ofSetup]
    | readSector sector dest => simp [programOf, progReadSector, Micro.ofSetup]
    | eraseBlock a => simp [programOf, progEraseBlock, Micro.ofSetup]
    | writeData a p n => exact setupFree_progWriteData s a p n
    | writeSector sector src => simp [programOf, progWriteSector, Micro.ofSetup]
    | diskReset => simp [programOf, progDiskReset, progNoOp, Micro.ofSetup]
    | diskRead lba count buf => exact setupFree_progDiskRead s lba count buf
    | diskWrite lba count buf => exact setupFree_progDiskWrite s lba count buf
    | diskVerify => simp [programOf, progDiskVerify, progNoOp, Micro.ofSetup]
    | diskFormat => simp [programOf, progDiskFormat, progNoOp, Micro.ofSetup]
    | diskUnknown => simp [programOf, progDiskUnknown, Micro.ofSetup]
    | setup => exact absurd rfl h

/-! ## The device context and DRIVE -/

/-- What SETUP alone writes is as it was: CTX.base, CTX.scratch, CTX.ready and DRIVE. -/
structure SameSetup (s t : State) : Prop where
  base    : t.ctx.base = s.ctx.base
  scratch : t.ctx.scratch = s.ctx.scratch
  ready   : t.ctx.ready = s.ctx.ready
  drive   : t.drive = s.drive

theorem SameSetup.refl (s : State) : SameSetup s s := ⟨rfl, rfl, rfl, rfl⟩

theorem SameSetup.trans {s t u : State} (a : SameSetup s t) (b : SameSetup t u) : SameSetup s u :=
  ⟨b.base.trans a.base, b.scratch.trans a.scratch, b.ready.trans a.ready, b.drive.trans a.drive⟩

theorem SameSetup.of_same {s t : State} (hctx : t.ctx = s.ctx) (hdrive : t.drive = s.drive) : SameSetup s t :=
  ⟨by rw [hctx], by rw [hctx], by rw [hctx], hdrive⟩

theorem TurnFrame.sameSetup {s t : State} (h : TurnFrame s t) : SameSetup s t := .of_same h.ctx h.drive

theorem MicroFrame.sameSetup {m : Micro} {s t : State} (h : MicroFrame m s t) (hm : m.ofSetup = false) : SameSetup s t := by
  obtain ⟨hbase, hscratch, hready, hdrive⟩ := h.setup hm
  exact ⟨hbase, hscratch, hready, hdrive⟩

/-- A wait for good loses a block and the device's latches, but nothing of the context (rules R208, R287). -/
theorem State.wait_sameSetup (s : State) : SameSetup s s.wait := by
  unfold State.wait
  split
  · split <;> exact .of_same rfl rfl
  · exact .refl s

theorem settle_runSeq_sameSetup {ms : List Micro} {s t : State} (hms : SetupFree ms) (h : settle (runSeq ms s) = .next t) :
    SameSetup s t := by
  have hrun : (runSeq ms s).All (SameSetup s) :=
    runSeq_all (.refl s) (fun m hm u hu t ht => hu.trans ((tick_frame m u t ht).sameSetup (hms m hm)))
      fun _ _ _ hu => hu.trans (.of_same rfl rfl)
  obtain ⟨u, ⟨hu | hu, rfl⟩ | ⟨hu, rfl⟩⟩ := settle_cases h
  · exact (hrun u (.inl hu)).trans (.of_same rfl rfl)
  · exact (hrun u (.inr (.inr hu))).trans (.of_same rfl rfl)
  · exact (hrun u (.inr (.inl hu))).trans u.wait_sameSetup

/-- Once SETUP has completed, another is refused at its first action (rule R222). -/
theorem runSeq_progSetup_of_ready {s : State} (h : s.ctx.ready = true) : runSeq progSetup s = .refuse .alreadySetUp := by
  have htick : tick (.need .setup) s = .refuse .alreadySetUp := by
    rw [tick_of_internal rfl]
    simp [act, needRefusal, h, guardBy]
  rw [progSetup, runSeq_cons, htick, Res.andThen_refuse]

/-- A request that is not refused launches the micro-program of the operation it names, the state differing in OP only. -/
theorem runRequest_launches_programOf {r : Request} {s t : State} (h : runRequest r s = .next t) :
    ∃ (o : Operation) (x : OpRecord), launch o (programOf s o) (s.withOp x) = .next t := by
  unfold runRequest at h
  split at h
  · next i _ =>
    obtain ⟨x, hx⟩ := exec_launches i s
    exact ⟨.instr i, x, hx ▸ h⟩
  · next p _ => exact ⟨.portRead p, s.op, h⟩
  · unfold runUndecoded at h
    split at h
    · next host reads _ => exact ⟨.rawFrame host reads, s.op, h⟩
    · cases h

theorem runRequest_sameSetup {r : Request} {s t : State} (hready : s.ctx.ready = true) (h : runRequest r s = .next t) :
    SameSetup s t := by
  obtain ⟨o, x, hl⟩ := runRequest_launches_programOf h
  have hrun := (launch_cases hl).2
  have hbegin : SameSetup s ((s.withOp x).begin o) := .of_same rfl rfl
  by_cases ho : o = .instr .setup
  · subst ho
    have hr : ((s.withOp x).begin (.instr .setup)).ctx.ready = true := hready
    have hrefused := runSeq_progSetup_of_ready hr
    simp [programOf, hrefused, settle] at hrun
  · exact hbegin.trans (settle_runSeq_sameSetup (setupFree_programOf s ho) hrun)

/-- Settles O11, by what a step can be: an operation in progress or taken up is another than SETUP, and has none of the
three actions that write the context. -/
theorem deviceContextIsSetOnce : Obligations.DeviceContextIsSetOnce := by
  intro s t hready hop hreset hst
  suffices h : SameSetup s t from ⟨h.base, h.scratch, h.ready.trans hready, h.drive⟩
  have input (rest : List Input) : SameSetup s (s.withInputs rest) := .of_same rfl rfl
  cases step_cases hst with
  | reset rest hin _ => simp [resetAsked, hin] at hreset
  | goesOn o _ ho ht =>
    have hother : o ≠ .instr .setup := fun e => hop (e ▸ ho)
    exact settle_runSeq_sameSetup ((setupFree_programOf s hother).drop s.seq.pos) ht
  | request r rest _ _ ht =>
    obtain ⟨u, hu, hrun⟩ := takeRequest_cases ht
    have hturn : SameSetup s u := (input rest).trans (takeTurn_frame hu).sameSetup
    exact hturn.trans (runRequest_sameSetup (hturn.ready.trans hready) hrun)
  | store a d rest _ _ ht =>
    obtain rfl := hostInput_cases ht
    exact (input rest).trans (.of_same rfl rfl)
  | idle _ _ ht =>
    obtain ⟨u, hu, rfl⟩ := idleTurn_cases ht
    exact (takeTurn_frame hu).sameSetup.trans (.of_same rfl rfl)

end Sys2Proof.Machine
end

section
/-! What writes FL.MEM (rules R34, R153 to R155): the completion of what is pending, inside the block
or the bytes it names. -/

namespace Sys2Proof.Machine

theorem Memory.splice_sameOutside (m : Memory) (a : Nat) (d : List Byte) :
    Memory.SameOutside a d.length m (m.splice a d) := fun _ hx => Memory.read_splice_outside hx

/-- The bytes a pending erase or program may change: none, its block, its run of bytes (rules R37, R154, R155). -/
def Pending.Spares (m m' : Memory) : Pending → Prop
  | .none => m' = m
  | .erase b => Memory.SameOutside (blockSize * b) blockSize m m'
  | .program a d => Memory.SameOutside a.toNat d.length m m'

theorem Pending.Spares.refl (p : Pending) (m : Memory) : p.Spares m m := by
  cases p with
  | none => rfl
  | erase b => exact fun _ _ => rfl
  | program a d => exact fun _ _ => rfl

/-- A completion changes no other byte. -/
theorem Flash.complete_spares {c : Config} {k : Nat} {f g : Flash} (h : f.complete c k = .ok g) :
    f.pending.Spares f.mem g.mem := by
  unfold Flash.complete at h
  cases hp : f.pending with
  | none => rw [hp] at h; cases h; rfl
  | erase b =>
    rw [hp] at h; cases h
    have hs := Memory.splice_sameOutside f.mem (blockSize * b) (List.replicate blockSize c.erasedByte)
    rwa [List.length_replicate] at hs
  | program a d =>
    rw [hp] at h
    dsimp only at h
    split at h <;> cases h
    have hs := Memory.splice_sameOutside f.mem a.toNat (programmed c.erasedByte f.mem a.toNat k d)
    rwa [length_programmed] at hs

/-- FLASH_INT acts on the device alone. -/
theorem flashInt_cases {s t : State} (h : flashInt s = .ok t) : s.fl.complete s.cfg s.draws = .ok t.fl := by
  unfold flashInt at h
  cases hc : s.fl.complete s.cfg s.draws with
  | error r => rw [hc] at h; cases h
  | ok f => rw [hc] at h; cases h; rfl

/-- A turn in which FLASH_INT does not act leaves FL.MEM alone (rule R34). -/
theorem takeTurn_mem_of_noFlashInt {s t : State} (h : takeTurn s = .ok t)
    (hf : (s.env.turns.headD s.env.after).flashInt = false) : t.fl.mem = s.fl.mem := by
  obtain ⟨u, hu, ht⟩ := takeTurn_cases h
  rw [hf, if_neg Bool.false_ne_true] at ht
  subst ht
  exact (shiftRun_frame hu).mem

/-- Any turn changes FL.MEM at most where what is pending says: SHIFT touches neither, so a completion after it finds both as
they were. -/
theorem takeTurn_spares {s t : State} (h : takeTurn s = .ok t) : s.fl.pending.Spares s.fl.mem t.fl.mem := by
  obtain ⟨u, hu, ht⟩ := takeTurn_cases h
  have hmem : u.fl.mem = s.fl.mem := (shiftRun_frame hu).mem
  have hpending : u.fl.pending = s.fl.pending := (shiftRun_frame hu).pending
  rw [← hmem, ← hpending]
  split at ht
  · exact Flash.complete_spares (flashInt_cases ht)
  · subst ht; exact .refl _ _

/-- Settles O13: of the actions by what each leaves alone, of the turns by what a completion spares. -/
theorem flashContentChangesOnlyByCompletion : Obligations.FlashContentChangesOnlyByCompletion := by
  refine ⟨fun m s t ht => (act_frame m s t ht).2, fun s t h => ?_⟩
  have hs := takeTurn_spares h
  refine ⟨takeTurn_mem_of_noFlashInt h, fun hp => ?_, fun b hp => ?_, fun a d hp => ?_⟩ <;> rw [hp] at hs <;> exact hs

end Sys2Proof.Machine
end

section
/-! What a read of one port by itself answers (rules R23, R26, R72, R126, R134), and what the two status bytes show (rules
R26, R157). -/

namespace Sys2Proof.Machine

theorem Config.ok_stat {c : Config} (h : c.ok = true) :
    c.stTxDone &&& ~~~ c.stRxReady ≠ 0 ∧ c.stRxReady &&& ~~~ c.stTxDone ≠ 0 := by
  simp only [Config.ok, Bool.and_eq_true, bne_iff_ne, ne_eq] at h
  tauto

theorem Config.ok_offsets {c : Config} (h : c.ok = true) :
    [c.regOut, c.regIn, c.regCtrl, c.regStat, c.regCs, c.regErr].Nodup := by
  simp only [Config.ok, Bool.and_eq_true, decide_eq_true_eq] at h
  tauto

/-! ## The status bytes -/

/-- STAT shows TX_DONE and RX_READY, whatever its free bits are (rule R26). -/
theorem statByte_shows {s : State} (h : s.cfg.ok = true) :
    (statByte s &&& s.cfg.stTxDone ≠ 0 ↔ s.sh.txDone = true)
      ∧ (statByte s &&& s.cfg.stRxReady ≠ 0 ↔ s.sh.rxReady = true) := by
  obtain ⟨htx, hrx⟩ := Config.ok_stat h
  exact ⟨twoFlagByte_first htx _ _ _, twoFlagByte_second hrx _ _ _⟩

/-- The flash status byte shows WIP and, where SR_WEL is not 0, WEL (rule R157): the two masks are disjoint. -/
theorem statusByte_shows {c : Config} (h : c.ok = true) (f : Flash) (free : Byte) :
    (statusByte c f free &&& c.srWip ≠ 0 ↔ f.wip = true)
      ∧ (c.srWel ≠ 0 → (statusByte c f free &&& c.srWel ≠ 0 ↔ f.wel = true)) := by
  obtain ⟨hwip, hdisjoint⟩ := Config.ok_status h
  have hdisjoint' : c.srWel &&& c.srWip = 0 := by rw [BitVec.and_comm, hdisjoint]
  exact ⟨twoFlagByte_first (own_of_disjoint hwip hdisjoint) _ _ _,
    fun hwel => twoFlagByte_second (own_of_disjoint hwel hdisjoint') _ _ _⟩

/-! ## One read of a port -/

/-- SEQ is idle, no byte is being shifted and no turn changes anything, under parameters that meet item U15. -/
structure BusAtRest (s : State) : Prop where
  idle : s.seq.op = none
  calm : s.calm
  busy : s.sh.busy = false
  ok   : s.cfg.ok = true

/-- After SETUP a port that fits 16 bits may be read (rules R134, R300). -/
theorem portReadRefusal_of_ready {p : ReadablePort} {s : State} (hr : s.ctx.ready = true)
    (hfit : s.portFits (portOffset s.cfg p) = true) : portReadRefusal p s = none := by
  simp [portReadRefusal, readyAnd, hr, portRefusal, hfit]

/-- Before SETUP there is no CTX.base to read at (rules R44, R134). -/
theorem portReadRefusal_of_notReady {p : ReadablePort} {s : State} (hr : s.ctx.ready = false) :
    portReadRefusal p s = some .notReady := by
  simp [portReadRefusal, readyAnd, hr]

theorem actReadPort_refuse {p : ReadablePort} {s : State} {r : Refusal} (h : portReadRefusal p s = some r) :
    actReadPort p s = .refuse r := by
  unfold actReadPort; rw [h]; rfl

theorem actReadPort_stat {s : State} (h : portReadRefusal .stat s = none) :
    actReadPort .stat s = .go ((pollStat s).withReport (.bytes [statByte s])) := by
  unfold actReadPort; rw [h]; rfl

theorem actReadPort_control {s : State} (h : portReadRefusal .control s = none) :
    actReadPort .control s = .go ((s.portIn s.cfg.regCtrl s.sh.ctrl).withReport (.bytes [s.sh.ctrl])) := by
  unfold actReadPort; rw [h]; rfl

/-- REG_IN answers RXD where it holds a value (rule R126), and draws nothing. -/
theorem actReadPort_inputHeld {s : State} (h : portReadRefusal .input s = none) (hheld : s.sh.rxdHeld = true) :
    actReadPort .input s = .go ((s.portIn s.cfg.regIn s.sh.rxd).withReport (.bytes [s.sh.rxd])) := by
  have hread : readInput s = (s.portIn s.cfg.regIn s.sh.rxd).withReport (.bytes [s.sh.rxd]) := by
    simp [readInput, rxdByte, hheld, State.drew, State.withDraws, State.withReport]
  unfold actReadPort; rw [h, ← hread]; rfl

/-- Before any read transfer it answers the next free value (log 3). -/
theorem actReadPort_inputNotHeld {s : State} (h : portReadRefusal .input s = none) (hheld : s.sh.rxdHeld = false) :
    actReadPort .input s = .go (((s.portIn s.cfg.regIn s.freeByte).withReport (.bytes [s.freeByte])).drew 1) := by
  have hread : readInput s = ((s.portIn s.cfg.regIn s.freeByte).withReport (.bytes [s.freeByte])).drew 1 := by
    simp [readInput, rxdByte, hheld]
  unfold actReadPort; rw [h, ← hread]; rfl

/-- A read of a port at rest has the outcome of its one action, on the state SEQ starts from. -/
theorem runRequest_busRead {s : State} (h : BusAtRest s) (p : ReadablePort) :
    runRequest (.busRead (portOffset s.cfg p)) s
      = settle ((actReadPort p (s.begin (.portRead p))).andThen fun t => .go (t.advance (.readPort p))) := by
  have hdecode : decode s.cfg (.busRead (portOffset s.cfg p)) = .portRead p :=
    decodePortRead_offset (Config.ok_offsets h.ok) p
  have hcalm : (s.begin (.portRead p)).calm := h.calm
  have htick : tick (.readPort p) (s.begin (.portRead p)) = actReadPort p (s.begin (.portRead p)) :=
    tick_calm rfl hcalm h.busy
  simp only [runRequest, hdecode, execPortRead, launch, h.idle, if_true, progPortRead, runSeq_cons, runSeq_nil, htick]

theorem runRequest_busRead_of_go {s u : State} (h : BusAtRest s) {p : ReadablePort}
    (hu : actReadPort p (s.begin (.portRead p)) = .go u) :
    runRequest (.busRead (portOffset s.cfg p)) s = .next (u.advance (.readPort p)).finish := by
  rw [runRequest_busRead h, hu, Res.andThen_go, settle]

theorem runRequest_busRead_notReady {s : State} (h : BusAtRest s) (hr : s.ctx.ready = false) (p : ReadablePort) :
    runRequest (.busRead (portOffset s.cfg p)) s = .refused .notReady := by
  have hact : actReadPort p (s.begin (.portRead p)) = .refuse .notReady :=
    actReadPort_refuse (portReadRefusal_of_notReady hr)
  rw [runRequest_busRead h, hact, Res.andThen_refuse, settle]

/-- What a read by itself leaves: the byte kept by SEQ, in `seq`, and handed to the caller, `n` free values drawn beside
the one ERR takes, and everything else as it was. -/
def portReadState (s : State) (off v : Byte) (seq : Sequencer) (n : Nat) : State :=
  { s with
    sh := { s.sh with err := s.freeByte }, draws := s.draws + 1 + n
    seq := { seq with op := none, pc := 0, pos := 0, loops := [], openBlock := none }
    report := .bytes [v], trace := [.portIn (s.port off) v] }

section
variable {s : State} (h : BusAtRest s) (hr : s.ctx.ready = true)
include h hr

/-- STAT answers a byte that shows the two flags (rule R26). -/
theorem runRequest_busRead_stat (hfit : s.portFits s.cfg.regStat = true) :
    ∃ v, runRequest (.busRead s.cfg.regStat) s = .next (portReadState s s.cfg.regStat v { s.seq with stat := v } 1)
      ∧ (v &&& s.cfg.stTxDone ≠ 0 ↔ s.sh.txDone = true) ∧ (v &&& s.cfg.stRxReady ≠ 0 ↔ s.sh.rxReady = true) :=
  ⟨statByte (s.begin (.portRead .stat)),
    runRequest_busRead_of_go (p := .stat) h (actReadPort_stat (portReadRefusal_of_ready hr hfit)),
    statByte_shows (s := s.begin (.portRead .stat)) h.ok⟩

/-- REG_IN answers RXD again (rules R72, R126). -/
theorem runRequest_busRead_inputHeld (hheld : s.sh.rxdHeld = true) (hfit : s.portFits s.cfg.regIn = true) :
    runRequest (.busRead s.cfg.regIn) s
      = .next (portReadState s s.cfg.regIn s.sh.rxd { s.seq with byte := s.sh.rxd } 0) :=
  runRequest_busRead_of_go (p := .input) h
    (actReadPort_inputHeld (portReadRefusal_of_ready hr hfit) hheld)

/-- And some byte, where no read transfer has completed (log 3). -/
theorem runRequest_busRead_inputNotHeld (hheld : s.sh.rxdHeld = false) (hfit : s.portFits s.cfg.regIn = true) :
    ∃ v, runRequest (.busRead s.cfg.regIn) s = .next (portReadState s s.cfg.regIn v { s.seq with byte := v } 1) :=
  ⟨(s.begin (.portRead .input)).freeByte, runRequest_busRead_of_go (p := .input) h
    (actReadPort_inputNotHeld (portReadRefusal_of_ready hr hfit) hheld)⟩

/-- REG_CTRL answers CTRL (rule R23). -/
theorem runRequest_busRead_control (hfit : s.portFits s.cfg.regCtrl = true) :
    runRequest (.busRead s.cfg.regCtrl) s
      = .next (portReadState s s.cfg.regCtrl s.sh.ctrl { s.seq with byte := s.sh.ctrl } 0) :=
  runRequest_busRead_of_go (p := .control) h (actReadPort_control (portReadRefusal_of_ready hr hfit))

end

/-- Settles O57, part by part: the two status bytes by what a byte with two flags shows, the reads by what the one action
of each answers. -/
theorem statusBytesAndPortReads : Obligations.StatusBytesAndPortReads := by
  refine ⟨fun s hok => ?_, fun c f free hok => statusByte_shows hok f free, fun s ho hr hc hb hok => ?_,
    fun s ho hr hc hb hok off hoff => ?_⟩
  · obtain ⟨htx, hrx⟩ := statByte_shows hok
    exact ⟨htx, hrx, rfl, rfl, rfl, rfl⟩
  · have hs : BusAtRest s := ⟨ho, hc, hb, hok⟩
    exact ⟨runRequest_busRead_stat hs hr, runRequest_busRead_inputHeld hs hr, runRequest_busRead_inputNotHeld hs hr,
      runRequest_busRead_control hs hr⟩
  · have hs : BusAtRest s := ⟨ho, hc, hb, hok⟩
    obtain ⟨p, rfl⟩ : ∃ p, off = portOffset s.cfg p := by
      simp only [List.mem_cons, List.not_mem_nil, or_false] at hoff
      rcases hoff with h | h | h
      · exact ⟨.stat, h⟩
      · exact ⟨.input, h⟩
      · exact ⟨.control, h⟩
    exact runRequest_busRead_notReady hs hr p

end Sys2Proof.Machine
end

section
/-! One byte bit by bit (rule R128): what the lines show while each bit crosses, whichever way the byte goes. Then the
one statement of the memory family. -/

namespace Sys2Proof.Machine

/-! ## Some steps of SHIFT, then some more -/

/-- SHIFT goes on from where it has got to. -/
theorem shiftRun_add {m : Nat} {s t : State} (h : shiftRun m s = .ok t) (n : Nat) : shiftRun (m + n) s = shiftRun n t := by
  induction m generalizing s with
  | zero =>
    cases h
    rw [Nat.zero_add]
  | succ m ih =>
    cases hb : s.sh.busy with
    | false =>
      rw [shiftRun_of_idle _ hb] at h ⊢
      cases h
      exact (shiftRun_of_idle n hb).symm
    | true =>
      rw [Nat.add_right_comm]
      rw [shiftRun, if_pos hb] at h ⊢
      cases hs : shiftStep s with
      | error r => simp [hs] at h
      | ok u =>
        rw [hs] at h
        exact ih h

theorem shiftRun_succ {n : Nat} {s t : State} (hb : s.sh.busy = true) (h : shiftStep s = .ok t) :
    shiftRun (n + 1) s = shiftRun n t := by
  rw [shiftRun, if_pos hb, h]

/-! ## Bit `i` on the lines -/

/-- Bit `i` of a byte is crossing while SCK = `c`: MOSI shows it of `x`, what the engine sends, and MISO of `y`, what the
device sends. SCK is low after the first line of rule R128's loop and high after the second. -/
structure BitOnWires (x y : Byte) (i : Nat) (c : Bool) (s : State) : Prop where
  busy     : s.sh.busy = true
  sub      : s.sh.sub = c.toNat + 1
  bitcnt   : s.sh.bitcnt = i + 1
  mosiByte : s.sh.mosiByte = x
  misoByte : s.sh.misoByte = y
  sck      : s.wire.sck = c
  mosi     : s.wire.mosi = x.getLsbD i
  miso     : s.wire.miso = y.getLsbD i

section
variable {x y : Byte} {i : Nat} {s : State}

/-- Past bit 7 the device has been asked for its byte. -/
theorem takeDeviceByte_of_bitcnt (h : s.sh.bitcnt ≠ 8) : takeDeviceByte s = s := by
  simp [takeDeviceByte, h]

/-- The second line of the loop raises SCK under a bit that stays. -/
theorem BitOnWires.clocked (h : BitOnWires x y i false s) :
    shiftRun 1 s = .ok (clockHigh s) ∧ BitOnWires x y i true (clockHigh s) := by
  obtain ⟨hbusy, hsub, hbitcnt, hx, hy, hsck, hmosi, hmiso⟩ := h
  have hstep : shiftStep s = .ok (clockHigh s) := by simp [shiftStep, hsub]
  exact ⟨shiftRun_succ hbusy hstep, hbusy, rfl, hbitcnt, hx, hy, rfl, hmosi, hmiso⟩

/-- The third line lowers SCK, and the first line puts the next lower bit on the lines. -/
theorem BitOnWires.next (h : BitOnWires x y (i + 1) true s) (hi : i < 7) :
    ∃ t, shiftRun 2 s = .ok t ∧ BitOnWires x y i false t := by
  obtain ⟨hbusy, hsub, hbitcnt, hx, hy, -, -, -⟩ := h
  have hleft : (nextMiso (clockLow s)).sh.bitcnt = i + 1 := by simp [nextMiso, clockLow, hbitcnt]
  have hlow : shiftStep s = .ok (nextMiso (clockLow s)) := by simp [shiftStep, hsub, clockLow, hbitcnt]
  have hput : shiftStep (nextMiso (clockLow s)) = .ok (putBit (nextMiso (clockLow s))) := by
    rw [shiftStep, takeDeviceByte_of_bitcnt (by omega)]
    rfl
  refine ⟨putBit (nextMiso (clockLow s)), (shiftRun_succ hbusy hlow).trans (shiftRun_succ hbusy hput),
    hbusy, rfl, hleft, hx, hy, rfl, ?_, ?_⟩ <;>
    simp [putBit, nextMiso, clockLow, ShiftEngine.bitIndex, hbitcnt, hx, hy]

/-- Three steps a bit, bit 7 first. -/
theorem BitOnWires.after (h : BitOnWires x y 7 false s) (j : Nat) (hj : j < 8) :
    ∃ t, shiftRun (3 * j) s = .ok t ∧ BitOnWires x y (7 - j) false t := by
  induction j with
  | zero => exact ⟨s, rfl, h⟩
  | succ j ih =>
    obtain ⟨t, ht, hlow⟩ := ih (by omega)
    obtain ⟨hu, hhigh⟩ := hlow.clocked
    rw [show 7 - j = 7 - (j + 1) + 1 by omega] at hhigh
    obtain ⟨v, hv, hnext⟩ := hhigh.next (by omega)
    have hrun : shiftRun (3 * j + (1 + 2)) s = .ok v := by rw [shiftRun_add ht, shiftRun_add hu, hv]
    exact ⟨v, hrun, hnext⟩

/-- Steps 3 j + 1 and 3 j + 2 of a transfer whose first step puts bit 7 on the lines. -/
theorem shiftRun_bitOnWires {t : State} (hs : shiftRun 1 s = .ok t) (h : BitOnWires x y 7 false t) {j : Nat}
    (hj : j < 8) :
    (∃ u, shiftRun (3 * j + 1) s = .ok u ∧ BitOnWires x y (7 - j) false u)
    ∧ ∃ u, shiftRun (3 * j + 2) s = .ok u ∧ BitOnWires x y (7 - j) true u := by
  obtain ⟨u, hu, hlow⟩ := h.after j hj
  obtain ⟨hv, hhigh⟩ := hlow.clocked
  have hlowRun : shiftRun (3 * j + 1) s = .ok u := by rw [Nat.add_comm, shiftRun_add hs, hu]
  exact ⟨⟨u, hlowRun, hlow⟩, clockHigh u, (shiftRun_add hlowRun 1).trans hv, hhigh⟩

/-! ## The first bit -/

/-- A write to REG_OUT: what MISO carries meanwhile is free (rule R128). -/
theorem startTransmit_first (b : Byte) (hsck : s.wire.sck = false) :
    shiftRun 1 (startTransmit b s) = .ok (putBit (startTransmit b s))
      ∧ BitOnWires b s.freeByte 7 false (putBit (startTransmit b s)) :=
  ⟨rfl, rfl, rfl, rfl, rfl, rfl, hsck, rfl, rfl⟩

/-- The read strobe: the device is asked for its byte, and what MOSI carries meanwhile is free (rule R126). -/
theorem startReceive_first (hsck : s.wire.sck = false) :
    shiftRun 1 (startReceive s) = .ok (putBit (deviceTaken (startReceive s)))
      ∧ BitOnWires s.freeByte (s.fl.byteOut s.cfg s.sh.misoFree) 7 false (putBit (deviceTaken (startReceive s))) :=
  ⟨rfl, rfl, rfl, rfl, rfl, rfl, hsck, rfl, rfl⟩

end

/-- Settles O58: the byte `v` that comes in is the device's, and each bit is read off the lines where it crosses. -/
theorem bitsCrossMostSignificantFirst : Obligations.BitsCrossMostSignificantFirst := by
  refine ⟨fun s b j hsck hj => ?_, fun s hsck =>
    ⟨s.fl.byteOut s.cfg s.sh.misoFree, fun hread => if_pos hread, Eq.symm, fun j hj => ?_, ?_⟩⟩
  · obtain ⟨hrun, hfirst⟩ := startTransmit_first b hsck
    obtain ⟨⟨u, hu, hlow⟩, v, hv, hhigh⟩ := shiftRun_bitOnWires hrun hfirst hj
    exact ⟨⟨u, hu, hlow.sck, hlow.mosi, hlow.bitcnt.trans (by omega), hlow.busy⟩,
      v, hv, hhigh.sck, hhigh.mosi, hhigh.bitcnt.trans (by omega), hhigh.busy⟩
  · obtain ⟨hrun, hfirst⟩ := startReceive_first hsck
    obtain ⟨⟨u, hu, hlow⟩, v, hv, hhigh⟩ := shiftRun_bitOnWires hrun hfirst hj
    exact ⟨⟨u, hu, hlow.sck, hlow.miso, hlow.bitcnt.trans (by omega), hlow.busy⟩,
      v, hv, hhigh.sck, hhigh.miso, hhigh.bitcnt.trans (by omega), hhigh.busy⟩
  · exact ⟨_, shiftRun_receive (startReceive s) 24 le_rfl rfl rfl rfl rfl rfl, rfl, rfl, rfl⟩

end Sys2Proof.Machine
end

section
/-! Decoding and encoding agree (rules R92 to R108): what encodes decodes back, and in the two spaces where each form has
one meaning what decodes is written back bit for bit. -/

namespace Sys2Proof.Machine

/-! ## Every operation survives being encoded and decoded -/

/-- Settles O1, operation by operation, by the `Codec` family. -/
theorem encodedOperationsDecode : Obligations.EncodedOperationsDecode := by
  intro c i hok hw
  suffices h : Laws.Codec.Statement i from h c hok hw
  cases i with
  | csEn => exact Laws.Codec.csEn
  | csDis => exact Laws.Codec.csDis
  | wrByte b => exact Laws.Codec.wrByte b
  | rdByte => exact Laws.Codec.rdByte
  | wrAddr24 a => exact Laws.Codec.wrAddr24 a
  | cmd1 k => exact Laws.Codec.cmd1 k
  | wren => exact Laws.Codec.wren
  | wrdi => exact Laws.Codec.wrdi
  | read a m => exact Laws.Codec.read a m
  | rdsr m => exact Laws.Codec.rdsr m
  | se a => exact Laws.Codec.se a
  | pp a d => exact Laws.Codec.pp a d
  | writableEnter => exact Laws.Codec.writableEnter
  | writableExit => exact Laws.Codec.writableExit
  | waitWip => exact Laws.Codec.waitWip
  | readByte a => exact Laws.Codec.readByte a
  | readBurst a => exact Laws.Codec.readBurst a
  | readSector sector dest => exact Laws.Codec.readSector sector dest
  | eraseBlock a => exact Laws.Codec.eraseBlock a
  | writeData a p n => exact Laws.Codec.writeData a p n
  | writeSector sector src => exact Laws.Codec.writeSector sector src
  | diskReset lba count buf => exact Laws.Codec.diskReset lba count buf
  | diskRead lba count buf => exact Laws.Codec.diskRead lba count buf
  | diskWrite lba count buf => exact Laws.Codec.diskWrite lba count buf
  | diskVerify lba count buf => exact Laws.Codec.diskVerify lba count buf
  | diskFormat lba count buf => exact Laws.Codec.diskFormat lba count buf
  | diskUnknown k lba count buf => exact Laws.Codec.diskUnknown k lba count buf
  | setup => exact Laws.Codec.setup

/-! ## What decodes is the encoding of what it decodes to -/

/-- The operation is in the form the spec gives it, and this request is its encoding. -/
def EncodedAs (c : Config) (i : Instr) (r : Request) : Prop := i.wellFormed c = true ∧ encode c i = r

section
variable {c : Config} {i : Instr} {rest : List Byte} {reads : BitVec 32}

/-- The address bytes of a frame are those of the address it names (rule R95). -/
theorem addressBytes_addrOf (a2 a1 a0 : Byte) (d : List Byte) :
    addrHigh (addrOf a2 a1 a0) :: addrMid (addrOf a2 a1 a0) :: addrLow (addrOf a2 a1 a0) :: d = a2 :: a1 :: a0 :: d := by
  obtain ⟨h2, h1, h0⟩ := Laws.bytes_addrOf a2 a1 a0
  rw [h2, h1, h0]

theorem decodeBare_inv {j : Instr} (h : decodeBare j rest reads = .instr i) : i = j ∧ rest = [] ∧ reads = 0 := by
  unfold decodeBare at h
  split at h <;> cases h
  exact ⟨rfl, ‹_›⟩

theorem decodeReadFrame_encoded (h : decodeReadFrame rest reads = .instr i) :
    EncodedAs c i (.frame (c.cmdRead :: rest) reads) := by
  unfold decodeReadFrame at h
  split at h <;> cases h
  exact ⟨rfl, by rw [encode, addressBytes_addrOf]⟩

theorem decodeStatusFrame_encoded (h : decodeStatusFrame rest reads = .instr i) :
    EncodedAs c i (.frame (c.cmdRdsr :: rest) reads) := by
  unfold decodeStatusFrame at h
  split at h <;> cases h
  exact ⟨rfl, rfl⟩

theorem decodeEraseFrame_encoded (h : decodeEraseFrame rest reads = .instr i) :
    EncodedAs c i (.frame (c.cmdSe :: rest) reads) := by
  unfold decodeEraseFrame at h
  split at h
  · split at h <;> cases h
    next hreads => exact ⟨rfl, by rw [encode, addressBytes_addrOf, hreads]⟩
  · cases h

theorem decodeProgramFrame_encoded (h : decodeProgramFrame rest reads = .instr i) :
    EncodedAs c i (.frame (c.cmdPp :: rest) reads) := by
  unfold decodeProgramFrame at h
  split at h
  · split at h
    · cases h
    · next hreads =>
      split at h <;> cases h
      next hlen =>
      refine ⟨by simpa [Instr.wellFormed, Instr.pageFits, Instr.commandIsUnknown] using hlen, ?_⟩
      rw [encode, addressBytes_addrOf, not_not.1 hreads]
  · cases h

/-- What the frame decoder accepts, command byte by command byte (rules R93, R94, R96). -/
theorem decodeFrame_encoded {host : List Byte} (h : decodeFrame c host reads = .instr i) :
    EncodedAs c i (.frame host reads) := by
  cases host with
  | nil => cases h
  | cons k rest =>
    simp only [decodeFrame] at h
    split_ifs at h with hwren hwrdi hread hrdsr hse hpp
    · obtain ⟨rfl, rfl, rfl⟩ := decodeBare_inv h
      exact ⟨rfl, by rw [encode, hwren]⟩
    · obtain ⟨rfl, rfl, rfl⟩ := decodeBare_inv h
      exact ⟨rfl, by rw [encode, hwrdi]⟩
    · exact hread ▸ decodeReadFrame_encoded h
    · exact hrdsr ▸ decodeStatusFrame_encoded h
    · exact hse ▸ decodeEraseFrame_encoded h
    · exact hpp ▸ decodeProgramFrame_encoded h

/-- What the OP record decodes to (rules R100, R104); a command byte that none of the five rows has is no row's. -/
theorem decodeDisk_encoded {k : Byte} {lba : Lba} {count : SectorCount} {buf : HostAddr}
    (h : decodeDisk c k lba count buf = .instr i) : EncodedAs c i (.disk k lba count buf) := by
  unfold decodeDisk at h
  split_ifs at h with hread hwrite hverify hformat hreset <;> cases h
  · exact ⟨rfl, by rw [encode, hread]⟩
  · exact ⟨rfl, by rw [encode, hwrite]⟩
  · exact ⟨rfl, by rw [encode, hverify]⟩
  · exact ⟨rfl, by rw [encode, hformat]⟩
  · exact ⟨rfl, by rw [encode, hreset]⟩
  · refine ⟨?_, rfl⟩
    simp [Instr.wellFormed, Instr.pageFits, Instr.commandIsUnknown, hread, hwrite, hverify, hformat, hreset]

end

/-- Settles O2. -/
theorem framesDecodeToTheirEncoding : Obligations.FramesDecodeToTheirEncoding := fun _ _ =>
  ⟨fun _ _ h => decodeFrame_encoded h, fun _ _ _ _ _ h => decodeDisk_encoded h⟩

/-! ## Encodings written out -/

/-- The defaults of rule R8 meet the constraints of item U15. -/
theorem Config.default_ok : Config.default.ok = true := by decide

/-- A request that is the encoding of an operation, under the parameters of reset. -/
theorem decode_of_encode_default {i : Instr} {r : Request} (hw : i.wellFormed Config.default = true)
    (h : encode Config.default i = r) : decode Config.default r = .instr i :=
  h ▸ encodedOperationsDecode Config.default i Config.default_ok hw

/-- Settles O3: each of the words is the encoding of the operation, so O1 has it decode to that operation. -/
theorem writtenWordsDecode : Obligations.WrittenWordsDecode :=
  ⟨decode_of_encode_default rfl rfl, decode_of_encode_default rfl rfl, decode_of_encode_default rfl rfl,
    decode_of_encode_default rfl rfl, decode_of_encode_default rfl rfl, decode_of_encode_default rfl rfl,
    decode_of_encode_default rfl rfl, decode_of_encode_default rfl rfl, decode_of_encode_default rfl rfl,
    decode_of_encode_default rfl rfl⟩

end Sys2Proof.Machine
end

section
/-! Requests that name nothing (rules R24, R26, R42, R62, R101, R103), and the request the engine takes and answers `fail`
(rules R178, R243). -/

namespace Sys2Proof.Machine

/-! ## L0 -/

/-- The six offsets are pairwise different where a write is decoded (item U15), in the order the decoder asks. -/
theorem Config.ok_writeOffsets {c : Config} (h : c.ok = true) :
    c.regStat ∉ [c.regCs, c.regOut, c.regIn] ∧ c.regCtrl ∉ [c.regCs, c.regOut, c.regIn, c.regStat]
      ∧ c.regErr ∉ [c.regCs, c.regOut, c.regIn, c.regStat] := by
  have hoff := Config.ok_offsets h
  simp only [List.nodup_cons, List.mem_cons, List.not_mem_nil, or_false, not_or] at hoff ⊢
  obtain ⟨⟨-, hOutCtrl, hOutStat, -, hOutErr⟩, ⟨hInCtrl, hInStat, -, hInErr⟩, ⟨hCtrlStat, hCtrlCs, -⟩,
    ⟨hStatCs, hStatErr⟩, hCsErr, -⟩ := hoff
  exact ⟨⟨hStatCs, Ne.symm hOutStat, Ne.symm hInStat⟩,
    ⟨hCtrlCs, Ne.symm hOutCtrl, Ne.symm hInCtrl, hCtrlStat⟩,
    ⟨Ne.symm hCsErr, Ne.symm hOutErr, Ne.symm hInErr, Ne.symm hStatErr⟩⟩

section
variable {c : Config}

theorem decodeWrite_badChipSelectValue {v : Byte} (ha : v ≠ c.csAssert) (hd : v ≠ c.csDeassert) :
    decodeWrite c c.regCs v = .reject .badChipSelectValue := by
  simp [decodeWrite, ha, hd]

theorem decodeWrite_stat (h : c.ok = true) (v : Byte) : decodeWrite c c.regStat v = .reject .statusIsReadOnly := by
  have hne := (Config.ok_writeOffsets h).1
  simp only [List.mem_cons, List.not_mem_nil, or_false, not_or] at hne
  simp [decodeWrite, hne]

/-- REG_CTRL and REG_ERR are written by no bus primitive (rule R101). -/
theorem decodeWrite_ctrlOrErr (h : c.ok = true) {off : Byte} (hoff : off = c.regCtrl ∨ off = c.regErr) (v : Byte) :
    decodeWrite c off v = .reject .notABusPrimitive := by
  obtain ⟨-, hctrl, herr⟩ := Config.ok_writeOffsets h
  have hne : off ∉ [c.regCs, c.regOut, c.regIn, c.regStat] := by
    rcases hoff with rfl | rfl
    · exact hctrl
    · exact herr
  simp only [List.mem_cons, List.not_mem_nil, or_false, not_or] at hne
  simp [decodeWrite, hne, hoff]

end

section
variable {s : State} {e : DecodeError}

/-- A single write that is no bus primitive is refused in every state. -/
theorem runRequest_write_of_reject {off v : Byte} (h : decodeWrite s.cfg off v = .reject e) :
    runRequest (.bus [(off, v)]) s = .refused (.undecodable e) := by
  simp only [runRequest, decode, decodeBus, h, runUndecoded]

/-- A read of a port that no agent reads is refused in every state. -/
theorem runRequest_busRead_of_reject {off : Byte} (h : decodePortRead s.cfg off = .reject e) :
    runRequest (.busRead off) s = .refused (.undecodable e) := by
  simp only [runRequest, decode, h, runUndecoded]

end

/-! ## L2 -/

/-- The selectors 0x9 to 0xF (rule R103). -/
theorem decodeEngine_badSelector {sel : BitVec 4} (h : 9 ≤ sel.toNat) (a : FlashAddr) (p : HostAddr) (n : BitVec 9) :
    decodeEngine sel a p n = .reject .badSelector := by
  unfold decodeEngine
  split_ifs
  case neg => rfl
  all_goals subst sel; exact absurd h (by decide)

theorem runRequest_engine_badSelector (s : State) {sel : BitVec 4} (h : 9 ≤ sel.toNat) (a : FlashAddr) (p : HostAddr)
    (n : BitVec 9) : runRequest (.engine sel a p n) s = .refused (.undecodable .badSelector) := by
  simp only [runRequest, decode, decodeEngine_badSelector h, runUndecoded]

/-- More than 256 bytes: the operation is admitted, and its one action is to answer `fail` (rules R178, R243). -/
theorem progWriteData_of_long (s : State) (a : FlashAddr) (p : HostAddr) {n : BitVec 9} (h : 256 < n.toNat) :
    progWriteData s a p n = [.need .admitted] ++ [.rejectWrite] := if_pos h

theorem runs_rejectWrite (s : State) : Runs [.rejectWrite] s fun t => t.report = .fail :=
  Runs.cons (tick_of_internal rfl s) (Runs.nil rfl)

/-- Abnormal end X2 where an engine operation may start. -/
theorem exec_writeData_of_long {s : State} (hs : s.atEngine) (a : FlashAddr) (p : HostAddr) {n : BitVec 9}
    (hn : 256 < n.toNat) : ∃ t, exec (.writeData a p n) s = .next t ∧ t.report = .fail := by
  obtain ⟨hidle, hready, hquiet, -, -⟩ := hs
  have hneed : needRefusal .admitted (s.begin (.instr (.writeData a p n))) = none := by
    have hready' : (s.begin (.instr (.writeData a p n))).ctx.ready = true := hready
    have hquiet' : (s.begin (.instr (.writeData a p n))).quiescent = true := hquiet
    simp [needRefusal, readyAnd, hready', hquiet']
  obtain ⟨t, ht, u, hu, rfl⟩ := launch_of_runs hidle ((runs_need hneed).append fun v _ => runs_rejectWrite v)
  exact ⟨u.finish, by rw [← ht, ← progWriteData_of_long s a p hn]; rfl, hu⟩

/-- Settles O4: what each request decodes to decides the refusals, in every state; a WRITE_DATA decodes, and its checks
come to the rejection first. -/
theorem requestsThatNameNothing : Obligations.RequestsThatNameNothing := by
  refine ⟨fun s hok => ⟨fun v ha hd => ?_, fun v => ?_, fun v => ⟨?_, ?_⟩, ?_, ?_, ?_, runRequest_busWide s⟩,
    fun s sel a p n => ⟨fun h => runRequest_engine_badSelector s h a p n, fun hs hn => ?_⟩⟩
  · exact runRequest_write_of_reject (decodeWrite_badChipSelectValue ha hd)
  · exact runRequest_write_of_reject (decodeWrite_stat hok v)
  · exact runRequest_write_of_reject (decodeWrite_ctrlOrErr hok (.inl rfl) v)
  · exact runRequest_write_of_reject (decodeWrite_ctrlOrErr hok (.inr rfl) v)
  · exact runRequest_busRead_writeOnly (.inl rfl)
  · exact runRequest_busRead_writeOnly (.inr rfl)
  · exact runRequest_busRead_of_reject (decodePortRead_error (Config.ok_offsets hok))
  · have hdecode : decode s.cfg (.engine 0x7 a p n) = .instr (.writeData a p n) := rfl
    rw [runRequest_of_decode hdecode]
    exact exec_writeData_of_long hs a p hn

end Sys2Proof.Machine
end

section
/-! Frames that are no well-formed frame of any of the six commands (rules R102, R142 to R144, R151, R156): the decoder
names no operation for them, and the device takes their bytes to a phase in which closing the frame starts nothing. -/

namespace Sys2Proof.Machine

/-! ## The device through the bytes of a frame -/

/-- The device, not busy and never sending, takes these bytes one after the other, and is then `g`. -/
structure Flash.Takes (c : Config) (bs : List Byte) (f g : Flash) : Prop where
  listens : f.listens c bs
  takes   : f.receiveAll c bs = .ok g

/-- Closing the frame here starts nothing and moves no latch (rule R151). -/
def Phase.isInert (p : Phase) : Prop := p ≠ .done ∧ p ≠ .dataIn

section
variable {c : Config} {b : Byte} {bs : List Byte} {f g h : Flash}

theorem Flash.Takes.nil (f : Flash) : f.Takes c [] f := ⟨trivial, rfl⟩

theorem Flash.Takes.cons (hb : f.receive c b = .ok g) (hph : f.phase ≠ .dataOut) (hw : f.wip = false)
    (hbs : g.Takes c bs h) : f.Takes c (b :: bs) h := by
  refine ⟨⟨hph, hw, fun g' hg' => ?_⟩, by rw [Flash.receiveAll, hb]; exact hbs.takes⟩
  cases hb.symm.trans hg'
  exact hbs.listens

/-- Taking bytes moves neither the content nor the latches (rules R142 to R144). -/
theorem Flash.receiveAll_keeps (ht : f.receiveAll c bs = .ok g) :
    g.mem = f.mem ∧ g.pending = f.pending ∧ g.wip = f.wip ∧ g.wel = f.wel := by
  induction bs generalizing f with
  | nil => cases ht; exact ⟨rfl, rfl, rfl, rfl⟩
  | cons b bs ih =>
    rw [Flash.receiveAll] at ht
    split at ht
    · next k hk =>
      obtain ⟨hmem, hpending, hwip, hwel, -⟩ := Flash.receive_keeps hk
      obtain ⟨hmem', hpending', hwip', hwel'⟩ := ih ht
      exact ⟨hmem'.trans hmem, hpending'.trans hpending, hwip'.trans hwip, hwel'.trans hwel⟩
    · cases ht

theorem Flash.deselect_of_inert (hi : f.phase.isInert) : f.deselect c = { f with phase := .idle } := by
  obtain ⟨hdone, hdata⟩ := hi
  unfold Flash.deselect Flash.frameEffect
  split
  · exact absurd ‹_› hdone
  · exact absurd ‹_› hdata
  · rfl

/-- ADDR(0) (rule R143). -/
theorem Flash.receive_of_addr0 (hph : f.phase = .addr0) :
    f.receive c b = .ok { f with nbytes := f.nbytes + 1, addr := setAddrHigh f.addr b, phase := .addr1 } := by
  simp only [Flash.receive, hph]

/-- ADDR(1) (rule R143). -/
theorem Flash.receive_of_addr1 (hph : f.phase = .addr1) :
    f.receive c b = .ok { f with nbytes := f.nbytes + 1, addr := setAddrMid f.addr b, phase := .addr2 } := by
  simp only [Flash.receive, hph]

/-- ADDR(2), where the address is inside the array (rule R143). -/
theorem Flash.receive_of_addr2 (hph : f.phase = .addr2) (ha : (setAddrLow f.addr b).toNat < c.flashSize) :
    f.receive c b = .ok { f with
      nbytes := f.nbytes + 1, addr := setAddrLow f.addr b, phase := phaseAfterAddress c f.cmd } := by
  simp only [Flash.receive, hph, Flash.lastAddressByte, if_neg (Nat.not_le.2 ha)]

/-- A byte after a complete frame (rule R144). -/
theorem Flash.receive_of_done (hph : f.phase = .done) : f.receive c b = .ok { f with phase := .ignore } := by
  simp only [Flash.receive, hph]

theorem Flash.receive_of_ignore (hph : f.phase = .ignore) : f.receive c b = .ok f := by
  simp only [Flash.receive, hph]

/-- The command byte of a frame that has just been opened (rule R142). -/
theorem Flash.receive_opened {k : Byte} (hw : f.wip = false) : f.opened.receive c k = .ok (f.commanded c k) := by
  simp [Flash.receive, Flash.opened, Flash.commandByte, Flash.commanded, hw]

/-- A device in phase IGNORE takes anything and stays as it is. -/
theorem Flash.takes_of_ignore (hph : f.phase = .ignore) (hw : f.wip = false) (bs : List Byte) : f.Takes c bs f := by
  induction bs with
  | nil => exact .nil f
  | cons b bs ih => exact .cons (receive_of_ignore hph) (by simp [hph]) hw ih

/-- Extra bytes after a frame that is complete: the device ends in phase IGNORE, which is inert. -/
theorem Flash.takes_of_done (hph : f.phase = .done) (hw : f.wip = false) (hbs : bs ≠ []) :
    f.Takes c bs { f with phase := .ignore } := by
  cases bs with
  | nil => exact absurd rfl hbs
  | cons b bs => exact .cons (receive_of_done hph) (by simp [hph]) hw (takes_of_ignore rfl (by exact hw) bs)

theorem Flash.takes_command {k : Byte} (hw : f.wip = false) (hbs : (f.commanded c k).Takes c bs g) :
    f.opened.Takes c (k :: bs) g :=
  .cons (receive_opened hw) (by simp [Flash.opened]) hw hbs

/-- Fewer than three address bytes: the device still waits for the address. -/
theorem Flash.takes_of_shortAddress (hph : f.phase = .addr0) (hw : f.wip = false) (hbs : bs.length < 3) :
    ∃ g, f.Takes c bs g ∧ g.phase.isInert := by
  match bs with
  | [] => exact ⟨f, .nil f, by simp [Phase.isInert, hph]⟩
  | [_] => exact ⟨_, .cons (receive_of_addr0 hph) (by simp [hph]) hw (.nil _), by simp [Phase.isInert]⟩
  | [_, _] =>
    exact ⟨_, .cons (receive_of_addr0 hph) (by simp [hph]) hw
      (.cons (receive_of_addr1 rfl) (by simp) hw (.nil _)), by simp [Phase.isInert]⟩
  | _ :: _ :: _ :: _ => simp at hbs; omega

/-- The three bytes of an address inside the array. -/
theorem Flash.takes_address {k a2 a1 a0 : Byte} (hk : phaseAfterCommand c k = .addr0) (hw : f.wip = false)
    (ha : (addrOf a2 a1 a0).toNat < c.flashSize) (hbs : (f.addressed c k (addrOf a2 a1 a0)).Takes c bs g) :
    (f.commanded c k).Takes c (a2 :: a1 :: a0 :: bs) g := by
  have haddr : setAddrLow (setAddrMid (setAddrHigh f.addr a2) a1) a0 = addrOf a2 a1 a0 := by
    have hall := setAddr_all f.addr (addrOf a2 a1 a0)
    obtain ⟨h2, h1, h0⟩ := Laws.bytes_addrOf a2 a1 a0
    rwa [h2, h1, h0] at hall
  have hph : (f.commanded c k).phase = .addr0 := hk
  rw [← haddr] at ha hbs
  exact .cons (receive_of_addr0 hph) (by simp [hph]) hw
    (.cons (receive_of_addr1 rfl) (by simp) hw (.cons (receive_of_addr2 rfl ha) (by simp) hw hbs))

end

/-! ## The five ways to be ignored -/

/-- No operation is decoded from this frame, and the device, opened, takes its bytes to an inert phase. -/
structure Ignored (c : Config) (f : Flash) (host : List Byte) : Prop where
  rejected : ∃ e, decodeFrame c host 0 = .reject e
  taken    : ∃ g, f.opened.Takes c host g ∧ g.phase.isInert

section
variable {c : Config} {f : Flash} {k : Byte} {rest : List Byte}

theorem ignored_nil : Ignored c f [] :=
  ⟨⟨_, rfl⟩, f.opened, .nil _, by simp [Phase.isInert, Flash.opened]⟩

/-- A first byte that is none of the six commands (rule R156). -/
theorem ignored_unknownCommand (hw : f.wip = false)
    (hk : k ∉ [c.cmdWren, c.cmdWrdi, c.cmdRdsr, c.cmdRead, c.cmdSe, c.cmdPp]) : Ignored c f (k :: rest) := by
  simp only [List.mem_cons, List.not_mem_nil, or_false, not_or] at hk
  have hph : (f.commanded c k).phase = .ignore := by simp [Flash.commanded, phaseAfterCommand, hk]
  exact ⟨⟨.unknownWireCommand, by simp [decodeFrame, hk]⟩, _,
    Flash.takes_command hw (Flash.takes_of_ignore hph hw rest), by simp [Phase.isInert, hph]⟩

/-- A WREN or WRDI that goes on (rules R94, R151). -/
theorem ignored_longBare (hw : f.wip = false) (hk : k = c.cmdWren ∨ k = c.cmdWrdi) (hrest : rest ≠ []) :
    Ignored c f (k :: rest) := by
  have hph : (f.commanded c k).phase = .done := by simp [Flash.commanded, phaseAfterCommand, hk]
  refine ⟨⟨.malformedFrame, ?_⟩, _, Flash.takes_command hw (Flash.takes_of_done hph hw hrest), by simp [Phase.isInert]⟩
  rcases hk with rfl | rfl <;> simp [decodeFrame, decodeBare, hrest]

/-- An addressed command is decoded by its own format (rule R94). -/
theorem decodeFrame_addressed (hok : c.ok = true) (reads : BitVec 32) :
    decodeFrame c (c.cmdRead :: rest) reads = decodeReadFrame rest reads
      ∧ decodeFrame c (c.cmdSe :: rest) reads = decodeEraseFrame rest reads
      ∧ decodeFrame c (c.cmdPp :: rest) reads = decodeProgramFrame rest reads := by
  obtain ⟨hReadPp, hReadSe, hReadWren, hReadWrdi, -, hPpSe, hPpWren, hPpWrdi, hPpRdsr, hSeWren, hSeWrdi, hSeRdsr, -⟩ :=
    Config.ok_commands hok
  simp [decodeFrame, hReadPp.symm, hReadSe.symm, hReadWren, hReadWrdi, hPpSe, hPpWren, hPpWrdi, hPpRdsr, hSeWren,
    hSeWrdi, hSeRdsr]

/-- None of the three formats has room for fewer than three address bytes (rule R94). -/
theorem decodeAddressed_short (hrest : rest.length < 3) (reads : BitVec 32) :
    decodeReadFrame rest reads = .reject .malformedFrame ∧ decodeEraseFrame rest reads = .reject .malformedFrame
      ∧ decodeProgramFrame rest reads = .reject .malformedFrame := by
  match rest with
  | [] | [_] | [_, _] => exact ⟨rfl, rfl, rfl⟩
  | _ :: _ :: _ :: _ => simp at hrest; omega

/-- A READ, SE or PP without its whole address (rules R94, R151). -/
theorem ignored_shortAddress (hok : c.ok = true) (hw : f.wip = false)
    (hk : k = c.cmdRead ∨ k = c.cmdSe ∨ k = c.cmdPp) (hrest : rest.length < 3) : Ignored c f (k :: rest) := by
  obtain ⟨hread, hse, hpp⟩ := decodeFrame_addressed (rest := rest) hok 0
  obtain ⟨hread', hse', hpp'⟩ := decodeAddressed_short hrest 0
  obtain ⟨g, hg, hi⟩ := Flash.takes_of_shortAddress (c := c) (f := f.commanded c k)
    (phaseAfterCommand_addressed hok hk) hw hrest
  refine ⟨⟨.malformedFrame, ?_⟩, g, Flash.takes_command hw hg, hi⟩
  rcases hk with rfl | rfl | rfl
  · exact hread.trans hread'
  · exact hse.trans hse'
  · exact hpp.trans hpp'

/-- An SE that goes on after its address (rules R94, R151). -/
theorem ignored_longErase (hok : c.ok = true) (hw : f.wip = false) {a2 a1 a0 b : Byte} {more : List Byte}
    (ha : (addrOf a2 a1 a0).toNat < c.flashSize) : Ignored c f (c.cmdSe :: a2 :: a1 :: a0 :: b :: more) := by
  have hk := phaseAfterCommand_addressed hok (.inr (.inl rfl) : c.cmdSe = c.cmdRead ∨ _)
  have hne : c.cmdSe ≠ c.cmdRead := (Config.ok_commands hok).2.1.symm
  have hph : (f.addressed c c.cmdSe (addrOf a2 a1 a0)).phase = .done := by
    simp [Flash.addressed, phaseAfterAddress, hne]
  exact ⟨⟨.malformedFrame, (decodeFrame_addressed hok 0).2.1⟩, _,
    Flash.takes_command hw (Flash.takes_address hk hw ha (Flash.takes_of_done hph hw (List.cons_ne_nil b more))),
    by simp [Phase.isInert]⟩

end

/-! ## The frame on the bus -/

/-- The link with these bytes sent inside an open frame, the device being `g` after them. -/
def Link.sentAll (l : Link) (host : List Byte) (g : Flash) : Link :=
  { l with
    cs := true, csn := false, fl := g, txd := host.getLastD l.txd, txDone := l.txDone || !host.isEmpty }

/-- The link once that frame is closed, where closing it starts nothing. -/
def Link.inertFrame (l : Link) (host : List Byte) (g : Flash) : Link :=
  { l.sentAll host g with cs := false, csn := true, fl := { g with phase := .idle } }

section
variable {s : State} {host : List Byte} {g : Flash}

/-- Selecting, and sending bytes the device takes. -/
theorem runs_openAndSend (o : Open s) (ht : s.fl.opened.Takes s.cfg host g) :
    Runs ([.csEn] ++ sendAll host) s (At (s.link.sentAll host g) s) := by
  refine (runs_csEn o.ready o.cs o.phase).append fun t hat => ?_
  have hfl : t.fl = s.fl.opened := hat.fl
  have hcfg : t.cfg = s.cfg := hat.base.cfg
  refine (runs_sends (f := g) (hat.ready o.ready rfl) hat.cs (literals_there t host)
    (by rw [hfl, hcfg]; exact ht.listens) (by rw [hfl, hcfg]; exact ht.takes)).weaken fun u hu =>
    ⟨hat.base.trans hu.base, ?_, hu.busy⟩
  rw [hu.link, hat.link, hat.txd, hat.txDone]
  rfl

/-- A frame that the device takes to an inert phase (rules R61, R93, R151). -/
theorem runs_inertFrame (o : Open s) (ht : s.fl.opened.Takes s.cfg host g) (hi : g.phase.isInert) :
    Runs ([.csEn] ++ sendAll host ++ [.csDis]) s (At (s.link.inertFrame host g) s) := by
  have hpending : g.pending = s.fl.pending := (Flash.receiveAll_keeps ht.takes).2.1
  rw [Link.inertFrame, ← Flash.deselect_of_inert (c := s.cfg) hi]
  exact (runs_openAndSend o ht).append fun t hat => hat.close o.ready rfl hpending

/-- The same, spelled out by HOST with nothing read back: the bytes handed to the caller are none (rule R102). -/
theorem runs_rawFrame (o : Open s) (ht : s.fl.opened.Takes s.cfg host g) (hi : g.phase.isInert) :
    Runs (progRawFrame host 0) s (At (Link.inertFrame { s.link with report := .bytes [] } host g) s) := by
  have hprog : progRawFrame host 0 = openReport ++ ([.csEn] ++ sendAll host ++ [.csDis]) := by
    simp [progRawFrame, takeForCaller, forEach, iterations]
  have hreport : Runs openReport s (At { s.link with report := .bytes [] } s) :=
    Runs.cons (tick_of_internal rfl s) (Runs.nil ⟨⟨rfl, rfl, rfl, rfl, rfl, rfl, rfl, rfl, rfl⟩, rfl, o.ready.busy⟩)
  rw [hprog]
  refine hreport.append fun t hat => (runs_inertFrame (hat.open o o.cs o.phase o.wip rfl) ?_ hi).weaken fun u hu => ?_
  · have hfl : t.fl = s.fl := hat.fl
    rw [hfl, hat.base.cfg]
    exact ht
  · rw [hat.link] at hu
    exact hat.trans hu

/-- Nothing is in the way of a frame in the state SEQ starts from either. -/
theorem Open.begin (o : Open s) (op : Operation) : Open (s.begin op) :=
  ⟨⟨o.ready.calm, o.ready.ready, o.ready.transfer, o.ready.busy, o.ready.ports⟩, o.cs, o.phase, o.wip⟩

/-- A frame has gone out and been ignored (rule R102): platform, content and latches are as they were, the frame is
closed, and no byte is handed back. -/
structure FrameIgnored (s t : State) : Prop where
  platform : SamePlatform s t
  mem      : t.fl.mem = s.fl.mem
  latches  : SameLatches s t
  phase    : t.fl.phase = .idle
  cs       : t.sh.cs = false
  csn      : t.wire.csn = true
  busy     : t.sh.busy = false
  report   : t.report = .bytes []

theorem execRawFrame_of_inert (hidle : s.seq.op = none) (o : Open s) (ht : s.fl.opened.Takes s.cfg host g)
    (hi : g.phase.isInert) : ∃ t, execRawFrame host 0 s = .next t ∧ FrameIgnored s t := by
  obtain ⟨t, hlaunch, u, hat, rfl⟩ := launch_of_runs hidle (runs_rawFrame (o.begin (.rawFrame host 0)) ht hi)
  obtain ⟨hmem, hpending, hwip, hwel⟩ := Flash.receiveAll_keeps ht.takes
  have hb := hat.base
  have hfl : u.fl = { g with phase := .idle } := hat.fl
  refine ⟨u.finish, hlaunch, ⟨hb.chip, hb.ctx, hat.host, hb.filled, hb.op, hb.drive, hb.cfg, hb.env, hb.ctrl, hidle.symm⟩,
    (congrArg Flash.mem hfl).trans hmem, ⟨?_, ?_, ?_⟩, congrArg Flash.phase hfl, hat.cs, hat.csn, hat.busy, hat.report⟩
  · exact (congrArg Flash.wel hfl).trans hwel
  · exact (congrArg Flash.wip hfl).trans hwip
  · exact (congrArg Flash.pending hfl).trans hpending

theorem runRequest_frame_of_reject {reads : BitVec 32} {e : DecodeError}
    (h : decodeFrame s.cfg host reads = .reject e) : runRequest (.frame host reads) s = execRawFrame host reads s := by
  simp only [runRequest, decode, h, runUndecoded]

end

/-- Settles O60: each of the five shapes is ignored, so the frame goes out as it is and closing it starts nothing. -/
theorem rawFramesAreIgnored : Obligations.RawFramesAreIgnored := by
  intro s host ⟨hidle, hready, htransfer, hbusy, hports⟩ hcalm hok hcs hph hw hshape
  have hign : Ignored s.cfg s.fl host := by
    obtain rfl | ⟨k, rest, rfl, hk | ⟨hk, hrest⟩ | ⟨hk, hrest⟩ | ⟨rfl, a2, a1, a0, b, more, rfl, ha⟩⟩ := hshape
    · exact ignored_nil
    · exact ignored_unknownCommand hw hk
    · exact ignored_longBare hw hk hrest
    · exact ignored_shortAddress hok hw hk hrest
    · exact ignored_longErase hok hw ha
  obtain ⟨⟨e, hreject⟩, g, htakes, hinert⟩ := hign
  have hopen : Open s := ⟨⟨hcalm, hready, htransfer, hbusy, hports⟩, hcs, hph, hw⟩
  rw [runRequest_frame_of_reject hreject]
  obtain ⟨t, ht, h⟩ := execRawFrame_of_inert hidle hopen htakes hinert
  exact ⟨t, ht, h.platform, h.mem, h.latches, h.phase, h.cs, h.csn, h.busy, h.report⟩

end Sys2Proof.Machine
end

section
/-! What refuses an operation before anything is done (rules R121 to R127, R131, R134, R170 to R173, R312): every
micro-program begins with one condition, and an operation whose first condition fails is refused for it, provided the turn
before its first action moves nothing. -/

namespace Sys2Proof.Machine

/-! ## A turn that moves nothing -/

/-- At the coming turn SHIFT has no byte to move or makes no step, and FLASH_INT has nothing to do or does nothing. -/
structure Still (s : State) : Prop where
  shift    : s.sh.busy = false ∨ (s.env.turns.headD s.env.after).shiftSteps = 0
  flashInt : s.fl.pending = .none ∨ (s.env.turns.headD s.env.after).flashInt = false

/-- Such a turn is used up, and that is all. -/
theorem takeTurn_of_still {s : State} (h : Still s) :
    takeTurn s = .ok (s.withEnv { s.env with turns := s.env.turns.tail }) := by
  obtain ⟨hshift, hint⟩ := h
  have hrun : shiftRun (s.env.turns.headD s.env.after).shiftSteps (s.withEnv { s.env with turns := s.env.turns.tail })
      = .ok (s.withEnv { s.env with turns := s.env.turns.tail }) := by
    rcases hshift with hbusy | hsteps
    · exact shiftRun_of_idle _ hbusy
    · rw [hsteps, shiftRun_zero]
  rw [takeTurn, hrun]
  dsimp only
  split
  · next hon =>
    rcases hint with hpending | hoff
    · exact flashInt_of_none hpending
    · rw [hoff] at hon; cases hon
  · rfl

theorem State.calm.atOnce {s : State} (h : s.calm) : s.atOnce :=
  ⟨h.pauses, by rw [h.1]; exact h.2.2⟩

/-! ## The first condition of an operation -/

/-- The forms of the first condition: one that the operation states (rule R312), or what a bus primitive asks. -/
inductive Opening where
  | need (n : Need)
  | select
  | deselect
  | send (b : Byte)
  | take

/-- The micro-action that checks it. -/
def Opening.micro : Opening → Micro
  | .need n => .need n
  | .select => .csEn
  | .deselect => .csDis
  | .send b => .out (.lit b)
  | .take => .strobe

/-- Why it does not hold, if it does not. -/
def Opening.refusal (s : State) : Opening → Option Refusal
  | .need n => needRefusal n s
  | .select => busRefusal s false [s.cfg.regCs]
  | .deselect => busRefusal s true [s.cfg.regCs]
  | .send b => sendRefusal b s
  | .take => takeRefusal s

theorem guardBy_of_some {why : Option Refusal} {r : Refusal} (h : why = some r) (x : Res) :
    guardBy why x = .refuse r := by
  rw [h, guardBy]

theorem Opening.act_of_refusal {o : Opening} {s : State} {r : Refusal} (h : o.refusal s = some r) :
    act o.micro s = .refuse r := by
  cases o <;> exact guardBy_of_some h _

/-- What a condition looks at: the device context, the parameters, the lock, the device, and the shift engine but for ERR. -/
theorem Opening.refusal_congr (o : Opening) {s t : State} {e : Byte} (hctx : t.ctx = s.ctx) (hcfg : t.cfg = s.cfg)
    (hchip : t.chip = s.chip) (hfl : t.fl = s.fl) (hsh : t.sh = { s.sh with err := e }) :
    o.refusal t = o.refusal s := by
  rcases s with ⟨⟩
  rcases t with ⟨⟩
  dsimp only at hctx hcfg hchip hfl hsh
  subst hctx hcfg hchip hfl hsh
  cases o with
  | need n => cases n <;> rfl
  | _ => rfl

theorem Opening.tick_of_refusal {o : Opening} {s : State} {r : Refusal} (hp : s.pauses = false) (hs : Still s)
    (h : o.refusal s = some r) : tick o.micro s = .refuse r := by
  cases he : o.micro.isExternal with
  | false => rw [tick_of_internal he, act_of_refusal h]
  | true =>
    rw [tick_of_external he hp (takeTurn_of_still hs)]
    exact act_of_refusal ((o.refusal_congr rfl rfl rfl rfl rfl).trans h)

/-- Which condition each operation begins with. -/
def openingOf : Instr → Opening
  | .csDis => .deselect
  | .wrByte b => .send b
  | .rdByte => .take
  | .wrAddr24 a => .send (addrHigh a)
  | .csEn | .read _ _ | .rdsr _ | .se _ | .pp _ _ => .select
  | .cmd1 _ | .wren | .wrdi | .writableExit => .need .writable
  | .writableEnter => .need .enter
  | .waitWip => .need .poll
  | .readByte _ | .readBurst _ | .readSector _ _ | .eraseBlock _ | .writeSector _ _ => .need .engine
  | .writeData _ _ n => .need (if pageLimit < n.toNat then .admitted else .engine)
  | .diskReset _ _ _ | .diskRead _ _ _ | .diskWrite _ _ _ | .diskVerify _ _ _ | .diskFormat _ _ _
  | .diskUnknown _ _ _ _ => .need .command
  | .setup => .need .setup

/-- Only READ and RDSR do something before it: they start the list of bytes they hand back (rules R147, R148). -/
theorem programOf_opening (i : Instr) (s : State) :
    ∃ pre ms, (pre = [] ∨ pre = openReport) ∧ programOf s (.instr i) = pre ++ (openingOf i).micro :: ms := by
  cases i with
  | read | rdsr => exact ⟨_, _, .inr rfl, rfl⟩
  | writeData a p n =>
    simp only [programOf, progWriteData, openingOf]
    split <;> exact ⟨_, _, .inl rfl, rfl⟩
  | _ => exact ⟨_, _, .inl rfl, rfl⟩

theorem runSeq_of_refuse {m : Micro} {ms : List Micro} {s : State} {r : Refusal} (h : tick m s = .refuse r) :
    runSeq (m :: ms) s = .refuse r := by
  rw [runSeq_cons, h, Res.andThen_refuse]

/-- An operation whose first condition fails is refused for it. -/
theorem exec_of_refusal {i : Instr} {s : State} {r : Refusal} (h0 : s.seq.op = none) (hp : s.pauses = false)
    (hs : Still s) (h : (openingOf i).refusal s = some r) : exec i s = .refused r := by
  obtain ⟨x, hexec⟩ := exec_launches i s
  obtain ⟨pre, ms, hpre, hprog⟩ := programOf_opening i s
  let t := (s.withOp x).begin (.instr i)
  have refused (u : State) (hu : (openingOf i).refusal u = some r) (hpu : u.pauses = false) (hsu : Still u) :
      runSeq ((openingOf i).micro :: ms) u = .refuse r :=
    runSeq_of_refuse (Opening.tick_of_refusal hpu hsu hu)
  have hrun : runSeq (programOf s (.instr i)) t = .refuse r := by
    rw [hprog]
    obtain rfl | rfl := hpre
    · exact refused t (((openingOf i).refusal_congr rfl rfl rfl rfl rfl).trans h) hp ⟨hs.shift, hs.flashInt⟩
    · exact refused ((t.withReport (.bytes [])).advance (.report (.bytes [])))
        (((openingOf i).refusal_congr rfl rfl rfl rfl rfl).trans h) hp ⟨hs.shift, hs.flashInt⟩
  rw [hexec, launch, if_pos (show (s.withOp x).seq.op = none from h0), hrun, settle]

/-! ## Why it fails -/

/-- What a bus primitive asks of the engine (`busRefusal`): selected or not, and which registers. -/
def Opening.access (c : Config) : Opening → Option (Bool × List Byte)
  | .need _ => none
  | .select => some (false, [c.regCs])
  | .deselect => some (true, [c.regCs])
  | .send _ => some (true, [c.regOut, c.regStat])
  | .take => some (true, [c.regIn, c.regStat])

section
variable {s : State} {r : Refusal} {sel : Bool} {regs : List Byte}

theorem sendRefusal_of_bus {b : Byte} (h : busRefusal s true [s.cfg.regOut, s.cfg.regStat] = some r) :
    sendRefusal b s = some r := by
  rw [sendRefusal, h]

theorem takeRefusal_of_bus (h : busRefusal s true [s.cfg.regIn, s.cfg.regStat] = some r) : takeRefusal s = some r := by
  rw [takeRefusal, h]

/-- The engine is asked before the device (rule R131). -/
theorem Opening.refusal_of_access {o : Opening} (ho : o.access s.cfg = some (sel, regs))
    (h : busRefusal s sel regs = some r) : o.refusal s = some r := by
  cases o with
  | need => cases ho
  | select | deselect => cases ho; exact h
  | send => cases ho; exact sendRefusal_of_bus h
  | take => cases ho; exact takeRefusal_of_bus h

/-- Before SETUP (rule R134). -/
theorem busRefusal_of_notReady (hr : s.ctx.ready = false) : busRefusal s sel regs = some .notReady := by
  simp [busRefusal, hr]

/-- Transfers need writable-protocol mode (rule R131 (a)). -/
theorem busRefusal_of_noTransfer (hr : s.ctx.ready = true) (ht : s.canTransfer = false) :
    busRefusal s sel regs = some .wrongMode := by
  simp [busRefusal, hr, ht]

/-- No access while a byte is being shifted (rule R131 (d)). -/
theorem busRefusal_of_busy (hr : s.ctx.ready = true) (ht : s.canTransfer = true) (hb : s.sh.busy = true) :
    busRefusal s sel regs = some .transferBusy := by
  simp [busRefusal, hr, ht, hb]

/-- A transfer, or CS_DIS, while the chip is deselected (rule R131 (b), (c)). -/
theorem busRefusal_of_deselected (hr : s.ctx.ready = true) (ht : s.canTransfer = true) (hb : s.sh.busy = false)
    (hcs : s.sh.cs = false) : busRefusal s true regs = some .chipNotSelected := by
  simp [busRefusal, hr, ht, hb, hcs]

/-- CS_EN while it is selected (rule R131 (c)). -/
theorem busRefusal_of_selected (hr : s.ctx.ready = true) (ht : s.canTransfer = true) (hb : s.sh.busy = false)
    (hcs : s.sh.cs = true) : busRefusal s false regs = some .chipSelected := by
  simp [busRefusal, hr, ht, hb, hcs]

/-- Nothing is in the way. -/
theorem busRefusal_of_free (hr : s.ctx.ready = true) (ht : s.canTransfer = true) (hb : s.sh.busy = false)
    (hcs : s.sh.cs = true) (hregs : regs.all s.portFits = true) : busRefusal s true regs = none := by
  simp [busRefusal, hr, ht, hb, hcs, portRefusal, hregs]

theorem State.canTransfer_mode (h : s.canTransfer = true) : s.ctx.mode = .isWritable := by
  simp only [State.canTransfer, Bool.and_eq_true, beq_iff_eq] at h
  exact h.1.1

theorem State.canTransfer_of_protected (h : s.ctx.mode = .isProtected) : s.canTransfer = false := by
  simp [State.canTransfer, h]

/-- Before SETUP every condition but SETUP's own fails (rules R134, R170, R220). -/
theorem Opening.refusal_of_notReady {o : Opening} (ho : o ≠ .need .setup) (hr : s.ctx.ready = false) :
    o.refusal s = some .notReady := by
  cases o with
  | need n =>
    cases n with
    | setup => exact absurd rfl ho
    | _ => simp [Opening.refusal, needRefusal, readyAnd, hr]
  | _ => exact refusal_of_access rfl (busRefusal_of_notReady hr)

/-- The conditions that name a mode, in the other one (rules R171, R172, R173, R312). -/
theorem needRefusal_of_wrongMode {n : Need} (hr : s.ctx.ready = true)
    (hn : n = .enter ∧ s.ctx.mode = .isWritable ∨ n = .command ∧ s.ctx.mode = .isWritable
      ∨ n = .writable ∧ s.ctx.mode = .isProtected ∨ n = .poll ∧ s.ctx.mode = .isProtected) :
    needRefusal n s = some .wrongMode := by
  obtain ⟨rfl, hm⟩ | ⟨rfl, hm⟩ | ⟨rfl, hm⟩ | ⟨rfl, hm⟩ := hn <;>
    simp [needRefusal, readyAnd, modeCsWip, firstRefusal, hr, hm]

/-- CMD1 while the chip is selected (rule R131 (c)). -/
theorem needRefusal_writable_of_selected (hr : s.ctx.ready = true) (ht : s.canTransfer = true) (hcs : s.sh.cs = true) :
    needRefusal .writable s = some .chipSelected := by
  simp [needRefusal, readyAnd, modeCsWip, hr, State.canTransfer_mode ht, hcs]

/-- RD_BYTE from a device that is not sending (rule R131 (e)). -/
theorem takeRefusal_of_notSending (hr : s.ctx.ready = true) (ht : s.canTransfer = true) (hb : s.sh.busy = false)
    (hcs : s.sh.cs = true) (hports : s.portsFit = true) (hph : s.fl.phase ≠ .dataOut) :
    takeRefusal s = some .deviceNotSending := by
  obtain ⟨-, hin, -, hstat, -⟩ := portsFit_all hports
  rw [takeRefusal, busRefusal_of_free hr ht hb hcs (by simp [hin, hstat])]
  exact if_pos hph

/-- A byte to a device that is sending (rules R131 (e), R144). -/
theorem sendRefusal_of_sending {b : Byte} (hr : s.ctx.ready = true) (ht : s.canTransfer = true) (hb : s.sh.busy = false)
    (hcs : s.sh.cs = true) (hports : s.portsFit = true) (hph : s.fl.phase = .dataOut) :
    sendRefusal b s = some .deviceSending := by
  obtain ⟨hout, -, -, hstat, -⟩ := portsFit_all hports
  rw [sendRefusal, busRefusal_of_free hr ht hb hcs (by simp [hout, hstat])]
  exact if_pos hph

end

theorem openingOf_ne_setup {i : Instr} (h : i ≠ .setup) : openingOf i ≠ .need .setup := by
  cases i with
  | setup => exact absurd rfl h
  | writeData a p n => simp only [openingOf]; split <;> simp
  | _ => simp [openingOf]

/-- Settles O48: the first condition of every operation but SETUP asks for readiness. -/
theorem nothingRunsBeforeSetup : Obligations.NothingRunsBeforeSetup := by
  intro s i h0 hr hc hb hi
  exact exec_of_refusal h0 hc.pauses ⟨.inl hb, hc.atOnce.2⟩ (Opening.refusal_of_notReady (openingOf_ne_setup hi) hr)

section
variable {s : State} (hr : s.ctx.ready = true)
include hr

/-- Whatever uses the bus or ends writable-protocol mode is refused in mode PROTECTED. -/
theorem refusal_of_protected (hm : s.ctx.mode = .isProtected) {o : Opening}
    (ho : (∃ a, o.access s.cfg = some a) ∨ o = .need .writable ∨ o = .need .poll) : o.refusal s = some .wrongMode := by
  obtain ⟨a, ha⟩ | rfl | rfl := ho
  · exact Opening.refusal_of_access ha (busRefusal_of_noTransfer hr (State.canTransfer_of_protected hm))
  · exact needRefusal_of_wrongMode hr (.inr (.inr (.inl ⟨rfl, hm⟩)))
  · exact needRefusal_of_wrongMode hr (.inr (.inr (.inr ⟨rfl, hm⟩)))

/-- Whatever starts in mode PROTECTED is refused in mode WRITABLE. -/
theorem refusal_of_writable (hm : s.ctx.mode = .isWritable) {o : Opening}
    (ho : o = .need .enter ∨ o = .need .command) : o.refusal s = some .wrongMode := by
  obtain rfl | rfl := ho
  · exact needRefusal_of_wrongMode hr (.inl ⟨rfl, hm⟩)
  · exact needRefusal_of_wrongMode hr (.inr (.inl ⟨rfl, hm⟩))

end

/-- Settles O50, group by group: each operation is refused for its first condition, which is asked before any external
action and which the turn before that action does not change. -/
theorem busAndModeRefusals : Obligations.BusAndModeRefusals := by
  refine ⟨fun s h0 hr hc hb => ⟨fun hm => ?_, fun hm => ?_⟩,
    fun s h0 hr ht hat => ⟨fun hb hcs => ?_, fun hb hcs => ?_, fun hb hsteps => ?_, fun hb hcs hports => ?_⟩⟩
  · have refuse (i : Instr) (ho : (∃ a, (openingOf i).access s.cfg = some a) ∨ openingOf i = .need .writable
        ∨ openingOf i = .need .poll) : exec i s = .refused .wrongMode :=
      exec_of_refusal h0 hc.pauses ⟨.inl hb, hc.atOnce.2⟩ (refusal_of_protected hr hm ho)
    have onBus (i : Instr) {a : Bool × List Byte} (ha : (openingOf i).access s.cfg = some a) := refuse i (.inl ⟨a, ha⟩)
    have stated (i : Instr) (hi : openingOf i = .need .writable) := refuse i (.inr (.inl hi))
    exact ⟨onBus _ rfl, onBus _ rfl, fun _ => onBus _ rfl, onBus _ rfl, fun _ => onBus _ rfl, fun _ => stated _ rfl,
      stated _ rfl, stated _ rfl, fun _ _ => onBus _ rfl, fun _ => onBus _ rfl, fun _ => onBus _ rfl,
      fun _ _ => onBus _ rfl, stated _ rfl, refuse _ (.inr (.inr rfl))⟩
  · have refuse (i : Instr) (ho : openingOf i = .need .enter ∨ openingOf i = .need .command) :
        exec i s = .refused .wrongMode :=
      exec_of_refusal h0 hc.pauses ⟨.inl hb, hc.atOnce.2⟩ (refusal_of_writable hr hm ho)
    exact ⟨refuse _ (.inl rfl), fun _ _ _ => refuse _ (.inr rfl), fun _ _ _ => refuse _ (.inr rfl),
      fun _ _ _ => refuse _ (.inr rfl), fun _ _ _ => refuse _ (.inr rfl), fun _ _ _ => refuse _ (.inr rfl),
      fun _ _ _ _ => refuse _ (.inr rfl)⟩
  · have refuse (i : Instr) {regs : List Byte} (ha : (openingOf i).access s.cfg = some (true, regs)) :
        exec i s = .refused .chipNotSelected :=
      exec_of_refusal h0 hat.1 ⟨.inl hb, hat.2⟩ (Opening.refusal_of_access ha (busRefusal_of_deselected hr ht hb hcs))
    exact ⟨refuse _ rfl, fun _ => refuse _ rfl, refuse _ rfl, fun _ => refuse _ rfl⟩
  · have refuse (i : Instr) (h : (openingOf i).refusal s = some .chipSelected) : exec i s = .refused .chipSelected :=
      exec_of_refusal h0 hat.1 ⟨.inl hb, hat.2⟩ h
    have frame : Opening.select.refusal s = some .chipSelected := busRefusal_of_selected hr ht hb hcs
    have bare : (Opening.need .writable).refusal s = some .chipSelected := needRefusal_writable_of_selected hr ht hcs
    exact ⟨refuse _ frame, fun _ => refuse _ bare, refuse _ bare, refuse _ bare, fun _ _ => refuse _ frame,
      fun _ => refuse _ frame, fun _ => refuse _ frame, fun _ _ => refuse _ frame⟩
  · have refuse (i : Instr) {a : Bool × List Byte} (ha : (openingOf i).access s.cfg = some a) :
        exec i s = .refused .transferBusy :=
      exec_of_refusal h0 hat.1 ⟨.inr hsteps, hat.2⟩ (Opening.refusal_of_access ha (busRefusal_of_busy hr ht hb))
    exact ⟨refuse _ rfl, refuse _ rfl, fun _ => refuse _ rfl, refuse _ rfl, fun _ => refuse _ rfl⟩
  · have refuse {r : Refusal} (i : Instr) (h : (openingOf i).refusal s = some r) : exec i s = .refused r :=
      exec_of_refusal h0 hat.1 ⟨.inl hb, hat.2⟩ h
    exact ⟨fun hph => refuse .rdByte (takeRefusal_of_notSending hr ht hb hcs hports hph),
      fun hph => ⟨fun b => refuse (.wrByte b) (sendRefusal_of_sending hr ht hb hcs hports hph),
        fun a => refuse (.wrAddr24 a) (sendRefusal_of_sending hr ht hb hcs hports hph)⟩⟩

end Sys2Proof.Machine
end

section
/-! The bus primitives and CMD1 where nothing is in their way (rules R121, R122, R124 to R129), and the poll that a dead
shift engine keeps waiting (rules R132, R245). -/

namespace Sys2Proof.Machine

/-! ## Starting and ending an operation on the bus -/

theorem Ready.of_onBus {s : State} (h : s.onBus) (hc : s.calm) : Ready s := by
  obtain ⟨-, hready, htransfer, hbusy, hports⟩ := h
  exact ⟨hc, hready, htransfer, hbusy, hports⟩

/-- What SEQ notes when it takes an operation up is in nobody's way. -/
theorem Ready.begin {s : State} (r : Ready s) (o : Operation) : Ready (s.begin o) :=
  ⟨r.calm, r.ready, r.transfer, r.busy, r.ports⟩

section
variable {o : Operation} {s u : State} (h0 : s.seq.op = none)
include h0

/-- An operation of one external action, the engine at rest. -/
theorem launch_single {m : Micro} (r : Ready s) (he : m.isExternal = true) (ha : act m (s.begin o) = .go u) :
    launch o [m] s = .next (u.advance m).finish := by
  have htick : tick m (s.begin o) = .go u := (tick_calm he (r.begin o).calm r.busy).trans ha
  rw [launch, if_pos h0, runSeq_cons, htick, Res.andThen_go, runSeq_nil, settle]

/-- The platform after an operation that leaves it alone. -/
theorem SameBase.platform_finish (h : SameBase (s.begin o) u) (hh : u.host = s.host) : SamePlatform s u.finish :=
  ⟨h.chip, h.ctx, hh, h.filled, h.op, h.drive, h.cfg, h.env, h.ctrl, h0.symm⟩

/-- The same after one that has waited: turns have been used up besides. -/
theorem Waited.platform_finish (h : Waited (s.begin o) u) (hctrl : u.sh.ctrl = s.sh.ctrl) :
    SamePlatform s (u.finish.withEnv s.env) :=
  ⟨h.chip, h.ctx, h.host, h.filled, h.op, h.drive, h.cfg, rfl, hctrl, h0.symm⟩

end

/-! ## Selecting and deselecting -/

section
variable {s : State} (r : Ready s)
include r

/-- CS_EN on a device whose frame is closed (rules R121, R141). -/
theorem act_csEn (hcs : s.sh.cs = false) (hph : s.fl.phase = .idle) :
    act .csEn s = .go ((((s.withSh { s.sh with cs := true }).withWire { s.wire with csn := false }).saw
      (.portOut (s.port s.cfg.regCs) s.cfg.csAssert)).withFl s.fl.opened) := by
  have hselect : s.fl.select = .ok s.fl.opened := if_pos hph
  simp [act, actCsEn, guardBy, r.busRefusal false [s.cfg.regCs] hcs (by simp [portsFit_all r.ports]), hselect,
    State.withDevice]

/-- CS_DIS (rules R122, R151). -/
theorem act_csDis (hcs : s.sh.cs = true) :
    act .csDis s = .go ((((s.withSh { s.sh with cs := false }).withWire { s.wire with csn := true }).saw
      (.portOut (s.port s.cfg.regCs) s.cfg.csDeassert)).withFl (s.fl.deselect s.cfg)) := by
  simp [act, actCsDis, guardBy, r.busRefusal true [s.cfg.regCs] hcs (by simp [portsFit_all r.ports])]

end

/-- Settles O15: the one action of CS_EN, on the state SEQ starts from. -/
theorem csEnSelects : Obligations.CsEnSelects := by
  intro s hbus hcalm hcs hph
  have r := Ready.of_onBus hbus hcalm
  exact launch_single hbus.1 r rfl (act_csEn (r.begin (.instr .csEn)) hcs hph)

/-- Settles O16: the one action of CS_DIS, on the state SEQ starts from. -/
theorem csDisDeselects : Obligations.CsDisDeselects := by
  intro s hbus hcalm hcs
  have r := Ready.of_onBus hbus hcalm
  exact launch_single hbus.1 r rfl (act_csDis (r.begin (.instr .csDis)) hcs)

/-! ## WR_BYTE -/

/-- Nothing keeps a byte that the device takes from being sent (rules R124, R131, R142, R152). -/
theorem sendRefusal_of_receive {b : Byte} {f : Flash} {s : State} (hbus : s.onBus) (hcs : s.sh.cs = true)
    (hph : s.fl.phase ≠ .dataOut) (hw : s.fl.wip = false ∨ s.statusFrame = true)
    (hf : s.fl.receive s.cfg b = .ok f) : sendRefusal b s = none := by
  obtain ⟨-, hready, htransfer, hbusy, hports⟩ := hbus
  obtain ⟨hout, -, -, hstat, -⟩ := portsFit_all hports
  have hdevice : (s.fl.wip && !s.statusByteNext b) = false := by
    rcases hw with h | h
    · rw [h, Bool.false_and]
    · exact statusByteNext_of_receive h hf
  rw [sendRefusal, busRefusal_of_free hready htransfer hbusy hcs (by simp [hout, hstat])]
  simp [hph, hdevice]

/-- Settles O17: with SHIFT prompt the byte is out at the first poll; under a fair schedule the poll is left after finitely
many machine steps, whatever turns come before. -/
theorem wrByteSends : Obligations.WrByteSends := by
  intro s b f hbus hcs hph hw hf
  refine ⟨fun hcalm => ?_, fun hfair hpending hreset => ?_⟩
  · have r := (Ready.of_onBus hbus hcalm).begin (.instr (.wrByte b))
    obtain ⟨t, ht, u, h, rfl⟩ := launch_of_runs hbus.1 (runs_sendByte (src := .lit b) r hcs rfl hph hw hf)
    exact ⟨u.finish, ht, h.base.platform_finish hbus.1 h.host, h.fl, h.report, h.txd, h.shift, h.txDone, h.busy, h.bitcnt,
      ⟨h.rxd, h.rxReady, h.held⟩, h.cs.trans hcs, h.csn, h.sck, h.mosi⟩
  · have hbusy : s.sh.busy = false := hbus.2.2.2.1
    have hsend : sendRefusal b s = none := sendRefusal_of_receive hbus hcs hph hw hf
    obtain ⟨u, hgets, hwaited, hsent, hsh, hcsn⟩ := gets_sendByte (prog := progWrByte b)
      (s := s.begin (.instr (.wrByte b))) rfl hfair rfl hbusy hpending hsend hf
    obtain ⟨r, n, hr, hn⟩ := launch_of_gets hgets hbus.1 hreset fun _ _ => rfl
    obtain ⟨k, henv⟩ := hwaited.env
    have field {α : Type} (p : ShiftEngine → α) := congrArg p hsh
    exact ⟨r, n, u.finish, k, hr, hn, rfl, henv, hwaited.platform_finish hbus.1 (field (·.ctrl)), hsent.fl, hwaited.report,
      field (·.txd), field (·.shift), hsent.txDone, hsent.busy, hsent.bitcnt,
      ⟨field (·.rxd), field (·.rxReady), field (·.rxdHeld)⟩, (field (·.cs)).trans hcs, hcsn, hsent.sck, hsent.mosi⟩

/-! ## RD_BYTE -/

/-- The address after one data byte of a READ frame (rules R147, R302). -/
theorem nextFlashAddr_toNat {c : Config} (h : c.ok = true) (a : FlashAddr) :
    (nextFlashAddr c a).toNat = (a.toNat + 1) % c.flashSize := by
  obtain ⟨-, hlow, hhigh⟩ := Config.ok_flash h
  exact flashAddrAfter_toNat hhigh (by omega) a 1

section
variable {c : Config} {f : Flash} {free : Byte}

theorem Flash.byteOut_read (h : f.cmd = c.cmdRead) : f.byteOut c free = f.mem.read f.addr.toNat := if_pos h

theorem Flash.afterByteOut_read (h : f.cmd = c.cmdRead) :
    f.afterByteOut c = { f with addr := nextFlashAddr c f.addr } := if_pos h

theorem Flash.byteOut_status (hok : c.ok = true) (h : f.cmd = c.cmdRdsr) : f.byteOut c free = statusByte c f free := by
  have hne : f.cmd ≠ c.cmdRead := fun e => (Config.ok_commands hok).2.2.2.2.1 (e.symm.trans h)
  rw [Flash.byteOut, if_neg hne, if_pos h]

theorem Flash.afterByteOut_status (hok : c.ok = true) (h : f.cmd = c.cmdRdsr) :
    f.afterByteOut c = { f with sentWip := f.wip } := by
  have hne : f.cmd ≠ c.cmdRead := fun e => (Config.ok_commands hok).2.2.2.2.1 (e.symm.trans h)
  rw [Flash.afterByteOut, if_neg hne, if_pos h]

end

/-- Settles O18: the byte taken is the one the device sends next, and what a READ or an RDSR frame sends, and goes on to
send, is the device's own definition. -/
theorem rdByteTakes : Obligations.RdByteTakes := by
  intro s hbus hcalm hok hcs hph hw
  have r := (Ready.of_onBus hbus hcalm).begin (.instr .rdByte)
  obtain ⟨t, ht, u, h, rfl⟩ := launch_of_runs hbus.1 (runs_takeByte (d := .caller) r hcs hph hw nofun)
  have hfl : u.fl = s.fl.afterByteOut s.cfg := h.fl
  have hmiso : u.wire.miso = ((s.fl.afterByteOut s.cfg).byteOut s.cfg u.sh.misoFree).getLsbD 7 := h.miso
  obtain ⟨hmem, hpending, hwip, hwel, hphase, hcmd⟩ := Flash.afterByteOut_keeps s.cfg s.fl
  rw [← hfl] at hmem hpending hwip hwel hphase
  refine ⟨u.finish, s.deviceByte, ht, h.base.platform_finish hbus.1 h.host, h.report, h.rxd, h.held, h.shift, h.rxReady,
    h.busy, h.bitcnt, h.txd, h.txDone, h.cs.trans hcs, h.csn, h.sck, ?_, hmem, ⟨hwel, hwip, hpending⟩, hphase.trans hph,
    fun hread => ?_, fun hrdsr => ?_⟩
  · have hcfg : u.cfg = s.cfg := h.base.cfg
    show u.wire.miso = (u.fl.byteOut u.cfg u.sh.misoFree).getLsbD 7
    rw [hmiso, hfl, hcfg]
  · have hnext : (s.fl.afterByteOut s.cfg).addr.toNat = (s.fl.addr.toNat + 1) % s.cfg.flashSize := by
      rw [Flash.afterByteOut_read hread]
      exact nextFlashAddr_toNat hok s.fl.addr
    refine ⟨Flash.byteOut_read hread, (congrArg (·.addr.toNat) hfl).trans hnext, hmiso.trans ?_⟩
    rw [Flash.byteOut_read (hcmd.trans hread), hnext, ← hfl, hmem]
  · refine ⟨?_, s.sh.misoFree, Flash.byteOut_status hok hrdsr⟩
    show u.fl.addr = s.fl.addr
    rw [hfl, Flash.afterByteOut_status hok hrdsr]

/-! ## WR_ADDR24 -/

/-- The device after the three address bytes (rule R143). -/
def Flash.withAddress (c : Config) (a : FlashAddr) (f : Flash) : Flash :=
  { f with addr := a, nbytes := f.nbytes + 3, phase := phaseAfterAddress c f.cmd }

/-- An address inside the array is taken, most significant byte first, whatever the device held before. -/
theorem Flash.takes_sentAddress {c : Config} {a : FlashAddr} {f : Flash} (hph : f.phase = .addr0) (hw : f.wip = false)
    (ha : a.toNat < c.flashSize) : f.Takes c [addrHigh a, addrMid a, addrLow a] (f.withAddress c a) := by
  have haddr := setAddr_all f.addr a
  have hlast : (setAddrLow (setAddrMid (setAddrHigh f.addr (addrHigh a)) (addrMid a)) (addrLow a)).toNat < c.flashSize := by
    rw [haddr]; exact ha
  refine .cons (receive_of_addr0 hph) (by simp [hph]) hw (.cons (receive_of_addr1 rfl) nofun hw
    (.cons (receive_of_addr2 rfl hlast) nofun hw ?_))
  simp only [haddr, Flash.withAddress]
  exact .nil _

/-- Settles O19: three bytes sent, each taken by the device. -/
theorem wrAddr24Sends : Obligations.WrAddr24Sends := by
  intro s a hbus hcalm hcs hph hw ha
  have r := (Ready.of_onBus hbus hcalm).begin (.instr (.wrAddr24 a))
  have htakes := Flash.takes_sentAddress (c := s.cfg) hph hw ha
  obtain ⟨t, ht, u, h, rfl⟩ := launch_of_runs hbus.1 (runs_address (a := a) r hcs htakes.listens htakes.takes)
  exact ⟨u.finish, ht, h.base.platform_finish hbus.1 h.host, ⟨h.rxd, h.rxReady, h.held⟩, h.report, h.fl, h.txd, h.txDone,
    h.busy, h.cs.trans hcs, h.csn⟩

/-! ## CMD1 -/

/-- The latch after a frame of the one byte `k` (rules R107, R145, R146, R151, R156). -/
def welAfter (c : Config) (k : Byte) (wel : Bool) : Bool :=
  if k = c.cmdWren then true else if k = c.cmdWrdi then false else wel

/-- Closing a frame of one byte moves nothing but WEL, and that for WREN and WRDI only. -/
theorem Flash.deselect_commanded {c : Config} (hok : c.ok = true) (k : Byte) (f : Flash) :
    (f.commanded c k).deselect c = { f.after k with wel := welAfter c k f.wel } := by
  by_cases hwren : k = c.cmdWren
  · subst hwren
    rw [deselect_wren, welAfter, if_pos rfl]
  · by_cases hwrdi : k = c.cmdWrdi
    · subst hwrdi
      rw [deselect_wrdi hok, welAfter, if_neg hwren, if_pos rfl]
    · have hinert : (f.commanded c k).phase.isInert := by
        show (phaseAfterCommand c k).isInert
        rw [phaseAfterCommand, if_neg (by tauto)]
        split_ifs <;> simp [Phase.isInert]
      rw [deselect_of_inert hinert, welAfter, if_neg hwren, if_neg hwrdi]
      rfl

/-- CMD1 from a closed frame, no erase or program under way (rules R127, R312). -/
theorem runs_cmd1 {k : Byte} {s : State} (o : Open s) (hok : s.cfg.ok = true) :
    Runs (progCmd1 k) s (At (s.link.rested k { s.fl.after k with wel := welAfter s.cfg k s.fl.wel }) s) := by
  have hneed : needRefusal .writable s = none := by
    simp [needRefusal, readyAnd, modeCsWip, o.ready.ready, State.canTransfer_mode o.ready.transfer, o.cs, o.wip]
  refine (runs_need hneed).append fun t ht => ?_
  subst ht
  have hat : At s.link s (s.advance (.need .writable)) := ⟨⟨rfl, rfl, rfl, rfl, rfl, rfl, rfl, rfl, rfl⟩, rfl, o.ready.busy⟩
  have o' : Open (s.advance (.need .writable)) := hat.open o o.cs o.phase o.wip rfl
  refine (runs_bareFrame o'.ready o'.cs o'.phase o'.wip).weaken fun u hu => ⟨hat.base.trans hu.base, ?_, hu.busy⟩
  rw [hu.link, ← Flash.deselect_commanded hok]
  rfl

/-- Settles O20: the frame of one byte, start to end. -/
theorem cmd1Frames : Obligations.Cmd1Frames := by
  intro s k hbus hcalm hok hcs hph hw
  have o : Open s := ⟨.of_onBus hbus hcalm, hcs, hph, hw⟩
  obtain ⟨t, ht, u, h, rfl⟩ := launch_of_runs hbus.1 (runs_cmd1 (k := k) (o.begin (.instr (.cmd1 k))) hok)
  have hfl : u.fl = { s.fl.after k with wel := welAfter s.cfg k s.fl.wel } := h.fl
  exact ⟨u.finish, ht,
    ⟨h.base.platform_finish hbus.1 h.host, (congrArg Flash.mem hfl :), congrArg Flash.phase hfl, h.cs, h.csn, h.busy, h.txd,
      h.txDone⟩,
    ⟨h.rxd, h.rxReady, h.held⟩, h.report, congrArg Flash.cmd hfl, (congrArg Flash.wip hfl).trans hw,
    (congrArg Flash.pending hfl :), congrArg Flash.wel hfl⟩

/-! ## A dead shift engine -/

/-- An operation whose next action is not done waits there (rules R28, R123). -/
theorem step_of_hold {s t : State} {o : Operation} {m : Micro} {ms : List Micro} (hr : resetAsked s = false)
    (ho : s.seq.op = some o) (hm : remaining s o = m :: ms) (ht : tick m s = .hold t) : step s = .next t.wait := by
  rw [step_of_inProgress hr ho, goOn, hm, runSeq_cons, ht, Res.andThen_hold, settle]

theorem State.wait_of_noBlock {s : State} (h : s.seq.openBlock = none) : s.wait = s := (Waited.refl s).wait h

/-- Settles O30: at a turn that moves nothing the poll sees the flag still clear, and what waits then is the state as it
was, with one more read of STAT made. -/
theorem deadShiftEngineHangs : Obligations.DeadShiftEngineHangs := by
  intro s hpos hopen hturns hsteps hpending hreset hpoll
  have hpauses : s.pauses = false := by simp [State.pauses, hturns]
  have hturn : takeTurn s = .ok s := by
    have hstill : Still s := ⟨.inr (by rw [hturns]; exact hsteps), .inl hpending⟩
    rw [takeTurn_of_still hstill, env_of_no_turns hturns]
  have hwait : (pollStat s).wait = pollStat s := State.wait_of_noBlock hopen
  suffices h : step s = .next (pollStat s).wait from h.trans (congrArg _ hwait)
  obtain ⟨⟨b, hop⟩, hflag⟩ | ⟨hop, hflag⟩ := hpoll
  · have hrest : remaining s (.instr (.wrByte b)) = [.pollTx] := by rw [remaining, hpos]; rfl
    have htick : tick .pollTx s = .hold (pollStat s) := by
      rw [tick_of_external rfl hpauses hturn]
      simp [act, actPollTx, hflag]
    exact step_of_hold hreset hop hrest htick
  · have hrest : remaining s (.instr .rdByte) = [.pollRx, .inp .caller] := by rw [remaining, hpos]; rfl
    have htick : tick .pollRx s = .hold (pollStat s) := by
      rw [tick_of_external rfl hpauses hturn]
      simp [act, actPollRx, hflag]
    exact step_of_hold hreset hop hrest htick

end Sys2Proof.Machine
end

section
/-! The device on its own: the byte decoder phase by phase (rules R141 to R144), what closing a frame does (rule R151), and
what the completion of an erase or a program leaves in the array (rules R153 to R155). -/

namespace Sys2Proof.Machine

/-! ## Selecting, and the bytes -/

section
variable {c : Config} {f : Flash} {b : Byte}

/-- on_select on a device whose frame is closed (rule R141). -/
theorem Flash.select_of_idle (hph : f.phase = .idle) : f.select = .ok f.opened := if_pos hph

theorem Flash.select_of_frameOpen (hph : f.phase ≠ .idle) : f.select = .error .frameOpen := if_neg hph

/-- The command byte, where it is accepted (rules R142, R152). -/
theorem Flash.receive_of_cmd (hph : f.phase = .cmd) (hb : f.wip = false ∨ b = c.cmdRdsr) :
    f.receive c b = .ok { f with cmd := b, phase := phaseAfterCommand c b } := by
  have haccepted : ¬ (f.wip = true ∧ b ≠ c.cmdRdsr) := by
    rcases hb with hw | hb
    · simp [hw]
    · simp [hb]
  simp only [Flash.receive, hph]
  exact if_neg haccepted

/-- The command byte, while an erase or program is under way (rule R152). -/
theorem Flash.receive_of_cmd_busy (hph : f.phase = .cmd) (hw : f.wip = true) (hb : b ≠ c.cmdRdsr) :
    f.receive c b = .error .deviceBusy := by
  simp only [Flash.receive, hph]
  exact if_pos ⟨hw, hb⟩

/-- ADDR(2), where the address is outside the array (rule R143). -/
theorem Flash.receive_of_addr2_outside (hph : f.phase = .addr2) (ha : c.flashSize ≤ (setAddrLow f.addr b).toNat) :
    f.receive c b = .error .flashRange := by
  simp only [Flash.receive, hph]
  exact if_pos ha

/-- A data byte of a page program (rule R144). -/
theorem Flash.receive_of_dataIn (hph : f.phase = .dataIn) (hn : f.pageN < pageLimit) :
    f.receive c b = .ok { f with nbytes := f.nbytes + 1, pageN := f.pageN + 1, page := f.page ++ [b] } := by
  have hroom : ¬ pageLimit < f.pageN + 1 := Nat.not_lt.2 hn
  simp only [Flash.receive, hph, Flash.dataByte, if_neg hroom]

/-- The 257th data byte (rules R144, R150). -/
theorem Flash.receive_of_dataIn_full (hph : f.phase = .dataIn) (hn : pageLimit ≤ f.pageN) :
    f.receive c b = .error .pageOverflow := by
  simp only [Flash.receive, hph]
  exact if_pos (Nat.lt_succ_of_le hn)

theorem Flash.receive_of_dataOut (hph : f.phase = .dataOut) : f.receive c b = .error .deviceSending := by
  simp only [Flash.receive, hph]

theorem Flash.receive_of_idle (hph : f.phase = .idle) : f.receive c b = .error .chipNotSelected := by
  simp only [Flash.receive, hph]

end

/-! ## Where a command and an address lead -/

section
variable {c : Config} {k : Byte}

theorem phaseAfterCommand_bare (hk : k = c.cmdWren ∨ k = c.cmdWrdi) : phaseAfterCommand c k = .done := if_pos hk

/-- Every other first byte (rule R156). -/
theorem phaseAfterCommand_unknown (hk : k ∉ [c.cmdWren, c.cmdWrdi, c.cmdRdsr, c.cmdRead, c.cmdSe, c.cmdPp]) :
    phaseAfterCommand c k = .ignore := by
  simp only [List.mem_cons, List.not_mem_nil, or_false, not_or] at hk
  simp [phaseAfterCommand, hk]

theorem phaseAfterAddress_read : phaseAfterAddress c c.cmdRead = .dataOut := if_pos rfl

variable (hok : c.ok = true)
include hok

/-- RDSR, which the device answers at once (rule R148); what the device holds does not matter. -/
theorem phaseAfterCommand_status : phaseAfterCommand c c.cmdRdsr = .dataOut := commanded_status hok State.reset.fl

theorem phaseAfterAddress_erase : phaseAfterAddress c c.cmdSe = .done := by
  obtain ⟨-, hReadSe, -⟩ := Config.ok_commands hok
  rw [phaseAfterAddress, if_neg hReadSe.symm, if_pos rfl]

theorem phaseAfterAddress_program : phaseAfterAddress c c.cmdPp = .dataIn := by
  obtain ⟨hReadPp, -, -, -, -, hPpSe, -⟩ := Config.ok_commands hok
  rw [phaseAfterAddress, if_neg hReadPp.symm, if_neg hPpSe]

end

/-- Settles O53, phase by phase. -/
theorem deviceTakesBytes : Obligations.DeviceTakesBytes := by
  intro c f b hok
  refine ⟨Flash.select_of_idle, Flash.select_of_frameOpen, fun hph => ⟨Flash.receive_of_cmd_busy hph, fun hb => ?_⟩,
    Flash.receive_of_addr0, Flash.receive_of_addr1,
    fun hph => ⟨Flash.receive_of_addr2_outside hph, fun ha => ?_⟩,
    fun hph => ⟨Flash.receive_of_dataIn hph, Flash.receive_of_dataIn_full hph⟩,
    Flash.receive_of_done, Flash.receive_of_ignore, Flash.receive_of_dataOut, Flash.receive_of_idle⟩
  · rw [Flash.receive_of_cmd hph hb]
    refine ⟨fun hk => ?_, fun hk => ?_, fun hk => ?_, fun hk => ?_⟩
    · rw [phaseAfterCommand_bare hk]
    · rw [hk, phaseAfterCommand_status hok]
    · rw [phaseAfterCommand_addressed hok hk]
    · rw [phaseAfterCommand_unknown hk]
  · rw [Flash.receive_of_addr2 hph ha]
    refine ⟨fun hk => ?_, fun hk => ?_, fun hk => ?_⟩
    · rw [hk, phaseAfterAddress_read]; rfl
    · rw [hk, phaseAfterAddress_erase hok]; rfl
    · rw [hk, phaseAfterAddress_program hok]; rfl

/-! ## Closing a frame -/

section
variable {c : Config} {f : Flash}

/-- What closing a frame never moves (rule R151). -/
theorem Flash.deselect_keeps (c : Config) (f : Flash) :
    (f.deselect c).phase = .idle ∧ (f.deselect c).mem = f.mem ∧ (f.deselect c).cmd = f.cmd
      ∧ (f.deselect c).addr = f.addr ∧ (f.deselect c).page = f.page ∧ (f.deselect c).pageN = f.pageN := by
  unfold Flash.deselect Flash.frameEffect
  split
  · split_ifs <;> exact ⟨rfl, rfl, rfl, rfl, rfl, rfl⟩
  · split_ifs <;> exact ⟨rfl, rfl, rfl, rfl, rfl, rfl⟩
  · exact ⟨rfl, rfl, rfl, rfl, rfl, rfl⟩

/-- WREN (rules R145, R151). -/
theorem Flash.frameEffect_wren (hph : f.phase = .done) (hk : f.cmd = c.cmdWren) :
    f.frameEffect c = { f with wel := true } := by
  simp only [Flash.frameEffect, hph, if_pos hk]

/-- WRDI (rules R146, R151). -/
theorem Flash.frameEffect_wrdi (hok : c.ok = true) (hph : f.phase = .done) (hk : f.cmd = c.cmdWrdi) :
    f.frameEffect c = { f with wel := false } := by
  obtain ⟨-, -, -, -, -, -, -, -, -, -, -, -, hWrenWrdi, -⟩ := Config.ok_commands hok
  have hwren : f.cmd ≠ c.cmdWren := fun h => hWrenWrdi (h.symm.trans hk)
  simp only [Flash.frameEffect, hph, if_neg hwren, if_pos hk]

/-- SE with the latch set (rules R149, R151). -/
theorem Flash.frameEffect_erase (hok : c.ok = true) (hph : f.phase = .done) (hk : f.cmd = c.cmdSe) (hw : f.wel = true) :
    f.frameEffect c = { f with wip := true, pending := .erase (f.addr.toNat / blockSize) } := by
  obtain ⟨-, -, -, -, -, -, -, -, -, hSeWren, hSeWrdi, -⟩ := Config.ok_commands hok
  have hwren : f.cmd ≠ c.cmdWren := hk ▸ hSeWren
  have hwrdi : f.cmd ≠ c.cmdWrdi := hk ▸ hSeWrdi
  simp only [Flash.frameEffect, hph, if_neg hwren, if_neg hwrdi, if_pos (And.intro hk hw)]

/-- PP with the latch set and a data byte at least (rules R150, R151). -/
theorem Flash.frameEffect_program (hph : f.phase = .dataIn) (hk : f.cmd = c.cmdPp) (hw : f.wel = true)
    (hn : 1 ≤ f.pageN) : f.frameEffect c = { f with wip := true, pending := .program f.addr f.page } := by
  simp only [Flash.frameEffect, hph]
  exact if_pos ⟨hk, hw, hn⟩

/-- Every other frame does nothing (rule R151). -/
theorem Flash.frameEffect_none
    (hdone : ¬ (f.phase = .done ∧ (f.cmd = c.cmdWren ∨ f.cmd = c.cmdWrdi ∨ (f.cmd = c.cmdSe ∧ f.wel = true))))
    (hdata : ¬ (f.phase = .dataIn ∧ f.cmd = c.cmdPp ∧ f.wel = true ∧ 1 ≤ f.pageN)) : f.frameEffect c = f := by
  unfold Flash.frameEffect
  split
  · next hph =>
    have hk := fun h => hdone ⟨hph, h⟩
    rw [if_neg fun h => hk (.inl h), if_neg fun h => hk (.inr (.inl h)), if_neg fun h => hk (.inr (.inr h))]
  · next hph => exact if_neg fun h => hdata ⟨hph, h⟩
  · rfl

end

/-- Settles O54: the frame that was closed decides, and each of the four effects is an equation of `frameEffect`. -/
theorem deviceDeselect : Obligations.DeviceDeselect := by
  intro c f hok
  obtain ⟨hphase, hmem, hcmd, haddr, hpage, hpageN⟩ := Flash.deselect_keeps c f
  refine ⟨hphase, hmem, hcmd, haddr, hpage, hpageN, fun hph hk => ?_, fun hph hk => ?_, fun hph hk hw => ?_,
    fun hph hk hw hn => ?_, fun hdone hdata => ?_⟩ <;> unfold Flash.deselect
  · rw [Flash.frameEffect_wren hph hk]
    exact ⟨rfl, rfl, rfl⟩
  · rw [Flash.frameEffect_wrdi hok hph hk]
    exact ⟨rfl, rfl, rfl⟩
  · rw [Flash.frameEffect_erase hok hph hk hw]
    exact ⟨hw, rfl, rfl⟩
  · rw [Flash.frameEffect_program hph hk hw hn]
    exact ⟨hw, rfl, rfl⟩
  · rw [Flash.frameEffect_none hdone hdata]
    exact ⟨rfl, rfl, rfl⟩

/-! ## Completion -/

section
variable {c : Config} {f : Flash} {k : Nat}

/-- FLASH_INT completes a pending erase (rules R153, R154). -/
theorem Flash.complete_erase {b : Nat} (hp : f.pending = .erase b) :
    f.complete c k = .ok (f.completed (eraseBytes c f.mem b)) := by
  simp only [Flash.complete, hp]

variable {a : FlashAddr} {d : List Byte}

/-- A pending program that crosses its page is refused (rule R155; log 21). -/
theorem Flash.complete_program_crossing (hp : f.pending = .program a d) (hd : pageLimit < a.toNat % pageLimit + d.length) :
    f.complete c k = .error .pageCross := by
  simp only [Flash.complete, hp]
  exact if_pos hd

/-- FLASH_INT completes a pending program inside its page (rules R153, R155). -/
theorem Flash.complete_program (hp : f.pending = .program a d) (hd : a.toNat % pageLimit + d.length ≤ pageLimit) :
    f.complete c k = .ok (f.completed (f.mem.splice a.toNat (programmed c.erasedByte f.mem a.toNat k d))) := by
  simp only [Flash.complete, hp]
  exact if_neg (Nat.not_lt.2 hd)

/-- What a program leaves at each address, new or free (rule R155). -/
theorem getElem_programmed {erased : Byte} {m : Memory} {a k i : Nat} {d : List Byte} (h : i < d.length) :
    (programmed erased m a k d)[i]'(by simpa using h)
      = if m.read (a + i) = erased then d[i] else Config.freeByte (k + i) := by
  induction d generalizing a k i with
  | nil => cases h
  | cons b d ih =>
    cases i with
    | zero => rfl
    | succ i =>
      have hi : i < d.length := Nat.lt_of_succ_lt_succ h
      have hnext := ih (a := a + 1) (k := k + 1) hi
      rw [Nat.add_right_comm a 1 i, Nat.add_right_comm k 1 i] at hnext
      exact hnext

end

/-- Settles O55: inside the block a read gives the erased byte, and a completion spares the rest. -/
theorem eraseEffect : Obligations.EraseEffect := by
  intro c f k b hp
  have hcomplete := Flash.complete_erase (c := c) (k := k) hp
  have hspares := Flash.complete_spares hcomplete
  rw [hp] at hspares
  refine ⟨_, hcomplete, fun i hi => ?_, hspares, rfl⟩
  have hinside : blockSize * b ≤ 4096 * b + i ∧ 4096 * b + i < blockSize * b + blockSize := by
    simp only [blockSize]; omega
  exact (read_eraseBytes c f.mem b (4096 * b + i)).trans (if_pos hinside)

/-- Settles O56: the byte programmed at each address is the new one where the old one was erased, and a completion spares
the rest. -/
theorem programEffect : Obligations.ProgramEffect := by
  intro c f k a d hp
  refine ⟨Flash.complete_program_crossing hp, fun hd => ?_⟩
  have hcomplete := Flash.complete_program (c := c) (k := k) hp hd
  have hspares := Flash.complete_spares hcomplete
  rw [hp] at hspares
  refine ⟨_, hcomplete, fun i hi herased => ?_, hspares, rfl⟩
  have hlen : i < (programmed c.erasedByte f.mem a.toNat k d).length := by rwa [length_programmed]
  calc (f.mem.splice a.toNat (programmed c.erasedByte f.mem a.toNat k d)).read (a.toNat + i)
    _ = (programmed c.erasedByte f.mem a.toNat k d)[i] := Memory.read_splice_inside hlen
    _ = d[i] := (getElem_programmed hi).trans (if_pos herased)

end Sys2Proof.Machine
end

section
/-! The six wire frames as operations of HOST (rules R145 to R150): each is its micro-program, run from a bus at rest, and
what it leaves is read off the link it ends in. -/

namespace Sys2Proof.Machine

/-! ## Ending a frame -/

/-- A frame may be asked for, and nothing is under way (rules R131, R152). -/
theorem Open.of_onBus {s : State} (hbus : s.onBus) (hcalm : s.calm) (hcs : s.sh.cs = false) (hph : s.fl.phase = .idle)
    (hw : s.fl.wip = false) : Open s :=
  ⟨.of_onBus hbus hcalm, hcs, hph, hw⟩

section
variable {l : Link} {o : Operation} {k : Byte} {f : Flash} {s u : State}

/-- The link of a closed frame: the bus at rest, `k` the last byte sent, HOSTMEM and the content of the array as they were. -/
structure Link.Closed (l : Link) (k : Byte) (s : State) : Prop where
  host   : l.host = s.host
  mem    : l.fl.mem = s.fl.mem
  phase  : l.fl.phase = .idle
  cs     : l.cs = false
  csn    : l.csn = true
  txd    : l.txd = k
  txDone : l.txDone = true

/-- An operation that ends in such a link has closed its frame. -/
theorem At.frameClosed (h0 : s.seq.op = none) (h : At l (s.begin o) u) (hl : l.Closed k s) : FrameClosed k s u.finish where
  platform := h.base.platform_finish h0 (h.host.trans hl.host)
  mem      := (congrArg Flash.mem h.fl).trans hl.mem
  phase    := (congrArg Flash.phase h.fl).trans hl.phase
  cs       := h.cs.trans hl.cs
  csn      := h.csn.trans hl.csn
  busy     := h.busy
  txd      := h.txd.trans hl.txd
  txDone   := h.txDone.trans hl.txDone

/-- A frame that hands nothing back has ended: it is closed, `k` was the last byte sent, and the device is `f`. -/
structure FrameLeaves (k : Byte) (f : Flash) (s t : State) : Prop where
  closed   : FrameClosed k s t
  receiver : SameReceiver s t
  report   : t.report = .none
  device   : t.fl = f

theorem At.frameLeaves (h0 : s.seq.op = none) (h : At ((s.begin o).link.rested k f) (s.begin o) u)
    (hmem : f.mem = s.fl.mem) (hph : f.phase = .idle) : FrameLeaves k f s u.finish where
  closed   := h.frameClosed h0 ⟨rfl, hmem, hph, rfl, rfl, rfl, rfl⟩
  receiver := ⟨h.rxd, h.rxReady, h.held⟩
  report   := h.report
  device   := h.fl

end

/-! ## WREN and WRDI -/

/-- A frame of one byte, asked for under whatever name (rules R107, R145, R146, R312). -/
theorem launch_cmd1 {s : State} (h0 : s.seq.op = none) (o : Open s) (hok : s.cfg.ok = true) (op : Operation) (k : Byte) :
    ∃ t, launch op (progCmd1 k) s = .next t
      ∧ FrameLeaves k { s.fl.after k with wel := welAfter s.cfg k s.fl.wel } s t := by
  obtain ⟨t, ht, u, h, rfl⟩ := launch_of_runs h0 (runs_cmd1 (k := k) (o.begin op) hok)
  exact ⟨u.finish, ht, h.frameLeaves h0 rfl rfl⟩

theorem welAfter_wren (c : Config) (w : Bool) : welAfter c c.cmdWren w = true := if_pos rfl

theorem welAfter_wrdi {c : Config} (hok : c.ok = true) (w : Bool) : welAfter c c.cmdWrdi w = false := by
  obtain ⟨-, -, -, -, -, -, -, -, -, -, -, -, hWrenWrdi, -⟩ := Config.ok_commands hok
  rw [welAfter, if_neg hWrenWrdi.symm, if_pos rfl]

/-- Settles O21: both are frames of one byte, and closing such a frame moves the latch alone. -/
theorem wrenAndWrdiFrames : Obligations.WrenAndWrdiFrames := by
  intro s hbus hcalm hok hcs hph hw
  have o := Open.of_onBus hbus hcalm hcs hph hw
  refine ⟨?_, ?_⟩
  · obtain ⟨t, ht, h⟩ := launch_cmd1 hbus.1 o hok (.instr .wren) s.cfg.cmdWren
    rw [welAfter_wren] at h
    refine ⟨t, ht, h.closed, h.receiver, h.report, ?_⟩
    rw [h.device]
    exact ⟨rfl, hw, rfl⟩
  · obtain ⟨t, ht, h⟩ := launch_cmd1 hbus.1 o hok (.instr .wrdi) s.cfg.cmdWrdi
    rw [welAfter_wrdi hok] at h
    refine ⟨t, ht, h.closed, h.receiver, h.report, ?_⟩
    rw [h.device]
    exact ⟨rfl, hw, rfl⟩

/-! ## SE and PP -/

/-- What an erase frame starts, and when, and that it leaves the rest of the device alone (rules R149, R151). -/
theorem Flash.eraseStarted_spec (a : FlashAddr) {f : Flash} (hw : f.wip = false) :
    (f.eraseStarted a).mem = f.mem ∧ (f.eraseStarted a).wel = f.wel
      ∧ (f.wel = true → (f.eraseStarted a).wip = true ∧ (f.eraseStarted a).pending = .erase (a.toNat / blockSize))
      ∧ (f.wel = false → (f.eraseStarted a).wip = false ∧ (f.eraseStarted a).pending = f.pending) := by
  unfold Flash.eraseStarted
  split
  · next hset => exact ⟨rfl, rfl, fun _ => ⟨rfl, rfl⟩, fun hclear => absurd (hset.symm.trans hclear) nofun⟩
  · next hclear => exact ⟨rfl, rfl, fun hset => absurd hset hclear, fun _ => ⟨hw, rfl⟩⟩

/-- The same of a program frame (rules R150, R151). -/
theorem Flash.programStarted_spec (a : FlashAddr) (d : List Byte) {f : Flash} (hw : f.wip = false) :
    (f.programStarted a d).mem = f.mem ∧ (f.programStarted a d).wel = f.wel
      ∧ (f.wel = true ∧ d ≠ [] → (f.programStarted a d).wip = true ∧ (f.programStarted a d).pending = .program a d)
      ∧ (f.wel = false ∨ d = [] → (f.programStarted a d).wip = false ∧ (f.programStarted a d).pending = f.pending) := by
  unfold Flash.programStarted
  split
  · next hset =>
    refine ⟨rfl, rfl, fun _ => ⟨rfl, rfl⟩, fun hnot => ?_⟩
    rcases hnot with hclear | hempty
    · exact absurd (hset.1.symm.trans hclear) nofun
    · exact absurd hempty hset.2
  · next hnot => exact ⟨rfl, rfl, fun hset => absurd hset hnot, fun _ => ⟨hw, rfl⟩⟩

/-- Settles O24: the erase is started when the frame is closed, and nothing else has happened. -/
theorem eraseFrame : Obligations.EraseFrame := by
  intro s a hbus hcalm hok hcs hph hw ha
  have o := Open.of_onBus hbus hcalm hcs hph hw
  obtain ⟨hmem, hwel, hlatches⟩ := Flash.eraseStarted_spec a hw
  obtain ⟨t, ht, u, h, rfl⟩ :=
    launch_of_runs hbus.1 (runs_se (mark := []) nofun (o.begin (.instr (.se a))) hok ha)
  obtain ⟨hclosed, hreceiver, hreport, hfl⟩ := h.frameLeaves hbus.1 hmem rfl
  refine ⟨u.finish, ht, hclosed, hreceiver, hreport, ?_⟩
  rw [hfl]
  exact ⟨hwel, rfl, hlatches⟩

/-- Settles O25: the program is started when the frame is closed, and nothing else has happened. -/
theorem programFrame : Obligations.ProgramFrame := by
  intro s a d hbus hcalm hok hcs hph hw ha hd
  have o := Open.of_onBus hbus hcalm hcs hph hw
  obtain ⟨hmem, hwel, hlatches⟩ := Flash.programStarted_spec a d hw
  obtain ⟨t, ht, u, h, rfl⟩ := launch_of_runs hbus.1 (runs_pp (o.begin (.instr (.pp a d))) hok ha hd)
  obtain ⟨hclosed, hreceiver, hreport, hfl⟩ := h.frameLeaves hbus.1 hmem rfl
  refine ⟨u.finish, ht, hclosed, hreceiver, hreport, ?_⟩
  rw [hfl]
  exact ⟨hwel, rfl, hlatches⟩

/-! ## READ and RDSR -/

/-- The bytes a frame takes are appended to those handed back already (rules R147, R148). -/
theorem Report.foldl_add (l m : List Byte) : m.foldl Report.add (.bytes l) = .bytes (l ++ m) := by
  induction m generalizing l with
  | nil => rw [List.foldl_nil, List.append_nil]
  | cons b m ih => rw [List.foldl_cons, Report.add, ih, List.append_assoc, List.singleton_append]

/-- The list of bytes starts empty, and nothing else happens. -/
theorem runs_openReport {s : State} (hb : s.sh.busy = false) :
    Runs openReport s (At { s.link with report := .bytes [] } s) :=
  Runs.cons (tick_of_internal rfl s) (Runs.nil ⟨⟨rfl, rfl, rfl, rfl, rfl, rfl, rfl, rfl, rfl⟩, rfl, hb⟩)

/-- READ (rule R147). -/
theorem runs_progRead {a : FlashAddr} {m : BitVec 32} {s : State} (o : Open s) (hok : s.cfg.ok = true)
    (ha : a.toNat < s.cfg.flashSize) :
    Runs (progRead s.cfg a m) s (At (Link.afterReadOut s.cfg a m.toNat { s.link with report := .bytes [] }) s) := by
  obtain ⟨-, -, hsize⟩ := Config.ok_flash hok
  refine (runs_openReport o.ready.busy).append fun t ht => ?_
  have hcfg : t.cfg = s.cfg := ht.base.cfg
  have hread := runs_readOut (a := a) (s := t) (ht.open o o.cs o.phase o.wip rfl) (hcfg ▸ hok) (hcfg ▸ hsize) (hcfg ▸ ha)
    m.toNat
  rw [hcfg, ht.link] at hread
  exact hread.weaken fun u hu => ht.trans hu

/-- RDSR (rule R148), whatever is under way in the device. -/
theorem runs_progRdsr {m : BitVec 32} {s : State} (r : Ready s) (hcs : s.sh.cs = false) (hph : s.fl.phase = .idle)
    (hok : s.cfg.ok = true) :
    Runs (progRdsr s.cfg m) s fun u => ∃ sent : List Byte, sent.length = m.toNat ∧ (∀ b ∈ sent, StatusOf s.cfg s.fl b) ∧
      At (Link.afterStatus s.cfg sent { s.link with report := .bytes [] }) s u := by
  refine (runs_openReport r.busy).append fun t ht => ?_
  have hcfg : t.cfg = s.cfg := ht.base.cfg
  have hfl : t.fl = s.fl := ht.fl
  have hrdsr := runs_rdsr (s := t) (ht.ready r rfl) (ht.cs.trans hcs) (hfl ▸ hph) (hcfg ▸ hok) m
  rw [hcfg, hfl, ht.link] at hrdsr
  refine hrdsr.weaken fun u hu => ?_
  obtain ⟨sent, hlen, hstatus, hu⟩ := hu
  exact ⟨sent, hlen, hstatus, ht.trans hu⟩

/-- The last of the bytes a READ frame sends (rules R147, R302). -/
theorem Flash.getLastD_bytesFrom (c : Config) (f : Flash) (a : FlashAddr) {m : Nat} (hm : m ≠ 0) (x : Byte) :
    (f.bytesFrom c a m).getLastD x = f.mem.read ((a.toNat + (m - 1)) % c.flashSize) := by
  obtain ⟨n, rfl⟩ := Nat.exists_eq_succ_of_ne_zero hm
  rw [Nat.succ_eq_add_one, Flash.bytesFrom_succ, List.getLastD_concat, Nat.add_sub_cancel]

/-- Settles O22: the frame hands back `bytesFrom`, and closing it does nothing. -/
theorem readFrame : Obligations.ReadFrame := by
  intro s a m hbus hcalm hok hcs hph hw ha
  have o := Open.of_onBus hbus hcalm hcs hph hw
  obtain ⟨-, hlow, hhigh⟩ := Config.ok_flash hok
  obtain ⟨t, ht, u, h, rfl⟩ :=
    launch_of_runs hbus.1 (runs_progRead (m := m) (o.begin (.instr (.read a m))) hok ha)
  have hfl : u.fl = s.fl.afterRead s.cfg a m.toNat := h.fl
  have hready : u.sh.rxReady = (s.sh.rxReady || decide (m.toNat ≠ 0)) := h.rxReady
  have hheld : u.sh.rxdHeld = (s.sh.rxdHeld || decide (m.toNat ≠ 0)) := h.held
  refine ⟨u.finish, ht, h.frameClosed hbus.1 ⟨rfl, rfl, rfl, rfl, rfl, rfl, rfl⟩,
    ⟨(congrArg Flash.wel hfl :), (congrArg Flash.wip hfl :), (congrArg Flash.pending hfl :)⟩, ?_, ?_, fun hm => ?_,
    fun hm => ?_⟩
  · exact h.report.trans (Report.foldl_add [] _)
  · exact (congrArg (·.addr.toNat) hfl).trans (flashAddrAfter_toNat hhigh (by omega) a m.toNat)
  · subst hm
    exact ⟨h.rxd, hready.trans (Bool.or_false _), hheld.trans (Bool.or_false _)⟩
  · have hlen : m.toNat ≠ 0 := fun h0 => hm (BitVec.eq_of_toNat_eq h0)
    rw [decide_eq_true hlen, Bool.or_true] at hready hheld
    exact ⟨h.rxd.trans (Flash.getLastD_bytesFrom s.cfg s.fl a hlen _), hready, hheld⟩

/-- Settles O23: each byte handed back is a status byte of the device as it was, which shows WIP and WEL. -/
theorem statusFrame : Obligations.StatusFrame := by
  intro s m hbus hcalm hok hcs hph
  have r := (Ready.of_onBus hbus hcalm).begin (.instr (.rdsr m))
  obtain ⟨t, ht, u, ⟨sent, hlen, hstatus, h⟩, rfl⟩ := launch_of_runs hbus.1 (runs_progRdsr (m := m) r hcs hph hok)
  refine ⟨u.finish, sent, ht, h.frameClosed hbus.1 ⟨rfl, rfl, rfl, rfl, rfl, rfl, rfl⟩,
    ⟨(congrArg Flash.wel h.fl :), (congrArg Flash.wip h.fl :), (congrArg Flash.pending h.fl :)⟩,
    h.report.trans (Report.foldl_add [] sent), hlen, fun b hb => ?_⟩
  obtain ⟨free, rfl⟩ := hstatus b hb
  exact statusByte_shows hok s.fl free

end Sys2Proof.Machine
end

section
/-! While an erase or program is under way the device answers status reads only (rules R142, R152, R312): WREN, WRDI and CMD1
are refused for their first condition, every other frame when its first byte is to be sent. -/

namespace Sys2Proof.Machine

/-! ## The first byte of a frame -/

/-- A command byte other than RDSR is not sent to a busy device (rule R152). -/
theorem sendRefusal_of_busy {s : State} {b : Byte} (hr : s.ctx.ready = true) (ht : s.canTransfer = true)
    (hb : s.sh.busy = false) (hcs : s.sh.cs = true) (hports : s.portsFit = true) (hph : s.fl.phase = .cmd)
    (hw : s.fl.wip = true) (hk : b ≠ s.cfg.cmdRdsr) : sendRefusal b s = some .deviceBusy := by
  obtain ⟨hout, -, -, hstat, -⟩ := portsFit_all hports
  rw [sendRefusal, busRefusal_of_free hr ht hb hcs (by simp [hout, hstat])]
  simp [hph, hw, State.statusByteNext, hk]

/-- CMD1 and what is sent as CMD1, whatever its byte (rule R312; log 20). -/
theorem needRefusal_writable_of_busy {s : State} (hr : s.ctx.ready = true) (ht : s.canTransfer = true)
    (hcs : s.sh.cs = false) (hw : s.fl.wip = true) : needRefusal .writable s = some .deviceBusy := by
  simp [needRefusal, readyAnd, modeCsWip, hr, State.canTransfer_mode ht, hcs, hw]

/-- No frame is a read of a port: each format answers an operation or a rejection (rule R94). -/
theorem decodeFrame_ne_portRead (c : Config) (host : List Byte) (reads : BitVec 32) (p : ReadablePort) :
    decodeFrame c host reads ≠ .portRead p := by
  intro h
  cases host with
  | nil => cases h
  | cons k rest =>
    simp only [decodeFrame, decodeBare, decodeReadFrame, decodeStatusFrame, decodeEraseFrame, decodeProgramFrame] at h
    repeat' split at h
    all_goals cases h

/-- A part that goes on, then one that is refused. -/
theorem Runs.refuse {as bs : List Micro} {s : State} {P : State → Prop} {r : Refusal} (h : Runs as s P)
    (k : ∀ t, P t → runSeq bs t = .refuse r) : runSeq (as ++ bs) s = .refuse r := by
  obtain ⟨t, ht, hp⟩ := h
  rw [runSeq_append, ht, Res.andThen_go, k t hp]

/-- A frame may be opened, but an erase or a program is under way. -/
structure OpenBusy (s : State) : Prop where
  ready : Ready s
  cs    : s.sh.cs = false
  phase : s.fl.phase = .idle
  wip   : s.fl.wip = true

section
variable {k : Byte} {ms : List Micro} {s : State}

/-- The device is selected, and the first byte refused. -/
theorem OpenBusy.runSeq_frame (o : OpenBusy s) (hk : k ≠ s.cfg.cmdRdsr) {mark : List Micro}
    (hmark : ∀ m ∈ mark, m.isQuiet = true) : runSeq ([.csEn] ++ mark ++ .out (.lit k) :: ms) s = .refuse .deviceBusy := by
  have hopened : Runs ([.csEn] ++ mark) s (At { s.link with cs := true, csn := false, fl := s.fl.opened } s) :=
    (runs_csEn o.ready o.cs o.phase).append fun t ht => (runs_quiet hmark t).weaken fun u hu => ht.quiet hu
  refine hopened.refuse fun t ht => ?_
  have hfl : t.fl = s.fl.opened := ht.fl
  have r : Ready t := ht.ready o.ready rfl
  have hbusy : (Opening.send k).refusal t = some .deviceBusy :=
    sendRefusal_of_busy r.ready r.transfer r.busy ht.cs r.ports (congrArg Flash.phase hfl)
      ((congrArg Flash.wip hfl).trans o.wip) (ht.base.cfg ▸ hk)
  exact runSeq_of_refuse (Opening.tick_of_refusal r.calm.pauses ⟨.inl r.busy, r.calm.atOnce.2⟩ hbusy)

/-- The same as a whole operation: READ and raw frames start the list of bytes they hand back before. -/
theorem OpenBusy.launch_frame (o : OpenBusy s) (h0 : s.seq.op = none) (hk : k ≠ s.cfg.cmdRdsr) (op : Operation)
    {pre mark : List Micro} (hpre : pre = [] ∨ pre = openReport) (hmark : ∀ m ∈ mark, m.isQuiet = true) :
    launch op (pre ++ ([.csEn] ++ mark ++ .out (.lit k) :: ms)) s = .refused .deviceBusy := by
  have o' : OpenBusy (s.begin op) := ⟨o.ready.begin op, o.cs, o.phase, o.wip⟩
  have hrun : runSeq (pre ++ ([.csEn] ++ mark ++ .out (.lit k) :: ms)) (s.begin op) = .refuse .deviceBusy := by
    rcases hpre with rfl | rfl
    · exact o'.runSeq_frame hk hmark
    · refine (runs_openReport o'.ready.busy).refuse fun t ht => ?_
      have hfl : t.fl = s.fl := ht.fl
      have ot : OpenBusy t := ⟨ht.ready o'.ready rfl, ht.cs.trans o.cs, hfl ▸ o.phase, hfl ▸ o.wip⟩
      exact ot.runSeq_frame (ht.base.cfg ▸ hk) hmark
  rw [launch, if_pos h0, hrun, settle]

/-! ## The frames, by name and spelled out -/

variable (o : OpenBusy s) (h0 : s.seq.op = none)
include o h0

/-- What asks for WIP = 0 before anything else (rule R312). -/
theorem OpenBusy.exec_writable {i : Instr} (hi : openingOf i = .need .writable) : exec i s = .refused .deviceBusy := by
  refine exec_of_refusal h0 o.ready.calm.pauses ⟨.inl o.ready.busy, o.ready.calm.atOnce.2⟩ ?_
  rw [hi]
  exact needRefusal_writable_of_busy o.ready.ready o.ready.transfer o.cs o.wip

theorem OpenBusy.exec_read (hok : s.cfg.ok = true) (a : FlashAddr) (m : BitVec 32) :
    exec (.read a m) s = .refused .deviceBusy := by
  obtain ⟨-, -, -, -, hReadRdsr, -⟩ := Config.ok_commands hok
  exact o.launch_frame h0 hReadRdsr (.instr (.read a m)) (mark := []) (.inr rfl) nofun

theorem OpenBusy.exec_se (hok : s.cfg.ok = true) (a : FlashAddr) : exec (.se a) s = .refused .deviceBusy := by
  obtain ⟨-, -, -, -, -, -, -, -, -, -, -, hSeRdsr, -⟩ := Config.ok_commands hok
  exact o.launch_frame h0 hSeRdsr (.instr (.se a)) (mark := []) (.inl rfl) nofun

theorem OpenBusy.exec_pp (hok : s.cfg.ok = true) (a : FlashAddr) (d : List Byte) :
    exec (.pp a d) s = .refused .deviceBusy := by
  obtain ⟨-, -, -, -, -, -, -, -, hPpRdsr, -⟩ := Config.ok_commands hok
  exact o.launch_frame h0 hPpRdsr (.instr (.pp a d)) (mark := []) (.inl rfl) nofun

theorem OpenBusy.execRawFrame (hk : k ≠ s.cfg.cmdRdsr) (rest : List Byte) (m : BitVec 32) :
    Machine.execRawFrame (k :: rest) m s = .refused .deviceBusy :=
  o.launch_frame h0 hk (.rawFrame (k :: rest) m) (mark := [.push 0]) (.inr rfl) (by simp [Micro.isQuiet])

/-- An operation that is spelled out as a frame, and is not a status read. -/
theorem OpenBusy.exec_frame (hok : s.cfg.ok = true) (hk : k ≠ s.cfg.cmdRdsr) {i : Instr} {rest : List Byte}
    {m : BitVec 32} (hi : encode s.cfg i = .frame (k :: rest) m) : exec i s = .refused .deviceBusy := by
  cases i with
  | wren | wrdi => exact o.exec_writable h0 rfl
  | read a n => exact o.exec_read h0 hok a n
  | se a => exact o.exec_se h0 hok a
  | pp a d => exact o.exec_pp h0 hok a d
  | rdsr n => cases hi; exact absurd rfl hk
  | _ => cases hi

/-- A frame that decodes is what it decodes to, and any other goes out as it is (rules R93, R102). -/
theorem OpenBusy.runRequest_frame (hok : s.cfg.ok = true) (hk : k ≠ s.cfg.cmdRdsr) (rest : List Byte) (m : BitVec 32) :
    runRequest (.frame (k :: rest) m) s = .refused .deviceBusy := by
  cases hd : decodeFrame s.cfg (k :: rest) m with
  | instr i =>
    have hexec := o.exec_frame h0 hok hk (decodeFrame_encoded hd).2
    exact (runRequest_of_decode (r := .frame (k :: rest) m) hd).trans hexec
  | portRead p => exact absurd hd (decodeFrame_ne_portRead _ _ _ p)
  | reject e => exact (runRequest_frame_of_reject hd).trans (o.execRawFrame h0 hk rest m)

end

/-- Settles O52: the frames sent as CMD1 are refused for their condition, the others at their first byte, and what HOST spells
out is one of the frames or goes out as it is. -/
theorem busyDeviceAcceptsOnlyStatusReads : Obligations.BusyDeviceAcceptsOnlyStatusReads := by
  refine ⟨fun s hbus hcalm hok hcs hph hw => ?_, fun s b hbus hcs hph hw hb hpause hint => ?_⟩
  · have o : OpenBusy s := ⟨.of_onBus hbus hcalm, hcs, hph, hw⟩
    have h0 : s.seq.op = none := hbus.1
    exact ⟨o.exec_writable h0 rfl, o.exec_writable h0 rfl, o.exec_read h0 hok, o.exec_se h0 hok, o.exec_pp h0 hok,
      fun _ => o.exec_writable h0 rfl, fun _ rest m hk => o.runRequest_frame h0 hok hk rest m⟩
  · obtain ⟨h0, hready, htransfer, hbusy, hports⟩ := hbus
    exact exec_of_refusal h0 hpause ⟨.inl hbusy, .inr hint⟩
      (sendRefusal_of_busy hready htransfer hbusy hcs hports hph hw hb)

end Sys2Proof.Machine
end

section
/-! Starting an engine operation (rules R170 to R172, R179, R247): the two ends of the writable-mode bracket as operations
of their own, and what refuses each of the others before its first step. -/

namespace Sys2Proof.Machine

/-! ## WRITABLE_ENTER and WRITABLE_EXIT -/

/-- Where the mode may be switched from `m`, SHIFT prompt: what rules R171, R172 and R312 ask. -/
structure MaySwitch (m : Mode) (s : State) : Prop where
  calm  : s.calm
  ready : s.ctx.ready = true
  mode  : s.ctx.mode = m
  cs    : s.sh.cs = false
  wip   : s.fl.wip = false
  busy  : s.sh.busy = false
  port  : s.portFits s.cfg.regCtrl = true

/-- The state after WRITABLE_ENTER, SEQ past its four micro-actions (rule R171). -/
def State.entered (s : State) : State :=
  { s with
    chip := { s.chip with wp := unlockedWp s.cfg s.chip.wp }
    sh := { s.sh with ctrl := s.cfg.ctrlXfer }
    ctx := { s.ctx with mode := .isWritable }
    seq := { s.seq with pc := s.seq.pc + 3, pos := s.seq.pos + 4, word := clip s.cfg.wpReg.width s.chip.wp }
    trace := .portOut (s.port s.cfg.regCtrl) s.cfg.ctrlXfer :: .cfgWrite s.cfg.wpReg (unlockedWp s.cfg s.chip.wp)
      :: .cfgRead s.cfg.wpReg (clip s.cfg.wpReg.width s.chip.wp) :: s.trace }

/-- The state after WRITABLE_EXIT, SEQ past its four micro-actions (rule R172). -/
def State.exited (s : State) : State :=
  { s with
    chip := { s.chip with wp := Machine.lockedWp s.cfg s.chip.wp }
    sh := { s.sh with ctrl := s.cfg.ctrlIdle }
    ctx := { s.ctx with mode := .isProtected }
    seq := { s.seq with pc := s.seq.pc + 3, pos := s.seq.pos + 4, word := clip s.cfg.wpReg.width s.chip.wp }
    trace := .cfgWrite s.cfg.wpReg (Machine.lockedWp s.cfg s.chip.wp)
      :: .cfgRead s.cfg.wpReg (clip s.cfg.wpReg.width s.chip.wp)
      :: .portOut (s.port s.cfg.regCtrl) s.cfg.ctrlIdle :: s.trace }

section
variable {m : Mode} {s : State} (w : MaySwitch m s)
include w

/-- What SEQ notes when it takes an operation up is in nobody's way. -/
theorem MaySwitch.begin (o : Operation) : MaySwitch m (s.begin o) :=
  ⟨w.calm, w.ready, w.mode, w.cs, w.wip, w.busy, w.port⟩

end

section
variable {s : State}

theorem runs_seqEnter (w : MaySwitch .isProtected s) : Runs seqEnter s (· = s.entered) := by
  have hneed : needRefusal .enter s = none := by
    simp [needRefusal, readyAnd, modeCsWip, firstRefusal, portRefusal, w.ready, w.mode, w.cs, w.wip, w.port]
  refine (runs_need hneed).append (bs := [.readWp, .writeWp true, .control true]) fun t ht => ?_
  subst ht
  refine Runs.cons (tick_calm rfl (by exact w.calm) (by exact w.busy)) ?_
  refine Runs.cons (tick_calm rfl (by exact w.calm) (by exact w.busy)) ?_
  refine Runs.cons ((tick_calm rfl (by exact w.calm) (by exact w.busy)).trans (act_control true (by exact w.port))) ?_
  exact Runs.nil rfl

theorem runs_seqExit (w : MaySwitch .isWritable s) : Runs seqExit s (· = s.exited) := by
  have hneed : needRefusal .writable s = none := by
    simp [needRefusal, readyAnd, modeCsWip, w.ready, w.mode, w.cs, w.wip]
  refine (runs_need hneed).append (bs := [.control false, .readWp, .writeWp false]) fun t ht => ?_
  subst ht
  refine Runs.cons ((tick_calm rfl (by exact w.calm) (by exact w.busy)).trans (act_control false (by exact w.port))) ?_
  refine Runs.cons (tick_calm rfl (by exact w.calm) (by exact w.busy)) ?_
  exact Runs.cons (tick_calm rfl (by exact w.calm) (by exact w.busy)) (Runs.nil rfl)

end

/-- Settles O26: the three actions of WRITABLE_ENTER, on the state SEQ starts from. -/
theorem writableEnterOpens : Obligations.WritableEnterOpens := by
  intro s h0 hc hr hm hcs hw hb hp
  have w : MaySwitch .isProtected s := ⟨hc, hr, hm, hcs, hw, hb, hp⟩
  obtain ⟨_, ht, _, rfl, rfl⟩ := launch_of_runs h0 (runs_seqEnter (w.begin (.instr .writableEnter)))
  exact ht

/-- Settles O27: the three actions of WRITABLE_EXIT, on the state SEQ starts from. -/
theorem writableExitCloses : Obligations.WritableExitCloses := by
  intro s h0 hc hr hm hcs hw hb hp
  have w : MaySwitch .isWritable s := ⟨hc, hr, hm, hcs, hw, hb, hp⟩
  obtain ⟨_, ht, _, rfl, rfl⟩ := launch_of_runs h0 (runs_seqExit (w.begin (.instr .writableExit)))
  exact ht

/-! ## Outside the quiescent state -/

/-- ERR, drawn as an operation begins, enters no stated condition. -/
theorem needRefusal_begin (n : Need) (s : State) (o : Operation) : needRefusal n (s.begin o) = needRefusal n s :=
  (Opening.need n).refusal_congr (s := s) rfl rfl rfl rfl rfl

/-- A stated condition is asked before any turn, so nothing else is needed for its refusal. -/
theorem launch_of_needRefusal {s : State} {n : Need} {r : Refusal} (h0 : s.seq.op = none) (h : needRefusal n s = some r)
    (o : Operation) (ms : List Micro) : launch o (.need n :: ms) s = .refused r := by
  have hn : (Opening.need n).refusal (s.begin o) = some r := (needRefusal_begin n s o).trans h
  have htick : tick (.need n) (s.begin o) = .refuse r := by
    rw [tick_of_internal rfl]
    exact Opening.act_of_refusal hn
  rw [launch, if_pos h0, runSeq_of_refuse htick, settle]

/-- Settles O51: each of the six asks for the quiescent state first, a WRITE_DATA whether it is long or not. -/
theorem engineNeedsTheQuiescentState : Obligations.EngineNeedsTheQuiescentState := by
  intro s h0 hr hq
  have hadmitted : needRefusal .admitted s = some .notQuiescent := by simp [needRefusal, readyAnd, hr, hq]
  have hengine : needRefusal .engine s = some .notQuiescent := by simp [needRefusal, readyAnd, hr, hq]
  have refuse := launch_of_needRefusal h0 hengine
  refine ⟨fun a => refuse _ _, fun a => refuse _ _, fun sector dest => refuse _ _, fun a => refuse _ _,
    fun a p n => ?_, fun sector src => refuse _ _⟩
  show launch _ (progWriteData s a p n) s = _
  unfold progWriteData
  split
  · exact launch_of_needRefusal h0 hadmitted _ _
  · exact refuse _ _

/-! ## The conditions on the operands -/

/-- A condition on the operands, with the refusal where it fails, as a micro-action. -/
def checkOf (c : Bool × Refusal) : Micro := .check c.1 c.2

/-- What a caller's buffer must be (`bufferChecks`). -/
def bufferConditions (s : State) (a : Nat) : List (Bool × Refusal) :=
  [(!pastHostEnd a sectorSize, .bufferRange), (!(hitsStage s a sectorSize || hitsScratch s a sectorSize), .bufferOverlap)]

/-- What the source of a WRITE_DATA must be (`sourceChecks`). -/
def sourceConditions (s : State) (p n : Nat) : List (Bool × Refusal) :=
  [(!pastHostEnd p n, .bufferRange), (hostCovers s p n, .hostUnmapped), (hostReaches s p n, .outsideWindow),
    (!(hitsStage s p n || hitsScratch s p n), .bufferOverlap)]

/-- The conditions of an engine operation on its operands, in the order of rule R247. -/
def operandConditions (s : State) : Instr → List (Bool × Refusal)
  | .readByte a | .eraseBlock a => [(decide (a.toNat < s.cfg.flashSize), .flashRange)]
  | .readBurst a => [(decide (a.toNat + burstSize ≤ s.cfg.flashSize), .flashRange)]
  | .readSector sector dest => (sectorFits s.cfg sector.toNat, .flashRange) :: bufferConditions s dest.toNat
  | .writeData a p n =>
    (decide (n.toNat ≠ 0), .emptyWrite) :: (decide (a.toNat % pageLimit + n.toNat ≤ pageLimit), .pageCross)
      :: (decide (a.toNat + n.toNat ≤ s.cfg.flashSize), .flashRange) :: sourceConditions s p.toNat n.toNat
  | .writeSector sector src =>
    (sectorFits s.cfg sector.toNat, .flashRange) :: (s.ctx.scratch.isSome, .noScratch) :: bufferConditions s src.toNat
  | _ => []

/-- What an engine operation does once its conditions hold. -/
def engineBody (s : State) : Instr → List Micro
  | .readByte a => seqEnter ++ addressedFrame s.cfg.cmdRead a (takeByte .caller) ++ seqExit
  | .readBurst a => seqReadBurst s.cfg a.toNat
  | .readSector sector dest => seqReadSector s.cfg sector.toNat dest.toNat ++ [.report .ok]
  | .eraseBlock a => seqEraseBlock s.cfg a.toNat
  | .writeData a p n => seqWriteData s.cfg a.toNat p.toNat n.toNat ++ [.report .ok]
  | .writeSector sector src => seqWriteSector s.cfg (scratchAddr s) sector.toNat src.toNat ++ [.report .ok]
  | _ => []

/-- Admission, the conditions, then the rest: the form of all six engine operations (rules R170, R179, R247). -/
theorem exec_engine {i : Instr} (hi : openingOf i = .need .engine) (s : State) :
    exec i s = launch (.instr i) ([.need .engine] ++ (operandConditions s i).map checkOf ++ engineBody s i) s := by
  cases i with
  | readByte a => show launch _ (progReadByte s.cfg a) s = _; rfl
  | readBurst a => show launch _ (progReadBurst s.cfg a) s = _; rfl
  | eraseBlock a => show launch _ (progEraseBlock s.cfg a) s = _; rfl
  | readSector sector dest =>
    show launch _ (progReadSector s sector dest) s = _
    simp [progReadSector, checkedReadSector, bufferChecks, operandConditions, bufferConditions, checkOf, engineBody]
  | writeSector sector src =>
    show launch _ (progWriteSector s sector src) s = _
    simp [progWriteSector, checkedWriteSector, bufferChecks, operandConditions, bufferConditions, checkOf, engineBody]
  | writeData a p n =>
    have hn : ¬ pageLimit < n.toNat := fun hlong => by simp [openingOf, hlong] at hi
    show launch _ (progWriteData s a p n) s = _
    rw [progWriteData, if_neg hn]
    rfl
  | _ => cases hi

theorem needRefusal_engine {s : State} (hs : s.atEngine) : needRefusal .engine s = none := by
  obtain ⟨-, hready, hquiet, hports, -⟩ := hs
  simp [needRefusal, readyAnd, hready, hquiet, portRefusal, hports]

/-- The first condition that fails is the one that refuses. -/
theorem runSeq_failedCheck {cs : List (Bool × Refusal)} {c : Bool × Refusal} (h : cs.find? (fun c => !c.1) = some c)
    (ms : List Micro) (s : State) : runSeq (cs.map checkOf ++ ms) s = .refuse c.2 := by
  induction cs generalizing s with
  | nil => cases h
  | cons d cs ih =>
    obtain ⟨held, r⟩ := d
    rw [List.map_cons, List.cons_append, runSeq_cons, tick_of_internal rfl]
    cases held with
    | true => exact ih h _
    | false => cases h; rfl

/-- Admitted, but one of its conditions fails (rule R247). -/
theorem exec_of_failedCondition {s : State} {i : Instr} {c : Bool × Refusal} (hs : s.atEngine)
    (hi : openingOf i = .need .engine) (h : (operandConditions s i).find? (fun c => !c.1) = some c) :
    exec i s = .refused c.2 := by
  have hneed := (needRefusal_begin .engine s (.instr i)).trans (needRefusal_engine hs)
  have hrun := (runs_need hneed).refuse fun t _ => runSeq_failedCheck h (engineBody s i) t
  rw [exec_engine hi, launch, if_pos hs.1, List.append_assoc, hrun, settle]

/-- A WRITE_DATA of at most 256 bytes is an engine operation that goes on to the ports. -/
theorem openingOf_writeData {a : FlashAddr} {p : HostAddr} {n : BitVec 9} (h : n.toNat ≤ 256) :
    openingOf (.writeData a p n) = .need .engine := by
  simp [openingOf, pageLimit, Nat.not_lt.2 h]

section
variable {s : State} (hs : s.atEngine)
include hs

/-- WRITE_DATA inside a page and the array: its source decides (rules R32, R33, R38, R44, R178, R310). -/
theorem exec_writeData_of_source {a : FlashAddr} {p : HostAddr} {n : BitVec 9} {c : Bool × Refusal} (h0 : n ≠ 0)
    (hpage : a.toNat % 256 + n.toNat ≤ 256) (hrange : a.toNat + n.toNat ≤ s.cfg.flashSize)
    (h : (sourceConditions s p.toNat n.toNat).find? (fun c => !c.1) = some c) :
    exec (.writeData a p n) s = .refused c.2 := by
  have hn : n.toNat ≠ 0 := fun e => h0 (BitVec.eq_of_toNat_eq e)
  refine exec_of_failedCondition hs (openingOf_writeData (by omega)) ?_
  simpa [operandConditions, hn, pageLimit, hpage, hrange] using h

/-- READ_SECTOR and WRITE_SECTOR inside the array, SCRATCH allocated: the caller's buffer decides (rules R64, R176, R202,
R232). -/
theorem exec_sector_of_buffer {sector : FlashAddr} {buf : HostAddr} {c : Bool × Refusal}
    (hfit : 512 * sector.toNat + 512 ≤ s.cfg.flashSize) (hscratch : s.ctx.scratch.isSome = true)
    (h : (bufferConditions s buf.toNat).find? (fun c => !c.1) = some c) :
    exec (.readSector sector buf) s = .refused c.2 ∧ exec (.writeSector sector buf) s = .refused c.2 := by
  have hsector : sectorFits s.cfg sector.toNat = true := decide_eq_true hfit
  constructor <;> refine exec_of_failedCondition hs rfl ?_ <;> simpa [operandConditions, hsector, hscratch] using h

end

/-- Settles O37: of each list of conditions the first that fails; an address inside the array has 24 bits because the array
has at most 2^24 bytes. -/
theorem engineOperandRefusals : Obligations.EngineOperandRefusals := by
  intro s hs
  have range {i : Instr} (hi : openingOf i = .need .engine)
      (h : (operandConditions s i).find? (fun c => !c.1) = some (false, .flashRange)) : exec i s = .refused .flashRange :=
    exec_of_failedCondition hs hi h
  have noSector {sector : FlashAddr} (h : ¬ 512 * sector.toNat + 512 ≤ s.cfg.flashSize) :
      sectorFits s.cfg sector.toNat = false := decide_eq_false h
  have longBurst {a : FlashAddr} (h : ¬ a.toNat + 128 ≤ s.cfg.flashSize) : ¬ a.toNat + burstSize ≤ s.cfg.flashSize := h
  have past {p n : Nat} (h : 2 ^ 32 < p + n) : pastHostEnd p n = true := decide_eq_true h
  have inside {p n : Nat} (h : p + n ≤ 2 ^ 32) : pastHostEnd p n = false := decide_eq_false (Nat.not_lt.2 h)
  have overlap {p n : Nat} (h : hitsStage s p n = true ∨ hitsScratch s p n = true) :
      (hitsStage s p n || hitsScratch s p n) = true := (Bool.or_eq_true _ _).mpr h
  refine ⟨fun a h => range rfl (by simpa [operandConditions] using h),
    fun a h => range rfl (by simp [operandConditions, longBurst h]),
    fun sector dest h => range rfl (by simp [operandConditions, noSector h]),
    fun sector src h => range rfl (by simp [operandConditions, noSector h]),
    fun a h => range rfl (by simpa [operandConditions] using h),
    fun a p => exec_of_failedCondition hs rfl (c := (false, .emptyWrite)) rfl,
    fun a p n hn h0 hcross => ?_, fun a p n h0 hpage hrange => ?_, fun a p n h0 hpage hrange => ⟨fun hend => ?_,
      fun hend => ⟨fun hcov => ?_, fun hcov hreach => ?_, fun hreach hhit => ?_⟩⟩,
    fun sector buf hfit hscratch => ⟨fun hend => ?_, fun hend hhit => ?_⟩, fun x hx => ?_⟩
  · have hn0 : n.toNat ≠ 0 := fun e => h0 (BitVec.eq_of_toNat_eq e)
    have hpage : ¬ a.toNat % pageLimit + n.toNat ≤ pageLimit := Nat.not_le.2 hcross
    refine exec_of_failedCondition hs (openingOf_writeData hn) (c := (false, .pageCross)) ?_
    simp [operandConditions, hn0, hpage]
  · have hn0 : n.toNat ≠ 0 := fun e => h0 (BitVec.eq_of_toNat_eq e)
    refine exec_of_failedCondition hs (openingOf_writeData (by omega)) (c := (false, .flashRange)) ?_
    simp [operandConditions, hn0, pageLimit, hpage, hrange]
  · refine exec_writeData_of_source hs h0 hpage hrange (c := (false, .bufferRange)) ?_
    simp [sourceConditions, past hend]
  · refine exec_writeData_of_source hs h0 hpage hrange (c := (false, .hostUnmapped)) ?_
    simp [sourceConditions, inside hend, hcov]
  · refine exec_writeData_of_source hs h0 hpage hrange (c := (false, .outsideWindow)) ?_
    simp [sourceConditions, inside hend, hcov, hreach]
  · refine exec_writeData_of_source hs h0 hpage hrange (c := (false, .bufferOverlap)) ?_
    simp [sourceConditions, inside hend, hostCovers_of_reaches hreach, hreach, overlap hhit]
  · refine exec_sector_of_buffer hs hfit hscratch (c := (false, .bufferRange)) ?_
    simp [bufferConditions, sectorSize, past hend]
  · refine exec_sector_of_buffer hs hfit hscratch (c := (false, .bufferOverlap)) ?_
    simp [bufferConditions, sectorSize, inside hend, overlap hhit]
  · obtain ⟨-, -, -, -, hok⟩ := hs
    obtain ⟨-, -, hsize⟩ := Config.ok_flash hok
    exact Nat.mod_eq_of_lt (by omega)

end Sys2Proof.Machine
end

section
/-! The engine operations that complete (rules R170, R174 to R178, R45): admission and the conditions cost nothing but SEQ's
own notes, the rest runs from rest to rest, and what is left is to read off what it did. -/

namespace Sys2Proof.Machine

/-! ## From the request to rest -/

theorem State.atEngine.rest {s : State} (hs : s.atEngine) (hcalm : s.calm) (o : Operation) : Rest (s.begin o) := by
  obtain ⟨-, hready, hquiet, hports, hok⟩ := hs
  exact ⟨hcalm, hready, hquiet, hports, hok⟩

/-- Nothing is pending in the quiescent state, so no turn changes anything. -/
theorem State.atEngine.calm {s : State} (hs : s.atEngine) (hp : s.prompt) : s.calm := by
  obtain ⟨-, -, hquiet, -, -⟩ := hs
  obtain ⟨-, -, -, -, -, hpending, -⟩ := quiescent_fields hquiet
  exact hp.calm hpending

/-- An engine operation whose conditions hold is what its body does from a state at rest (rules R170, R247). -/
theorem exec_of_conditions {s : State} {i : Instr} {P : State → Prop} (hs : s.atEngine) (hcalm : s.calm)
    (hi : openingOf i = .need .engine) (hheld : ∀ c ∈ operandConditions s i, c.1 = true)
    (hbody : ∀ x, Rest ((s.begin (.instr i)).withSeq x) → Quiet (s.begin (.instr i)) ((s.begin (.instr i)).withSeq x) →
      Runs (engineBody s i) ((s.begin (.instr i)).withSeq x) P) :
    ∃ u, exec i s = .next u.finish ∧ P u := by
  have q := hs.rest hcalm (.instr i)
  have hchecks : ∀ m ∈ (operandConditions s i).map checkOf, ∃ r, m = .check true r := by
    intro m hm
    obtain ⟨c, hc, rfl⟩ := List.mem_map.1 hm
    exact ⟨c.2, by rw [checkOf, hheld c hc]⟩
  have hruns : Runs ([.need .engine] ++ (operandConditions s i).map checkOf ++ engineBody s i) (s.begin (.instr i)) P := by
    refine ((runs_needEngine q).append fun t ht => (runs_checks hchecks t).weaken fun _ => ht.trans).append fun t ht => ?_
    have qt := q.of_quiet ht
    rw [show t = _ from ht] at qt ⊢
    exact hbody _ qt rfl
  obtain ⟨_, ht, u, hu, rfl⟩ := launch_of_runs hs.1 hruns
  exact ⟨u, by rw [exec_engine hi, ht], hu⟩

/-- What an operation that ran from rest to rest leaves alone. -/
theorem Done.engineFrame {n : Nat} {m h : Memory} {r : Report} {s u : State} {o : Operation}
    (d : Done n m h r (s.begin o) u) : EngineFrame n s u.finish :=
  ⟨d.ctx, d.drive, d.cfg, d.chip, d.env, d.stage, d.scratch, d.quiet, rfl⟩

/-- The last thing an operation may do is report. -/
theorem Done.runs_report {n : Nat} {m h : Memory} {r : Report} {s t : State} (d : Done n m h r s t) (r' : Report) :
    Runs [.report r'] t (Done n m h r' s) :=
  Runs.cons (t := t.withReport r') rfl (Runs.nil
    ⟨d.mem, d.host, rfl, d.ctx, d.op, d.drive, d.cfg, d.chip, d.env, d.seqOp, d.quiet, d.stage, d.scratch⟩)

/-! ## READ_BYTE and READ_BURST -/

/-- Settles O31: READ_BYTE runs from rest to rest and reports the byte of the array. -/
theorem readByteReturnsTheByte : Obligations.ReadByteReturnsTheByte := by
  intro s a hs hcalm ha
  obtain ⟨u, hu, d⟩ := exec_of_conditions (i := .readByte a) (P := Done 0 s.fl.mem s.host (.bytes [s.fl.mem.read a.toNat])
    (s.begin (.instr (.readByte a)))) hs hcalm rfl (by simp [operandConditions, ha])
    fun x q hx => (runs_readByte q ha).weaken fun v d => d.before hx
  exact ⟨_, hu, d.engineFrame, d.op, d.report, d.mem, d.host⟩

/-- What is known of the state a run ends in, however the run was found. -/
theorem Runs.also {ms : List Micro} {s : State} {P Q : State → Prop} (h : Runs ms s P)
    (k : ∀ t, runSeq ms s = .go t → Q t) : Runs ms s fun t => P t ∧ Q t := by
  obtain ⟨t, ht, hp⟩ := h
  exact ⟨t, ht, hp, k t ht⟩

/-- After a burst STAGE holds a value (rule R44). -/
theorem filled_of_burst {a : Nat} {s t : State} (h : runSeq (seqReadBurst s.cfg a) s = .go t) : t.filled.stage = true := by
  rw [seqReadBurst, runSeq_append] at h
  cases hfirst : runSeq (seqEnter ++ addressedFrame s.cfg.cmdRead (toFlashAddr a)
      (forEach burstSize fun i => takeByte (.stage i)) ++ seqExit) s with
  | go v => rw [hfirst] at h; cases h; rfl
  | _ => rw [hfirst] at h; cases h

/-- Settles O32: a burst copies its flash bytes into STAGE and marks STAGE as filled. -/
theorem readBurstFillsStage : Obligations.ReadBurstFillsStage := by
  intro s a hs hcalm ha hreach
  have hburst : a.toNat + burstSize ≤ s.cfg.flashSize := ha
  obtain ⟨u, hu, d, hfilled⟩ := exec_of_conditions (i := .readBurst a)
    (P := fun u => Done 0 s.fl.mem (s.host.splice s.cfg.stage.toNat (s.fl.mem.readMany a.toNat burstSize)) .none
      (s.begin (.instr (.readBurst a))) u ∧ u.filled.stage = true)
    hs hcalm rfl (by simp [operandConditions, hburst])
    fun x q hx => ((runs_burst q ha hreach).weaken fun v d => d.before hx).also fun t => filled_of_burst
  refine ⟨_, hu, d.engineFrame, d.op, d.report, d.mem, hfilled, fun i hi => ?_, ?_⟩
  · have hlen : i < (s.fl.mem.readMany a.toNat burstSize).length := by rw [Memory.length_readMany]; exact hi
    calc u.finish.host.read (s.cfg.stage.toNat + i)
        = (s.fl.mem.readMany a.toNat burstSize)[i] := by
          rw [← Memory.read_splice_inside hlen, ← d.host]; rfl
      _ = s.fl.mem.read (a.toNat + i) := Memory.getElem_readMany _ _ _ _ hlen
  · have hout := s.host.splice_sameOutside s.cfg.stage.toNat (s.fl.mem.readMany a.toNat burstSize)
    rw [Memory.length_readMany, ← d.host] at hout
    exact hout

/-! ## READ_SECTOR -/

/-- Settles O33: four bursts relayed (`Relayed`), then the report. -/
theorem readSectorRelays : Obligations.ReadSectorRelays := by
  intro s sector dest hs hcalm hfit hreach hbuf
  have hsector : sectorFits s.cfg sector.toNat = true := decide_eq_true hfit
  obtain ⟨u, hu, h', hrelayed, d⟩ := exec_of_conditions (i := .readSector sector dest)
    (P := fun u => ∃ h', Relayed s.cfg.stage.toNat dest.toNat 4 s.copyOk
        (fun i => s.fl.mem.read (sectorAddr sector.toNat + i)) s.host h'
      ∧ Done 4 s.fl.mem h' .ok (s.begin (.instr (.readSector sector dest))) u)
    hs hcalm rfl (by simp [operandConditions, bufferConditions, sectorSize, hsector, hbuf.fits, hbuf.stage, hbuf.scratch])
    fun x q hx => (runs_readSector q hsector hreach hbuf.present hbuf.stage).append fun v hv =>
      let ⟨h', hrelayed, d⟩ := hv
      ((d.before hx).runs_report .ok).weaken fun w dw => ⟨h', hrelayed, dw⟩
  refine ⟨_, hu, d.engineFrame, d.op, d.report, d.mem, fun x hx hstage => ?_, fun j hj hok i hi => ?_⟩
  · rw [← hrelayed.outside x hx hstage, ← d.host]; rfl
  · exact (congrArg (·.read (dest.toNat + 128 * j + i)) d.host).trans (hrelayed.inside j hj hok i hi)

/-! ## ERASE_BLOCK and WRITE_DATA -/

/-- Settles O34: the block of the address is the one whose bytes an erase clears (`read_eraseBytes`). -/
theorem eraseBlockErases : Obligations.EraseBlockErases := by
  intro s a hs hp ha
  obtain ⟨u, hu, d⟩ := exec_of_conditions (i := .eraseBlock a)
    (P := Done 0 (eraseBytes s.cfg s.fl.mem (a.toNat / blockSize)) s.host .none (s.begin (.instr (.eraseBlock a))))
    hs (hs.calm hp) rfl (by simp [operandConditions, ha])
    fun x q hx => (runs_eraseBlock (by simp) q hp ha).weaken fun v d => d.before hx
  have read (x : Nat) := (congrArg (·.read x) d.mem).trans (read_eraseBytes s.cfg s.fl.mem (a.toNat / blockSize) x)
  have hblock : blockSize * (a.toNat / blockSize) = 4096 * (a.toNat / 4096) := rfl
  have hb : blockSize = 4096 := rfl
  refine ⟨_, hu, d.engineFrame, d.op, d.report, d.host, fun i hi => ?_, fun x hx => ?_⟩
  · exact (read _).trans (if_pos (by omega))
  · exact (read _).trans (if_neg (by omega))

/-- Settles O35: the bytes programmed lie at the range's addresses (`programmed`), and an erased byte takes the host's. -/
theorem writeDataPrograms : Obligations.WriteDataPrograms := by
  intro s a p n hs hp h1 hpage hrange hend hreach hstage hscratch
  have hn0 : n.toNat ≠ 0 := Nat.ne_of_gt h1
  have hpast : pastHostEnd p.toNat n.toNat = false := decide_eq_false (Nat.not_lt.2 hend)
  have hheld : ∀ c ∈ operandConditions s (.writeData a p n), c.1 = true := by
    simp [operandConditions, sourceConditions, hn0, pageLimit, hpage, hrange, hpast, hostCovers_of_reaches hreach, hreach,
      hstage, hscratch]
  obtain ⟨u, hu, k, d⟩ := exec_of_conditions (i := .writeData a p n)
    (P := fun u => ∃ k, Done 0 (s.fl.mem.splice a.toNat
        (programmed s.cfg.erasedByte s.fl.mem a.toNat k (s.host.readMany p.toNat n.toNat)))
      s.host .ok (s.begin (.instr (.writeData a p n))) u)
    hs (hs.calm hp) (openingOf_writeData (by omega)) hheld
    fun x q hx => (runs_writeData q hp hn0 hpage hrange hreach).append fun v hv =>
      let ⟨k, d⟩ := hv
      ((d.before hx).runs_report .ok).weaken fun w dw => ⟨k, dw⟩
  refine ⟨_, hu, d.engineFrame, d.op, d.report, d.host, fun i hi herased => ?_, ?_⟩
  · have hlen : i < (s.host.readMany p.toNat n.toNat).length := by simpa using hi
    calc u.finish.fl.mem.read (a.toNat + i)
        = (programmed s.cfg.erasedByte s.fl.mem a.toNat k (s.host.readMany p.toNat n.toNat))[i]'(by simpa using hi) := by
          rw [← Memory.read_splice_inside, ← d.mem]; rfl
      _ = (s.host.readMany p.toNat n.toNat)[i] := by rw [getElem_programmed hlen, if_pos herased]
      _ = s.host.read (p.toNat + i) := Memory.getElem_readMany _ _ _ _ hlen
  · have hout := s.fl.mem.splice_sameOutside a.toNat
      (programmed s.cfg.erasedByte s.fl.mem a.toNat k (s.host.readMany p.toNat n.toNat))
    rw [length_programmed, Memory.length_readMany, ← d.mem] at hout
    exact hout

end Sys2Proof.Machine
end

section
/-! WAIT_WIP that returns (rules R173, R153, R308): where SHIFT and FLASH_INT are prompt the first status frame sees
WIP = 0; under a fair schedule some later one does. -/

namespace Sys2Proof.Machine

/-- What was pending has completed: a device whose frame is closed is ready for the poll to end. -/
theorem Settled.of_complete {c : Config} {k : Nat} {f g : Flash} (hph : f.phase = .idle)
    (hpw : f.wip = true ↔ f.pending ≠ .none) (h : f.complete c k = .ok g) : Settled g := by
  obtain ⟨frame, hnone, hsame, hclear⟩ := Flash.complete_cases h
  refine ⟨?_, hnone, frame.phase.trans hph⟩
  by_cases hp : f.pending = .none
  · rw [hsame hp]
    exact Bool.eq_false_iff.2 fun hw => hpw.1 hw hp
  · exact hclear hp

theorem PollPlatform.of_onBus {s : State} (hbus : s.onBus) (hok : s.cfg.ok = true) : PollPlatform s := by
  obtain ⟨-, hready, htransfer, -, hports⟩ := hbus
  exact ⟨hready, htransfer, hports, hok⟩

/-- In the mode that may transfer, deselected, WAIT_WIP may poll (rule R312). -/
theorem PollPlatform.needRefusal {s : State} (p : PollPlatform s) (hcs : s.sh.cs = false) :
    Machine.needRefusal .poll s = none := by
  have htransfer := p.transfer
  simp only [State.canTransfer, Bool.and_eq_true, beq_iff_eq] at htransfer
  obtain ⟨⟨hmode, -⟩, -⟩ := htransfer
  simp [Machine.needRefusal, readyAnd, modeCsWip, p.ready, hmode, hcs]

/-- WAIT_WIP under a fair schedule, from the start of its micro-program. -/
theorem gets_waitWip_begin {s : State} (p : PollPlatform s) (hf : s.fair) (hfits : s.fl.Fits)
    (hpw : s.fl.wip = true ↔ s.fl.pending ≠ .none) (hcs : s.sh.cs = false) (hph : s.fl.phase = .idle)
    (hbusy : s.sh.busy = false) (hcsn : s.wire.csn = true) :
    ∃ u, Gets (seqWaitWip s.cfg) (s.begin (.instr .waitWip)) u ∧ InPoll (s.begin (.instr .waitWip)) u ∧ u.seq.pos = 9
      ∧ u.fl.wip = false := by
  have p0 : PollPlatform (s.begin (.instr .waitWip)) := ⟨p.ready, p.transfer, p.ports, p.ok⟩
  have htick : tick (.need .poll) (s.begin (.instr .waitWip)) = .go (s.begin (.instr .waitWip)) := by
    rw [tick_of_internal rfl]
    simp [act, guardBy, p0.needRefusal hcs]
  have hline : s.wire.csn = !s.sh.cs := by rw [hcsn, hcs]; rfl
  have hin : InPoll (s.begin (.instr .waitWip)) ((s.begin (.instr .waitWip)).advance (.need .poll)) :=
    ⟨⟨rfl, rfl, rfl, rfl, rfl, rfl, rfl, rfl, rfl, rfl, 0, rfl⟩, rfl, hline, Flash.Under.refl _ _, hcs, hph, hbusy⟩
  obtain ⟨u, hgets, hend⟩ := gets_waitWip p0 hf hfits hpw rfl hin (by show 1 ≤ 8; decide) (by show 1 ≠ 0; decide)
  exact ⟨u, .go rfl htick hgets, hend⟩

/-- Settles O28: with prompt agents the poll is one status frame of the completed device (`runs_wait`); under a fair
schedule `gets_waitWip` bounds the rounds, and WIP = 0 at the end means the completion has happened. -/
theorem waitWipReturns : Obligations.WaitWipReturns := by
  intro s g hbus hok hcs hph hpw hg
  have hfits := Flash.fits_of_complete hg
  have p := PollPlatform.of_onBus hbus hok
  obtain ⟨h0, -, -, hbusy, -⟩ := hbus
  refine ⟨fun hprompt => ?_, fun hfair hcsn hreset => ?_⟩
  · obtain ⟨g', hg'⟩ := hfits.completes s.cfg (s.begin (.instr .waitWip)).draws
    have hsettled := Settled.of_complete hph hpw hg'
    obtain ⟨t, ht, u, ⟨v, -, h⟩, rfl⟩ := launch_of_runs h0 (runs_wait (s := s.begin (.instr .waitWip)) hprompt p.ready
      p.transfer hbusy hcs p.ports hok hg' hsettled)
    have hfl : u.fl = { g'.after s.cfg.cmdRdsr with sentWip := false } := h.fl
    have hmem : u.fl.mem = g'.mem := by rw [hfl]; rfl
    have hwel : u.fl.wel = g'.wel := by rw [hfl]; rfl
    refine ⟨_, g', _, ht, h.base.platform_finish h0 h.host, h.report, hg', hmem, hwel,
      (congrArg Flash.wip hfl).trans hsettled.wip, (congrArg Flash.pending hfl).trans hsettled.pending,
      congrArg Flash.phase hfl, h.cs, h.csn, h.busy, h.txd⟩
  · obtain ⟨u, hgets, hin, hpos, hwip⟩ := gets_waitWip_begin p hfair hfits hpw hcs hph hbusy hcsn
    obtain ⟨r, n, hr, hn⟩ := launch_of_gets hgets h0 hreset fun x hx => by rw [← hx]; rfl
    obtain ⟨k, g', hg', hsame, hnone⟩ := hin.under.completed hpw hwip
    obtain ⟨j, henv⟩ := hin.waited.env
    have hstands := hin.stands
    rw [hpos] at hstands
    obtain ⟨hdeselected, htxd, hidle, hphase, -⟩ := hstands
    have hline : u.wire.csn = true := by rw [hin.line, hdeselected]; rfl
    exact ⟨r, n, u.finish, j, k, g', hr, hn, rfl, henv, hin.waited.platform_finish h0 hin.ctrl, hin.waited.report, hg',
      hsame.mem, hsame.wel, hwip, hnone, hphase, hdeselected, hline, hidle, htxd⟩

end Sys2Proof.Machine
end

section
/-! WAIT_WIP that never returns (rules R153, R173, R245): while WIP = 1 and FLASH_INT is dead, each step of the machine sends
one status frame, reads SR_WIP set, and is back at the head of the loop. -/

namespace Sys2Proof.Machine

/-! ## What a frame shows on the bus -/

/-- What an action of a frame shows on the bus, from `s` to `t`. -/
def Micro.busEvent (s t : State) : Micro → Option Event
  | .csEn => some (.portOut (s.port s.cfg.regCs) s.cfg.csAssert)
  | .csDis => some (.portOut (s.port s.cfg.regCs) s.cfg.csDeassert)
  | .out (.lit b) => some (.portOut (s.port s.cfg.regOut) b)
  | .strobe => some (.portOut (s.port s.cfg.regIn) 0)
  | .pollTx | .pollRx => some (.portIn (s.port s.cfg.regStat) t.seq.stat)
  | .inp _ => some (.portIn (s.port s.cfg.regIn) t.sh.rxd)
  | _ => none

/-- It depends on the addresses of the ports and on the parameters. -/
theorem Micro.busEvent_congr {m : Micro} {s u t : State} (hbase : u.ctx.base = s.ctx.base) (hcfg : u.cfg = s.cfg) :
    m.busEvent u t = m.busEvent s t := by
  unfold Micro.busEvent State.port
  rw [hbase, hcfg]

theorem go_of_guardBy {w : Option Refusal} {r : Res} {t : State} (h : guardBy w r = .go t) : r = .go t := by
  cases w with
  | none => exact h
  | some why => cases h

/-- The poll that finds its flag set. -/
theorem trace_of_poll {flag : Bool} {s t : State} (h : (if flag then Res.go (pollStat s) else .hold (pollStat s)) = .go t) :
    t.trace = .portIn (s.port s.cfg.regStat) t.seq.stat :: s.trace := by
  cases flag with
  | true => cases h; rfl
  | false => cases h

theorem act_trace {m : Micro} {s t : State} {e : Event} (he : m.busEvent s t = some e) (h : act m s = .go t) :
    t.trace = e :: s.trace := by
  cases m with
  | csEn =>
    cases he
    have h := go_of_guardBy h
    cases hsel : s.fl.select with
    | ok f => rw [hsel] at h; cases h; rfl
    | error r => rw [hsel] at h; cases h
  | csDis => cases he; cases go_of_guardBy h; rfl
  | out src =>
    cases src with
    | lit b => cases he; cases go_of_guardBy h; rfl
    | host a => cases he
  | strobe => cases he; cases go_of_guardBy h; rfl
  | pollTx | pollRx => cases he; exact trace_of_poll h
  | inp d =>
    cases he
    cases d with
    | caller => cases h; rfl
    | status => cases h; rfl
    | stage i => cases go_of_guardBy h; rfl
  | _ => cases he

/-- The turn before an action shows nothing. -/
theorem tick_trace {m : Micro} {s t : State} {e : Event} (he : m.busEvent s t = some e) (h : tick m s = .go t) :
    t.trace = e :: s.trace := by
  unfold tick at h
  split at h
  · cases hturn : takeTurn s with
    | error r => rw [hturn] at h; cases h
    | ok u =>
      rw [hturn] at h
      dsimp only at h
      split at h
      · cases h
      · have frame := takeTurn_frame hturn
        rw [← frame.trace]
        exact act_trace ((Micro.busEvent_congr (by rw [frame.ctx]) frame.cfg).trans he) h
  · exact act_trace he h

theorem runSeq_cons_go {m : Micro} {ms : List Micro} {s u : State} (h : runSeq (m :: ms) s = .go u) :
    ∃ t, tick m s = .go t ∧ runSeq ms (t.advance m) = .go u := by
  rw [runSeq_cons] at h
  cases htick : tick m s with
  | go t => rw [htick] at h; exact ⟨t, rfl, h⟩
  | _ => rw [htick] at h; cases h

/-- An action of a frame is none of SETUP's. -/
theorem Micro.ofSetup_of_busEvent {m : Micro} {s t : State} {e : Event} (he : m.busEvent s t = some e) :
    m.ofSetup = false := by
  cases m with
  | readBase | alloc | registerBoot => cases he
  | _ => rfl

/-- Where SEQ stands is nothing the bus shows. -/
theorem Micro.busEvent_advance (m m' : Micro) (s t : State) : m.busEvent s (t.advance m') = m.busEvent s t := by
  unfold Micro.busEvent
  rfl

section
variable {s u : State}

/-- An action of a frame shows its one event, and the ports stay where they are. -/
theorem tick_shows {m : Micro} {e : Event} (he : m.busEvent s u = some e) (h : tick m s = .go u) :
    (u.advance m).trace = e :: s.trace ∧ (u.advance m).ctx.base = s.ctx.base ∧ (u.advance m).cfg = s.cfg := by
  have frame := tick_frame m s u (.inl h)
  exact ⟨(tick_trace he h :), (frame.setup (Micro.ofSetup_of_busEvent he)).1, frame.cfg⟩

/-- What three such actions show, newest first. -/
theorem trace_of_three {m₁ m₂ m₃ : Micro} (h : runSeq [m₁, m₂, m₃] s = .go u) :
    ∃ t₁ t₂, ∀ e₁ e₂ e₃, m₁.busEvent s t₁ = some e₁ → m₂.busEvent s t₂ = some e₂ → m₃.busEvent s u = some e₃ →
      u.trace = [e₃, e₂, e₁] ++ s.trace := by
  obtain ⟨t₁, h₁, h⟩ := runSeq_cons_go h
  obtain ⟨t₂, h₂, h⟩ := runSeq_cons_go h
  obtain ⟨t₃, h₃, h⟩ := runSeq_cons_go h
  cases h
  refine ⟨t₁, t₂, fun e₁ e₂ e₃ he₁ he₂ he₃ => ?_⟩
  rw [Micro.busEvent_advance] at he₃
  obtain ⟨trace₁, base₁, cfg₁⟩ := tick_shows he₁ h₁
  obtain ⟨trace₂, base₂, cfg₂⟩ := tick_shows ((Micro.busEvent_congr base₁ cfg₁).trans he₂) h₂
  obtain ⟨trace₃, -, -⟩ := tick_shows ((Micro.busEvent_congr (base₂.trans base₁) (cfg₂.trans cfg₁)).trans he₃) h₃
  rw [trace₃, trace₂, trace₁]
  rfl

/-- Selecting the device and sending it a command byte (rules R121, R123, R124). -/
theorem trace_of_command {k : Byte} (h : runSeq ([.csEn] ++ [] ++ sendByte (.lit k)) s = .go u) :
    ∃ p, u.trace = [.portIn (s.port s.cfg.regStat) p, .portOut (s.port s.cfg.regOut) k,
      .portOut (s.port s.cfg.regCs) s.cfg.csAssert] ++ s.trace := by
  obtain ⟨_, _, shows⟩ := trace_of_three h
  exact ⟨_, shows _ _ _ rfl rfl rfl⟩

/-- Taking a byte of the device (rules R123, R126). -/
theorem trace_of_take {d : ByteDest} (h : runSeq (takeByte d) s = .go u) :
    ∃ q, u.trace = [.portIn (s.port s.cfg.regIn) u.sh.rxd, .portIn (s.port s.cfg.regStat) q,
      .portOut (s.port s.cfg.regIn) 0] ++ s.trace := by
  obtain ⟨_, _, shows⟩ := trace_of_three h
  exact ⟨_, shows _ _ _ rfl rfl rfl⟩

/-- Deselecting it (rule R122). -/
theorem trace_of_csDis (h : runSeq [.csDis] s = .go u) :
    u.trace = .portOut (s.port s.cfg.regCs) s.cfg.csDeassert :: s.trace := by
  obtain ⟨t1, h1, h⟩ := runSeq_cons_go h
  cases h
  exact (tick_trace rfl h1 :)

theorem SameBase.port (h : SameBase s u) (off : Byte) : u.port off = s.port off := by
  unfold State.port
  rw [h.ctx]

end

/-! ## One status frame, whatever is under way -/

/-- The link after a status frame the sequencer keeps: `v` was read, and whether it shows WIP is noted (rules R148, R173). -/
def Link.statusKept (c : Config) (v : Byte) (l : Link) : Link :=
  { l.rested c.cmdRdsr { l.fl.after c.cmdRdsr with sentWip := l.fl.wip } with
    rxd := v, rxReady := true, held := true, seen := l.fl.wip }

/-- The seven events of a status frame, newest first: `p` and `q` were polled, `v` was read. -/
def State.statusEvents (s : State) (p q v : Byte) : List Event :=
  [.portOut (s.port s.cfg.regCs) s.cfg.csDeassert, .portIn (s.port s.cfg.regIn) v,
    .portIn (s.port s.cfg.regStat) q, .portOut (s.port s.cfg.regIn) 0, .portIn (s.port s.cfg.regStat) p,
    .portOut (s.port s.cfg.regOut) s.cfg.cmdRdsr, .portOut (s.port s.cfg.regCs) s.cfg.csAssert]

/-- A status frame may be sent while an erase or program is under way (rule R152), and leaves it under way. -/
theorem runs_statusFrame {s : State} (r : Ready s) (hcs : s.sh.cs = false) (hph : s.fl.phase = .idle)
    (hok : s.cfg.ok = true) :
    Runs (pollFrame s.cfg) s fun u => ∃ p q v, StatusOf s.cfg s.fl v ∧ At (s.link.statusKept s.cfg v) s u
      ∧ u.trace = s.statusEvents p q v ++ s.trace := by
  have hcmds := Config.ok_commands hok
  have hne : s.cfg.cmdRdsr ≠ s.cfg.cmdRead := fun e => hcmds.2.2.2.2.1 e.symm
  refine ((((runs_command (mark := []) (by simp) r hcs hph (.inr rfl)).also fun _ => trace_of_command).append
    (bs := takeByte .status) (Q := fun u => ∃ p q v, StatusOf s.cfg s.fl v
      ∧ At { s.link.inFrame s.cfg.cmdRdsr { s.fl.commanded s.cfg s.cfg.cmdRdsr with sentWip := s.fl.wip } with
        rxd := v, rxReady := true, held := true, seen := s.fl.wip } s u
      ∧ u.trace = (s.statusEvents p q v).tail ++ s.trace) fun t ht => ?_)).append fun u hu => ?_
  · obtain ⟨ht, p, htrace⟩ := ht
    have hfl : t.fl = s.fl.commanded s.cfg s.cfg.cmdRdsr := ht.fl
    have hstatus : t.statusFrame = true := by simp [State.statusFrame, hfl, ht.base.cfg, Flash.commanded]
    refine ((runs_take (d := .status) (ht.ready r rfl) ht.cs (by rw [hfl]; exact commanded_status hok s.fl) (.inr hstatus)
      nofun).also fun _ => trace_of_take).weaken fun u hu => ?_
    obtain ⟨hu, q, htake⟩ := hu
    refine ⟨p, q, t.deviceByte, ⟨t.sh.misoFree, ?_⟩, ⟨ht.base.trans hu.base, ?_, hu.busy⟩, ?_⟩
    · simp [State.deviceByte, Flash.byteOut, ht.base.cfg, hfl, hne, Flash.commanded, statusByte, Flash.opened]
    · rw [hu.link, ht.link, ht.base.cfg]
      simp [Link.took, Link.inFrame, Flash.afterByteOut, Flash.commanded, hne, Flash.opened]
    · rw [htake, htrace, hu.rxd, ht.base.port, ht.base.port, ht.base.cfg]
      rfl
  · obtain ⟨p, q, v, hv, hat, htrace⟩ := hu
    refine ((hat.close r rfl rfl).also fun _ => trace_of_csDis).weaken fun w hw => ?_
    obtain ⟨hw, hlast⟩ := hw
    refine ⟨p, q, v, hv, ⟨hw.base, ?_, hw.busy⟩, ?_⟩
    · rw [hw.link]
      simp only [Link.closed, Link.inFrame]
      rw [Flash.deselect_of_dataOut (by exact commanded_status hok s.fl)]
      rfl
    · rw [hlast, htrace, hat.base.port, hat.base.cfg]
      rfl

/-! ## Round the loop for ever -/

theorem runSeq_pos {ms : List Micro} {s t : State} (h : runSeq ms s = .go t) : t.seq.pos = s.seq.pos + ms.length := by
  induction ms generalizing s with
  | nil => cases h; rfl
  | cons m ms ih =>
    obtain ⟨u, htick, hrest⟩ := runSeq_cons_go h
    rw [ih hrest, List.length_cons, ← tick_pos htick]
    show u.seq.pos + 1 + ms.length = _
    omega

/-- The state once the poll has seen SR_WIP set: SEQ is back at the head of the loop (rule R173). -/
def State.pollAgain (u : State) : State :=
  u.withSeq { u.seq with pc := u.seq.pc - pollFrameLength, pos := u.seq.pos - pollFrameLength }

section
variable {s : State} (h : Hung s)
include h

theorem Hung.readyForFrame : Ready s := by
  obtain ⟨hturns, hsteps⟩ := h.shift
  exact ⟨⟨hturns, hsteps, .inr h.dead⟩, h.ready, h.transfer, h.busy, h.ports⟩

/-- A step that polls once more, and the frame it sends. -/
theorem Hung.step_polls : ∃ u p q v, step s = .next u.pollAgain ∧ StatusOf s.cfg s.fl v
    ∧ At (s.link.statusKept s.cfg v) s u ∧ u.trace = s.statusEvents p q v ++ s.trace ∧ u.seq.pos = 8
    ∧ u.seq.openBlock = none := by
  obtain ⟨u, hu, p, q, v, hv, hat, htrace⟩ := runs_statusFrame h.readyForFrame h.cs h.phase h.ok
  have hopen : u.seq.openBlock = none := (runSeq_block (by simp [pollFrame, sendByte, takeByte, Micro.marks]) hu).trans
    h.openBlock
  have hpos : u.seq.pos = 8 := by rw [runSeq_pos hu, h.pos]; rfl
  have hseen : u.seq.wipSeen = true := hat.seen.trans h.wip
  have hback : tick .untilIdle u = .hold u.pollAgain := by
    rw [tick_of_internal rfl]
    exact if_pos hseen
  have hrest : remaining s (.instr .waitWip) = pollFrame s.cfg ++ [.untilIdle] := by rw [remaining, h.pos]; rfl
  have hrun : runSeq (pollFrame s.cfg ++ [.untilIdle]) s = .hold u.pollAgain := by
    rw [runSeq_append, hu, Res.andThen_go, runSeq_cons, hback, Res.andThen_hold]
  refine ⟨u, p, q, v, ?_, hv, hat, htrace, hpos, hopen⟩
  rw [step_of_inProgress h.noReset h.op, goOn, hrest, hrun, settle]
  exact congrArg _ (State.wait_of_noBlock hopen)

/-- The next state is of the same kind. -/
theorem Hung.again {u : State} {v : Byte} (hat : At (s.link.statusKept s.cfg v) s u) (hpos : u.seq.pos = 8)
    (hopen : u.seq.openBlock = none) : Hung u.pollAgain where
  op        := hat.base.seqOp.trans h.op
  pos       := by show u.seq.pos - 7 = 1; rw [hpos]
  openBlock := hopen
  shift     := by show u.env.turns = [] ∧ 24 ≤ u.env.after.shiftSteps; rw [hat.base.env]; exact h.shift
  dead      := by show u.env.after.flashInt = false; rw [hat.base.env]; exact h.dead
  wip       := by show u.fl.wip = true; rw [hat.fl]; exact h.wip
  ready     := by show u.ctx.ready = true; rw [hat.base.ctx]; exact h.ready
  transfer  := hat.base.canTransfer.trans h.transfer
  busy      := hat.busy
  cs        := hat.cs
  phase     := by show u.fl.phase = .idle; rw [hat.fl]; rfl
  noReset   := by show (u.env.inputs.head? == some .reset) = false; rw [hat.base.env]; exact h.noReset
  ports     := hat.base.portsFit.trans h.ports
  ok        := by show u.cfg.ok = true; rw [hat.base.cfg]; exact h.ok

end

/-- Settles O29: one status frame (`runs_statusFrame`), SR_WIP set in the byte because WIP = 1, and back to the loop's
head. -/
theorem waitWipHangs : Obligations.WaitWipHangs := by
  intro s h
  obtain ⟨u, p, q, v, hstep, ⟨free, rfl⟩, hat, htrace, hpos, hopen⟩ := h.step_polls
  have hshows : statusByte s.cfg s.fl free &&& s.cfg.srWip ≠ 0 := (statusByte_shows h.ok s.fl free).1.mpr h.wip
  have hfl : u.fl = { s.fl.after s.cfg.cmdRdsr with sentWip := s.fl.wip } := hat.fl
  have hmem : u.fl.mem = s.fl.mem := by rw [hfl]; rfl
  have hlatches : SameLatches s u := by
    unfold SameLatches
    rw [hfl]
    exact ⟨rfl, rfl, rfl⟩
  exact ⟨u.pollAgain, p, q, _, hstep, h.again hat hpos hopen, hshows, htrace, hmem, hlatches, hat.host, hat.base.op,
    hat.base.drive, hat.base.ctx, hat.base.chip, hat.base.cfg, hat.base.env, hat.report⟩

end Sys2Proof.Machine
end

section
/-! WRITE_SECTOR as an operation of HOST (rules R202 to R207, R250), and what follows for two operations in a row: an engine
operation leaves the block where the next one may start, with the same buffers, so the round trip and the idempotence
of rule R207 are read off one WRITE_SECTOR. -/

namespace Sys2Proof.Machine

/-! ## A caller's buffer -/

theorem CallerBuffer.overlaps_scratch {s : State} {a n : Nat} {q : HostAddr} (b : CallerBuffer s a n)
    (hq : s.ctx.scratch = some q) : overlaps a n q.toNat blockSize = false := by
  simpa only [hitsScratch, hq] using b.scratch

/-- A caller's buffer shares no byte with STAGE. -/
theorem CallerBuffer.off_stage {s : State} {a n i : Nat} (b : CallerBuffer s a n) (hi : i < n) :
    a + i < s.cfg.stage.toNat ∨ s.cfg.stage.toNat + burstSize ≤ a + i := by
  have := not_overlaps b.stage
  omega

/-- A caller's buffer shares no byte with SCRATCH. -/
theorem CallerBuffer.off_scratch {s : State} {a n i : Nat} {q : HostAddr} (b : CallerBuffer s a n)
    (hq : s.ctx.scratch = some q) (hi : i < n) : a + i < q.toNat ∨ q.toNat + blockSize ≤ a + i := by
  have := not_overlaps (b.overlaps_scratch hq)
  omega

/-! ## One WRITE_SECTOR -/

/-- Settles O38: backup, merge, erase and restore replace one sector (`Rewritten`) and use SCRATCH and STAGE only
(`Buffered`). -/
theorem writeSectorRewritesOneSector : Obligations.WriteSectorRewritesOneSector := by
  intro s sector src q hs hp hb hfit hsrc
  have hsector : sectorFits s.cfg sector.toNat = true := decide_eq_true hfit
  have hscratch : scratchAddr s = q.toNat := by simp [scratchAddr, hb.allocated]
  have hapart : overlaps src.toNat sectorSize q.toNat blockSize = false := hsrc.overlaps_scratch hb.allocated
  obtain ⟨u, hu, m', h', hrewritten, hbuffered, d⟩ := exec_of_conditions (i := .writeSector sector src)
    (P := fun u => ∃ m' h', Rewritten sector.toNat s.copyOk (fun i => s.host.read (src.toNat + i)) s.fl.mem m'
      ∧ Buffered s.cfg.stage.toNat q.toNat s.host h' ∧ Done 33 m' h' .ok (s.begin (.instr (.writeSector sector src))) u)
    hs (hs.calm hp) rfl
    (by simp [operandConditions, bufferConditions, sectorSize, hsector, hb.allocated, hsrc.fits, hsrc.stage, hsrc.scratch])
    fun x rest hx => by
      rw [engineBody, hscratch]
      exact (runs_writeSector rest hp hsector hb.stage hb.scratch hsrc.present hb.apart hsrc.stage hapart).append fun v hv =>
        let ⟨m', h', hrewritten, hbuffered, d⟩ := hv
        ((d.before hx).runs_report .ok).weaken fun w dw => ⟨m', h', hrewritten, hbuffered, dw⟩
  have flash (x : Nat) : u.finish.fl.mem.read x = m'.read x := congrArg (·.read x) d.mem
  refine ⟨_, hu, d.engineFrame, d.op, d.report, fun hmerge i hi => ?_, fun x hx hkept => ?_, fun x hx hstage => ?_⟩
  · exact (flash _).trans (hrewritten.inside hmerge i hi)
  · exact (flash x).trans (hrewritten.kept hx hkept)
  · exact (congrArg (·.read x) d.host).trans (hbuffered.outside x hx hstage)

/-! ## After an engine operation -/

theorem hitsStage_congr {s t : State} (h : t.cfg = s.cfg) (a n : Nat) : hitsStage t a n = hitsStage s a n := by
  unfold hitsStage
  rw [h]

theorem hitsScratch_congr {s t : State} (h : t.ctx = s.ctx) (a n : Nat) : hitsScratch t a n = hitsScratch s a n := by
  unfold hitsScratch
  rw [h]

section
variable {n : Nat} {s t : State} (f : EngineFrame n s t)
include f

/-- Another engine operation may be asked for (rules R45, R170). -/
theorem EngineFrame.atEngine (hs : s.atEngine) : t.atEngine := by
  obtain ⟨-, hready, -, hports, hok⟩ := hs
  exact ⟨f.idle, by rw [f.ctx]; exact hready, f.quiescent,
    by rw [portsFit_of (m := s.ctx.mode) f.ctx f.cfg]; exact hports, by rw [f.cfg]; exact hok⟩

/-- SHIFT and FLASH_INT act as before: an engine operation uses up no turn they have written down. -/
theorem EngineFrame.prompt (hp : s.prompt) : t.prompt := by
  unfold State.prompt
  rw [f.env]
  exact hp

theorem EngineFrame.copiesSucceed (hc : s.copiesSucceed) : t.copiesSucceed := by
  unfold State.copiesSucceed
  rw [f.env]
  exact fun b hb => hc b (List.mem_of_mem_drop hb)

theorem EngineFrame.buffers {q : HostAddr} (b : Buffers q s) : Buffers q t :=
  ⟨by rw [f.ctx]; exact b.allocated, by rw [hostReaches_congr f.cfg, f.cfg]; exact b.stage,
    by rw [hostReaches_congr f.cfg]; exact b.scratch, by rw [hitsStage_congr f.cfg]; exact b.apart⟩

theorem EngineFrame.callerBuffer {a k : Nat} (b : CallerBuffer s a k) : CallerBuffer t a k :=
  ⟨by rw [hostCovers_congr f.cfg]; exact b.present, b.fits, by rw [hitsStage_congr f.cfg]; exact b.stage,
    by rw [hitsScratch_congr f.ctx]; exact b.scratch⟩

end

/-! ## Two operations in a row -/

/-- Settles O39: READ_SECTOR relays the four bursts that WRITE_SECTOR left in the array. -/
theorem writtenSectorReadsBack : Obligations.WrittenSectorReadsBack := by
  intro s sector src dest q hs hp hcopies hb hfit hsrc hdest
  obtain ⟨t, ht, frame, -, -, hinside, -, -⟩ := writeSectorRewritesOneSector s sector src q hs hp hb hfit hsrc
  have hst := frame.atEngine hs
  obtain ⟨u, hu, -, -, -, -, -, hrelayed⟩ := readSectorRelays t sector dest hst (hst.calm (frame.prompt hp))
    (by rw [frame.cfg]; exact hfit) (frame.buffers hb).stage (frame.callerBuffer hdest)
  refine ⟨t, u, ht, hu, fun i hi => ?_⟩
  have hchunk : 128 * (i / 128) + i % 128 = i := Nat.div_add_mod i 128
  have hread := hrelayed (i / 128) (by omega) ((frame.copiesSucceed hcopies).copyOk _) (i % 128) (by omega)
  rw [Nat.add_assoc, hchunk] at hread
  exact hread.trans (hinside (hcopies.copyOk 32) i hi)

/-- Settles O40: the second WRITE_SECTOR finds the source as it was, since the first wrote SCRATCH and STAGE only, and puts
the same bytes into the same sector. -/
theorem writingTwiceIsWritingOnce : Obligations.WritingTwiceIsWritingOnce := by
  intro s sector src q hs hp hcopies hb hfit hsrc
  obtain ⟨t, ht, frame, -, -, hinside, -, hhost⟩ := writeSectorRewritesOneSector s sector src q hs hp hb hfit hsrc
  obtain ⟨u, hu, -, -, -, hinside', houtside', -⟩ := writeSectorRewritesOneSector t sector src q (frame.atEngine hs)
    (frame.prompt hp) (frame.buffers hb) (by rw [frame.cfg]; exact hfit) (frame.callerBuffer hsrc)
  have hcopies' := frame.copiesSucceed hcopies
  refine ⟨t, u, ht, hu, fun x => ?_⟩
  by_cases hx : x < 512 * sector.toNat ∨ 512 * sector.toNat + 512 ≤ x
  · exact houtside' x hx fun _ => hcopies'.copyOk _
  · obtain ⟨i, rfl⟩ := Nat.exists_eq_add_of_le (show 512 * sector.toNat ≤ x by omega)
    have hi : i < 512 := by omega
    calc u.fl.mem.read (512 * sector.toNat + i)
        = t.host.read (src.toNat + i) := hinside' (hcopies'.copyOk 32) i hi
      _ = s.host.read (src.toNat + i) := hhost _ (hsrc.off_scratch hb.allocated hi) (hsrc.off_stage hi)
      _ = t.fl.mem.read (512 * sector.toNat + i) := (hinside (hcopies.copyOk 32) i hi).symm

end Sys2Proof.Machine
end

section
/-! The host's commands that touch no hardware (rules R223 to R229, R242, R306) and the sector map (rules R201, R221, R234):
what selects a command, and what those answer that only look at the state and write OP. -/

namespace Sys2Proof.Machine

/-! ## Selecting a command -/

/-- Settles O5: among pairwise different codes the first that fits is the only one. -/
theorem hostCommandDispatch : Obligations.HostCommandDispatch := by
  intro c k lba count buf hok
  have encoded (i : Instr) (hi : i.wellFormed c = true) : decode c (encode c i) = .instr i :=
    encodedOperationsDecode c i hok hi
  refine ⟨?_, ?_, ?_, ?_, ?_, fun hk => ?_⟩
  · rintro rfl; exact encoded (.diskRead lba count buf) rfl
  · rintro rfl; exact encoded (.diskWrite lba count buf) rfl
  · rintro rfl; exact encoded (.diskVerify lba count buf) rfl
  · rintro rfl; exact encoded (.diskFormat lba count buf) rfl
  · rintro rfl; exact encoded (.diskReset lba count buf) rfl
  · simp only [List.mem_cons, List.not_mem_nil, or_false, not_or] at hk
    obtain ⟨hread, hwrite, hverify, hformat, hreset⟩ := hk
    exact encoded (.diskUnknown k lba count buf)
      (by simp [Instr.wellFormed, Instr.pageFits, Instr.commandIsUnknown, hread, hwrite, hverify, hformat, hreset])

/-! ## The sector map -/

theorem lba2slba_of_noTable {c : Config} (h : c.mapTable = []) (a : Nat) : lba2slba c a = skipMap c.reservedSlot a := by
  simp [lba2slba, h]

/-- The formula is onto: `Config.formulaSource` gives the logical sector of a physical one that is not reserved. -/
theorem skipMap_formulaSource {r p : Nat} (hr : r < 8) (hp : p % 8 ≠ r) : skipMap r (Config.formulaSource r p) = p := by
  unfold skipMap Config.formulaSource
  split <;> split <;> omega

/-- Seven consecutive logical sectors share an erase block (rule R201). -/
theorem blockOf_skipMap (r a : Nat) : blockOf (skipMap r a) = a / 7 := by
  unfold blockOf skipMap sectorsPerBlock
  split <;> omega

theorem skipMap_zero (a : Nat) : skipMap 0 a = 8 * (a / 7) + a % 7 + 1 := by
  rw [skipMap, if_pos (Nat.zero_le _)]

/-- A sector's address is its block's and its offset in it (rule R201). -/
theorem sectorAddr_split (s : Nat) : sectorAddr s = blockBase s + sectorOffset s := by
  unfold sectorAddr blockBase sectorOffset blockOf sectorSize blockSize sectorsPerBlock
  omega

/-- Settles O59: the map with exceptions by `lba2slba_mod` and `lba2slba_inj`, the formula by its own arithmetic. -/
theorem sectorMap : Obligations.SectorMap := by
  refine ⟨fun c hok => ⟨lba2slba_mod hok, fun a b => lba2slba_inj hok⟩, fun c hnone hr => ?_⟩
  simp only [lba2slba_of_noTable hnone]
  refine ⟨skipMap_mod hr, fun a b => skipMap_lt, fun p hp => ⟨_, skipMap_formulaSource hr hp⟩, fun a g => ?_,
    fun h0 a => by rw [h0, skipMap_zero], fun s => ⟨sectorAddr_split s, Nat.mul_mod_right _ _, ?_⟩⟩
  · rw [blockOf_skipMap]
    omega
  · unfold sectorOffset sectorSize sectorsPerBlock
    omega

/-! ## Commands that only write OP -/

theorem Quiet.finish {s t : State} (h : Quiet s t) : t.finish = s.finish := by
  unfold Quiet at h
  rw [h]
  rfl

/-- SEQ has taken up a command, OP as HOST wrote it (rules R39, R220). -/
abbrev State.commanded (s : State) (k : Byte) (lba : Lba) (count : SectorCount) (buf : HostAddr) (o : Operation) : State :=
  (s.asks k lba count buf).begin o

theorem State.atCommand.need {s : State} (hs : s.atCommand) : needRefusal .command s = none := by
  obtain ⟨-, hready, hmode, hcs, hwip⟩ := hs
  simp [needRefusal, readyAnd, modeCsWip, hready, hmode, hcs, hwip]

/-- HOST's writing OP and SEQ's taking the command up change nothing a host command asks for. -/
theorem State.atCommand.need_commanded {s : State} (hs : s.atCommand) (k : Byte) (lba : Lba) (count : SectorCount)
    (buf : HostAddr) (o : Operation) : needRefusal .command (s.commanded k lba count buf o) = none :=
  (needRefusal_begin .command _ o).trans (State.atCommand.need (s := s.asks k lba count buf) hs)

theorem runs_needCommand {s : State} (h : needRefusal .command s = none) : Runs [.need .command] s (Quiet s) :=
  (runs_need h).weaken fun t ht => by subst ht; exact (Quiet.refl s).advance _

/-- An operation that notes where SEQ is and then does one thing `f` to the state. -/
theorem launch_of_quiet {o : Operation} {pre : List Micro} {m : Micro} {f : State → State} {s : State}
    (h0 : s.seq.op = none) (hpre : Runs pre (s.begin o) (Quiet (s.begin o))) (hm : ∀ t, tick m t = .go (f t))
    (hf : ∀ t u, Quiet t u → Quiet (f t) (f u)) : launch o (pre ++ [m]) s = .next (f (s.begin o)).finish := by
  obtain ⟨_, ht, u, hu, rfl⟩ := launch_of_runs h0 (hpre.append (Q := Quiet (f (s.begin o))) fun t ht =>
    Runs.cons (hm t) (Runs.nil ((hf _ _ ht).advance m)))
  rw [ht, hu.finish]

/-- The last action of a command: a status for HOST (rule R233). -/
theorem launch_status {o : Operation} {pre : List Micro} {st : Byte} {s : State} (h0 : s.seq.op = none)
    (hpre : Runs pre (s.begin o) (Quiet (s.begin o))) :
    launch o (pre ++ [.status st]) s = .next (returnStatus st (s.begin o)).finish :=
  launch_of_quiet (f := returnStatus st) h0 hpre (fun _ => rfl) fun t u h => by unfold Quiet at h; rw [h]; rfl

/-- Settles O41: each of the three is its admission and the status. -/
theorem noOpCommandsSucceed : Obligations.NoOpCommandsSucceed := by
  intro s lba count buf hs
  have answers (k : Byte) (o : Operation) := launch_status (o := o) (st := s.cfg.stSuccess)
    (s := s.asks k lba count buf) hs.1 (runs_needCommand (hs.need_commanded k lba count buf o))
  exact ⟨answers _ _, answers _ _, answers _ _⟩

/-- Settles O42: admission, then the abnormal end X1. -/
theorem unknownCommandIsAParameterError : Obligations.UnknownCommandIsAParameterError := by
  intro s k lba count buf hs
  refine ⟨launch_of_quiet (f := raiseParamError) (s := s.asks k lba count buf) hs.1
    (runs_needCommand (hs.need_commanded k lba count buf _)) (fun _ => rfl) fun t u h => by unfold Quiet at h; rw [h]; rfl,
    fun hk => ?_⟩
  simp only [List.mem_cons, List.not_mem_nil, or_false, not_or] at hk
  obtain ⟨hreset, hread, hwrite, hverify, hformat⟩ := hk
  simp [runRequest, decode, decodeDisk, hread, hwrite, hverify, hformat, hreset]

end Sys2Proof.Machine
end

section
/-! DISK_READ and DISK_WRITE (rules R224, R225, R230, R232, R233, R306): what both ask at their start, the loop over the
sectors of the range (`runs_readRange`, `runs_writeRange`) from rest to rest, and what refuses them before it or inside it. -/

namespace Sys2Proof.Machine

/-! ## What both ask at their start -/

/-- The conditions of a transfer on its range and its buffer (`transferChecks`). -/
def transferConditions (lba : Lba) (count : SectorCount) (buf : HostAddr) : List (Bool × Refusal) :=
  [(decide (lba.toNat + count.toNat ≤ diskSectors), .diskRange),
    (!pastHostEnd buf.toNat (sectorSize * count.toNat), .bufferRange)]

theorem transferChecks_eq (lba : Lba) (count : SectorCount) (buf : HostAddr) :
    transferChecks lba count buf = [.need .command] ++ (transferConditions lba count buf).map checkOf := rfl

/-- A range inside the drive and a buffer inside the 32-bit space (rules R230, R232). -/
structure InRange (lba : Lba) (count : SectorCount) (buf : HostAddr) : Prop where
  drive : lba.toNat + count.toNat ≤ diskSectors
  space : buf.toNat + sectorSize * count.toNat ≤ 2 ^ 32

theorem InRange.of_callerBuffer {s : State} {lba : Lba} {count : SectorCount} {buf : HostAddr}
    (hlba : lba.toNat + count.toNat ≤ diskSectors) (b : CallerBuffer s buf.toNat (sectorSize * count.toNat)) :
    InRange lba count buf := ⟨hlba, by simpa [pastHostEnd] using b.fits⟩

section
variable {s : State} {lba : Lba} {count : SectorCount} {buf : HostAddr} {k : Byte} {o : Operation}

theorem runs_transferChecks (hneed : needRefusal .command s = none) (h : InRange lba count buf) :
    Runs (transferChecks lba count buf) s (Quiet s) := by
  have hspace : pastHostEnd buf.toNat (sectorSize * count.toNat) = false := decide_eq_false (Nat.not_lt.2 h.space)
  rw [transferChecks_eq]
  refine (runs_needCommand hneed).append fun t ht => (runs_checks ?_ t).weaken fun u hu => ht.trans hu
  simp [transferConditions, checkOf, h.drive, hspace]

/-- Where one of the conditions fails, nothing is transferred (rules R230, R232). -/
theorem launch_of_failedTransferCondition {c : Bool × Refusal} (hs : s.atCommand)
    (h : (transferConditions lba count buf).find? (fun c => !c.1) = some c) (ms : List Micro) :
    launch o (transferChecks lba count buf ++ ms) (s.asks k lba count buf) = .refused c.2 := by
  have hrun := (runs_needCommand (hs.need_commanded k lba count buf o)).refuse fun t _ => runSeq_failedCheck h ms t
  rw [launch, if_pos (show (s.asks k lba count buf).seq.op = none from hs.1), transferChecks_eq, List.append_assoc, hrun,
    settle]

end

/-- Settles O45: no sector is transferred, so the checks and the status are all there is (rule R306). -/
theorem emptyDiskTransfer : Obligations.EmptyDiskTransfer := by
  intro s lba buf hs hlba
  have hrange : InRange lba 0 buf := ⟨hlba, Nat.le_of_lt buf.isLt⟩
  have answers (k : Byte) (o : Operation) := launch_status (o := o) (st := s.cfg.stSuccess) (s := s.asks k lba 0 buf)
    hs.1 (runs_transferChecks (hs.need_commanded k lba 0 buf o) hrange)
  exact ⟨answers _ _, answers _ _⟩

/-! ## Transfers that complete -/

section
variable {s : State} {lba : Lba} {count : SectorCount} {buf : HostAddr} {k st : Byte} {o : Operation}

theorem State.atEngine.atCommand (hs : s.atEngine) : s.atCommand := by
  obtain ⟨hidle, hready, hquiet, -, -⟩ := hs
  obtain ⟨hcs, hmode, -, -, hwip, -⟩ := quiescent_fields hquiet
  exact ⟨hidle, hready, hmode, hcs, hwip⟩

theorem State.atEngine.ok (hs : s.atEngine) : s.cfg.ok = true := by
  obtain ⟨-, -, -, -, hok⟩ := hs
  exact hok

/-- HOST's writing OP is no part of rest. -/
theorem State.atEngine.rest_commanded (hs : s.atEngine) (hcalm : s.calm) (k : Byte) (lba : Lba) (count : SectorCount)
    (buf : HostAddr) (o : Operation) : Rest (s.commanded k lba count buf o) :=
  State.atEngine.rest (s := s.asks k lba count buf) hs hcalm o

/-- A transfer whose checks hold is what its loop does, and the status (rules R224, R225, R233). -/
theorem launch_transfer {body : List Micro} {P : State → Prop} (hs : s.atEngine) (hcalm : s.calm)
    (hrange : InRange lba count buf)
    (hbody : ∀ x, Rest ((s.commanded k lba count buf o).withSeq x) →
      Quiet (s.commanded k lba count buf o) ((s.commanded k lba count buf o).withSeq x) →
      Runs body ((s.commanded k lba count buf o).withSeq x) P) :
    ∃ u, launch o (transferChecks lba count buf ++ body ++ [.status st]) (s.asks k lba count buf)
      = .next (returnStatus st u).finish ∧ P u := by
  have hchecks := runs_transferChecks (hs.atCommand.need_commanded k lba count buf o) hrange
  have hloop : Runs (transferChecks lba count buf ++ body) (s.commanded k lba count buf o) P :=
    hchecks.append fun t ht => by
      have qt := (hs.rest_commanded hcalm k lba count buf o).of_quiet ht
      rw [show t = _ from ht] at qt ⊢
      exact hbody _ qt rfl
  obtain ⟨_, ht, u, ⟨v, hv, rfl⟩, rfl⟩ := launch_of_runs (s := s.asks k lba count buf) (o := o) hs.1
    (hloop.append (Q := fun u => ∃ v, P v ∧ u = (returnStatus st v).advance (.status st)) fun v hv =>
      Runs.cons (t := returnStatus st v) rfl (Runs.nil ⟨v, hv, rfl⟩))
  exact ⟨v, ht, hv⟩

/-- What a transfer that ran from rest to rest leaves alone, the status returned. -/
theorem Done.transferFrame {n : Nat} {m h : Memory} {r : Report} {u : State}
    (d : Done n m h r (s.commanded k lba count buf o) u) : EngineFrame n s (returnStatus st u).finish :=
  ⟨d.ctx, d.drive, d.cfg, d.chip, d.env, d.stage, d.scratch, d.quiet, rfl⟩

/-- OP after a transfer: as HOST wrote it, and the status (rule R233). -/
theorem Done.transferOp {n : Nat} {m h : Memory} {r : Report} {u : State}
    (d : Done n m h r (s.commanded k lba count buf o) u) : (returnStatus st u).finish.op
      = { command := k, lba := lba, count := count, buf := buf, status := st } :=
  congrArg (fun x : OpRecord => { x with status := st }) d.op

end

/-- Where the range's `4 i + j`-th chunk of 128 bytes lies in the flash: in logical sector `i`, from byte `128 j` on. -/
theorem rangeByte_chunk (c : Config) (lba i : Nat) {j x : Nat} (hj : j < 4) (hx : x < 128) :
    rangeByte c lba (burstSize * (4 * i + j) + x) = 512 * lba2slba c (lba + i) + (128 * j + x) := by
  have hdiv : (burstSize * (4 * i + j) + x) / sectorSize = i := by unfold burstSize sectorSize; omega
  have hmod : (burstSize * (4 * i + j) + x) % sectorSize = 128 * j + x := by unfold burstSize sectorSize; omega
  rw [rangeByte, hdiv, hmod, sectorAddr, sectorSize]

/-- Settles O43: the sectors of the range are relayed one after the other (`runs_readRange`). -/
theorem diskReadReadsEverySector : Obligations.DiskReadReadsEverySector := by
  intro s lba count buf hs hcalm h1 hlba hfit hreach hbuf
  have hsector (i : Nat) (hi : i < count.toNat) : sectorFits s.cfg (lba2slba s.cfg (lba.toNat + i)) = true :=
    decide_eq_true (hfit i hi)
  obtain ⟨u, hu, h', hrelayed, d⟩ := launch_transfer (s := s) (k := s.cfg.hcRead) (st := s.cfg.stSuccess)
    (o := .instr (.diskRead lba count buf)) (P := fun u => ∃ h', Relayed s.cfg.stage.toNat buf.toNat (4 * count.toNat)
        s.copyOk (fun i => s.fl.mem.read (rangeByte s.cfg lba.toNat i)) s.host h'
      ∧ Done (4 * count.toNat) s.fl.mem h' .none (s.commanded s.cfg.hcRead lba count buf (.instr (.diskRead lba count buf))) u)
    hs hcalm (.of_callerBuffer hlba hbuf)
    fun x rest hx => (runs_readRange (s := s) (more := fun i => decide (i + 1 < count.toNat)) h1 rest rfl hsector hreach
      hbuf.present hbuf.fits hbuf.stage hbuf.scratch).weaken fun v hv => 
        let ⟨h', hrelayed, d⟩ := hv
        ⟨h', hrelayed, d.before hx⟩
  have host (x : Nat) : (returnStatus s.cfg.stSuccess u).finish.host.read x = h'.read x := congrArg (·.read x) d.host
  refine ⟨_, hu, d.transferFrame, d.report, d.transferOp, d.mem, fun x hx hstage => ?_, fun i hi j hj hok x hx => ?_⟩
  · have hx : x < buf.toNat ∨ buf.toNat + burstSize * (4 * count.toNat) ≤ x := by
      unfold burstSize
      omega
    exact (host x).trans (hrelayed.outside x hx hstage)
  · have hdest : buf.toNat + 512 * i + 128 * j + x = buf.toNat + burstSize * (4 * i + j) + x := by
      unfold burstSize
      omega
    rw [host, hdest, ← rangeByte_chunk s.cfg lba.toNat i hj hx]
    exact hrelayed.inside (4 * i + j) (by omega) hok x hx

/-- No byte of a reserved sector lies in a sector the map answers (rule R234). -/
theorem off_sector_of_reserved {c : Config} (hok : c.ok = true) {y : Nat} (hy : y / 512 % 8 = c.reservedSlot) (a : Nat) :
    y < 512 * lba2slba c a ∨ 512 * lba2slba c a + 512 ≤ y := by
  by_contra h
  have hsector : y / 512 = lba2slba c a := by omega
  exact lba2slba_mod hok a (by rw [← hsector, hy])

/-- Settles O44: the sectors of the range are rewritten one after the other (`runs_writeRange`), and none of them is a
reserved one. -/
theorem diskWriteWritesEverySector : Obligations.DiskWriteWritesEverySector := by
  intro s lba count buf q hs hp hb h1 hlba hfit hbuf
  have hsector (i : Nat) (hi : i < count.toNat) : sectorFits s.cfg (lba2slba s.cfg (lba.toNat + i)) = true :=
    decide_eq_true (hfit i hi)
  obtain ⟨u, hu, m', h', hrewritten, hbuffered, d⟩ := launch_transfer (s := s) (k := s.cfg.hcWrite) (st := s.cfg.stSuccess)
    (o := .instr (.diskWrite lba count buf)) (P := fun u => ∃ m' h',
      RewrittenAll (fun i => lba2slba s.cfg (lba.toNat + i)) count.toNat s.copyOk
        (fun i j => s.host.read (buf.toNat + sectorSize * i + j)) s.fl.mem m'
      ∧ Buffered s.cfg.stage.toNat q.toNat s.host h'
      ∧ Done (33 * count.toNat) m' h' .none (s.commanded s.cfg.hcWrite lba count buf (.instr (.diskWrite lba count buf))) u)
    hs (hs.calm hp) (.of_callerBuffer hlba hbuf)
    fun x rest hx => (runs_writeRange (s := s) (more := fun i => decide (i + 1 < count.toNat)) h1 rest hp rfl
      hb.allocated hlba hsector hb.stage hb.scratch hb.apart hbuf.present hbuf.fits hbuf.stage hbuf.scratch).weaken fun v hv =>
        let ⟨m', h', hrewritten, hbuffered, d⟩ := hv
        ⟨m', h', hrewritten, hbuffered, d.before hx⟩
  have flash (x : Nat) : (returnStatus s.cfg.stSuccess u).finish.fl.mem.read x = m'.read x := congrArg (·.read x) d.mem
  refine ⟨_, hu, d.transferFrame, d.report, d.transferOp, fun i hi hmerge x hx hkept => ?_, fun y hy hkept => ?_,
    fun y hy hkept => ?_, fun x hx hstage => ?_⟩
  · exact (flash _).trans (hrewritten.inside i hi hmerge x hx hkept)
  · exact (flash y).trans (hrewritten.outside y hy hkept)
  · exact (flash y).trans (hrewritten.outside y (fun i _ => off_sector_of_reserved hs.ok hy (lba.toNat + i)) hkept)
  · exact (congrArg (·.read x) d.host).trans (hbuffered.outside x hx hstage)

/-! ## Transfers that are refused -/

/-- A transfer is refused at the first sector whose operation has a condition that fails; those before it ran from rest to
rest (rules R176, R202, R289). -/
theorem launch_of_failedSector {s : State} {lba : Lba} {count : SectorCount} {buf : HostAddr} {k : Byte} {o : Operation}
    {body : Nat → List Micro} {i : Nat} {cs : List (Bool × Refusal)} {c : Bool × Refusal} {seq ms : List Micro}
    (hs : s.atEngine) (hcalm : s.calm) (hrange : InRange lba count buf) (hi : i < count.toNat)
    (hbody : body i = [.need .engine] ++ (cs.map checkOf ++ seq)) (hfails : cs.find? (fun c => !c.1) = some c)
    (hearlier : ∀ x, 1 ≤ i → Rest ((s.commanded k lba count buf o).withSeq x) →
      Runs (iterations (fun j => decide (j + 1 < count.toNat)) i body) ((s.commanded k lba count buf o).withSeq x) Rest) :
    launch o (transferChecks lba count buf ++ forEach count.toNat body ++ ms) (s.asks k lba count buf) = .refused c.2 := by
  obtain ⟨rest, hsplit⟩ := forEach_split hi body
  have hchecks := runs_transferChecks (hs.atCommand.need_commanded k lba count buf o) hrange
  have hreached : Runs (transferChecks lba count buf ++ iterations (fun j => decide (j + 1 < count.toNat)) i body)
      (s.commanded k lba count buf o) Rest := hchecks.append fun t ht => by
    have qt := (hs.rest_commanded hcalm k lba count buf o).of_quiet ht
    rcases Nat.eq_zero_or_pos i with rfl | hpos
    · exact Runs.nil qt
    · rw [show t = _ from ht] at qt ⊢
      exact hearlier _ hpos qt
  have hadmitted (t : State) (q : Rest t) : Runs ([.push i] ++ [.need .engine]) t (fun _ => True) :=
    (runs_quiet (by simp [Micro.isQuiet]) t).append fun u hu =>
      (runs_needEngine (q.of_quiet hu)).weaken fun _ _ => trivial
  have hrun := hreached.refuse fun t q => (hadmitted t q).refuse fun u _ => runSeq_failedCheck hfails (seq ++ rest ++ ms) u
  have hprog : transferChecks lba count buf ++ forEach count.toNat body ++ ms
      = transferChecks lba count buf ++ iterations (fun j => decide (j + 1 < count.toNat)) i body
        ++ ([.push i] ++ [.need .engine] ++ (cs.map checkOf ++ (seq ++ rest ++ ms))) := by
    rw [hsplit, hbody]
    simp only [List.append_assoc]
  rw [hprog, launch, if_pos (show (s.asks k lba count buf).seq.op = none from hs.1), hrun, settle]

/-- What one sector of a READ asks (`checkedReadSector`). -/
theorem readOne_eq (s : State) (sector dest : Nat) : readOne s sector dest = [.need .engine]
    ++ (((sectorFits s.cfg sector, .flashRange) :: bufferConditions s dest).map checkOf
      ++ seqReadSector s.cfg sector dest) := by
  simp [readOne, checkedReadSector, bufferChecks, bufferConditions, checkOf]

/-- What one sector of a WRITE asks (`checkedWriteSector`). -/
theorem writeOne_eq (s : State) (sector src : Nat) : writeOne s sector src = [.need .engine]
    ++ (((sectorFits s.cfg sector, .flashRange) :: (s.ctx.scratch.isSome, .noScratch) :: bufferConditions s src).map checkOf
      ++ seqWriteSector s.cfg (scratchAddr s) sector src) := by
  simp [writeOne, checkedWriteSector, bufferChecks, bufferConditions, checkOf]

/-- Settles O46: the conditions of the transfer in their order, then those of the first sector whose buffer overlaps. -/
theorem diskRange : Obligations.DiskRange := by
  intro s lba count buf hs
  refine ⟨fun hlba => ?_, fun hlba hend => ?_, fun he hlba hend hfit i hi hbuf hhit => ?_⟩
  · have hfails : (transferConditions lba count buf).find? (fun c => !c.1) = some (false, .diskRange) := by
      have hbeyond : ¬ lba.toNat + count.toNat ≤ diskSectors := Nat.not_le.2 hlba
      simp [transferConditions, hbeyond]
    exact ⟨launch_of_failedTransferCondition hs hfails _, launch_of_failedTransferCondition hs hfails _⟩
  · have hpast : pastHostEnd buf.toNat (sectorSize * count.toNat) = true := decide_eq_true hend
    have hfails : (transferConditions lba count buf).find? (fun c => !c.1) = some (false, .bufferRange) := by
      simp [transferConditions, diskSectors, hlba, hpast]
    exact ⟨launch_of_failedTransferCondition hs hfails _, launch_of_failedTransferCondition hs hfails _⟩
  · have hrange : InRange lba count buf := ⟨hlba, hend⟩
    have hsector (j : Nat) (hj : j < count.toNat) : sectorFits s.cfg (lba2slba s.cfg (lba.toNat + j)) = true :=
      decide_eq_true (hfit j hj)
    have hoverlap : (hitsStage s (buf.toNat + sectorSize * i) sectorSize
        || hitsScratch s (buf.toNat + sectorSize * i) sectorSize) = true := (Bool.or_eq_true _ _).mpr hhit
    have hinside : pastHostEnd (buf.toNat + sectorSize * i) sectorSize = false := by
      refine decide_eq_false (Nat.not_lt.2 ?_)
      unfold sectorSize
      omega
    have earlier (h1 : 1 ≤ i) : CallerBuffer s buf.toNat (sectorSize * i) := hbuf.resolve_left (by omega)
    refine ⟨fun hcalm hreach => ?_, fun q hp hb => ?_⟩
    · refine launch_of_failedSector he hcalm hrange hi (readOne_eq s _ _) (c := (false, .bufferOverlap)) ?_ fun x h1 rest => ?_
      · simp [bufferConditions, hsector i hi, hinside, hoverlap]
      · have b := earlier h1
        exact (runs_readRange h1 rest rfl (fun j hj => hsector j (by omega)) hreach b.present b.fits b.stage
          b.scratch).weaken fun v ⟨_, _, d⟩ => d.rest rest
    · refine launch_of_failedSector he (he.calm hp) hrange hi (writeOne_eq s _ _) (c := (false, .bufferOverlap)) ?_
        fun x h1 rest => ?_
      · simp [bufferConditions, hsector i hi, hb.allocated, hinside, hoverlap]
      · have b := earlier h1
        have hearlier : lba.toNat + i ≤ diskSectors := by
          unfold diskSectors
          omega
        exact (runs_writeRange h1 rest hp rfl hb.allocated hearlier (fun j hj => hsector j (by omega)) hb.stage
          hb.scratch hb.apart b.present b.fits b.stage b.scratch).weaken fun v ⟨_, _, _, _, d⟩ => d.rest rest

end Sys2Proof.Machine
end

section
/-! SETUP (rules R222, R235, R248, R249): its first two lines, which touch CFG_SPIBASE and REG_ERR, then what Alloc answers
decides between the drive and the abnormal end X3. -/

namespace Sys2Proof.Machine

/-! ## The first two lines -/

/-- CTX.base as SETUP caches it: CFG_SPIBASE under its mask, 16 bits (rules R29, R222, R303). -/
def State.cachedBase (s : State) : BitVec 16 :=
  (clip s.cfg.spiBaseReg.width s.chip.spiBase &&& s.cfg.spiBaseMask).setWidth 16

/-- The state after SETUP's first line, SEQ past its condition and one external action. -/
def State.based (s : State) : State :=
  { s with
    ctx := { s.ctx with base := s.cachedBase }
    seq := { s.seq with pc := s.seq.pc + 1, pos := s.seq.pos + 2, word := clip s.cfg.spiBaseReg.width s.chip.spiBase }
    trace := .cfgRead s.cfg.spiBaseReg (clip s.cfg.spiBaseReg.width s.chip.spiBase) :: s.trace }

/-- The state after ERR_CLEAR has gone to REG_ERR. -/
def State.errCleared (s : State) : State :=
  { s with
    sh := { s.sh with err := s.cfg.errClear }
    seq := { s.seq with pc := s.seq.pc + 1, pos := s.seq.pos + 1 }
    trace := .portOut (s.port s.cfg.regErr) s.cfg.errClear :: s.trace }

/-- Where SETUP may start, SHIFT prompt: what rules R222 and R235 ask. -/
structure MaySetUp (s : State) : Prop where
  calm    : s.calm
  ready   : s.ctx.ready = false
  aborted : s.ctx.aborted = false
  mode    : s.ctx.mode = .isProtected
  cs      : s.sh.cs = false
  busy    : s.sh.busy = false

/-- A micro-program whose first part is known to end in `t`. -/
theorem runSeq_append_of_runs {as bs : List Micro} {s t : State} (h : Runs as s (· = t)) :
    runSeq (as ++ bs) s = runSeq bs t := by
  obtain ⟨_, hrun, rfl⟩ := h
  rw [runSeq_append, hrun, Res.andThen_go]

section
variable {s : State} (w : MaySetUp s)
include w

/-- What SEQ notes when it takes SETUP up is in nobody's way. -/
theorem MaySetUp.begin (o : Operation) : MaySetUp (s.begin o) := ⟨w.calm, w.ready, w.aborted, w.mode, w.cs, w.busy⟩

theorem MaySetUp.need : needRefusal .setup s = none := by
  simp [needRefusal, modeCsWip, w.ready, w.aborted, w.mode, w.cs]

theorem MaySetUp.runs_base : Runs [.need .setup, .readBase] s (· = s.based) := by
  refine (runs_need w.need).append (bs := [.readBase]) fun t ht => ?_
  subst ht
  exact Runs.cons (tick_calm rfl (by exact w.calm) (by exact w.busy)) (Runs.nil rfl)

theorem MaySetUp.tick_clearErr :
    tick .clearErr s.based = guardBy (portRefusal (s.based.portFits s.cfg.regErr))
      (.go ((s.based.withSh { s.sh with err := s.cfg.errClear }).saw (.portOut (s.based.port s.cfg.regErr) s.cfg.errClear))) :=
  tick_calm rfl (by exact w.calm) (by exact w.busy)

/-- The port of REG_ERR does not fit 16 bits (rules R60, R300). -/
theorem MaySetUp.runSeq_of_portRange (h : s.based.portFits s.cfg.regErr = false) :
    runSeq progSetup s = .refuse .portRange := by
  have htick : tick .clearErr s.based = .refuse .portRange := by
    rw [w.tick_clearErr, h]
    rfl
  exact (runSeq_append_of_runs (bs := [.clearErr, .alloc, .registerBoot]) w.runs_base).trans (runSeq_of_refuse htick)

/-- It does: Alloc is next. -/
theorem MaySetUp.runSeq_to_alloc (h : s.based.portFits s.cfg.regErr = true) :
    runSeq progSetup s = runSeq [.alloc, .registerBoot] s.based.errCleared := by
  have htick := w.tick_clearErr
  rw [h] at htick
  exact (runSeq_append_of_runs (bs := [.clearErr, .alloc, .registerBoot]) w.runs_base).trans
    (runSeq_append_of_runs (as := [.clearErr]) (Runs.cons htick (Runs.nil rfl)))

theorem MaySetUp.tick_alloc : tick .alloc s.based.errCleared = actAlloc s.based.errCleared :=
  tick_calm rfl (by exact w.calm) (by exact w.busy)

end

/-! ## What Alloc answers -/

/-- The scratch buffer is there, its bytes without a value, and DRIVE has its numbers. -/
theorem actAlloc_some {s : State} {q : HostAddr} {rest : List (Option HostAddr)} (h : s.env.allocs = some q :: rest) :
    actAlloc s = .go { s with
      env := { s.env with allocs := rest }
      trace := .alloc s.cfg.scratchAlign blockSize (some q) :: s.trace
      ctx := { s.ctx with scratch := some q }
      filled := { s.filled with scratch := false }
      drive := fixedGeometry s.drive.registered } := by
  unfold actAlloc
  rw [h]
  rfl

/-- Null, also where the oracle is used up: SETUP ends (rule R235; log 24). -/
theorem actAlloc_null {s : State} (h : s.env.allocs = [] ∨ ∃ rest, s.env.allocs = none :: rest) :
    actAlloc s = .stop (abortSetup { s with
      env := { s.env with allocs := s.env.allocs.tail }
      trace := .alloc s.cfg.scratchAlign blockSize none :: s.trace }) := by
  unfold actAlloc
  obtain h | ⟨rest, h⟩ := h <;> rw [h] <;> rfl

/-- Before any SETUP has completed, X3 leaves CTX.ready and DRIVE.registered at 0 (rules R235, R249). -/
theorem abortSetup_of_fresh {s : State} (hready : s.ctx.ready = false) (hdrive : s.drive.registered = false) :
    abortSetup s = { s with
      ctx := { s.ctx with ready := false, scratch := none, aborted := true }
      drive := { s.drive with registered := false } } := by
  rcases s with ⟨_, _, _, _, ⟨⟩, _, _, _, _, ⟨⟩, _⟩
  dsimp only at hready hdrive
  subst hready hdrive
  rfl

/-- Settles O47: SETUP's condition refuses it, or its lines run one after the other up to Alloc's answer. -/
theorem setupInitialises : Obligations.SetupInitialises := by
  intro s h0
  refine ⟨fun hr => ?_, fun hr ha => ?_, fun hr ha hm hcs hcalm hb => ?_⟩
  · exact launch_of_needRefusal h0 (by simp [needRefusal, hr]) _ _
  · exact launch_of_needRefusal h0 (by simp [needRefusal, hr, ha]) _ _
  · have w := (MaySetUp.mk hcalm hr ha hm hcs hb).begin (.instr .setup)
    have hexec : exec .setup s = settle (runSeq progSetup (s.begin (.instr .setup))) := if_pos h0
    rw [hexec]
    refine ⟨fun hport => ?_, fun hport => ⟨fun q rest halloc => ?_, fun hdrive halloc => ?_⟩⟩
    · rw [w.runSeq_of_portRange (decide_eq_false hport), settle]
    · rw [w.runSeq_to_alloc (decide_eq_true hport), runSeq_cons, w.tick_alloc, actAlloc_some (by exact halloc),
        Res.andThen_go, runSeq_cons, tick_calm rfl (by exact w.calm) (by exact w.busy)]
      rfl
    · rw [w.runSeq_to_alloc (decide_eq_true hport), runSeq_cons, w.tick_alloc, actAlloc_null (by exact halloc)]
      rw [Res.andThen_stop, settle, abortSetup_of_fresh (by exact hr) (by exact hdrive)]
      rfl

end Sys2Proof.Machine
end

section
/-! Where CTX.mode is switched (rules R171, R172, R261) and where abnormal end X2 stands (rules R178, R243): what the
micro-programs are made of, said once, and what follows for the places of three of their actions. -/

namespace Sys2Proof.Machine

/-! ## The place of an action -/

/-- Wherever `m` stands in `ms`, it is the last action of a `q`. -/
def OnlyEnds (m : Micro) (q ms : List Micro) : Prop :=
  ∀ before after, ms = before ++ m :: after → q <:+ before ++ [m]

section
variable {m : Micro}

theorem OnlyEnds.of_notMem {q ms : List Micro} (h : m ∉ ms) : OnlyEnds m q ms := by
  rintro before after rfl
  simp at h

/-- A sequence that has it nowhere but at its end. -/
theorem OnlyEnds.concat {init : List Micro} (h : m ∉ init) : OnlyEnds m (init ++ [m]) (init ++ [m]) := by
  intro before after e
  obtain ⟨rfl, -, -⟩ := (List.append_cons_inj_of_notMem h List.not_mem_nil).1 e
  exact List.suffix_rfl

theorem OnlyEnds.append {q ms ns : List Micro} (hm : OnlyEnds m q ms) (hn : OnlyEnds m q ns) :
    OnlyEnds m q (ms ++ ns) := by
  intro before after e
  have inSecond {c : List Micro} (hc : ns = c ++ m :: after) : q <:+ (ms ++ c) ++ [m] := by
    rw [List.append_assoc]
    exact (hn c after hc).trans (List.suffix_append _ _)
  obtain ⟨c, rfl, hc⟩ | ⟨c, rfl, hc⟩ := List.append_eq_append_iff.1 e
  · exact inSecond hc
  · cases c with
    | nil => simpa using inSecond (c := []) hc.symm
    | cons x c =>
      obtain ⟨rfl, -⟩ := List.cons.inj hc
      exact hm before c rfl

end

/-! ## What a micro-program is made of -/

/-- Neither one of the two actions that switch the mode nor the abnormal end X2. -/
def Micro.isPlain : Micro → Bool
  | .control true => false
  | .writeWp false => false
  | .rejectWrite => false
  | _ => true

/-- Made of plain actions and of whole sequences WRITABLE_ENTER and WRITABLE_EXIT. -/
inductive Bracketed : List Micro → Prop where
  | nil : Bracketed []
  | action {m : Micro} (h : m.isPlain = true) : Bracketed [m]
  | enter : Bracketed seqEnter
  | exit : Bracketed seqExit
  | append {ms ns : List Micro} (hm : Bracketed ms) (hn : Bracketed ns) : Bracketed (ms ++ ns)

theorem notMem_plain {x m : Micro} (hm : m.isPlain = true) (hx : x.isPlain = false) : x ∉ [m] := by
  rw [List.mem_singleton]
  rintro rfl
  rw [hm] at hx
  cases hx

section
variable {ms : List Micro} (h : Bracketed ms)
include h

/-- CTRL_XFER is written at the end of WRITABLE_ENTER only (rule R171). -/
theorem Bracketed.xfer_onlyEnds_enter : OnlyEnds (.control true) seqEnter ms := by
  induction h with
  | nil => exact .of_notMem List.not_mem_nil
  | action hm => exact .of_notMem (notMem_plain hm rfl)
  | enter => exact .concat (init := [.need .enter, .readWp, .writeWp true]) (by decide)
  | exit => exact .of_notMem (by decide)
  | append _ _ hm hn => exact hm.append hn

/-- WP_CLOSED is written at the end of WRITABLE_EXIT only (rule R172). -/
theorem Bracketed.lock_onlyEnds_exit : OnlyEnds (.writeWp false) seqExit ms := by
  induction h with
  | nil => exact .of_notMem List.not_mem_nil
  | action hm => exact .of_notMem (notMem_plain hm rfl)
  | enter => exact .of_notMem (by decide)
  | exit => exact .concat (init := [.need .writable, .control false, .readWp]) (by decide)
  | append _ _ hm hn => exact hm.append hn

theorem Bracketed.rejectWrite_notMem : .rejectWrite ∉ ms := by
  induction h with
  | nil => exact List.not_mem_nil
  | action hm => exact notMem_plain hm rfl
  | enter => decide
  | exit => decide
  | append _ _ hm hn => exact fun hmem => (List.mem_append.1 hmem).elim hm hn

end

/-! ## The pieces, and the operations made of them -/

/-- Decided by evaluation where the kinds of the actions are written out. -/
theorem Bracketed.of_plain {ms : List Micro} (h : ms.all Micro.isPlain = true) : Bracketed ms := by
  induction ms with
  | nil => exact .nil
  | cons m ms ih =>
    obtain ⟨hm, hms⟩ := Bool.and_eq_true_iff.1 h
    exact .append (.action hm) (ih hms)

/-- A loop adds only its marks to its body. -/
theorem Bracketed.forEach {n : Nat} {body : Nat → List Micro} (h : ∀ i, Bracketed (body i)) :
    Bracketed (forEach n body) := by
  unfold Machine.forEach iterations
  induction List.range n with
  | nil => exact .nil
  | cons i is ih => exact .append (Bracketed.of_plain rfl |>.append (h i) |>.append (.of_plain rfl)) ih

theorem bracketed_sendFrom (i : Nat) (bs : List ByteSource) : Bracketed (sendFrom i bs) := by
  induction bs generalizing i with
  | nil => exact .nil
  | cons b bs ih =>
    rw [sendFrom]
    exact .append (.of_plain rfl) (ih (i + 1))

theorem bracketed_takeForCaller (m : Nat) : Bracketed (takeForCaller m) := .forEach fun _ => .of_plain rfl

theorem Bracketed.addressedFrame {body mark : List Micro} (hmark : Bracketed mark) (hbody : Bracketed body) (k : Byte)
    (a : FlashAddr) : Bracketed (addressedFrame k a body mark) :=
  Bracketed.of_plain rfl |>.append hmark |>.append (.of_plain rfl) |>.append (.of_plain rfl) |>.append hbody
    |>.append (.of_plain rfl)

theorem Bracketed.seqModify {frame : List Micro} (h : Bracketed frame) (c : Config) (b : Nat) (more : Bool) :
    Bracketed (seqModify c b frame more) := by
  have release : Bracketed (if more then [] else [.closeBlock]) := by
    cases more with
    | true => exact .nil
    | false => exact .action rfl
  exact Bracketed.enter |>.append (.of_plain rfl) |>.append h |>.append (.action rfl) |>.append (.of_plain rfl)
    |>.append release |>.append (.of_plain rfl) |>.append .exit

theorem Bracketed.seqEraseBlock {mark : List Micro} (h : Bracketed mark) (c : Config) (a : Nat) (more : Bool) :
    Bracketed (seqEraseBlock c a mark more) := .seqModify (.addressedFrame h .nil _ _) c _ more

theorem bracketed_seqWriteData (c : Config) (a p n : Nat) (more : Bool) : Bracketed (seqWriteData c a p n more) :=
  .seqModify (.addressedFrame .nil (bracketed_sendFrom _ _) _ _) c _ more

theorem bracketed_seqReadBurst (c : Config) (a : Nat) : Bracketed (seqReadBurst c a) :=
  Bracketed.enter |>.append (.addressedFrame .nil (.forEach fun _ => .of_plain rfl) _ _) |>.append .exit
    |>.append (.action rfl)

theorem bracketed_seqReadSector (c : Config) (sector dest : Nat) : Bracketed (seqReadSector c sector dest) :=
  .forEach fun _ => (bracketed_seqReadBurst c _).append (.action rfl)

theorem bracketed_seqWriteSector (c : Config) (q sector src : Nat) : Bracketed (seqWriteSector c q sector src) := by
  have backup : Bracketed (seqBackup c (blockOf sector) q) :=
    .append (.forEach fun _ => bracketed_seqReadSector c _ _) (.action rfl)
  have erase : Bracketed (seqEraseBlock c (blockBase sector) [.openBlock (blockOf sector)] true) :=
    .seqEraseBlock (.action rfl) c _ _
  have restore : Bracketed (seqRestore c (blockBase sector) q) := .forEach fun _ => bracketed_seqWriteData c _ _ _ _
  exact backup.append (.action rfl) |>.append erase |>.append restore

theorem bracketed_checkedReadSector (s : State) (sector dest : Nat) : Bracketed (checkedReadSector s sector dest) :=
  Bracketed.of_plain (ms := [_] ++ bufferChecks s dest) rfl |>.append (bracketed_seqReadSector _ _ _)

theorem bracketed_checkedWriteSector (s : State) (sector src : Nat) : Bracketed (checkedWriteSector s sector src) :=
  Bracketed.of_plain (ms := [_, _] ++ bufferChecks s src) rfl |>.append (bracketed_seqWriteSector _ _ _ _)

theorem bracketed_progWriteSector (s : State) (sector : FlashAddr) (src : HostAddr) :
    Bracketed (progWriteSector s sector src) :=
  Bracketed.of_plain rfl |>.append (bracketed_checkedWriteSector s _ _) |>.append (.action rfl)

theorem bracketed_progDiskRead (s : State) (lba : Lba) (count : SectorCount) (buf : HostAddr) :
    Bracketed (progDiskRead s lba count buf) :=
  Bracketed.of_plain rfl |>.append (.forEach fun _ => .append (.action rfl) (bracketed_checkedReadSector s _ _))
    |>.append (.action rfl)

theorem bracketed_progDiskWrite (s : State) (lba : Lba) (count : SectorCount) (buf : HostAddr) :
    Bracketed (progDiskWrite s lba count buf) :=
  Bracketed.of_plain rfl |>.append (.forEach fun _ => .append (.action rfl) (bracketed_checkedWriteSector s _ _))
    |>.append (.action rfl)

/-- A WRITE_DATA of at most 256 bytes. -/
theorem bracketed_progWriteData (s : State) (a : FlashAddr) (p : HostAddr) {n : BitVec 9} (h : ¬ pageLimit < n.toNat) :
    Bracketed (progWriteData s a p n) := by
  rw [progWriteData, if_neg h]
  exact Bracketed.of_plain rfl |>.append (bracketed_seqWriteData s.cfg _ _ _ _) |>.append (.action rfl)

/-- Every operation, a raw frame included, but a WRITE_DATA of more than 256 bytes. -/
theorem bracketed_programOf (s : State) {o : Operation}
    (h : ∀ a p n, o = .instr (.writeData a p n) → ¬ pageLimit < n.toNat) : Bracketed (programOf s o) := by
  cases o with
  | portRead p => exact .of_plain rfl
  | rawFrame host reads =>
    exact .append (.of_plain rfl) (Bracketed.of_plain rfl |>.append (bracketed_sendFrom _ _)
      |>.append (bracketed_takeForCaller _) |>.append (.action rfl))
  | instr i =>
    cases i with
    | csEn | csDis | wrByte | rdByte | wrAddr24 | cmd1 | wren | wrdi | waitWip => exact .of_plain rfl
    | diskReset | diskVerify | diskFormat | diskUnknown | setup => exact .of_plain rfl
    | read a m => exact .append (.of_plain rfl) (.addressedFrame .nil (bracketed_takeForCaller _) _ _)
    | rdsr m =>
      exact .append (.of_plain rfl)
        (Bracketed.of_plain rfl |>.append (bracketed_takeForCaller _) |>.append (.action rfl))
    | se a => exact .addressedFrame .nil .nil _ _
    | pp a d => exact .addressedFrame .nil (bracketed_sendFrom _ _) _ _
    | writableEnter => exact .enter
    | writableExit => exact .exit
    | readByte a =>
      exact Bracketed.of_plain rfl |>.append .enter |>.append (.addressedFrame .nil (.of_plain rfl) _ _) |>.append .exit
    | readBurst a => exact .append (.of_plain rfl) (bracketed_seqReadBurst s.cfg _)
    | readSector sector dest =>
      exact Bracketed.of_plain rfl |>.append (bracketed_checkedReadSector s _ _) |>.append (.action rfl)
    | eraseBlock a => exact .append (.of_plain rfl) (.seqEraseBlock .nil s.cfg _ _)
    | writeData a p n => exact bracketed_progWriteData s a p (h a p n rfl)
    | writeSector sector src => exact bracketed_progWriteSector s sector src
    | diskRead lba count buf => exact bracketed_progDiskRead s lba count buf
    | diskWrite lba count buf => exact bracketed_progDiskWrite s lba count buf

/-! ## The switches of CTX.mode -/

/-- A WRITE_DATA of more than 256 bytes touches no hardware, so it switches nothing either. -/
theorem onlyEnds_programOf_of_long {m : Micro} (hm : m ∉ [.need .admitted, .rejectWrite]) (q : List Micro) (s : State)
    (a : FlashAddr) (p : HostAddr) {n : BitVec 9} (h : 256 < n.toNat) :
    OnlyEnds m q (programOf s (.instr (.writeData a p n))) := by
  have hprog : programOf s (.instr (.writeData a p n)) = [.need .admitted, .rejectWrite] :=
    progWriteData_of_long s a p h
  rw [hprog]
  exact .of_notMem hm

theorem programOf_onlyEnds (s : State) (o : Operation) :
    OnlyEnds (.control true) seqEnter (programOf s o) ∧ OnlyEnds (.writeWp false) seqExit (programOf s o) := by
  by_cases hlong : ∃ a p n, o = .instr (.writeData a p n) ∧ pageLimit < n.toNat
  · obtain ⟨a, p, n, rfl, h⟩ := hlong
    exact ⟨onlyEnds_programOf_of_long (by decide) _ s a p h, onlyEnds_programOf_of_long (by decide) _ s a p h⟩
  · have hb : Bracketed (programOf s o) := bracketed_programOf s fun a p n ho h => hlong ⟨a, p, n, ho, h⟩
    exact ⟨hb.xfer_onlyEnds_enter, hb.lock_onlyEnds_exit⟩

/-- Settles O12: of the actions by what each leaves alone, of their places by what every micro-program is made of. -/
theorem modeChangesOnlyByEnterAndExit : Obligations.ModeChangesOnlyByEnterAndExit := by
  refine ⟨fun m s t ht hne => ?_, fun s o before after => ⟨fun hprog => ?_, fun hprog => ?_⟩⟩
  · exact (tick_frame m s t ht).mode.resolve_left hne
  · obtain ⟨l, hl⟩ := (programOf_onlyEnds s o).1 before after hprog
    exact ⟨l, hl.symm⟩
  · obtain ⟨l, hl⟩ := (programOf_onlyEnds s o).2 before after hprog
    exact ⟨l, hl.symm⟩

/-! ## Abnormal end X2 -/

/-- A stated condition that holds changes nothing. -/
theorem runs_need_quiet {n : Need} {s : State} (h : needRefusal n s = none) : Runs [.need n] s (Quiet s) :=
  (runs_need h).weaken fun t ht => by subst ht; exact (Quiet.refl s).advance _

/-- Settles O36: admission, then the abnormal end X2; WRITE_SECTOR and DISK_WRITE have no action that is X2. -/
theorem writeDataRejectsLongRequests : Obligations.WriteDataRejectsLongRequests := by
  refine ⟨fun s a p n h0 hready hquiet hn => ?_,
    fun s sector src => (bracketed_progWriteSector s sector src).rejectWrite_notMem,
    fun s lba count buf => (bracketed_progDiskWrite s lba count buf).rejectWrite_notMem⟩
  have hneed : needRefusal .admitted (s.begin (.instr (.writeData a p n))) = none := by
    rw [needRefusal_begin]
    simp [needRefusal, readyAnd, hready, hquiet]
  calc exec (.writeData a p n) s
      = launch (.instr (.writeData a p n)) (progWriteData s a p n) s := rfl
    _ = launch (.instr (.writeData a p n)) ([.need .admitted] ++ [.rejectWrite]) s := by
      rw [progWriteData_of_long s a p hn]
    _ = .next (rejectWriteData (s.begin (.instr (.writeData a p n)))).finish :=
      launch_of_quiet h0 (runs_need_quiet hneed) (fun _ => rfl) fun t u h => by unfold Quiet at h; rw [h]; rfl

end Sys2Proof.Machine
end

section
/-! What a hardware reset keeps and what it loses (rules R43, R208, R271, R287): the device and CFG_WP after it, by whether
an erase or program is cut short. And the hazard of rule R289: no operation begins while another is in progress. -/

namespace Sys2Proof.Machine

/-! ## One operation at a time -/

/-- Settles O49: every operation is a launch, and putting the OP record down leaves SEQ alone. -/
theorem noOperationBeginsWhileAnotherRuns : Obligations.NoOperationBeginsWhileAnotherRuns := by
  intro s i hbusy
  obtain ⟨x, hlaunch⟩ := exec_launches i s
  have hbusy' : (s.withOp x).seq.op ≠ none := hbusy
  rw [hlaunch, launch_of_busy hbusy']

/-! ## The managed bits of CFG_WP -/

theorem wpValue_clip (c : Config) (w : BitVec 32) (unlock : Bool) :
    wpValue c (clip c.wpReg.width w) unlock = wpValue c w unlock := by
  unfold wpValue
  ext i hi
  cases hin : decide (i < c.wpReg.width) <;> simp [hin]

theorem clip_wpValue (c : Config) (w : BitVec 32) (unlock : Bool) :
    clip c.wpReg.width (wpValue c w unlock) = wpValue c w unlock := clip_clip _ _

/-- What is written back to CFG_WP shows WP_OPEN or WP_CLOSED under the mask, whatever was read (rules R30, R303). -/
theorem wpValue_managed {c : Config} (hok : c.ok = true) (w : BitVec 32) (unlock : Bool) :
    wpValue c w unlock &&& c.wpMask = if unlock then c.wpOpen else c.wpClosed := by
  obtain ⟨-, hopen, hclosed, hmask⟩ := Config.ok_wp hok
  rw [← clip_wpValue, ← wpValue_clip]
  cases unlock with
  | true => exact managed_bits hmask hopen
  | false => exact managed_bits hmask hclosed

/-! ## The device and CFG_WP after a reset -/

section
variable {s : State}

theorem deviceAfterReset_of_uncut (h : interruptedBlock s = none) :
    deviceAfterReset s = { s.fl with wel := false, wip := false, phase := .idle, pending := .none } := by
  simp [deviceAfterReset, h]

theorem deviceAfterReset_of_cut {b : Nat} (h : interruptedBlock s = some b) :
    deviceAfterReset s = { s.fl.cutShort s.cfg s.draws b ((s.drawn 4224).getLsbD 0) with phase := .idle } := by
  simp [deviceAfterReset, h]

theorem deviceAfterReset_phase (s : State) : (deviceAfterReset s).phase = .idle := by
  unfold deviceAfterReset
  split <;> rfl

theorem wpAfterReset_of_uncut (h : interruptedBlock s = none) : wpAfterReset s = wpValue s.cfg s.chip.wp false := by
  simp [wpAfterReset, h]

/-- The one block that a cut loses (rules R208, R287). -/
theorem Flash.cutShort_sameOutside (c : Config) (k b : Nat) (busy : Bool) (f : Flash) :
    Memory.SameOutside (blockSize * b) blockSize f.mem (f.cutShort c k b busy).mem := by
  have hs := Memory.splice_sameOutside f.mem (blockSize * b) (freeList k blockSize)
  rwa [freeList_length] at hs

/-! ## The state after a reset -/

@[simp] theorem hardReset_fl (s : State) : (hardReset s).fl = deviceAfterReset s := rfl
@[simp] theorem hardReset_wp (s : State) : (hardReset s).chip.wp = wpAfterReset s := rfl
@[simp] theorem hardReset_cfg (s : State) : (hardReset s).cfg = s.cfg := rfl
@[simp] theorem hardReset_mode (s : State) : (hardReset s).ctx.mode = .isProtected := rfl
@[simp] theorem hardReset_cs (s : State) : (hardReset s).sh.cs = false := rfl
@[simp] theorem hardReset_busy (s : State) : (hardReset s).sh.busy = false := rfl
@[simp] theorem hardReset_ctrl (s : State) : (hardReset s).sh.ctrl = s.cfg.ctrlIdle := rfl

theorem hardReset_managedBits_closed (hok : s.cfg.ok = true) (h : interruptedBlock s = none) :
    (hardReset s).chip.wp &&& s.cfg.wpMask = s.cfg.wpClosed := by
  rw [hardReset_wp, wpAfterReset_of_uncut h]
  exact wpValue_managed hok s.chip.wp false

theorem hardReset_managedBits (hok : s.cfg.ok = true) : (hardReset s).chip.wp &&& s.cfg.wpMask = s.cfg.wpClosed
    ∨ (hardReset s).chip.wp &&& s.cfg.wpMask = s.cfg.wpOpen := by
  rw [hardReset_wp, wpAfterReset, wpValue_managed hok]
  split
  · exact .inr rfl
  · exact .inl rfl

/-- The managed bits are WP_CLOSED, so the flash is locked: WP_OPEN is another value (rule R30). -/
theorem hardReset_locked (hok : s.cfg.ok = true) (h : interruptedBlock s = none) :
    (hardReset s).unlocked = false := by
  have hclip : clip s.cfg.wpReg.width (hardReset s).chip.wp = (hardReset s).chip.wp := clip_wpValue _ _ _
  rw [State.unlocked, hardReset_cfg, hclip, hardReset_managedBits_closed hok h, beq_eq_false_iff_ne]
  exact (Config.ok_wp hok).1.symm

/-- Where nothing is cut short, the quiescent invariant holds after a reset (rules R45, R271). -/
theorem hardReset_quiescent (hok : s.cfg.ok = true) (h : interruptedBlock s = none) :
    (hardReset s).quiescent = true := by
  simp [State.quiescent, hardReset_locked hok h, deviceAfterReset_of_uncut h]

/-- What a reset leaves where no erase or program is cut short (rules R34, R43, R271). -/
theorem hardReset_uncut (hok : s.cfg.ok = true) (h : interruptedBlock s = none) :
    (hardReset s).fl.mem = s.fl.mem ∧ (hardReset s).fl.wel = false ∧ (hardReset s).fl.wip = false
      ∧ (hardReset s).fl.pending = .none ∧ (hardReset s).chip.wp &&& s.cfg.wpMask = s.cfg.wpClosed
      ∧ (hardReset s).quiescent = true := by
  obtain ⟨-, -, -, -, hwip, hpending, hwel, -, -⟩ := quiescent_fields (hardReset_quiescent hok h)
  have hmem : (hardReset s).fl.mem = s.fl.mem := by rw [hardReset_fl, deviceAfterReset_of_uncut h]
  exact ⟨hmem, hwel, hwip, hpending, hardReset_managedBits_closed hok h, hardReset_quiescent hok h⟩

/-- What a reset leaves where the erase or program of a block is cut short (rules R208, R287). -/
theorem hardReset_cut {b : Nat} (hok : s.cfg.ok = true) (h : interruptedBlock s = some b) :
    Memory.SameOutside (blockSize * b) blockSize s.fl.mem (hardReset s).fl.mem
      ∧ ((hardReset s).fl.wip = true ↔ (hardReset s).fl.pending ≠ .none)
      ∧ ((hardReset s).chip.wp &&& s.cfg.wpMask = s.cfg.wpClosed
        ∨ (hardReset s).chip.wp &&& s.cfg.wpMask = s.cfg.wpOpen) := by
  obtain ⟨-, hwip, -⟩ := Flash.cutShort_keeps s.cfg s.draws b ((s.drawn 4224).getLsbD 0) s.fl
  have hmem := Flash.cutShort_sameOutside s.cfg s.draws b ((s.drawn 4224).getLsbD 0) s.fl
  rw [hardReset_fl, deviceAfterReset_of_cut h]
  exact ⟨hmem, hwip, hardReset_managedBits hok⟩

end

/-- Settles O14: a reset at the head of the queue is the whole step; what it leaves is then read off `hardReset`, and for
the device and CFG_WP by whether a block is cut short. Taking the reset off the queue changes neither the parameters nor
the block that is cut short. -/
theorem hardwareReset : Obligations.HardwareReset := by
  intro s rest hin hok
  have hphase : (hardReset (s.withInputs rest)).fl.phase = .idle := deviceAfterReset_phase _
  exact ⟨hardReset (s.withInputs rest), step_of_reset hin, rfl, rfl, rfl, rfl, rfl, rfl, rfl, rfl, rfl, rfl, rfl, hphase,
    rfl, hardReset_uncut hok, fun _ => hardReset_cut hok⟩

end Sys2Proof.Machine
end
